-- ==== Sys2Proof/Word.lean ====
section
/-! DEFINITION. The words the spec treats as bits: bytes on a link, node ids and client addresses. Every count, time,
level and score is a `Nat` or an `Int`, since the spec only adds, compares and saturates them. -/

namespace Sys2Proof

/-- One byte of a frame, a request, a response or a flash block. -/
abbrev Byte := BitVec 8

/-- A 16-bit node identity. Valid ids are 0x0001 to 0xFFFE; 0xFFFF names all nodes (Table 0.3). -/
abbrev NodeId := BitVec 16

/-- The 48-bit radio address of a client device (Table 0.3); 0 names no client. -/
abbrev ClientAddr := BitVec 48

/-- The destination that means all nodes (Table 0.3). -/
abbrev allNodes : NodeId := 0xFFFF#16

end Sys2Proof
end

