-- ==== Sys2Proof/Syntax.lean ====
section
/-! DEFINITION. The commands of the part: one constructor for each row of spec/opcode_table.json, in the table's order,
with the operands the spec's rules give the event (DEDUCED, unsafe: log entry 6). Frames and requests carry raw body bytes, so that the formats of
section 12.6 are the model's to read; radio reports have no byte format in the spec and carry their content. -/

namespace Sys2Proof

/-- A frame as the transceiver delivers it, less the kind code, which the row fixes, and the body length field, which is
the length of `body` (Table 12.5). `check` is the check value carried. -/
structure RxFrame where
  src : NodeId
  dst : NodeId
  body : List Byte
  check : Nat
deriving DecidableEq, Repr

/-- The class a BURST-REQUEST names (R16). -/
inductive BurstClass where
  | game
  | normal
deriving DecidableEq, Repr

/-- The cause a DISASSOC report carries (Table 4.1). `other` is any code that is none of the four, which R51 discards. -/
inductive RadioCause where
  | left
  | steered
  | kicked
  | timeout
  | other (code : Nat)
deriving DecidableEq, Repr

/-- The five counts of a TRAFFIC report (Table 9.1). -/
structure TrafficCounts where
  packetsUp : Nat
  packetsDown : Nat
  smallUp : Nat
  smallDown : Nat
  bytes : Nat
deriving DecidableEq, Repr

/-- The sixteen blocks of Table 0.2, each of which takes the restart notice as its own event (R162). -/
inductive Block where
  | bcu | nbt | mtb | crg | rse | hoc | pst | seu | gtm | ims | icu | rli | lpi | evq | frc | flp
deriving DecidableEq, Repr

/-- The commands: operations and events of the part. -/
inductive Instr where
  | fullReset
  | tick
  | wallStateNotice
  | configReadComplete (data : List Byte)
  | flashOperationBegin
  | flashOperationDeadline
  | policyImageReadComplete (data : List Byte)
  | policyWriteComplete
  | chunkProgramComplete
  | verifyReadComplete (data : List Byte)
  | serveReadComplete (data : List Byte)
  | patrolReadComplete (data : List Byte)
  | headBlockReadComplete (data : List Byte)
  | scanReadComplete (data : List Byte)
  | headBlockWriteComplete
  | beacon (link : NodeId) (f : RxFrame)
  | sightings (link : NodeId) (f : RxFrame)
  | claim (link : NodeId) (f : RxFrame)
  | grant (link : NodeId) (f : RxFrame)
  | refuse (link : NodeId) (f : RxFrame)
  | cancel (link : NodeId) (f : RxFrame)
  | served (link : NodeId) (f : RxFrame)
  | policyList (link : NodeId) (f : RxFrame)
  | policyGet (link : NodeId) (f : RxFrame)
  | policyRecord (link : NodeId) (f : RxFrame)
  | headGet (link : NodeId) (f : RxFrame)
  | head (link : NodeId) (f : RxFrame)
  | fetch (link : NodeId) (f : RxFrame)
  | chunk (link : NodeId) (f : RxFrame)
  | mediumIdle
  | mediumBusy
  | idleSlot
  | sentClean
  | sentCollided
  | burstRequest (cls : BurstClass) (handle : Nat)
  | creditRefillExpiry
  | yieldBeginBcu
  | yieldEndBcu
  | yieldBeginIms
  | yieldEndIms
  | admitQuery (radio : Nat) (client : ClientAddr)
  | assoc (radio : Nat) (client : ClientAddr)
  | disassoc (radio : Nat) (client : ClientAddr) (cause : RadioCause)
  | sight (radio : Nat) (client : ClientAddr) (level : Int)
  | traffic (radio : Nat) (client : ClientAddr) (counts : TrafficCounts)
  | airtime (radio : Nat) (percent : Nat)
  | taken (radio : Nat)
  | status (body : List Byte)
  | eventRead (body : List Byte)
  | policySubmit (body : List Byte)
  | policyRead (body : List Byte)
  | clientRead (body : List Byte)
  | neighbourRead (body : List Byte)
  | headSubmit (body : List Byte)
  | chunkSubmit (body : List Byte)
  | imageInstalled (body : List Byte)
  | faultRead (body : List Byte)
  | faultClear (body : List Byte)
  | restart (body : List Byte)
  | restartNotice (block : Block)
  | responseRead
  | beaconDueExpiry (slot : Nat)
  | beaconBuildExpiry
  | clashHoldoffExpiry
  | policyListGuardExpiry (slot : Nat)
  | admitPendingExpiry (record : Nat)
  | remoteDeadlineExpiry (record : Nat)
  | removalDeadlineExpiry (record : Nat)
  | sightingsBuildExpiry
  | evaluationExpiry
  | claimHoldoffExpiry (record : Nat)
  | claimantContextExpiry (slot : Nat)
  | releaseDeadlineExpiry (record : Nat)
  | persistDeadlineExpiry
  | fetchDeadlineExpiry (slot : Nat)
  | halvingDeadlineExpiry
  | patrolDeadlineExpiry
  | retryHoldoffExpiry
  | drainDeadlineExpiry
  | rewriteDeadlineExpiry
  | resetAsserted
  | badFrameReceived (link : NodeId) (bytes : List Byte)
  | unknownRequest (kind : Byte) (body : List Byte)
deriving DecidableEq, Repr

end Sys2Proof
end

