-- ==== Sys2Proof/WellFormed.lean ====
section
/-! DEFINITION. Which commands a partner of the part can give: the ranges that the interfaces and the tables of the spec
put on each operand. `exec` is total and does not rely on it; statements may. -/

namespace Sys2Proof

/-- A link index of the three radio links (Table 0.1). -/
def wellFormedRadio (r : Nat) : Bool := decide (r < 3)

/-- A frame's length field is 16 bits and its check value 32 bits (Table 12.5). -/
def wellFormedFrame (f : RxFrame) : Bool := decide (f.body.length < 2 ^ 16) && decide (f.check < 2 ^ 32)

/-- A request's body length field is 16 bits (Table 12.13). -/
def wellFormedBody (b : List Byte) : Bool := decide (b.length < 2 ^ 16)

/-- A read yields one 4096-byte flash block (R147, R135). -/
def wellFormedBlock (d : List Byte) : Bool := decide (d.length = 4096)

/-- The ranges of Table 9.1. -/
def wellFormedTraffic (c : TrafficCounts) : Bool :=
  decide (c.packetsUp < 2 ^ 16) && decide (c.packetsDown < 2 ^ 16) && decide (c.smallUp < 2 ^ 16) &&
    decide (c.smallDown < 2 ^ 16) && decide (c.bytes < 2 ^ 32)

/-- An `other` cause is not one of the four causes in disguise (codes 1 to 4 of section 12.6). -/
def wellFormedCause : RadioCause → Bool
  | .other code => decide (code = 0 ∨ 4 < code)
  | .left => true
  | .steered => true
  | .kicked => true
  | .timeout => true

/-- Whether the operands of a command lie in the ranges its interface gives them. -/
def WellFormed : Instr → Bool
  | .fullReset => true
  | .tick => true
  | .wallStateNotice => true
  | .configReadComplete d => wellFormedBlock d
  | .flashOperationBegin => true
  | .flashOperationDeadline => true
  | .policyImageReadComplete d => wellFormedBlock d
  | .policyWriteComplete => true
  | .chunkProgramComplete => true
  | .verifyReadComplete d => wellFormedBlock d
  | .serveReadComplete d => wellFormedBlock d
  | .patrolReadComplete d => wellFormedBlock d
  | .headBlockReadComplete d => wellFormedBlock d
  | .scanReadComplete d => wellFormedBlock d
  | .headBlockWriteComplete => true
  | .beacon _ f => wellFormedFrame f
  | .sightings _ f => wellFormedFrame f
  | .claim _ f => wellFormedFrame f
  | .grant _ f => wellFormedFrame f
  | .refuse _ f => wellFormedFrame f
  | .cancel _ f => wellFormedFrame f
  | .served _ f => wellFormedFrame f
  | .policyList _ f => wellFormedFrame f
  | .policyGet _ f => wellFormedFrame f
  | .policyRecord _ f => wellFormedFrame f
  | .headGet _ f => wellFormedFrame f
  | .head _ f => wellFormedFrame f
  | .fetch _ f => wellFormedFrame f
  | .chunk _ f => wellFormedFrame f
  | .mediumIdle => true
  | .mediumBusy => true
  | .idleSlot => true
  | .sentClean => true
  | .sentCollided => true
  | .burstRequest _ _ => true
  | .creditRefillExpiry => true
  | .yieldBeginBcu => true
  | .yieldEndBcu => true
  | .yieldBeginIms => true
  | .yieldEndIms => true
  | .admitQuery r _ => wellFormedRadio r
  | .assoc r _ => wellFormedRadio r
  | .disassoc r _ c => wellFormedRadio r && wellFormedCause c
  | .sight r _ _ => wellFormedRadio r
  | .traffic r _ c => wellFormedRadio r && wellFormedTraffic c
  | .airtime r _ => wellFormedRadio r
  | .taken r => wellFormedRadio r
  | .status b => wellFormedBody b
  | .eventRead b => wellFormedBody b
  | .policySubmit b => wellFormedBody b
  | .policyRead b => wellFormedBody b
  | .clientRead b => wellFormedBody b
  | .neighbourRead b => wellFormedBody b
  | .headSubmit b => wellFormedBody b
  | .chunkSubmit b => wellFormedBody b
  | .imageInstalled b => wellFormedBody b
  | .faultRead b => wellFormedBody b
  | .faultClear b => wellFormedBody b
  | .restart b => wellFormedBody b
  | .restartNotice _ => true
  | .responseRead => true
  | .beaconDueExpiry i => decide (i < 8)
  | .beaconBuildExpiry => true
  | .clashHoldoffExpiry => true
  | .policyListGuardExpiry i => decide (i < 8)
  | .admitPendingExpiry i => decide (i < 64)
  | .remoteDeadlineExpiry i => decide (i < 64)
  | .removalDeadlineExpiry i => decide (i < 64)
  | .sightingsBuildExpiry => true
  | .evaluationExpiry => true
  | .claimHoldoffExpiry i => decide (i < 64)
  | .claimantContextExpiry i => decide (i < 4)
  | .releaseDeadlineExpiry i => decide (i < 64)
  | .persistDeadlineExpiry => true
  | .fetchDeadlineExpiry i => decide (i < 4)
  | .halvingDeadlineExpiry => true
  | .patrolDeadlineExpiry => true
  | .retryHoldoffExpiry => true
  | .drainDeadlineExpiry => true
  | .rewriteDeadlineExpiry => true
  | .resetAsserted => true
  | .badFrameReceived _ b => decide (b.length < 2 ^ 16 + 11)
  | .unknownRequest _ b => wellFormedBody b

end Sys2Proof
end

