-- ==== Sys2Proof/Decode.lean ====
section
/-! DEFINITION. The opcode table gives bits for none of its rows (98_reader.md: 0 rows with fixed bits, 0 with fields):
the part has no instruction words, it takes commands from its interfaces. So no word spells a command. The byte layouts
that the spec does give (frames, requests, flash blocks) are read in Sys2Proof/Machine/Formats.lean. DEDUCED, safe:
log entry 6. -/

namespace Sys2Proof

/-- The command a word spells by the table's bits: none, for every word, since no row of the table has bits. -/
def decodeTableWord (_nbits _w : Nat) : Option Instr := none

end Sys2Proof
end

