-- ==== Sys2Proof/Machine/Bytes.lean ====
section
/-! DEFINITION. Bytes: fields sent most significant byte first, two's complement, and the two check values (R167). The
CRC loops match on the running value at each byte, which changes nothing and lets the kernel evaluate them. -/

namespace Sys2Proof.Machine

open Sys2Proof

/-- The low `n` bytes of `v`, most significant first (R167). -/
def be : Nat → Nat → List Byte
  | 0, _ => []
  | n + 1, v => BitVec.ofNat 8 (v / 2 ^ (8 * n)) :: be n v

/-- The low `n` bytes of `v`, least significant first: how a CRC-32 is sent (R167). DEDUCED, unsafe: log
entry 17. -/
def le : Nat → Nat → List Byte
  | 0, _ => []
  | n + 1, v => BitVec.ofNat 8 v :: le n (v / 256)

/-- The value of bytes sent most significant first. -/
def ofBe (b : List Byte) : Nat := b.foldl (fun acc x => acc * 256 + x.toNat) 0

/-- The value of bytes sent least significant first. -/
def ofLe (b : List Byte) : Nat := b.foldr (fun x acc => x.toNat + 256 * acc) 0

/-- The field of `len` bytes at offset `off`, most significant byte first. -/
def fieldAt (b : List Byte) (off len : Nat) : Nat := ofBe ((b.drop off).take len)

/-- The check value of 4 bytes at offset `off`, least significant byte first. -/
def checkAt (b : List Byte) (off : Nat) : Nat := ofLe ((b.drop off).take 4)

/-- The byte at offset `off`. -/
def byteAt (b : List Byte) (off : Nat) : Nat := fieldAt b off 1

/-- Whether bit `i` of the flags byte at offset `off` is set; bit 0 is the least significant (R167). -/
def flagAt (b : List Byte) (off i : Nat) : Bool := (byteAt b off).testBit i

/-- A signed 16-bit value in two's complement (R167). -/
def signed16 (v : Nat) : Int := if v < 2 ^ 15 then (v : Int) else (v : Int) - 2 ^ 16

/-- The two bytes of a signed 16-bit value (R167). -/
def beSigned (x : Int) : List Byte := be 2 (x % 2 ^ 16).toNat

/-- The byte of flags, the first in bit 0. -/
def flagsByte (fs : List Bool) : List Byte := be 1 (fs.foldr (fun f acc => f.toNat + 2 * acc) 0)

/-- `n` shifts of the reflected CRC-32 register (polynomial 0x04C11DB7, reflected 0xEDB88320). -/
def crc32Bits : Nat → Nat → Nat
  | 0, c => c
  | n + 1, c => crc32Bits n ((c / 2) ^^^ (c % 2 * 0xEDB88320))

/-- The CRC-32 register after each byte in turn. -/
def crc32Fold : List Byte → Nat → Nat
  | [], c => c
  | b :: bs, c =>
    match crc32Bits 8 (c ^^^ b.toNat) with
    | 0 => crc32Fold bs 0
    | n + 1 => crc32Fold bs (n + 1)

/-- The CRC-32 of R167: initial value 0xFFFFFFFF, reflected input and output, inverted result. -/
def crc32 (b : List Byte) : Nat := crc32Fold b 0xFFFFFFFF ^^^ 0xFFFFFFFF

/-- `n` shifts of the CRC-16 register (polynomial 0x1021, not reflected). -/
def crc16Bits : Nat → Nat → Nat
  | 0, c => c
  | n + 1, c => crc16Bits n (((c * 2) % 2 ^ 16) ^^^ (c / 2 ^ 15 * 0x1021))

/-- The CRC-16 register after each byte in turn. -/
def crc16Fold : List Byte → Nat → Nat
  | [], c => c
  | b :: bs, c =>
    match crc16Bits 8 (c ^^^ (b.toNat * 256)) with
    | 0 => crc16Fold bs 0
    | n + 1 => crc16Fold bs (n + 1)

/-- The CRC-16 of R167: initial value 0xFFFF, not reflected, no final inversion. -/
def crc16 (b : List Byte) : Nat := crc16Fold b 0xFFFF

end Sys2Proof.Machine
end

