-- ==== Sys2Proof/Config.lean ====
section
/-! DEFINITION. The free values: constants without a body for what the spec leaves open. Nothing in Lean can evaluate
one, so whatever is proved of the model holds for every value of each. What a node's configuration block selects is
state (`Machine.Configuration`), since the part reads it from flash after each full reset. -/

namespace Sys2Proof.Config

/-- The part's random source (R10, R36): the n-th draw before it is reduced to its range. The spec says only that each
draw is uniform over its range and independent of the others; `Machine.State.drawUpTo` keeps the range. DESIGN CHOICE, safe: log entry 1. -/
opaque draw : Nat → Nat

/-- What a 5-byte time field reads for a deadline beyond 2^40 − 1. R43 lets such a deadline stand; Tables 12.15 to 12.17
give its field 40 bits and no value. DESIGN CHOICE, safe: log entry 2. -/
opaque lateDeadline : Nat → Nat

/-- The image id and version that a beacon carries in image state FAULT while no head is held; R37 gives 0 for EMPTY
alone. DESIGN CHOICE, safe: log entry 3. -/
opaque headlessImageId : Nat
@[inherit_doc headlessImageId] opaque headlessImageVersion : Nat

/-- The bytes a read yields when the completion given for it carries none (R147 takes any completion as the running
operation's). The argument is the state's draw counter. DESIGN CHOICE, safe: log entry 4. -/
opaque strayRead : Nat → List Byte

end Sys2Proof.Config
end

