-- ==== Sys2Proof/Machine/State.lean ====
section
/-! DEFINITION. The state of the part, block by block (Table 0.2), as plain data, and the state right after a full reset.
A deadline is an absolute mesh-time value; `none` is a deadline that is not held, or a hold-off that has lapsed (R43).
An expiry is due while its deadline is at or before the present mesh time and is taken by its own command. -/

namespace Sys2Proof.Machine

open Sys2Proof

/-! ## Run state and configuration -/

/-- Whether the part is held by RESET, waits for its configuration read, runs, or is in CONFIG-HALT (R160, R161). -/
inductive RunState where
  | resetHeld
  | starting
  | running
  | configHalt
deriving DecidableEq, Repr

/-- The fields of the configuration block as read (Table 12.1, Table 12.11). -/
structure Configuration where
  nodeId : NodeId
  radioCount : Nat
  kCode : Nat
  marginCode : Nat
  nConf : Nat
  beaconCode : Nat
  errorCode : Nat
  creditCode : Nat
  gameCode : Nat
  drainCode : Nat
  flashCode : Nat
deriving DecidableEq, Repr

/-! ## Backhaul Channel Unit (chapter 1) -/

/-- The frame kinds of Table 1.1. -/
inductive FrameKind where
  | beacon | sightings | claim | grant | refuse | cancel | served
  | policyList | policyGet | policyRecord | headGet | head | fetch | chunk
deriving DecidableEq, Repr

/-- A frame the BCU has built (R1). -/
structure TxFrame where
  kind : FrameKind
  src : NodeId
  dst : NodeId
  body : List Byte
  check : Nat
deriving DecidableEq, Repr

/-- The access classes of Table 1.4. -/
inductive AccessClass where
  | control | game | normal | bulk
deriving DecidableEq, Repr

/-- The medium state of R7. -/
inductive Medium where
  | idle
  | busy
deriving DecidableEq, Repr

/-- The contention state of one access class (R8). `backoff = none` is an absent backoff count. -/
structure Contention where
  window : Nat
  retry : Nat
  deferral : Nat
  backoff : Option Nat
deriving DecidableEq, Repr

/-- A chunk of an update image: data chunk k or index chunk i (R134). -/
inductive ChunkRef where
  | data (k : Nat)
  | index (i : Nat)
deriving DecidableEq, Repr

/-- A place of the bulk queue: a reservation for a chunk to be served to a peer, or a built frame (R15). -/
inductive BulkPlace where
  | reserved (peer : NodeId) (chunk : ChunkRef)
  | filled (f : TxFrame)
deriving DecidableEq, Repr

/-- One kept AIRTIME value and the mesh time of its arrival (R20). -/
structure AirtimeValue where
  percent : Nat
  arrival : Nat
deriving DecidableEq, Repr

structure Bcu where
  badFrames : Nat
  nonMember : Nat
  controlDrops : Nat
  ownDrops : Nat
  duplicateRequests : Nat
  medium : Medium
  /-- The class whose transmission is in flight (R7). -/
  inFlight : Option AccessClass
  controlQueue : List TxFrame
  bulkQueue : List BulkPlace
  gameSlot : Option Nat
  normalSlot : Option Nat
  /-- The request in the GAME slot is demoted (R18). -/
  demoted : Bool
  controlState : Contention
  gameState : Contention
  normalState : Contention
  bulkState : Contention
  credit : Nat
  refillDeadline : Option Nat
  /-- The yield condition as the BCU has been notified of it (R19). -/
  yielding : Bool
  /-- Per radio, oldest first (R20). -/
  airtime : List (List AirtimeValue)
deriving DecidableEq, Repr

/-! ## Neighbour Table (chapter 2) -/

/-- The link states of Table 2.1. -/
inductive LinkState where
  | heard | active | failing
deriving DecidableEq, Repr

/-- The image states of Table 10.3. -/
inductive ImageState where
  | empty | indexing | fetching | complete | fault
deriving DecidableEq, Repr

/-- The install states of R149. -/
inductive InstallState where
  | idle | intent | draining | staged | done
deriving DecidableEq, Repr

/-- The advertised values of Table 2.2. -/
structure Advertised where
  load : Nat
  gameActive : Bool
  drainIntent : Bool
  clockValid : Bool
  install : InstallState
  image : ImageState
  imageId : Nat
  imageVersion : Nat
  segments : BitVec 32
  digest : Nat
  servedCount : Nat
deriving DecidableEq, Repr

/-- A neighbour entry (Table 2.1). -/
structure Entry where
  id : NodeId
  link : LinkState
  joinCount : Nat
  missCount : Nat
  badFrames : Nat
  goodRun : Nat
  dueDeadline : Nat
  sinceWindow : Nat
  adv : Advertised
  fetchFails : Nat
  listGuard : Option Nat
  answered : Bool
deriving DecidableEq, Repr

structure Nbt where
  /-- Eight slots (R22). -/
  entries : List (Option Entry)
  clashHoldoff : Option Nat
  tableFull : Nat
  buildDeadline : Option Nat
deriving DecidableEq, Repr

/-! ## Mesh Timebase (chapter 3) -/

structure Mtb where
  /-- 0..31 (R39). -/
  divider : Nat
  /-- 0..2^40 − 1 (R39). -/
  meshTime : Nat
  synced : Bool
  /-- The last notified wall state: INVALID, or a wall minute (R48). -/
  lastNotified : Option Nat
deriving DecidableEq, Repr

/-! ## Client Register and Radio Link Interface (chapter 4) -/

/-- The serving states of Table 4.3. -/
inductive Serving where
  | served (radio : Nat)
  | remote (server : NodeId)
  | unseen
deriving DecidableEq, Repr

/-- A peer report (R63). -/
structure PeerReport where
  peer : NodeId
  level : Int
  served : Bool
  game : Bool
  time : Nat
deriving DecidableEq, Repr

/-- A SERVER-RELEASING context held in a record (R83). -/
structure ReleaseContext where
  claimant : NodeId
  seq : Nat
  deadline : Nat
deriving DecidableEq, Repr

/-- The classes of a client (Table 4.3). -/
inductive ClientClass where
  | auto | game | noGame
deriving DecidableEq, Repr

/-- The effective state of a client record (R112). -/
inductive Effective where
  | open
  | capped (code : Nat)
  | paused
deriving DecidableEq, Repr

/-- GAME or NORMAL priority (R127). -/
inductive Priority where
  | normal
  | game
deriving DecidableEq, Repr

/-- A pending directive of the control family (Table 4.2). -/
inductive ControlDirective where
  | steer (target : NodeId)
  | disconnect
deriving DecidableEq, Repr

/-- A pending directive of the enforcement family (Table 4.2). `cap 0` is CAP (none). -/
inductive EnforcementDirective where
  | pause
  | resume
  | cap (code : Nat)
deriving DecidableEq, Repr

/-- A directive as sent to a radio (Table 4.2). -/
inductive Directive where
  | control (client : ClientAddr) (d : ControlDirective)
  | enforcement (client : ClientAddr) (d : EnforcementDirective)
  | priority (client : ClientAddr) (p : Priority)
deriving DecidableEq, Repr

/-- A client record (Table 4.3, with the carried pause-until of R85, the directed priority of R127 and the value the
radio holds of R118). -/
structure ClientRecord where
  addr : ClientAddr
  serving : Serving
  /-- The admit-pending deadline, held exactly while the admit-pending flag is set (R57). -/
  admitPending : Option Nat
  localLevel : Option Int
  sightTime : Option Nat
  reports : List PeerReport
  epoch : Nat
  confirm : Nat
  claimHoldoff : Option Nat
  release : Option ReleaseContext
  group : Nat
  cls : ClientClass
  evidence : Nat
  gameActive : Bool
  effective : Effective
  lastActivity : Nat
  remoteDeadline : Option Nat
  removalDeadline : Option Nat
  carriedPause : Option Nat
  directed : Priority
  /-- The enforcement that the directives sent to the serving radio have it apply; OPEN until one is sent (R118, R119). -/
  enforced : Effective
  pendingControl : Option ControlDirective
  pendingEnforcement : Option EnforcementDirective
  pendingPriority : Option Priority
deriving DecidableEq, Repr

structure Crg where
  /-- Sixty-four records (R54). -/
  records : List (Option ClientRecord)
  sightingsDeadline : Option Nat
  servedCursor : Nat
  refusedAssociations : Nat
  unplacedSightings : Nat
  invalidEntries : Nat
deriving DecidableEq, Repr

structure Rli where
  /-- Per radio, the record numbers that wait, in order (R52). -/
  waiting : List (List Nat)
  /-- Per radio, the directives sent and not yet acknowledged, oldest first (R52). -/
  inFlight : List (List Directive)
deriving DecidableEq, Repr

/-! ## Roam Scoring Engine (chapter 5) and Handoff Controller (chapter 6) -/

structure Rse where
  evaluationDeadline : Option Nat
deriving DecidableEq, Repr

/-- The states of a claimant context (R80). -/
inductive ClaimState where
  | claiming
  | admitting
deriving DecidableEq, Repr

/-- A claimant context (R80). -/
structure ClaimContext where
  client : ClientAddr
  server : NodeId
  seq : Nat
  state : ClaimState
  deadline : Nat
  score : Int
deriving DecidableEq, Repr

structure Hoc where
  /-- Four slots (R80). -/
  contexts : List (Option ClaimContext)
  /-- 0..255, wrapping (R81). -/
  seqCounter : Nat
  malformed : Nat
deriving DecidableEq, Repr

/-! ## Household Policy Store (chapter 7) and Schedule Enforcement Unit (chapter 8) -/

/-- A version stamp (R98). -/
structure Stamp where
  counter : Nat
  origin : NodeId
deriving DecidableEq, Repr

inductive WindowAction where
  | block | limit | install
deriving DecidableEq, Repr

/-- A window record (Table 7.2). -/
structure WindowRecord where
  action : WindowAction
  groups : BitVec 8
  days : BitVec 7
  startMinute : Nat
  stopMinute : Nat
  cap : Nat
deriving DecidableEq, Repr

/-- A device record (Table 7.2). -/
structure DeviceRecord where
  addr : ClientAddr
  group : Nat
  cls : ClientClass
  pauseUntil : Nat
deriving DecidableEq, Repr

/-- A clock record (R46). -/
structure ClockRecord where
  seconds : Nat
  meshTime : Nat
deriving DecidableEq, Repr

/-- What a slot holds (R97). -/
inductive SlotContent where
  | empty
  | tombstone
  | window (w : WindowRecord)
  | device (d : DeviceRecord)
  | clock (c : ClockRecord)
deriving DecidableEq, Repr

structure Slot where
  content : SlotContent
  stamp : Stamp
deriving DecidableEq, Repr

/-- The states of the persistence unit (R108); SCHEDULED holds the persist deadline. -/
inductive Persist where
  | clean
  | scheduled (deadline : Nat)
  | waiting
  | writing
deriving DecidableEq, Repr

structure Pst where
  /-- Ninety-seven slots (R97). -/
  slots : List Slot
  digest : Nat
  /-- The policy-image read requested at the start has not ended (R110). -/
  loading : Bool
  persist : Persist
  rewrite : Bool
  excessLists : Nat
  malformed : Nat
  invalidRecords : Nat
deriving DecidableEq, Repr

/-- The state of a group (R112). -/
inductive GroupState where
  | open
  | capped (code : Nat)
  | blocked
deriving DecidableEq, Repr

structure Seu where
  held : Option Nat
  /-- Eight groups (R112). -/
  groups : List GroupState
deriving DecidableEq, Repr

/-! ## Game Traffic Monitor (chapter 9) -/

structure Gtm where
  invalidTraffic : Nat
  unmatchedTraffic : Nat
  servedGame : Nat
  peerGame : Nat
  /-- The yield condition as last judged (R132). -/
  yieldHolds : Bool
deriving DecidableEq, Repr

/-! ## Image Store (chapter 10), Flash Port and Install Coordination Unit (chapter 11) -/

/-- An image head (R134, Table 12.10). All eight index checks are kept as carried. -/
structure Head where
  imageId : Nat
  version : Nat
  chunkCount : Nat
  lastLength : Nat
  indexCount : Nat
  indexChecks : List Nat
  check : Nat
deriving DecidableEq, Repr

/-- A fetch deadline that runs to a mesh time, or is held with its remaining duration (R45). -/
inductive FetchDeadline where
  | running (deadline : Nat)
  | held (remaining : Nat)
deriving DecidableEq, Repr

structure FetchSlot where
  chunk : ChunkRef
  peer : NodeId
  deadline : FetchDeadline
deriving DecidableEq, Repr

/-- The occupied states of a chunk buffer (R141). -/
inductive BufferStage where
  | filled | programming | verifying
deriving DecidableEq, Repr

/-- A chunk buffer: FREE, or holding a chunk with the check value it was checked against (R141). `discard` marks a
buffer whose running operation's result is to be discarded, which frees it (R138, R145). -/
inductive Buffer where
  | free
  | held (stage : BufferStage) (chunk : ChunkRef) (bytes : List Byte) (check : Nat) (discard : Bool)
deriving DecidableEq, Repr

/-- How far the recovery scan has come (R146). -/
inductive Scan where
  | off
  | readingHead
  | reading (chunk : ChunkRef)
deriving DecidableEq, Repr

/-- A head held during the scan: the peer that sent it, or `none` for HEAD-SUBMIT (R146). -/
structure HeldHead where
  head : Head
  sender : Option NodeId
deriving DecidableEq, Repr

structure Ims where
  image : ImageState
  head : Option Head
  /-- The present data chunks, strictly rising (R136). -/
  presentData : List Nat
  /-- The present index chunks, strictly rising (R136). -/
  presentIndex : List Nat
  /-- The present count of each of 32 segments (R136). -/
  segmentCounts : List Nat
  /-- The check entries of each of the eight index chunks; none while the chunk is missing (R136). -/
  indexTable : List (Option (List Nat))
  /-- BUF-A and BUF-B (R141). -/
  buffers : List Buffer
  /-- Four fetch slots (R139). -/
  fetches : List (Option FetchSlot)
  verifyFailures : Nat
  /-- The last chunk the patrol read; `none` stands before index chunk 0 (R144). -/
  patrolCursor : Option ChunkRef
  patrolDeadline : Option Nat
  halvingDeadline : Option Nat
  /-- The yield condition as the IMS has been notified of it (R139). -/
  yielding : Bool
  scan : Scan
  heldHead : Option HeldHead
  refusedHeads : Nat
  unmatchedChunks : Nat
  lostChunks : Nat
  checkFailures : Nat
  ignoredFetches : Nat
deriving DecidableEq, Repr

/-- The operations the flash port carries out (R147, Table 10.4). A program or verify names its buffer. -/
inductive FlashKind where
  | configRead
  | policyRead
  | policyWrite
  | headWrite
  | program (buffer : Nat)
  | verify (buffer : Nat)
  | headRead
  | scanRead (chunk : ChunkRef)
  | patrolRead (chunk : ChunkRef)
  | serveRead (peer : NodeId) (chunk : ChunkRef)
deriving DecidableEq, Repr

/-- A waiting request; `discard` marks a result that its requester will discard. -/
structure FlashRequest where
  kind : FlashKind
  discard : Bool
deriving DecidableEq, Repr

/-- The operation in progress; `marker` tells whether a head-block write stores the installed marker as set (R157). -/
structure FlashOperation where
  kind : FlashKind
  discard : Bool
  deadline : Nat
  marker : Bool
deriving DecidableEq, Repr

structure Flp where
  /-- In order of arrival. -/
  waiting : List FlashRequest
  operation : Option FlashOperation
deriving DecidableEq, Repr

structure Icu where
  install : InstallState
  intentCount : Nat
  retryHoldoff : Option Nat
  drainDeadline : Option Nat
  marker : Bool
  rewriteDeadline : Option Nat
deriving DecidableEq, Repr

/-! ## Local port, events and faults (chapter 12) -/

/-- The result codes of Table 12.2. -/
inductive Result where
  | ok | refusedField | refusedState | refusedFull | tooLarge | busy | empty
deriving DecidableEq, Repr

structure Response where
  kind : Byte
  result : Result
  body : List Byte
deriving DecidableEq, Repr

structure Lpi where
  /-- A request is taken whole as one event, so between events the buffer is empty (R163;
  DEDUCED, safe: log entry 37). -/
  request : Option (Byte × List Byte)
  response : Option Response
deriving DecidableEq, Repr

/-- The event kinds of section 12.6, in code order. -/
inductive EventKind where
  | peerActive | peerFailing | peerLost | idClash | clientJoined | clientLeft | clientTaken | handoffDone
  | handoffFailed | groupState | clockSet | timeStep | policyChanged | imageHead | imageComplete | installIntent
  | drainStart | drainAbort | imageStaged | fault | restarted
deriving DecidableEq, Repr

/-- An event record (R165). -/
structure EventRecord where
  kind : EventKind
  time : Nat
  subject : ClientAddr
  detail : Nat
deriving DecidableEq, Repr

structure Evq where
  events : List EventRecord
  drops : Nat
deriving DecidableEq, Repr

/-- The fault kinds of Table 12.4. -/
inductive FaultKind where
  | configBad | storeVerify | flashNoResponse | policyImageBad | patrolBadChunk
deriving DecidableEq, Repr

/-- The fault classes of Table 12.4. -/
inductive FaultClass where
  | fatal | degraded | corrected
deriving DecidableEq, Repr

structure FaultRecord where
  kind : FaultKind
  cls : FaultClass
  time : Nat
  detail : Nat
deriving DecidableEq, Repr

structure Frc where
  first : Option FaultRecord
  /-- Bit k − 1 for fault code k (R166). -/
  later : BitVec 5
deriving DecidableEq, Repr

/-- The three output lines (Table 0.1). -/
structure Lines where
  eventPending : Bool
  imageReady : Bool
  fault : Bool
deriving DecidableEq, Repr

/-- What the part gives its partners: frames and burst directives to the transceiver, answers and directives to the
radios, responses to the host, operations to the flash device (log entry 16). -/
inductive Output where
  | frameOut (bytes : List Byte)
  | burstGo (handle : Nat)
  | accessDrop (handle : Nat)
  | mediumQuery
  | mirror (client : ClientAddr) (p : Priority)
  | admitAnswer (radio : Nat) (client : ClientAddr) (allow : Bool)
  | directive (radio : Nat) (d : Directive)
  | response (r : Response)
  | flashRead (block : Nat)
  | flashWrite (block : Nat) (bytes : List Byte)
  | flashReset
deriving DecidableEq, Repr

/-! ## The whole state -/

/-- The state of the part. The last seven fields are the model's own (DESIGN CHOICE, log entries 1, 6, 8 and 16): the notices that one block has given and another has
not yet taken, what has been sent to the partners, the number of draws made, and the queue of commands. -/
structure State where
  run : RunState
  cfg : Configuration
  bcu : Bcu
  nbt : Nbt
  mtb : Mtb
  crg : Crg
  rli : Rli
  rse : Rse
  hoc : Hoc
  pst : Pst
  seu : Seu
  gtm : Gtm
  ims : Ims
  icu : Icu
  flp : Flp
  lpi : Lpi
  evq : Evq
  frc : Frc
  lines : Lines
  /-- Wall-state notices given by the MTB and not yet taken by the SEU, oldest first (R48). -/
  wallNotices : List (Option Nat)
  /-- Yield notices not yet taken by the BCU and by the IMS: true for begin, false for end (R132). -/
  yieldNoticesBcu : List Bool
  yieldNoticesIms : List Bool
  /-- The blocks that have not yet taken a restart notice given to them (R162). -/
  restartNotices : List Block
  /-- Everything sent to the partners since power-on, oldest first. -/
  sent : List Output
  /-- How many draws have been made of the random source. -/
  draws : Nat
  /-- The commands that wait, first in, first out. -/
  pending : List Instr
deriving DecidableEq, Repr

/-- The reasons the part could stop with a fault: none. Every command of the table is given an effect by the spec, so
no meaning raises one (DEDUCED, safe: log entry 11). -/
inductive Fault where
deriving DecidableEq, Repr

/-- The reasons a command is refused. -/
inductive Refusal where
  /-- Raised by an arm of `exec` whose command has no meaning yet. Safe: the model says nothing of the command. -/
  | notModelled (mnemonic : String)
deriving DecidableEq, Repr

/-! ## The state after a full reset -/

/-- The contention state of a class at rest: CW min, retry 0, full deferral, no backoff (R8). -/
def restingContention (window deferral : Nat) : Contention :=
  { window := window, retry := 0, deferral := deferral, backoff := none }

/-- The full-reset state of the BCU (chapter 1). The credit is the capacity of the reset credit code, 64 (Table 1.5; DESIGN
CHOICE, unsafe: log entry 9). -/
def Bcu.reset : Bcu :=
  { badFrames := 0, nonMember := 0, controlDrops := 0, ownDrops := 0, duplicateRequests := 0,
    medium := .busy, inFlight := none, controlQueue := [], bulkQueue := [], gameSlot := none, normalSlot := none,
    demoted := false, controlState := restingContention 3 2, gameState := restingContention 3 3,
    normalState := restingContention 15 5, bulkState := restingContention 31 9,
    credit := 64, refillDeadline := none, yielding := false, airtime := List.replicate 3 [] }

/-- A full reset's image store: EMPTY, everything clear, the scan not begun (R148). -/
def Ims.reset : Ims :=
  { image := .empty, head := none, presentData := [], presentIndex := [], segmentCounts := List.replicate 32 0,
    indexTable := List.replicate 8 none, buffers := List.replicate 2 .free, fetches := List.replicate 4 none,
    verifyFailures := 0, patrolCursor := none, patrolDeadline := none, halvingDeadline := none, yielding := false,
    scan := .off, heldHead := none, refusedHeads := 0, unmatchedChunks := 0, lostChunks := 0, checkFailures := 0,
    ignoredFetches := 0 }

/-- The empty slot with the empty stamp (R97). -/
def emptySlot : Slot := { content := .empty, stamp := { counter := 0, origin := 0#16 } }

/-- The digest of 97 empty stamps: the CRC-16 of 388 zero bytes (R104). `Tests.test_empty_digest` proves that it is
the digest of 97 empty slots. -/
def emptyDigest : Nat := 0xA9D2

/-- The state of the part right after a full reset: every block at its full-reset values, mesh time 0, and the
configuration read in rank 1 at the flash port (R161). The configuration fields, which no rule gives a value before they
are read, hold 0, but the radio count 3 (DESIGN CHOICE, unsafe: log entry 9). -/
def State.reset : State :=
  { run := .starting
    cfg := { nodeId := 0#16, radioCount := 3, kCode := 0, marginCode := 0, nConf := 0, beaconCode := 0, errorCode := 0,
             creditCode := 0, gameCode := 0, drainCode := 0, flashCode := 0 }
    bcu := Bcu.reset
    nbt := { entries := List.replicate 8 none, clashHoldoff := none, tableFull := 0, buildDeadline := none }
    mtb := { divider := 0, meshTime := 0, synced := false, lastNotified := none }
    crg := { records := List.replicate 64 none, sightingsDeadline := none, servedCursor := 63, refusedAssociations := 0,
             unplacedSightings := 0, invalidEntries := 0 }
    rli := { waiting := List.replicate 3 [], inFlight := List.replicate 3 [] }
    rse := { evaluationDeadline := none }
    hoc := { contexts := List.replicate 4 none, seqCounter := 0, malformed := 0 }
    pst := { slots := List.replicate 97 emptySlot, digest := emptyDigest, loading := false, persist := .clean,
             rewrite := false, excessLists := 0, malformed := 0, invalidRecords := 0 }
    seu := { held := none, groups := List.replicate 8 .open }
    gtm := { invalidTraffic := 0, unmatchedTraffic := 0, servedGame := 0, peerGame := 0, yieldHolds := false }
    ims := Ims.reset
    icu := { install := .idle, intentCount := 0, retryHoldoff := none, drainDeadline := none, marker := false,
             rewriteDeadline := none }
    flp := { waiting := [{ kind := .configRead, discard := false }], operation := none }
    lpi := { request := none, response := none }
    evq := { events := [], drops := 0 }
    frc := { first := none, later := 0#5 }
    lines := { eventPending := false, imageReady := false, fault := false }
    wallNotices := []
    yieldNoticesBcu := []
    yieldNoticesIms := []
    restartNotices := []
    sent := []
    draws := 0
    pending := [] }

/-! ## Access to one block

`modX f` is the state with block X replaced by `f` of it. Laws/State.lean says what each leaves alone. -/

def State.modBcu (s : State) (f : Bcu → Bcu) : State := { s with bcu := f s.bcu }
def State.modNbt (s : State) (f : Nbt → Nbt) : State := { s with nbt := f s.nbt }
def State.modMtb (s : State) (f : Mtb → Mtb) : State := { s with mtb := f s.mtb }
def State.modCrg (s : State) (f : Crg → Crg) : State := { s with crg := f s.crg }
def State.modRli (s : State) (f : Rli → Rli) : State := { s with rli := f s.rli }
def State.modRse (s : State) (f : Rse → Rse) : State := { s with rse := f s.rse }
def State.modHoc (s : State) (f : Hoc → Hoc) : State := { s with hoc := f s.hoc }
def State.modPst (s : State) (f : Pst → Pst) : State := { s with pst := f s.pst }
def State.modSeu (s : State) (f : Seu → Seu) : State := { s with seu := f s.seu }
def State.modGtm (s : State) (f : Gtm → Gtm) : State := { s with gtm := f s.gtm }
def State.modIms (s : State) (f : Ims → Ims) : State := { s with ims := f s.ims }
def State.modIcu (s : State) (f : Icu → Icu) : State := { s with icu := f s.icu }
def State.modFlp (s : State) (f : Flp → Flp) : State := { s with flp := f s.flp }
def State.modLpi (s : State) (f : Lpi → Lpi) : State := { s with lpi := f s.lpi }
def State.modEvq (s : State) (f : Evq → Evq) : State := { s with evq := f s.evq }
def State.modFrc (s : State) (f : Frc → Frc) : State := { s with frc := f s.frc }

end Sys2Proof.Machine
end

