-- ==== Sys2Proof/Machine/Tables.lean ====
section
/-! DEFINITION. The tables of the spec: what each configuration code selects, the access class parameters, the codes of
kinds, states and details, and the durations the rules give in ticks. -/

namespace Sys2Proof.Machine

open Sys2Proof

/-! ## Time -/

/-- Mesh time holds at 2^40 − 1 (R39). -/
def meshTimeMax : Nat := 2 ^ 40 - 1

/-- Table 2.7. -/
def beaconInterval (cfg : Configuration) : Nat := 256 * 2 ^ cfg.beaconCode

/-- Table 2.4. -/
def badFrameThreshold (cfg : Configuration) : Nat := 4 * 2 ^ cfg.errorCode

/-- Table 1.5. -/
def creditCapacity (cfg : Configuration) : Nat := 64 * 2 ^ cfg.creditCode

/-- Table 11.1. -/
def drainTimeout (cfg : Configuration) : Nat := 30720 * 2 ^ cfg.drainCode

/-- Table 10.1. -/
def flashCapacity (cfg : Configuration) : Nat :=
  if cfg.flashCode = 0 then 4080 else if cfg.flashCode = 1 then 8176 else 8192

/-- Table 5.1: the shift is the k code. -/
def smoothingShift (cfg : Configuration) : Nat := cfg.kCode

/-- Table 5.1: the rounding offset h of shift k is half of 2^k, and 0 for k = 0. -/
def roundingOffset (k : Nat) : Nat := 2 ^ k / 2

/-- Table 5.3. -/
def roamMargin (cfg : Configuration) : Int :=
  if cfg.marginCode = 0 then 48 else if cfg.marginCode = 1 then 80 else if cfg.marginCode = 2 then 128 else 192

/-- Table 9.2: P_min. -/
def gamePacketMin (cfg : Configuration) : Nat := 10 * (cfg.gameCode + 1)

/-- Table 9.2: B_max. -/
def gameByteMax (cfg : Configuration) : Nat := 125000 * (cfg.gameCode + 1)

/-! ## Access classes -/

/-- The columns of Table 1.4. -/
structure ClassParams where
  deferral : Nat
  windowMin : Nat
  windowMax : Nat
  retryLimit : Nat
deriving DecidableEq, Repr

/-- Table 1.4. -/
def classParams : AccessClass → ClassParams
  | .control => { deferral := 2, windowMin := 3, windowMax := 31, retryLimit := 6 }
  | .game => { deferral := 3, windowMin := 3, windowMax := 15, retryLimit := 2 }
  | .normal => { deferral := 5, windowMin := 15, windowMax := 255, retryLimit := 6 }
  | .bulk => { deferral := 9, windowMin := 31, windowMax := 1023, retryLimit := 4 }

/-- The classes by rank in the arbiter, the highest first (Table 1.4). -/
def classRanks : List AccessClass := [.control, .game, .normal, .bulk]

/-! ## Codes -/

/-- Table 12.6. -/
def frameKindCode : FrameKind → Nat
  | .beacon => 1 | .sightings => 2 | .claim => 3 | .grant => 4 | .refuse => 5 | .cancel => 6 | .served => 7
  | .policyList => 8 | .policyGet => 9 | .policyRecord => 10 | .headGet => 11 | .head => 12 | .fetch => 13
  | .chunk => 14

/-- The frame kinds in code order. -/
def frameKinds : List FrameKind :=
  [.beacon, .sightings, .claim, .grant, .refuse, .cancel, .served, .policyList, .policyGet, .policyRecord, .headGet,
   .head, .fetch, .chunk]

/-- The kind a code names, if any (Table 12.6). -/
def frameKindOf (code : Nat) : Option FrameKind := frameKinds.find? (fun k => frameKindCode k == code)

/-- Table 12.7. -/
def installCode : InstallState → Nat
  | .idle => 0 | .intent => 1 | .draining => 2 | .staged => 3 | .done => 4

/-- The install state of a code; none outside the codes of Table 2.2 (R24). -/
def installOf : Nat → Option InstallState
  | 0 => some .idle | 1 => some .intent | 2 => some .draining | 3 => some .staged | 4 => some .done | _ => none

/-- Table 12.7. -/
def imageCode : ImageState → Nat
  | .empty => 0 | .indexing => 1 | .fetching => 2 | .complete => 3 | .fault => 4

/-- The image state of a code; none outside the codes of Table 2.2 (R24). -/
def imageOf : Nat → Option ImageState
  | 0 => some .empty | 1 => some .indexing | 2 => some .fetching | 3 => some .complete | 4 => some .fault | _ => none

/-- Section 12.6: AUTO 0, GAME 1, NOGAME 2. -/
def classCode : ClientClass → Nat
  | .auto => 0 | .game => 1 | .noGame => 2

/-- The class of a code (section 12.6). -/
def classOf : Nat → Option ClientClass
  | 0 => some .auto | 1 => some .game | 2 => some .noGame | _ => none

/-- Table 12.17. -/
def linkCode : LinkState → Nat
  | .heard => 1 | .active => 2 | .failing => 3

/-- Table 12.2. -/
def resultCode : Result → Nat
  | .ok => 0 | .refusedField => 1 | .refusedState => 2 | .refusedFull => 3 | .tooLarge => 4 | .busy => 5 | .empty => 6

/-- Event kind codes, from 0x01 in the order of section 12.6. -/
def eventCode : EventKind → Nat
  | .peerActive => 1 | .peerFailing => 2 | .peerLost => 3 | .idClash => 4 | .clientJoined => 5 | .clientLeft => 6
  | .clientTaken => 7 | .handoffDone => 8 | .handoffFailed => 9 | .groupState => 10 | .clockSet => 11
  | .timeStep => 12 | .policyChanged => 13 | .imageHead => 14 | .imageComplete => 15 | .installIntent => 16
  | .drainStart => 17 | .drainAbort => 18 | .imageStaged => 19 | .fault => 20 | .restarted => 21

/-- Table 12.4. -/
def faultCode : FaultKind → Nat
  | .configBad => 1 | .storeVerify => 2 | .flashNoResponse => 3 | .policyImageBad => 4 | .patrolBadChunk => 5

/-- Table 12.4. -/
def faultClassOf : FaultKind → FaultClass
  | .configBad => .fatal
  | .storeVerify => .degraded
  | .flashNoResponse => .degraded
  | .policyImageBad => .corrected
  | .patrolBadChunk => .corrected

/-- FATAL ranks above DEGRADED, and DEGRADED above CORRECTED (R166). -/
def faultClassRank : FaultClass → Nat
  | .fatal => 2 | .degraded => 1 | .corrected => 0

/-- Table 12.14, FAULT-READ: FATAL 1, DEGRADED 2, CORRECTED 3. -/
def faultClassCode : FaultClass → Nat
  | .fatal => 1 | .degraded => 2 | .corrected => 3

/-- The radio causes, coded from 1 in the order of section 12.6. An `other` cause is discarded before it is coded. -/
def causeCode : RadioCause → Nat
  | .left => 1 | .steered => 2 | .kicked => 3 | .timeout => 4 | .other code => code

/-- The detail of GROUP-STATE and of the group states in STATUS: OPEN 0, BLOCKED 16, CAPPED as its cap code. -/
def groupCode : GroupState → Nat
  | .open => 0 | .capped c => c | .blocked => 16

/-- Table 12.16: OPEN 0, PAUSED 16, CAPPED as its cap code. -/
def effectiveCode : Effective → Nat
  | .open => 0 | .capped c => c | .paused => 16

/-- Table 10.4. -/
def flashRank : FlashKind → Nat
  | .configRead => 1
  | .policyRead => 1
  | .policyWrite => 2
  | .headWrite => 2
  | .program _ => 3
  | .verify _ => 4
  | .headRead => 5
  | .scanRead _ => 5
  | .patrolRead _ => 5
  | .serveRead _ _ => 6

/-- Table 10.2: the flash block that holds a chunk. -/
def chunkBlock : ChunkRef → Nat
  | .index i => 8 + i
  | .data k => 16 + k

/-! ## Details, coded from 1 in the order of section 12.6 -/

namespace Detail

def joined : Nat := 1
def returned : Nat := 2
def misses : Nat := 1
def badFrames : Nat := 2
def takenByNotice : Nat := 5
def refusedWeaker : Nat := 1
def refusedBusy : Nat := 2
def refusedNotServed : Nat := 3
def claimTimeout : Nat := 4
def admitTimeout : Nat := 5
def steerIgnored : Nat := 6
def cancelled : Nat := 7
def overtaken : Nat := 8
def peerLost : Nat := 9
def drain : Nat := 10
def adopted : Nat := 0
def clockValid : Nat := 1
def clockInvalid : Nat := 2
def policyLocal : Nat := 1
def policyMerged : Nat := 2
def fetched : Nat := 1
def scanned : Nat := 2
def abortConflict : Nat := 1
def abortWindow : Nat := 2
def abortImage : Nat := 3
def abortHead : Nat := 4
def abortRestart : Nat := 5
def emptied : Nat := 1
def drainTimedOut : Nat := 2

end Detail

end Sys2Proof.Machine
end

