-- ==== Sys2Proof/Machine/Flags.lean ====
section
/-! DEFINITION. Saturating counts, the conditions that the spec derives from other state (the node game flag, the sticky
margin's parts) and the three output lines. -/

namespace Sys2Proof.Machine

open Sys2Proof

/-- One more, saturating at `top` (Table 0.3: a saturating value stays at the end of its range). -/
def satSucc (top n : Nat) : Nat := min (n + 1) top

/-- One more on a 16-bit count that saturates at 65535 (R6, R66, R79, R107, R123, R148). -/
def count16 (n : Nat) : Nat := satSucc 65535 n

/-- The node game flag is set while the served-game count is above 0 (R130). -/
def nodeGameFlag (g : Gtm) : Bool := decide (0 < g.servedGame)

/-- The yield condition holds while the node game flag is set or the peer-game count is above 0 (R132). -/
def yieldCondition (g : Gtm) : Bool := nodeGameFlag g || decide (0 < g.peerGame)

/-- FAULT is asserted while the first record holds a FATAL or DEGRADED fault (R166). -/
def faultLine (f : Frc) : Bool :=
  match f.first with
  | none => false
  | some r => decide (r.cls ≠ .corrected)

/-- The three output lines as the state calls for them (R165, R156, R166). -/
def linesOf (s : State) : Lines :=
  { eventPending := !s.evq.events.isEmpty
    imageReady := decide (s.icu.install = .staged)
    fault := faultLine s.frc }

/-- The state with its output lines driven as it calls for them. -/
def State.driveLines (s : State) : State := { s with lines := linesOf s }

end Sys2Proof.Machine
end

