-- ==== Sys2Proof/Machine/Ops.lean ====
section
/-! DEFINITION. The named operations that more than one block uses: slots of a table, records and entries, outputs,
draws, events and faults, and the forward move of every kept time at the first adoption. -/

namespace Sys2Proof.Machine

open Sys2Proof

/-! ## Tables with slots that are free or occupied -/

/-- What slot `i` holds; none for a free slot and beyond the table. -/
def slotAt {α : Type} (l : List (Option α)) (i : Nat) : Option α := (l[i]?).join

/-- The table with what slot `i` holds replaced by `f` of it; a free slot stays free. -/
def updateSlot {α : Type} (l : List (Option α)) (i : Nat) (f : α → α) : List (Option α) :=
  l.modify i (Option.map f)

/-- The lowest-numbered free slot. -/
def firstFree {α : Type} (l : List (Option α)) : Option Nat := l.findIdx? Option.isNone

/-- The lowest-numbered slot whose content satisfies `p`. -/
def findSlot {α : Type} (l : List (Option α)) (p : α → Bool) : Option Nat := l.findIdx? (fun o => o.any p)

/-- How many slots hold something that satisfies `p`. -/
def countSlots {α : Type} (l : List (Option α)) (p : α → Bool) : Nat := l.countP (fun o => o.any p)

/-- The list for one of the three radio links. -/
def forRadio {α : Type} (l : List (List α)) (r : Nat) : List α := (l[r]?).getD []

/-! ## The present moment, outputs, draws -/

/-- The present mesh time. -/
def State.now (s : State) : Nat := s.mtb.meshTime

/-- The node's own id, from the configuration block. -/
def State.ownId (s : State) : NodeId := s.cfg.nodeId

/-- Gives an output to a partner. -/
def State.emit (s : State) (o : Output) : State := { s with sent := s.sent ++ [o] }

/-- A value drawn uniformly from 0..bound (R10, R36): a free value within that range, and the state after the draw. -/
def State.drawUpTo (s : State) (bound : Nat) : Nat × State :=
  (Config.draw s.draws % (bound + 1), { s with draws := s.draws + 1 })

/-! ## Events (R165) and faults (R166) -/

/-- The subject bytes for a node id: bytes 9–10 with 0 above (Table 12.12). -/
def nodeSubject (id : NodeId) : ClientAddr := id.setWidth 48

/-- The subject bytes for a group or slot number (Table 12.12). -/
def numberSubject (n : Nat) : ClientAddr := BitVec.ofNat 48 n

/-- Queues an event at the tail with the mesh time as it stands; a full queue drops it and counts the drop (R165). -/
def State.queueEvent (s : State) (kind : EventKind) (subject : ClientAddr) (detail : Nat) : State :=
  s.modEvq fun q =>
    if q.events.length < 32 then
      { q with events := q.events ++ [{ kind := kind, time := s.now % 2 ^ 32, subject := subject, detail := detail }] }
    else { q with drops := satSucc 255 q.drops }

/-- The flag of a fault kind in the later-fault set: bit k − 1 for code k (Table 12.14). -/
def laterFlag (k : FaultKind) : BitVec 5 := 1#5 <<< (faultCode k - 1)

/-- The fault record with a fault handed over at mesh time `now` (R166). -/
def Frc.take (f : Frc) (now : Nat) (kind : FaultKind) (detail : Nat) : Frc :=
  let new : FaultRecord := { kind := kind, cls := faultClassOf kind, time := now, detail := detail }
  match f.first with
  | none => { f with first := some new }
  | some held =>
    if faultClassRank held.cls < faultClassRank new.cls then
      { first := some new, later := f.later ||| laterFlag held.kind }
    else { f with later := f.later ||| laterFlag kind }

/-- Hands the FRC a fault: it is recorded and a FAULT event with the own node id and the fault's code is queued. -/
def State.recordFault (s : State) (kind : FaultKind) (detail : Nat) : State :=
  (s.modFrc fun f => f.take s.now kind detail).queueEvent .fault (nodeSubject s.ownId) (faultCode kind)

/-! ## Neighbour entries -/

/-- The entry in slot `i` of the neighbour table. -/
def State.entry (s : State) (i : Nat) : Option Entry := slotAt s.nbt.entries i

/-- The slot of the entry for node `id`. -/
def State.findEntry (s : State) (id : NodeId) : Option Nat := findSlot s.nbt.entries (fun e => e.id == id)

/-- The entry for node `id`. -/
def State.entryOf (s : State) (id : NodeId) : Option Entry := (s.findEntry id).bind s.entry

def State.modEntry (s : State) (i : Nat) (f : Entry → Entry) : State :=
  s.modNbt fun n => { n with entries := updateSlot n.entries i f }

/-- Adds one to a peer's fetch fail count, saturating at 7, if the peer still holds an entry (R140, R141). -/
def State.countFetchFail (s : State) (peer : NodeId) : State :=
  match s.findEntry peer with
  | none => s
  | some i => s.modEntry i fun e => { e with fetchFails := satSucc 7 e.fetchFails }

/-! ## Client records -/

/-- The record with number `i`. -/
def State.record (s : State) (i : Nat) : Option ClientRecord := slotAt s.crg.records i

/-- The number of the record that holds client `a` (R54). -/
def State.findRecord (s : State) (a : ClientAddr) : Option Nat := findSlot s.crg.records (fun r => r.addr == a)

/-- The record that holds client `a`. -/
def State.recordOf (s : State) (a : ClientAddr) : Option ClientRecord := (s.findRecord a).bind s.record

def State.modRecord (s : State) (i : Nat) (f : ClientRecord → ClientRecord) : State :=
  s.modCrg fun c => { c with records := updateSlot c.records i f }

/-- The radio that serves a record, if it is SERVED. -/
def ClientRecord.servedOn (r : ClientRecord) : Option Nat :=
  match r.serving with
  | .served radio => some radio
  | .remote _ => none
  | .unseen => none

/-- Whether a record is SERVED here. -/
def ClientRecord.isServed (r : ClientRecord) : Bool := r.servedOn.isSome

/-- The number of SERVED client records (R37). -/
def State.servedCount (s : State) : Nat := countSlots s.crg.records ClientRecord.isServed

/-- Whether a record holds any pending directive (R52). -/
def ClientRecord.hasPending (r : ClientRecord) : Bool :=
  r.pendingControl.isSome || r.pendingEnforcement.isSome || r.pendingPriority.isSome

/-- A record with its last activity time renewed; the removal deadline of an UNSEEN record moves with it (R65). -/
def ClientRecord.renewed (r : ClientRecord) (now : Nat) : ClientRecord :=
  { r with
    lastActivity := now
    removalDeadline := if r.serving = .unseen then some (now + 65536) else r.removalDeadline }

def State.renewActivity (s : State) (i : Nat) : State := s.modRecord i (·.renewed s.now)

/-- A record made UNSEEN: the remote deadline is cancelled, the removal deadline is set from the last activity time
(R65) and the confirm count returns to 0 (R76). -/
def ClientRecord.toUnseen (r : ClientRecord) : ClientRecord :=
  { r with
    serving := .unseen
    confirm := 0
    remoteDeadline := none
    removalDeadline := some (r.lastActivity + 65536) }

/-- A record made REMOTE (peer), with its remote deadline 8192 ticks later (R60, R64, R88). The confirm count returns to
0 when the serving state changes (R76). -/
def ClientRecord.toRemote (r : ClientRecord) (peer : NodeId) (now : Nat) : ClientRecord :=
  { r with
    serving := .remote peer
    confirm := if r.serving = .remote peer then r.confirm else 0
    remoteDeadline := some (now + 8192)
    removalDeadline := none }

/-- The served flag of the reports from `peer` cleared, or of every report for `none` (R59, R65, R88). -/
def clearServedFlags (peer : Option NodeId) (reports : List PeerReport) : List PeerReport :=
  reports.map fun p => if peer.all (· == p.peer) then { p with served := false } else p

/-! ## Claimant contexts -/

/-- The slot of the claimant context for client `a` (R80). -/
def State.findClaim (s : State) (a : ClientAddr) : Option Nat := findSlot s.hoc.contexts (fun c => c.client == a)

/-- The claimant context in slot `i`. -/
def State.claimAt (s : State) (i : Nat) : Option ClaimContext := slotAt s.hoc.contexts i

def State.freeClaim (s : State) (i : Nat) : State := s.modHoc fun h => { h with contexts := h.contexts.set i none }

/-- Whether a record counts as holding a context: a release context, or a claimant context for its client (R80). -/
def State.holdsContext (s : State) (r : ClientRecord) : Bool := r.release.isSome || (s.findClaim r.addr).isSome

/-! ## The effective device record -/

/-- The record held by the lowest-numbered device slot whose record carries `a` (R99). -/
def State.effectiveDevice (s : State) (a : ClientAddr) : Option DeviceRecord :=
  s.pst.slots.findSome? fun slot =>
    match slot.content with
    | .device d => if d.addr = a then some d else none
    | .empty => none
    | .tombstone => none
    | .window _ => none
    | .clock _ => none

/-! ## Notices between blocks -/

/-- Judges the yield condition anew; when it begins or ends, gives a notice to the BCU and to the IMS (R132). -/
def State.judgeYield (s : State) : State :=
  let now := yieldCondition s.gtm
  if now = s.gtm.yieldHolds then s
  else
    { s.modGtm (fun g => { g with yieldHolds := now }) with
      yieldNoticesBcu := s.yieldNoticesBcu ++ [now]
      yieldNoticesIms := s.yieldNoticesIms ++ [now] }

/-! ## The forward move at the first adoption (R42) -/

/-- A kept deadline or arrival time moved forward by the adoption step. -/
def shiftOpt (step : Nat) (d : Option Nat) : Option Nat := d.map (· + step)

def PeerReport.shifted (step : Nat) (p : PeerReport) : PeerReport := { p with time := p.time + step }

/-- A client record with its deadlines and arrival times moved forward (R42). -/
def ClientRecord.shifted (step : Nat) (r : ClientRecord) : ClientRecord :=
  { r with
    admitPending := shiftOpt step r.admitPending
    sightTime := shiftOpt step r.sightTime
    reports := r.reports.map (·.shifted step)
    claimHoldoff := shiftOpt step r.claimHoldoff
    release := r.release.map fun c => { c with deadline := c.deadline + step }
    lastActivity := r.lastActivity + step
    remoteDeadline := shiftOpt step r.remoteDeadline
    removalDeadline := shiftOpt step r.removalDeadline }

/-- A neighbour entry with its deadlines moved forward. -/
def Entry.shifted (step : Nat) (e : Entry) : Entry :=
  { e with dueDeadline := e.dueDeadline + step, listGuard := shiftOpt step e.listGuard }

/-- A fetch deadline moved forward; a held one keeps its remaining duration (R45). -/
def FetchDeadline.shifted (step : Nat) : FetchDeadline → FetchDeadline
  | .running d => .running (d + step)
  | .held r => .held r

/-- The persist deadline moved forward. -/
def Persist.shifted (step : Nat) : Persist → Persist
  | .clean => .clean
  | .scheduled d => .scheduled (d + step)
  | .waiting => .waiting
  | .writing => .writing

/-- Every deadline the MTB holds and every arrival time a block keeps moved forward by the adoption step (R42). Events
already queued, the first-fault record, the clock record and the stamps stay as they are. -/
def State.shiftTimes (step : Nat) (s : State) : State :=
  { s with
    bcu := { s.bcu with
      refillDeadline := shiftOpt step s.bcu.refillDeadline
      airtime := s.bcu.airtime.map fun vs => vs.map fun v => { v with arrival := v.arrival + step } }
    nbt := { s.nbt with
      entries := s.nbt.entries.map (Option.map (·.shifted step))
      clashHoldoff := shiftOpt step s.nbt.clashHoldoff
      buildDeadline := shiftOpt step s.nbt.buildDeadline }
    crg := { s.crg with
      records := s.crg.records.map (Option.map (·.shifted step))
      sightingsDeadline := shiftOpt step s.crg.sightingsDeadline }
    rse := { evaluationDeadline := shiftOpt step s.rse.evaluationDeadline }
    hoc := { s.hoc with
      contexts := s.hoc.contexts.map (Option.map fun c => { c with deadline := c.deadline + step }) }
    pst := { s.pst with persist := s.pst.persist.shifted step }
    ims := { s.ims with
      fetches := s.ims.fetches.map (Option.map fun f => { f with deadline := f.deadline.shifted step })
      patrolDeadline := shiftOpt step s.ims.patrolDeadline
      halvingDeadline := shiftOpt step s.ims.halvingDeadline }
    icu := { s.icu with
      retryHoldoff := shiftOpt step s.icu.retryHoldoff
      drainDeadline := shiftOpt step s.icu.drainDeadline
      rewriteDeadline := shiftOpt step s.icu.rewriteDeadline }
    flp := { s.flp with operation := s.flp.operation.map fun o => { o with deadline := o.deadline + step } } }

end Sys2Proof.Machine
end

