-- ==== Sys2Proof/Machine/Formats.lean ====
section
/-! DEFINITION. The layouts of section 12.6: frame header and bodies, policy records and the policy image, the image
head and head block, the configuration block, and the bodies the local port returns. -/

namespace Sys2Proof.Machine

open Sys2Proof

/-- The 6 bytes of a client address (R167). -/
def addrBytes (a : ClientAddr) : List Byte := be 6 a.toNat

/-- The client address at an offset. -/
def addrAt (b : List Byte) (off : Nat) : ClientAddr := BitVec.ofNat 48 (fieldAt b off 6)

/-- The 2 bytes of a node id (R167). -/
def nodeBytes (id : NodeId) : List Byte := be 2 id.toNat

/-- The node id at an offset. -/
def nodeAt (b : List Byte) (off : Nat) : NodeId := BitVec.ofNat 16 (fieldAt b off 2)

/-- The 5 bytes of a mesh time. -/
def timeBytes (t : Nat) : List Byte := be 5 t

/-- The 5 bytes of a deadline: its value, or what Config leaves free for one beyond 2^40 − 1. -/
def deadlineBytes (d : Nat) : List Byte := be 5 (if d ≤ meshTimeMax then d else Config.lateDeadline d)

/-- The 5 bytes of a deadline that may not be held; 0 when it is not. -/
def deadlineOptBytes : Option Nat → List Byte
  | none => be 5 0
  | some d => deadlineBytes d

/-! ## Frames (Table 12.5) -/

/-- The header bytes of a frame: kind code, source, destination, body length (Table 12.5). -/
def headerBytes (kind : FrameKind) (src dst : NodeId) (length : Nat) : List Byte :=
  be 1 (frameKindCode kind) ++ nodeBytes src ++ nodeBytes dst ++ be 2 length

/-- The check value over header and body (Table 12.5). -/
def frameCheck (kind : FrameKind) (src dst : NodeId) (body : List Byte) : Nat :=
  crc32 (headerBytes kind src dst body.length ++ body)

/-- A frame of given content with its header and check value (R1). -/
def buildFrame (kind : FrameKind) (src dst : NodeId) (body : List Byte) : TxFrame :=
  { kind := kind, src := src, dst := dst, body := body, check := frameCheck kind src dst body }

/-- The bytes of a frame on the link (Table 12.5). -/
def TxFrame.bytes (f : TxFrame) : List Byte := headerBytes f.kind f.src f.dst f.body.length ++ f.body ++ le 4 f.check

/-! ## BEACON (Table 12.7) -/

/-- The body of a BEACON: the mesh time and the advertised values. -/
def beaconBytes (time : Nat) (a : Advertised) : List Byte :=
  timeBytes time ++ be 1 a.load ++ flagsByte [a.gameActive, a.drainIntent, a.clockValid] ++
    be 1 (installCode a.install) ++ be 1 (imageCode a.image) ++ be 4 a.imageId ++ be 2 a.imageVersion ++
    be 4 a.segments.toNat ++ be 2 a.digest ++ be 1 a.servedCount

/-- The mesh-time field of a BEACON body. -/
def beaconTime (b : List Byte) : Nat := fieldAt b 0 5

/-- The advertised values of a BEACON body, load and served count clamped; none for a state code outside the codes of
Table 2.2, which makes the beacon malformed (R24). -/
def parseAdvertised (b : List Byte) : Option Advertised :=
  match installOf (byteAt b 7), imageOf (byteAt b 8) with
  | some install, some image =>
    some { load := min (byteAt b 5) 100, gameActive := flagAt b 6 0, drainIntent := flagAt b 6 1,
           clockValid := flagAt b 6 2, install := install, image := image, imageId := fieldAt b 9 4,
           imageVersion := fieldAt b 13 2, segments := BitVec.ofNat 32 (fieldAt b 15 4), digest := fieldAt b 19 2,
           servedCount := min (byteAt b 21) 64 }
  | none, _ => none
  | some _, none => none

/-! ## SIGHTINGS (Table 12.8) -/

/-- One SIGHTINGS entry (Table 12.8). -/
structure SightingEntry where
  client : ClientAddr
  level : Int
  served : Bool
  game : Bool
  epoch : Nat
deriving DecidableEq, Repr

def SightingEntry.bytes (e : SightingEntry) : List Byte :=
  addrBytes e.client ++ beSigned e.level ++ flagsByte [e.served, e.game] ++ be 4 e.epoch

def parseSighting (b : List Byte) (off : Nat) : SightingEntry :=
  { client := addrAt b off, level := signed16 (fieldAt b (off + 6) 2), served := flagAt b (off + 8) 0,
    game := flagAt b (off + 8) 1, epoch := fieldAt b (off + 9) 4 }

/-- The entries of a SIGHTINGS body, in the order of the frame. -/
def parseSightings (b : List Byte) : List SightingEntry :=
  (List.range (byteAt b 0)).map fun i => parseSighting b (1 + 13 * i)

/-- A SIGHTINGS body. -/
def sightingsBytes (es : List SightingEntry) : List Byte := be 1 es.length ++ (es.map SightingEntry.bytes).flatten

/-! ## Handoff frames (Table 12.6) -/

/-- A CLAIM body. -/
def claimBytes (c : ClientAddr) (seq : Nat) (score : Int) : List Byte := addrBytes c ++ be 1 seq ++ beSigned score

/-- The content of a GRANT (Table 6.1); class and others as carried, judged by R79. -/
structure GrantBody where
  client : ClientAddr
  seq : Nat
  epoch : Nat
  group : Nat
  clsCode : Nat
  evidence : Nat
  gameActive : Bool
  pauseUntil : Nat
deriving DecidableEq, Repr

def GrantBody.bytes (g : GrantBody) : List Byte :=
  addrBytes g.client ++ be 1 g.seq ++ be 4 g.epoch ++ be 1 g.group ++ be 1 g.clsCode ++ be 1 g.evidence ++
    flagsByte [g.gameActive] ++ be 4 g.pauseUntil

def parseGrant (b : List Byte) : GrantBody :=
  { client := addrAt b 0, seq := byteAt b 6, epoch := fieldAt b 7 4, group := byteAt b 11, clsCode := byteAt b 12,
    evidence := byteAt b 13, gameActive := flagAt b 14 0, pauseUntil := fieldAt b 15 4 }

/-- A REFUSE body; causes WEAKER 1, BUSY 2, NOT-SERVED 3 (Table 12.6). -/
def refuseBytes (c : ClientAddr) (seq cause : Nat) : List Byte := addrBytes c ++ be 1 seq ++ be 1 cause

/-- A CANCEL body. -/
def cancelBytes (c : ClientAddr) (seq : Nat) : List Byte := addrBytes c ++ be 1 seq

/-- A SERVED notice body. -/
def servedBytes (c : ClientAddr) (epoch : Nat) (level : Int) (game : Bool) : List Byte :=
  addrBytes c ++ be 4 epoch ++ beSigned level ++ flagsByte [game]

/-- A SERVED notice read as a SIGHTINGS entry with the served flag set (R91). -/
def parseServed (b : List Byte) : SightingEntry :=
  { client := addrAt b 0, level := signed16 (fieldAt b 10 2), served := true, game := flagAt b 12 0,
    epoch := fieldAt b 6 4 }

/-! ## Policy records, stamps and the policy image (Table 12.9) -/

/-- The 4 bytes of a stamp: counter, then origin id. -/
def stampBytes (s : Stamp) : List Byte := be 2 s.counter ++ nodeBytes s.origin

def parseStamp (b : List Byte) (off : Nat) : Stamp :=
  { counter := fieldAt b off 2, origin := nodeAt b (off + 2) }

/-- The 388 bytes of all stamps in slot order, as in POLICY-LIST. -/
def stampListBytes (slots : List Slot) : List Byte := (slots.map fun s => stampBytes s.stamp).flatten

/-- The digest: the CRC-16 over the stamps in slot order (R104). -/
def digestOf (slots : List Slot) : Nat := crc16 (stampListBytes slots)

/-- The action codes BLOCK 1, LIMIT 2, INSTALL 3 (Table 12.9). -/
def actionCode : WindowAction → Nat
  | .block => 1 | .limit => 2 | .install => 3

/-- The action of a code (Table 12.9). -/
def actionOf : Nat → Option WindowAction
  | 1 => some .block | 2 => some .limit | 3 => some .install | _ => none

/-- Content bytes filled with 0 to the 12 bytes of the content field (R167). -/
def padContent (b : List Byte) : List Byte := b ++ List.replicate (12 - b.length) 0#8

/-- The 12 content bytes of a slot (Table 12.9). -/
def contentBytes : SlotContent → List Byte
  | .empty => padContent []
  | .tombstone => padContent []
  | .window w =>
    padContent (be 1 (actionCode w.action) ++ be 1 w.groups.toNat ++ be 1 w.days.toNat ++ be 2 w.startMinute ++
      be 2 w.stopMinute ++ be 1 w.cap)
  | .device d => padContent (addrBytes d.addr ++ be 1 d.group ++ be 1 (classCode d.cls) ++ be 4 d.pauseUntil)
  | .clock c => padContent (be 4 c.seconds ++ be 5 c.meshTime)

/-- The condition codes empty 0, record 1, tombstone 2 (Table 12.9). -/
def conditionCode : SlotContent → Nat
  | .empty => 0 | .tombstone => 2 | .window _ => 1 | .device _ => 1 | .clock _ => 1

/-- The 18 bytes of a policy record (Table 12.9). -/
def policyRecordBytes (n : Nat) (s : Slot) : List Byte :=
  be 1 n ++ be 1 (conditionCode s.content) ++ stampBytes s.stamp ++ contentBytes s.content

/-- The window record of 12 content bytes, if every field passes the checks of Table 7.2. -/
def parseWindow (b : List Byte) : Option WindowRecord :=
  match actionOf (byteAt b 0) with
  | none => none
  | some action =>
    let groups := BitVec.ofNat 8 (byteAt b 1)
    let days := BitVec.ofNat 7 (byteAt b 2)
    let startM := fieldAt b 3 2
    let stopM := fieldAt b 5 2
    let cap := byteAt b 7
    if (if action = .install then groups = 0#8 else groups ≠ 0#8) ∧ days ≠ 0#7 ∧ startM ≤ 1439 ∧ stopM ≤ 1439 ∧
        stopM ≠ startM ∧ (if action = .limit then 1 ≤ cap ∧ cap ≤ 15 else cap = 0) then
      some { action := action, groups := groups, days := days, startMinute := startM, stopMinute := stopM, cap := cap }
    else none

/-- The device record of 12 content bytes, if every field passes the checks of Table 7.2. -/
def parseDevice (b : List Byte) : Option DeviceRecord :=
  match classOf (byteAt b 7) with
  | none => none
  | some cls =>
    if addrAt b 0 ≠ 0#48 ∧ byteAt b 6 ≤ 7 ∧ fieldAt b 8 4 ≤ 71582788 then
      some { addr := addrAt b 0, group := byteAt b 6, cls := cls, pauseUntil := fieldAt b 8 4 }
    else none

/-- The clock record of 12 content bytes; the M0 check of Table 7.2 is made at local submission alone (R100). -/
def parseClock (b : List Byte) : ClockRecord := { seconds := fieldAt b 0 4, meshTime := fieldAt b 4 5 }

/-- The record of slot `n`'s bank kind that 12 content bytes hold, if it passes Table 7.2 but for M0 (Table 7.1). -/
def parseContent (n : Nat) (b : List Byte) : Option SlotContent :=
  if n < 32 then (parseWindow b).map .window
  else if n < 96 then (parseDevice b).map .device
  else if n = 96 then some (.clock (parseClock b))
  else none

/-- A policy record's slot number, condition code, stamp and content bytes, at an offset (Table 12.9). -/
structure RawRecord where
  slot : Nat
  condition : Nat
  stamp : Stamp
  content : List Byte
deriving DecidableEq, Repr

def parseRecordAt (b : List Byte) (off : Nat) : RawRecord :=
  { slot := byteAt b off, condition := byteAt b (off + 1), stamp := parseStamp b (off + 2),
    content := (b.drop (off + 6)).take 12 }

/-- The policy image: the 97 records in slot order and their CRC-32 (section 12.6). -/
def policyImageBytes (slots : List Slot) : List Byte :=
  let records := (slots.mapIdx policyRecordBytes).flatten
  records ++ le 4 (crc32 records)

/-- The slot that position `i` of a policy image holds, if it passes the checks of R110. -/
def parseImageSlot (b : List Byte) (i : Nat) : Option Slot :=
  let r := parseRecordAt b (18 * i)
  if r.condition = 0 then
    if r.stamp = { counter := 0, origin := 0#16 } then some { content := .empty, stamp := r.stamp } else none
  else if r.stamp.counter = 0 then none
  else if r.condition = 1 then (parseContent i r.content).map fun c => { content := c, stamp := r.stamp }
  else if r.condition = 2 then some { content := .tombstone, stamp := r.stamp }
  else none

/-- The 97 slots of a policy image; none for a bad image (R110). -/
def parsePolicyImage (b : List Byte) : Option (List Slot) :=
  if crc32 (b.take 1746) = checkAt b 1746 then (List.range 97).mapM (parseImageSlot b) else none

/-! ## Image head, head block, chunks (Table 12.10) -/

/-- The bytes of a head that its head check covers. -/
def headCoveredBytes (h : Head) : List Byte :=
  be 4 h.imageId ++ be 2 h.version ++ be 2 h.chunkCount ++ be 2 h.lastLength ++ be 1 h.indexCount ++
    (h.indexChecks.map (le 4)).flatten

/-- The 47 bytes of a head (Table 12.10). -/
def headBytes (h : Head) : List Byte := headCoveredBytes h ++ le 4 h.check

def parseHead (b : List Byte) : Head :=
  { imageId := fieldAt b 0 4, version := fieldAt b 4 2, chunkCount := fieldAt b 6 2, lastLength := fieldAt b 8 2,
    indexCount := byteAt b 10, indexChecks := (List.range 8).map fun i => checkAt b (11 + 4 * i),
    check := checkAt b 43 }

/-- Whether a head is valid: its head check matches and each field lies within its range (R134). -/
def Head.valid (h : Head) : Bool :=
  decide (h.check = crc32 (headCoveredBytes h)) && decide (1 ≤ h.imageId ∧ h.imageId < 2 ^ 32) &&
    decide (1 ≤ h.version ∧ h.version ≤ 65535) && decide (1 ≤ h.chunkCount ∧ h.chunkCount ≤ 8192) &&
    decide (1 ≤ h.lastLength ∧ h.lastLength ≤ 4096) && decide (h.indexCount = (h.chunkCount + 1023) / 1024)

/-- Head `x` is newer than `y`: higher version, or equal versions and higher image id (R134). -/
def Head.newerThan (x y : Head) : Bool :=
  decide (y.version < x.version ∨ (x.version = y.version ∧ y.imageId < x.imageId))

/-- The 4096 bytes of the head block: the head, the installed marker, 0xFF (section 12.6). Any value but 0xA5 says that
the marker is clear; 0xFF is written (DESIGN CHOICE, unsafe: log entry 42). -/
def headBlockBytes (h : Head) (marker : Bool) : List Byte :=
  headBytes h ++ be 1 (if marker then 0xA5 else 0xFF) ++ List.replicate 4048 0xFF#8

/-- The installed marker of a head block: set for 0xA5 in byte 47 alone. -/
def parseMarker (b : List Byte) : Bool := decide (byteAt b 47 = 0xA5)

/-- The 9 bytes that name a chunk of an image: id, version, chunk kind, chunk number (Table 12.6, FETCH). -/
def chunkNameBytes (h : Head) (c : ChunkRef) : List Byte :=
  be 4 h.imageId ++ be 2 h.version ++
    (match c with
      | .data k => be 1 0 ++ be 2 k
      | .index i => be 1 1 ++ be 2 i)

/-- The chunk named at bytes 6–8; none for a chunk kind that is neither data nor index. -/
def parseChunkRef (b : List Byte) : Option ChunkRef :=
  if byteAt b 6 = 0 then some (.data (fieldAt b 7 2))
  else if byteAt b 6 = 1 then some (.index (fieldAt b 7 2))
  else none

/-- Whether the id and version at bytes 0–5 are a head's. -/
def namesHead (b : List Byte) (h : Head) : Bool := decide (fieldAt b 0 4 = h.imageId ∧ fieldAt b 4 2 = h.version)

/-- The 1024 check entries of an index chunk (R134). -/
def parseIndexEntries (b : List Byte) : List Nat := (List.range 1024).map fun j => checkAt b (4 * j)

/-! ## Configuration block (Table 12.11) -/

def configBytes (c : Configuration) : List Byte :=
  nodeBytes c.nodeId ++ be 1 c.radioCount ++ be 1 c.kCode ++ be 1 c.marginCode ++ be 1 c.nConf ++ be 1 c.beaconCode ++
    be 1 c.errorCode ++ be 1 c.creditCode ++ be 1 c.gameCode ++ be 1 c.drainCode ++ be 1 c.flashCode

def parseConfig (b : List Byte) : Configuration :=
  { nodeId := nodeAt b 0, radioCount := byteAt b 2, kCode := byteAt b 3, marginCode := byteAt b 4, nConf := byteAt b 5,
    beaconCode := byteAt b 6, errorCode := byteAt b 7, creditCode := byteAt b 8, gameCode := byteAt b 9,
    drainCode := byteAt b 10, flashCode := byteAt b 11 }

/-- A node id that a node may have (Table 12.1). -/
def validNodeId (id : NodeId) : Bool := decide (id ≠ 0#16 ∧ id ≠ allNodes)

/-- Whether the codes and the radio count lie within Table 12.1. -/
def codesInRange (c : Configuration) : Bool :=
  decide (1 ≤ c.radioCount ∧ c.radioCount ≤ 3 ∧ c.kCode ≤ 3 ∧ c.marginCode ≤ 3 ∧ 1 ≤ c.nConf ∧ c.nConf ≤ 3 ∧
    c.beaconCode ≤ 2 ∧ c.errorCode ≤ 2 ∧ c.creditCode ≤ 3 ∧ c.gameCode ≤ 3 ∧ c.drainCode ≤ 2 ∧ c.flashCode ≤ 2)

/-- The detail of CONFIG-BAD for a block that was read: the first check of R159 that fails; none when it is accepted. -/
def configProblem (b : List Byte) : Option Nat :=
  if crc16 (b.take 12) ≠ fieldAt b 12 2 then some 1
  else if !validNodeId (nodeAt b 0) then some 2
  else if !codesInRange (parseConfig b) then some 3
  else none

/-! ## Event records (Table 12.12) and the fault record (Table 12.14) -/

def EventRecord.bytes (e : EventRecord) : List Byte :=
  be 1 (eventCode e.kind) ++ be 4 e.time ++ addrBytes e.subject ++ be 1 e.detail

/-- The FAULT-READ body (Table 12.14). Kind 0 says that no fault is held; class, mesh time and detail are then sent as 0
(DESIGN CHOICE, unsafe: log entry 42). -/
def faultBytes (f : Frc) : List Byte :=
  (match f.first with
    | none => be 1 0 ++ be 1 0 ++ timeBytes 0 ++ be 1 0
    | some r => be 1 (faultCode r.kind) ++ be 1 (faultClassCode r.cls) ++ timeBytes r.time ++ be 1 r.detail) ++
    be 1 f.later.toNat

/-- The bytes of a response on the local port (Table 12.13). -/
def Response.bytes (r : Response) : List Byte := r.kind :: be 1 (resultCode r.result) ++ be 2 r.body.length ++ r.body

/-! ## CLIENT-READ (Table 12.16) -/

/-- Bytes 7–9: the serving state with its radio index or server id. -/
def servingBytes : Serving → List Byte
  | .served radio => be 1 1 ++ be 2 radio
  | .remote id => be 1 2 ++ nodeBytes id
  | .unseen => be 1 3 ++ be 2 0

def PeerReport.bytes (p : PeerReport) : List Byte :=
  nodeBytes p.peer ++ beSigned p.level ++ flagsByte [p.served, p.game] ++ timeBytes p.time

/-- Bytes 24–53: three report places, those beyond the number held 0. -/
def reportBytes (ps : List PeerReport) : List Byte :=
  let held := ((ps.take 3).map PeerReport.bytes).flatten
  held ++ List.replicate (30 - held.length) 0#8

/-- Bytes 64–71: the release context (Table 12.16). Without one the claimant id is 0; the claim seq and the deadline are
then sent as 0 too (DESIGN CHOICE, unsafe: log entry 42). -/
def releaseBytes : Option ReleaseContext → List Byte
  | none => be 2 0 ++ be 1 0 ++ be 5 0
  | some c => nodeBytes c.claimant ++ be 1 c.seq ++ deadlineBytes c.deadline

/-- Bytes 91–96: the claimant context. -/
def claimContextBytes : Option ClaimContext → List Byte
  | none => be 1 0 ++ be 2 0 ++ be 1 0 ++ be 2 0
  | some c =>
    be 1 (match c.state with
      | .claiming => 1
      | .admitting => 2) ++ nodeBytes c.server ++ be 1 c.seq ++ beSigned c.score

/-- Bytes 97–99: the pending control directive. -/
def controlBytes : Option ControlDirective → List Byte
  | none => be 1 0 ++ be 2 0
  | some (.steer target) => be 1 1 ++ nodeBytes target
  | some .disconnect => be 1 2 ++ be 2 0

/-- Bytes 100–101: the pending enforcement directive. -/
def enforcementBytes : Option EnforcementDirective → List Byte
  | none => be 1 0 ++ be 1 0
  | some .pause => be 1 1 ++ be 1 0
  | some .resume => be 1 2 ++ be 1 0
  | some (.cap code) => be 1 3 ++ be 1 code

def priorityCode : Priority → Nat
  | .normal => 0 | .game => 1

/-- The CLIENT-READ body of record `n` (Table 12.16). -/
def clientBytes (n : Nat) (r : ClientRecord) (claim : Option ClaimContext) : List Byte :=
  be 1 n ++ addrBytes r.addr ++ servingBytes r.serving ++
    flagsByte [r.admitPending.isSome, r.localLevel.isSome, r.sightTime.isSome, r.claimHoldoff.isSome, r.release.isSome,
      r.gameActive, r.remoteDeadline.isSome, r.carriedPause.isSome] ++
    deadlineOptBytes r.admitPending ++ beSigned (r.localLevel.getD 0) ++ timeBytes (r.sightTime.getD 0) ++
    be 1 r.reports.length ++ reportBytes r.reports ++ be 4 r.epoch ++ be 1 r.confirm ++
    deadlineOptBytes r.claimHoldoff ++ releaseBytes r.release ++ be 1 r.group ++ be 1 (classCode r.cls) ++
    be 1 r.evidence ++ be 1 (effectiveCode r.effective) ++ timeBytes r.lastActivity ++
    deadlineOptBytes r.remoteDeadline ++ be 4 (r.carriedPause.getD 0) ++ be 1 (priorityCode r.directed) ++
    claimContextBytes claim ++ controlBytes r.pendingControl ++ enforcementBytes r.pendingEnforcement ++
    be 1 (match r.pendingPriority with
      | none => 0
      | some .normal => 1
      | some .game => 2)

/-! ## NEIGHBOUR-READ (Table 12.17) -/

def entryBytes (n : Nat) (e : Entry) : List Byte :=
  be 1 n ++ nodeBytes e.id ++ be 1 (linkCode e.link) ++ be 1 e.joinCount ++ be 1 e.missCount ++ be 1 e.badFrames ++
    be 1 e.goodRun ++ deadlineBytes e.dueDeadline ++ be 1 e.sinceWindow ++ be 1 e.adv.load ++
    flagsByte [e.adv.gameActive, e.adv.drainIntent, e.adv.clockValid, e.answered, e.listGuard.isSome] ++
    be 1 (installCode e.adv.install) ++ be 1 (imageCode e.adv.image) ++ be 4 e.adv.imageId ++
    be 2 e.adv.imageVersion ++ be 4 e.adv.segments.toNat ++ be 2 e.adv.digest ++ be 1 e.adv.servedCount ++
    be 1 e.fetchFails ++ deadlineOptBytes e.listGuard

end Sys2Proof.Machine
end

