-- ==== Sys2Proof/Machine/Operands.lean ====
section
/-! DEFINITION. The operand forms: a received frame and its form check (R3), a request and its body length (R163), a
radio link's report (R51). -/

namespace Sys2Proof.Machine

open Sys2Proof

/-- Whether a body length is allowed for a kind, with the count byte where the kind has one (Table 12.6, R167). -/
def lengthAllowed (kind : FrameKind) (b : List Byte) : Bool :=
  match kind with
  | .beacon => decide (b.length = 22)
  | .sightings => decide (1 ≤ byteAt b 0 ∧ byteAt b 0 ≤ 24 ∧ b.length = 1 + 13 * byteAt b 0)
  | .claim => decide (b.length = 9)
  | .grant => decide (b.length = 19)
  | .refuse => decide (b.length = 8)
  | .cancel => decide (b.length = 7)
  | .served => decide (b.length = 13)
  | .policyList => decide (b.length = 388)
  | .policyGet => decide (b ≠ [] ∧ byteAt b 0 ≤ 97 ∧ b.length = 1 + byteAt b 0)
  | .policyRecord => decide (1 ≤ byteAt b 0 ∧ byteAt b 0 ≤ 8 ∧ b.length = 1 + 18 * byteAt b 0)
  | .headGet => decide (b.length = 0)
  | .head => decide (b.length = 47)
  | .fetch => decide (b.length = 9)
  | .chunk => decide (b.length = 4105)

/-- Whether a kind goes to all nodes (Table 1.1). -/
def isBroadcast : FrameKind → Bool
  | .beacon | .sightings | .served => true
  | .claim | .grant | .refuse | .cancel | .policyList | .policyGet | .policyRecord | .headGet | .head | .fetch
  | .chunk => false

/-- Whether a frame passes the form check of R3: not one of its six bad cases. The kind is one of Table 1.1's. -/
def frameFormOk (kind : FrameKind) (f : RxFrame) : Bool :=
  decide (f.check = frameCheck kind f.src f.dst f.body) && lengthAllowed kind f.body && validNodeId f.src &&
    (if isBroadcast kind then decide (f.dst = allNodes) else validNodeId f.dst)

/-- The kind and the frame that raw frame bytes hold (Table 12.5); none for a kind code outside Table 1.1, or bytes that
the length field does not fit, both of which make the frame bad (R3). -/
def parseFrame (b : List Byte) : Option (FrameKind × RxFrame) :=
  let length := fieldAt b 5 2
  if b.length ≠ length + 11 then none
  else
    (frameKindOf (byteAt b 0)).map fun kind =>
      (kind, { src := nodeAt b 1, dst := nodeAt b 3, body := (b.drop 7).take length, check := checkAt b (7 + length) })

/-- The request codes of Table 12.14. -/
inductive RequestKind where
  | status | eventRead | policySubmit | policyRead | clientRead | neighbourRead | headSubmit | chunkSubmit
  | imageInstalled | faultRead | faultClear | restart
deriving DecidableEq, Repr

/-- Table 12.14. -/
def requestCode : RequestKind → Nat
  | .status => 1 | .eventRead => 2 | .policySubmit => 3 | .policyRead => 4 | .clientRead => 5 | .neighbourRead => 6
  | .headSubmit => 7 | .chunkSubmit => 8 | .imageInstalled => 9 | .faultRead => 10 | .faultClear => 11 | .restart => 12

/-- The request bodies' lengths (Table 12.14). -/
def requestLength : RequestKind → Nat
  | .status => 0 | .eventRead => 0 | .policySubmit => 18 | .policyRead => 1 | .clientRead => 8 | .neighbourRead => 1
  | .headSubmit => 47 | .chunkSubmit => 4105 | .imageInstalled => 0 | .faultRead => 0 | .faultClear => 0 | .restart => 0

/-- The requests answered in CONFIG-HALT as when running (R160). -/
def answeredInHalt : RequestKind → Bool
  | .status | .eventRead | .faultRead | .clientRead => true
  | .policySubmit | .policyRead | .neighbourRead | .headSubmit | .chunkSubmit | .imageInstalled | .faultClear
  | .restart => false

/-- The request kinds in code order. -/
def requestKinds : List RequestKind :=
  [.status, .eventRead, .policySubmit, .policyRead, .clientRead, .neighbourRead, .headSubmit, .chunkSubmit,
   .imageInstalled, .faultRead, .faultClear, .restart]

/-- The request a kind byte names, if any (Table 12.14). -/
def requestOf (code : Byte) : Option RequestKind := requestKinds.find? (fun k => requestCode k == code.toNat)

/-- Whether the RLI takes a report of a radio link: a configured link and a client address other than 0 (R51). -/
def State.reportTaken (s : State) (radio : Nat) (client : ClientAddr) : Bool :=
  decide (radio < s.cfg.radioCount) && decide (client ≠ 0#48)

/-- Whether a DISASSOC cause is one of the four (R51). -/
def causeKnown : RadioCause → Bool
  | .left | .steered | .kicked | .timeout => true
  | .other _ => false

end Sys2Proof.Machine
end

