-- ==== Sys2Proof/Machine/Channel.lean ====
section
/-! DEFINITION. The Backhaul Channel Unit (chapter 1): building and queueing frames, the check and dispatch of received
ones, contention and the class arbiter, request slots, game credit, bulk access under the yield condition, the load. -/

namespace Sys2Proof.Machine

open Sys2Proof

/-! ## Contention state of a class -/

/-- The parameters a class uses: a demoted GAME request uses NORMAL's (R18). -/
def Bcu.params (b : Bcu) (c : AccessClass) : ClassParams :=
  if c = .game ∧ b.demoted = true then classParams .normal else classParams c

def Bcu.contention (b : Bcu) : AccessClass → Contention
  | .control => b.controlState
  | .game => b.gameState
  | .normal => b.normalState
  | .bulk => b.bulkState

def Bcu.modContention (b : Bcu) (c : AccessClass) (f : Contention → Contention) : Bcu :=
  match c with
  | .control => { b with controlState := f b.controlState }
  | .game => { b with gameState := f b.gameState }
  | .normal => { b with normalState := f b.normalState }
  | .bulk => { b with bulkState := f b.bulkState }

/-- Whether a class has pending work (R8, section 1.3): a frame at the head of its queue, or a burst in its slot. A
reservation at the head of the bulk queue is not an item (R15). -/
def Bcu.hasWork (b : Bcu) : AccessClass → Bool
  | .control => !b.controlQueue.isEmpty
  | .game => b.gameSlot.isSome
  | .normal => b.normalSlot.isSome
  | .bulk =>
    match b.bulkQueue with
    | .filled _ :: _ => true
    | .reserved _ _ :: _ => false
    | [] => false

/-- A class's deferral count at its full deferral (R9). -/
def Bcu.fullDeferral (b : Bcu) (c : AccessClass) : Bcu :=
  b.modContention c fun k => { k with deferral := (b.params c).deferral }

/-- The medium becomes BUSY: every class's deferral count is set back, held backoff counts are frozen (R9, R10). -/
def Bcu.becomeBusy (b : Bcu) : Bcu :=
  let b := { b with medium := .busy }
  classRanks.foldl Bcu.fullDeferral b

/-- The BCU after a change of its queues or slots: a class that gains pending work by it begins with its full deferral
(R9). -/
def Bcu.gaining (c : AccessClass) (old new : Bcu) : Bcu :=
  if !old.hasWork c && new.hasWork c then new.fullDeferral c else new

/-! ## The control queue (R13, R14) -/

/-- The queue with `f` in place of the BEACON nearest the head and without the other BEACONs (R14). -/
def replaceBeacon (f : TxFrame) : List TxFrame → List TxFrame
  | [] => []
  | x :: xs => if x.kind = .beacon then f :: xs.filter (fun y => y.kind ≠ .beacon) else x :: replaceBeacon f xs

/-- The frame at the head that is in flight, which R14 leaves alone, and the rest of the control queue. -/
def Bcu.splitControl (b : Bcu) : List TxFrame × List TxFrame :=
  if b.inFlight = some .control then (b.controlQueue.take 1, b.controlQueue.drop 1) else ([], b.controlQueue)

/-- Places a built frame other than a CHUNK in the control queue: a BEACON replaces one that is not in flight; any other
frame, or a BEACON that finds none to replace, joins the tail, or is dropped and counted at a full queue. -/
def Bcu.placeControl (b : Bcu) (f : TxFrame) : Bcu :=
  let (flying, rest) := b.splitControl
  if f.kind = .beacon ∧ rest.any (fun x => x.kind = .beacon) then
    { b with controlQueue := flying ++ replaceBeacon f rest }
  else if b.controlQueue.length < 8 then
    Bcu.gaining .control b { b with controlQueue := b.controlQueue ++ [f] }
  else { b with controlDrops := count16 b.controlDrops }

/-! ## The bulk queue (R15) -/

/-- Asks for a place in the bulk queue for a chunk to be served to a peer; none when both places are taken. -/
def Bcu.reserve (b : Bcu) (peer : NodeId) (c : ChunkRef) : Option Bcu :=
  if b.bulkQueue.length < 2 then some { b with bulkQueue := b.bulkQueue ++ [.reserved peer c] } else none

/-- The first reservation for this peer and chunk, filled with its frame. -/
def fillPlace (peer : NodeId) (c : ChunkRef) (f : TxFrame) : List BulkPlace → List BulkPlace
  | [] => []
  | x :: xs => if x = .reserved peer c then .filled f :: xs else x :: fillPlace peer c f xs

/-- A CHUNK frame fills its reservation, keeping the reservation's position (R15). -/
def Bcu.fillReservation (b : Bcu) (peer : NodeId) (c : ChunkRef) (f : TxFrame) : Bcu :=
  Bcu.gaining .bulk b { b with bulkQueue := fillPlace peer c f b.bulkQueue }

/-- The IMS withdraws the first reservation for this peer and chunk; the queue closes up (R15). -/
def Bcu.withdrawReservation (b : Bcu) (peer : NodeId) (c : ChunkRef) : Bcu :=
  Bcu.gaining .bulk b { b with bulkQueue := b.bulkQueue.erase (.reserved peer c) }

/-- Whether a place of the bulk queue holds a frame. -/
def BulkPlace.isFilled : BulkPlace → Bool
  | .filled _ => true
  | .reserved _ _ => false

/-- Every reservation withdrawn (R138, R145). -/
def Bcu.withdrawAll (b : Bcu) : Bcu :=
  Bcu.gaining .bulk b { b with bulkQueue := b.bulkQueue.filter BulkPlace.isFilled }

/-! ## Sending a frame (R1) -/

/-- A block hands the BCU a body of any kind but CHUNK for a destination (R1). In CONFIG-HALT it is discarded, and
before the configuration block is accepted the BCU builds no frame (R21). -/
def State.sendFrame (s : State) (kind : FrameKind) (dst : NodeId) (body : List Byte) : State :=
  if s.run = .running then s.modBcu (·.placeControl (buildFrame kind s.ownId dst body)) else s

/-- The IMS hands the BCU a CHUNK body for a peer, which fills its reservation (R1, R15). -/
def State.sendChunk (s : State) (peer : NodeId) (c : ChunkRef) (body : List Byte) : State :=
  if s.run = .running then s.modBcu (·.fillReservation peer c (buildFrame .chunk s.ownId peer body)) else s

/-! ## Received frames (R3 to R5, R31) -/

/-- Counts a bad frame against the entry in a slot; an ACTIVE entry whose count reaches the threshold enters FAILING
with PEER-FAILING (BAD-FRAMES) (R31). -/
def State.chargeBadFrame (s : State) (i : Nat) : State :=
  match s.entry i with
  | none => s
  | some e =>
    let n := satSucc 255 e.badFrames
    if e.link = .active ∧ badFrameThreshold s.cfg ≤ n then
      (s.modEntry i fun e => { e with badFrames := n, link := .failing, goodRun := 0 }).queueEvent
        .peerFailing (nodeSubject e.id) Detail.badFrames
    else s.modEntry i fun e => { e with badFrames := n }

/-- Counts a bad frame against the entry of node `id`, if there is one (R31). -/
def State.chargeBadFrameTo (s : State) (id : NodeId) : State :=
  match s.findEntry id with
  | none => s
  | some i => s.chargeBadFrame i

/-- A bad frame is dropped, counted by the BCU and charged to the entry of its link source id (R3). -/
def State.dropBadFrame (s : State) (link : NodeId) : State :=
  (s.modBcu fun b => { b with badFrames := count16 b.badFrames }).chargeBadFrameTo link

/-- Whether frames other than BEACON from node `id` are dispatched: its entry is ACTIVE or FAILING (R4). -/
def State.isMember (s : State) (id : NodeId) : Bool := (s.entryOf id).any (fun e => decide (e.link ≠ .heard))

/-- Takes a frame of a kind as R3 to R5 say and hands it to the owning block's `take` with its source and body. Before
the configuration is accepted and in CONFIG-HALT every frame is discarded without check or count (log entry 18). -/
def State.receive (s : State) (kind : FrameKind) (link : NodeId) (f : RxFrame)
    (take : NodeId → List Byte → State → State) : State :=
  if s.run ≠ .running then s
  else if !frameFormOk kind f then s.dropBadFrame link
  else if f.dst ≠ allNodes ∧ f.dst ≠ s.ownId then s
  else if kind ≠ .beacon ∧ s.isMember f.src = false then s.modBcu fun b => { b with nonMember := count16 b.nonMember }
  else take f.src f.body s

/-! ## Counting idle slots and the class arbiter (R9 to R11, R17, R18) -/

/-- A class draws a backoff count from 0..CW, CW being its present contention window (R10). -/
def State.drawBackoff (s : State) (c : AccessClass) : State :=
  let (n, s) := s.drawUpTo (s.bcu.contention c).window
  s.modBcu (·.modContention c fun k => { k with backoff := some n })

/-- Whether a class holds a backoff count of 0. -/
def Bcu.atZero (b : Bcu) (c : AccessClass) : Bool := (b.contention c).backoff == some 0

/-- One class counts an idle slot: its deferral, and when that has ended its backoff; and whether it has reached zero on
this slot. BULK does not count while the yield condition holds (R19). A class with deferral 0 and a held count of 0 is at
zero (DEDUCED, unsafe: log entry 22). -/
def State.countSlot (s : State) (c : AccessClass) : State × Bool :=
  if s.bcu.hasWork c = false ∨ (c = .bulk ∧ s.bcu.yielding = true) then (s, false)
  else
    let k := s.bcu.contention c
    if 1 < k.deferral then
      (s.modBcu (·.modContention c fun k => { k with deferral := k.deferral - 1 }), false)
    else
      let s' :=
        match k.backoff with
        | none => s.drawBackoff c
        | some n =>
          if k.deferral = 0 then s.modBcu (·.modContention c fun k => { k with backoff := some (n - 1) }) else s
      let s' := s'.modBcu (·.modContention c fun k => { k with deferral := 0 })
      (s', s'.bcu.atZero c)

/-- Every class counts an idle slot, and the classes that have reached zero on it, by rank. -/
def State.countAll : List AccessClass → State → State × List AccessClass
  | [], s => (s, [])
  | c :: cs, s =>
    let (s, zero) := s.countSlot c
    let (s, rest) := State.countAll cs s
    (s, if zero then c :: rest else rest)

/-- A GAME request taken by the arbiter with credit 0 is demoted: NORMAL's parameters, CW 15, the retry count kept, a new
backoff count from 0..15 (R18). -/
def State.demote (s : State) : State :=
  (s.modBcu fun b => { b with demoted := true, gameState := { b.gameState with window := 15 } }).drawBackoff .game

/-- The arbiter goes down the classes at zero and takes the first that can start, demoting a GAME class without credit on
its way; the classes after it have lost (R11). -/
def State.arbitrate : List AccessClass → State → State × Option (AccessClass × List AccessClass)
  | [], s => (s, none)
  | c :: cs, s =>
    if c = .game ∧ s.bcu.demoted = false ∧ s.bcu.credit = 0 then State.arbitrate cs s.demote else (s, some (c, cs))

/-- A BEACON handed to the transceiver receives the present mesh time and a new check value (R2). -/
def stampBeacon (now : Nat) (f : TxFrame) : TxFrame :=
  if f.kind = .beacon then buildFrame .beacon f.src f.dst (timeBytes now ++ f.body.drop 5) else f

/-- The directive with which a class starts its current item: FRAME-OUT with its head frame, or BURST-GO (R11). -/
def Bcu.startOutput (b : Bcu) : AccessClass → Option Output
  | .control => b.controlQueue.head?.map fun f => .frameOut f.bytes
  | .game => b.gameSlot.map .burstGo
  | .normal => b.normalSlot.map .burstGo
  | .bulk =>
    match b.bulkQueue with
    | .filled f :: _ => some (.frameOut f.bytes)
    | .reserved _ _ :: _ => none
    | [] => none

/-- The control queue with its head stamped if it is a BEACON (R2). -/
def Bcu.stampHead (b : Bcu) (now : Nat) : Bcu :=
  { b with controlQueue := b.controlQueue.modifyHead (stampBeacon now) }

/-- The chosen class transmits: its backoff count is discarded, a GAME attempt that is not demoted consumes one credit
(R17), the transmission is in flight and the medium is BUSY (R7, R11). -/
def State.startTransmission (s : State) (c : AccessClass) : State :=
  let s := if c = .control then s.modBcu (·.stampHead s.now) else s
  let s' := s.modBcu fun b =>
    let b := b.modContention c fun k => { k with backoff := none }
    let b := if c = .game ∧ b.demoted = false then { b with credit := b.credit - 1 } else b
    { b with inFlight := some c }.becomeBusy
  match s.bcu.startOutput c with
  | none => s'
  | some o => s'.emit o

/-- An idle slot that the BCU acts on (R9 to R11). -/
def State.takeIdleSlot (s : State) : State :=
  let (s, zero) := State.countAll classRanks s
  match State.arbitrate zero s with
  | (s, none) => s
  | (s, some (c, lost)) => (lost.foldl State.drawBackoff s).startTransmission c

/-! ## Outcomes (R12) -/

/-- The item of a class has ended: the frame leaves its queue, or the slot is emptied, a demotion ends, and CW and the
retry count return to rest (R12, R18). The class is left with its full deferral, which the next IDLE-SLOT counts; where
MEDIUM-IDLE was taken before the outcome, no further one is waited for (DESIGN CHOICE, unsafe: log entry 44). -/
def Bcu.finishItem (b : Bcu) (c : AccessClass) : Bcu :=
  let b :=
    match c with
    | .control => { b with controlQueue := b.controlQueue.drop 1 }
    | .game => { b with gameSlot := none, demoted := false }
    | .normal => { b with normalSlot := none }
    | .bulk => { b with bulkQueue := b.bulkQueue.drop 1 }
  let b := b.modContention c fun k => { k with window := (b.params c).windowMin, retry := 0, backoff := none }
  { b with inFlight := none }.fullDeferral c

/-- An item dropped beyond its retry limit: own frames are counted, a burst is given up with ACCESS-DROP (R12). -/
def State.dropItem (s : State) (c : AccessClass) : State :=
  let handle :=
    match c with
    | .control => none
    | .game => s.bcu.gameSlot
    | .normal => s.bcu.normalSlot
    | .bulk => none
  let own := c = .control ∨ c = .bulk
  let s := s.modBcu fun b =>
    (if own then { b with ownDrops := count16 b.ownDrops } else b).finishItem c
  match handle with
  | none => s
  | some h => s.emit (.accessDrop h)

/-- A collision: CW doubles and the retry count rises, or the item is dropped beyond the retry limit (R12). -/
def State.takeCollision (s : State) (c : AccessClass) : State :=
  let p := s.bcu.params c
  if (s.bcu.contention c).retry + 1 ≤ p.retryLimit then
    s.modBcu fun b =>
      { b.modContention c fun k => { k with window := min (2 * k.window + 1) p.windowMax, retry := k.retry + 1 } with
        inFlight := none }
  else s.dropItem c

/-! ## Request slots (R16) -/

/-- The slot of a class a BURST-REQUEST names. -/
def Bcu.requestSlot (b : Bcu) : BurstClass → Option Nat
  | .game => b.gameSlot
  | .normal => b.normalSlot

def Bcu.fillRequest (b : Bcu) (c : BurstClass) (h : Nat) : Bcu :=
  match c with
  | .game => Bcu.gaining .game b { b with gameSlot := some h }
  | .normal => Bcu.gaining .normal b { b with normalSlot := some h }

/-! ## The load figure (R20) -/

/-- Keeps an AIRTIME value, clamped to 100, with its arrival; a fifth removes the oldest (R20). -/
def Bcu.keepAirtime (b : Bcu) (radio percent now : Nat) : Bcu :=
  { b with
    airtime := b.airtime.modify radio fun vs =>
      let vs := vs ++ [{ percent := min percent 100, arrival := now }]
      vs.drop (vs.length - 4) }

/-- The own load: 100 in DRAINING and STAGED, else the largest kept value not older than 2048 ticks, else 0 (R20). -/
def State.ownLoad (s : State) : Nat :=
  if s.icu.install = .draining ∨ s.icu.install = .staged then 100
  else
    s.bcu.airtime.flatten.foldl (fun m v => if s.now - v.arrival ≤ 2048 then max m v.percent else m) 0

/-! ## The restart notice (R21 and the initial values of chapter 1) -/

/-- Serve reads that wait are withdrawn and a running one's result is discarded (R143, R148). -/
def Flp.voidServeReads (f : Flp) : Flp :=
  { waiting := f.waiting.filter fun r =>
      match r.kind with
      | .serveRead _ _ => false
      | _ => true
    operation := f.operation.map fun o =>
      match o.kind with
      | .serveRead _ _ => { o with discard := true }
      | _ => o }

/-- The handles answered with ACCESS-DROP at a link restart: occupied slots whose request is not in flight (R16). -/
def Bcu.droppedHandles (b : Bcu) : List Nat :=
  (if b.inFlight = some .game then [] else b.gameSlot.toList) ++
    (if b.inFlight = some .normal then [] else b.normalSlot.toList)

/-- The link-restart values of the BCU; its view of the yield condition stands until a notice changes it
(DESIGN CHOICE, unsafe: log entry 10). The medium is
queried (R7) and the IMS is told that its reservations are void (R15). The ACCESS-DROP of the GAME slot is given first,
then NORMAL's, then the query (DESIGN CHOICE, unsafe: log entry 41). -/
def State.restartBcu (s : State) : State :=
  let handles := s.bcu.droppedHandles
  let s := s.modBcu fun b =>
    { Bcu.reset with
      credit := creditCapacity s.cfg, refillDeadline := some (s.now + 64), yielding := b.yielding }
  let s := s.modFlp Flp.voidServeReads
  (handles.foldl (fun s h => s.emit (.accessDrop h)) s).emit .mediumQuery

end Sys2Proof.Machine
end

