-- ==== Sys2Proof/Machine/Radio.lean ====
section
/-! DEFINITION. The Radio Link Interface (section 4.2): issuing a directive, its place in the waiting list, sending the
pending directives in order, and what every event ends with: the RLI sends what it can and the output lines are driven. -/

namespace Sys2Proof.Machine

open Sys2Proof

/-- The lists of the three radios with one replaced by `f` of it. -/
def modRadio {α : Type} (l : List (List α)) (r : Nat) (f : List α → List α) : List (List α) := l.modify r f

/-- A record joins the tail of a radio's waiting list. -/
def State.joinWaiting (s : State) (radio i : Nat) : State :=
  s.modRli fun l => { l with waiting := modRadio l.waiting radio (· ++ [i]) }

/-- A record leaves every waiting list. -/
def State.leaveWaiting (s : State) (i : Nat) : State :=
  s.modRli fun l => { l with waiting := l.waiting.map fun w => w.filter (· ≠ i) }

/-- Issues a directive, written into the record by `put`, for record `i`: discarded unless the record is SERVED; the
record joins its radio's waiting list if it held no pending directive (R52). -/
def State.issue (s : State) (i : Nat) (put : ClientRecord → ClientRecord) : State :=
  match s.record i with
  | none => s
  | some r =>
    match r.servedOn with
    | none => s
    | some radio => (if r.hasPending then s else s.joinWaiting radio i).modRecord i put

def State.issueControl (s : State) (i : Nat) (d : ControlDirective) : State :=
  s.issue i fun r => { r with pendingControl := some d }

/-- Discards an unsent directive of record `i`, taken out of it by `drop`; a record left without pending directives
leaves the waiting list (R52). -/
def State.withdraw (s : State) (i : Nat) (drop : ClientRecord → ClientRecord) : State :=
  match s.record i with
  | none => s
  | some r =>
    let s := s.modRecord i drop
    if (drop r).hasPending then s else s.leaveWaiting i

/-- The effective state that an enforcement directive has the radio apply; CAP (none) is no cap (R118). -/
def EnforcementDirective.applied : EnforcementDirective → Effective
  | .pause => .paused
  | .resume => .open
  | .cap 0 => .open
  | .cap c => .capped c

/-- Issues an enforcement directive. One that would replace an unsent one and return the radio to what it already applies
is sent as nothing: the unsent one is withdrawn (R118; DESIGN CHOICE, unsafe: log entry 39). -/
def State.issueEnforcement (s : State) (i : Nat) (d : EnforcementDirective) : State :=
  match s.record i with
  | none => s
  | some r =>
    if r.pendingEnforcement.isSome ∧ d.applied = r.enforced then
      s.withdraw i fun r => { r with pendingEnforcement := none }
    else s.issue i fun r => { r with pendingEnforcement := some d }

def State.issuePriority (s : State) (i : Nat) (p : Priority) : State :=
  s.issue i fun r => { r with pendingPriority := some p }

/-- A record without pending directives and with nothing sent to its radio: the next radio applies no enforcement until
directed (R53, R119). -/
def ClientRecord.withoutPending (r : ClientRecord) : ClientRecord :=
  { r with enforced := .open, pendingControl := none, pendingEnforcement := none, pendingPriority := none }

/-- A record's pending directives are discarded and it leaves its waiting list (R53). -/
def State.discardPending (s : State) (i : Nat) : State := (s.leaveWaiting i).modRecord i (·.withoutPending)

/-- Discards an unsent STEER toward `target`; a record left without pending directives leaves the waiting list (R89). -/
def State.discardSteer (s : State) (i : Nat) (target : NodeId) : State :=
  match s.record i with
  | none => s
  | some r =>
    if r.pendingControl = some (.steer target) then s.withdraw i fun r => { r with pendingControl := none } else s

/-- The pending directive a record sends next, and the record without it: control, PRIORITY (NORMAL), enforcement,
PRIORITY (GAME) (R52). An enforcement directive sent is what the radio then applies (R118). -/
def ClientRecord.nextDirective (r : ClientRecord) : Option (Directive × ClientRecord) :=
  match r.pendingControl, r.pendingPriority, r.pendingEnforcement with
  | some d, _, _ => some (.control r.addr d, { r with pendingControl := none })
  | none, some .normal, _ => some (.priority r.addr .normal, { r with pendingPriority := none })
  | none, _, some d => some (.enforcement r.addr d, { r with pendingEnforcement := none, enforced := d.applied })
  | none, some .game, none => some (.priority r.addr .game, { r with pendingPriority := none })
  | none, none, none => none

/-- Sends a directive to a radio: it joins the tail of the in-flight queue. PRIORITY (GAME) is mirrored to the
transceiver at this moment (R128). -/
def State.sendDirective (s : State) (radio : Nat) (d : Directive) : State :=
  let s := (s.modRli fun l => { l with inFlight := modRadio l.inFlight radio (· ++ [d]) }).emit (.directive radio d)
  match d with
  | .priority client .game => s.emit (.mirror client .game)
  | .priority _ .normal => s
  | .control _ _ => s
  | .enforcement _ _ => s

/-- The RLI sends pending directives of the record at the head of a radio's waiting list until the in-flight queue holds
16 or the list is empty (R52). Each round sends a directive or takes a record off the list; `fuel` bounds the rounds. -/
def State.pumpRadio (radio : Nat) : Nat → State → State
  | 0, s => s
  | fuel + 1, s =>
    if 16 ≤ (forRadio s.rli.inFlight radio).length then s
    else
      match forRadio s.rli.waiting radio with
      | [] => s
      | i :: _ =>
        match (s.record i).bind ClientRecord.nextDirective with
        | none => State.pumpRadio radio fuel (s.leaveWaiting i)
        | some (d, r) =>
          let s := (s.modRecord i fun _ => r).sendDirective radio d
          State.pumpRadio radio fuel (if r.hasPending then s else s.leaveWaiting i)

/-- Rounds enough to fill an in-flight queue or empty a waiting list. -/
def State.pumpFuel (s : State) (radio : Nat) : Nat := 16 + (forRadio s.rli.waiting radio).length

/-- Every radio's pending directives are sent as its in-flight queue has room (R52), radios 0, 1 and 2 in turn (the order
is a DESIGN CHOICE, unsafe: log entry 41). -/
def State.pump (s : State) : State :=
  [0, 1, 2].foldl (fun s radio => s.pumpRadio radio (s.pumpFuel radio)) s

/-- What every event ends with: the RLI sends what it can and the output lines are driven. The RLI sends once, at the end
of the whole command (DESIGN CHOICE, unsafe: log entry 43); a wall-state notice taken ahead of the command's own event ends
likewise. -/
def State.finish (s : State) : State := s.pump.driveLines

/-- An event taken: the next state is the event's effect, finished. -/
def done (s : State) : Host.Outcome State Fault Refusal := .next s.finish

/-! ## Expiries (R43, R44) -/

/-- A deadline that a block holds, and the state that its expiry leaves. -/
structure Expiry where
  deadline : Nat
  taken : State

/-- A deadline, where one is held, with what its expiry leaves. -/
def expiryOf (deadline : Option Nat) (taken : State) : Option Expiry :=
  deadline.map fun d => { deadline := d, taken := taken }

/-- An expiry as the event of its own that R43 makes it: taken once mesh time has reached or passed its deadline; without
effect while none is held or it is not due (DEDUCED, unsafe: log entry 7). -/
def State.expire (s : State) (x : Option Expiry) : Host.Outcome State Fault Refusal :=
  match x with
  | none => .next s
  | some x => if x.deadline ≤ s.now then done x.taken else .next s

/-- An expiry as a step of mesh time from `old` brings it: taken where the deadline lies above the first value and not
above the second (R44). -/
def State.pass (s : State) (old : Nat) (x : Option Expiry) : State :=
  match x with
  | none => s
  | some x => if old < x.deadline ∧ x.deadline ≤ s.now then x.taken else s

end Sys2Proof.Machine
end

