-- ==== Sys2Proof/Machine/Game.lean ====
section
/-! DEFINITION. The Game Traffic Monitor (chapter 9): evidence, the game-active flag, directed priority and its mirror,
the served-game count. -/

namespace Sys2Proof.Machine

open Sys2Proof

/-- The target priority of a record (R127). -/
def ClientRecord.targetPriority (r : ClientRecord) : Priority :=
  if r.isServed ∧ r.gameActive ∧ r.effective = .open then .game else .normal

/-- NORMAL is written into the directed priority; where it held GAME the mirror PRIORITY (NORMAL) is sent (R128). -/
def State.lowerPriority (s : State) (i : Nat) : State :=
  match s.record i with
  | none => s
  | some r =>
    let s := s.modRecord i fun r => { r with directed := .normal }
    if r.directed = .game then s.emit (.mirror r.addr .normal) else s

/-- The priority decision for a record (R127): when the target differs from the directed priority, the target is written
and issued; a change to NORMAL is mirrored at once (R128). -/
def State.decidePriority (s : State) (i : Nat) : State :=
  match s.record i with
  | none => s
  | some r =>
    if r.targetPriority = r.directed then s
    else
      match r.targetPriority with
      | .normal => (s.lowerPriority i).issuePriority i .normal
      | .game => (s.modRecord i fun r => { r with directed := .game }).issuePriority i .game

/-- The served-game count moves by one record's flag, and the yield condition is judged (R130, R132). -/
def State.gameCountUp (s : State) : State := (s.modGtm fun g => { g with servedGame := g.servedGame + 1 }).judgeYield

@[inherit_doc State.gameCountUp]
def State.gameCountDown (s : State) : State := (s.modGtm fun g => { g with servedGame := g.servedGame - 1 }).judgeYield

/-- Whether a report's second is game-like (R124). -/
def gameLike (cfg : Configuration) (t : TrafficCounts) : Bool :=
  decide (gamePacketMin cfg ≤ t.smallUp ∧ gamePacketMin cfg ≤ t.smallDown ∧ t.bytes ≤ gameByteMax cfg)

/-- The game evidence after a second: one more, saturating at 15, or two less, with a floor of 0 (R125). -/
def nextEvidence (like : Bool) (g : Nat) : Nat := if like then satSucc 15 g else g - 2

/-- The game-active flag after a report, by the class rule (Table 9.3); `g` is the evidence after R125. -/
def nextGameFlag (cls : ClientClass) (g : Nat) (flag : Bool) (t : TrafficCounts) : Bool :=
  match cls with
  | .auto => if 8 ≤ g then true else if g ≤ 2 then false else flag
  | .game => decide (1 ≤ t.packetsUp + t.packetsDown)
  | .noGame => false

/-- An applied TRAFFIC report moves the evidence, then the flag; a change of the flag brings the priority decision and
moves the served-game count (R124 to R127, R130). -/
def State.applyTraffic (s : State) (i : Nat) (r : ClientRecord) (t : TrafficCounts) : State :=
  let g := nextEvidence (gameLike s.cfg t) r.evidence
  let flag := nextGameFlag r.cls g r.gameActive t
  let s := s.modRecord i fun r => { r with evidence := g, gameActive := flag }
  if flag = r.gameActive then s
  else
    let s := s.decidePriority i
    if flag then s.gameCountUp else s.gameCountDown

/-- The GTM's part of a departure: the directed priority becomes NORMAL, and the count falls if the flag was set (R129,
R130). `r` is the record as it was while SERVED. -/
def State.gameDeparture (s : State) (i : Nat) (r : ClientRecord) : State :=
  let s := s.lowerPriority i
  if r.gameActive then s.gameCountDown else s

/-- Sets the peer-game count to 0 and judges the yield condition (R131, R133). -/
def State.clearPeerGame (s : State) : State := (s.modGtm fun g => { g with peerGame := 0 }).judgeYield

end Sys2Proof.Machine
end

