-- ==== Sys2Proof/Machine/Schedule.lean ====
section
/-! DEFINITION. The Schedule Enforcement Unit (chapter 8) and the wall time of the Mesh Timebase that it works from
(section 3.4): window coverage, group states, effective states, enforcement directives. -/

namespace Sys2Proof.Machine

open Sys2Proof

/-! ## Wall time (R46 to R48) -/

/-- The clock record held in the clock slot, if it holds one. -/
def State.clockRecord (s : State) : Option ClockRecord :=
  match (s.pst.slots[96]?).map Slot.content with
  | some (.clock c) => some c
  | some .empty => none
  | some .tombstone => none
  | some (.window _) => none
  | some (.device _) => none
  | none => none

/-- The wall seconds while wall time is valid; none while it is not (R46). -/
def State.wallSeconds (s : State) : Option Nat :=
  s.clockRecord.bind fun c =>
    let w := c.seconds + (s.now - c.meshTime) / 1024
    if c.meshTime ≤ s.now ∧ w ≤ 2 ^ 32 - 1 then some w else none

/-- The present wall state: INVALID, or the wall minute (R46, R48). -/
def State.wallMinute (s : State) : Option Nat := s.wallSeconds.map (· / 60)

/-- The MTB compares the present wall state with the last notified one and on a change gives the SEU a notice (R48). -/
def State.computeWall (s : State) : State :=
  if s.wallMinute = s.mtb.lastNotified then s
  else
    { s.modMtb (fun m => { m with lastNotified := s.wallMinute }) with wallNotices := s.wallNotices ++ [s.wallMinute] }

/-! ## Window coverage and group states (R113, R114) -/

/-- Whether a window record covers a minute-of-week (R113). -/
def WindowRecord.covers (w : WindowRecord) (minute : Nat) : Bool :=
  let d := minute / 1440
  let t := minute % 1440
  if w.startMinute < w.stopMinute then w.days.getLsbD d && decide (w.startMinute ≤ t ∧ t < w.stopMinute)
  else
    (w.days.getLsbD d && decide (w.startMinute ≤ t)) || (w.days.getLsbD ((d + 6) % 7) && decide (t < w.stopMinute))

/-- The window records held, in slot order. -/
def windowsOf (slots : List Slot) : List WindowRecord :=
  slots.filterMap fun slot =>
    match slot.content with
    | .window w => some w
    | .empty => none
    | .tombstone => none
    | .device _ => none
    | .clock _ => none

/-- The smallest cap code among LIMIT records that cover a minute and hold a group; none if there is none (R114). -/
def smallestCap (ws : List WindowRecord) : Option Nat := (ws.map WindowRecord.cap).min?

/-- The state of group `g` at a wall minute, or with wall time INVALID (R114). -/
def groupStateAt (slots : List Slot) (wall : Option Nat) (g : Nat) : GroupState :=
  match wall with
  | none => .open
  | some m =>
    let ws := (windowsOf slots).filter fun w => w.covers (m % 10080) && w.groups.getLsbD g
    if ws.any (fun w => w.action = .block) then .blocked
    else
      match smallestCap (ws.filter fun w => w.action = .limit) with
      | some c => .capped c
      | none => .open

/-! ## Effective states and directives (R115, R118) -/

/-- A record's pause-until: the effective device record's, else the carried one; 0 is none (R115). -/
def State.pauseUntil (s : State) (r : ClientRecord) : Nat :=
  match s.effectiveDevice r.addr with
  | some d => d.pauseUntil
  | none => r.carriedPause.getD 0

/-- The effective state of a SERVED record by the held wall state (R115). -/
def State.formEffective (s : State) (r : ClientRecord) : Effective :=
  match s.seu.held with
  | none => .open
  | some m =>
    if m < s.pauseUntil r then .paused
    else
      match (s.seu.groups[r.group]?).getD .open with
      | .blocked => .paused
      | .capped c => .capped c
      | .open => .open

/-- The enforcement directive for a change of effective state; none for no change (Table 8.2). -/
def enforcementFor (old new : Effective) : Option EnforcementDirective :=
  if old = new then none
  else
    match old, new with
    | _, .paused => some .pause
    | _, .capped c => some (.cap c)
    | .paused, .open => some .resume
    | .capped _, .open => some (.cap 0)
    | .open, .open => none

/-- A client evaluation of one record: the state is formed and, when it differs, written and its directive issued; the
GTM then takes a priority decision (R117, R118, R127). A record that is not SERVED is left alone. -/
def State.evaluateClient (s : State) (i : Nat) : State :=
  match s.record i with
  | none => s
  | some r =>
    if r.isServed = false then s
    else
      match enforcementFor r.effective (s.formEffective r) with
      | none => s
      | some d =>
        ((s.modRecord i fun x => { x with effective := s.formEffective r }).issueEnforcement i d).decidePriority i

/-- One group's recomputed state by the held wall state: written, with a GROUP-STATE event when it differs (R114,
R120). -/
def State.evaluateGroup (s : State) (g : Nat) : State :=
  let new := groupStateAt s.pst.slots s.seu.held g
  if (s.seu.groups[g]?).getD .open = new then s
  else
    (s.modSeu fun u => { u with groups := u.groups.set g new }).queueEvent .groupState (numberSubject g) (groupCode new)

/-- A full evaluation: the eight groups in ascending order, then every SERVED record in ascending order (R116). -/
def State.fullEvaluation (s : State) : State :=
  (List.range 64).foldl State.evaluateClient ((List.range 8).foldl State.evaluateGroup s)

/-- The SEU takes the oldest wall-state notice that waits: its state `w` becomes the held wall state and a full evaluation
is made, an event of its own (R116). -/
def State.takeNotice (s : State) (w : Option Nat) : State :=
  ({ s with wallNotices := s.wallNotices.drop 1 }.modSeu fun u => { u with held := w }).fullEvaluation.finish

/-- The wall-state notices that wait are taken, the oldest first, before an event on which the SEU acts and before one that
may change the wall state again, so that the held wall state is the present one whenever the SEU acts (R112; when a waiting
notice is taken is DEDUCED, unsafe: log entry 46). -/
def State.takeNotices (s : State) : State := s.wallNotices.foldl State.takeNotice s

/-- The SEU's and the GTM's part of an arrival: the effective state and the directed priority follow the new radio, then
the client evaluation and the priority decision are made (R119, R129). -/
def State.enforceArrival (s : State) (i : Nat) : State :=
  (((s.modRecord i fun r => { r with effective := .open }).lowerPriority i).evaluateClient i).decidePriority i

end Sys2Proof.Machine
end

