-- ==== Sys2Proof/Machine/Handoff.lean ====
section
/-! DEFINITION. The Roam Scoring Engine (chapter 5) and the Handoff Controller's operations on claimant and release
contexts (chapter 6). The meanings of the handoff frames are in FrameCommands.lean. -/

namespace Sys2Proof.Machine

open Sys2Proof

/-! ## Levels and scores (R68 to R72) -/

/-- A reported level clamped to −100..−10 dBm (R68). -/
def clampLevel (l : Int) : Int := max (-100) (min l (-10))

/-- The smoothed level after a report: the first sample sets 16·L, each later one moves S part of the way (R69). The
division is floored. -/
def smoothLevel (k : Nat) (old : Option Int) (level : Int) : Int :=
  let target := 16 * clampLevel level
  match old with
  | none => target
  | some l => l + Int.fdiv (target - l + roundingOffset k) (2 ^ k)

/-- The load penalty in sixteenths of a dB (R70). -/
def loadPenalty (load : Nat) : Int := 4 * max 0 ((load : Int) - 60)

/-- The served report of a record REMOTE (p): p's report when it carries the served flag (R71). -/
def ClientRecord.servedReport (r : ClientRecord) (p : NodeId) : Option PeerReport :=
  r.reports.find? fun x => x.peer == p && x.served

/-- The margin a claimant applies: 2M when sticky, else M (R72). -/
def claimMargin (cfg : Configuration) (rep : PeerReport) (adv : Advertised) : Int :=
  if rep.game ∧ adv.install ≠ .draining ∧ adv.install ≠ .staged ∧ -1280 ≤ rep.level then 2 * roamMargin cfg
  else roamMargin cfg

/-- The number of committed records: SERVED, admit-pending, or the record of a claimant context's client (R74). -/
def State.committed (s : State) : Nat :=
  countSlots s.crg.records fun r => r.isServed || r.admitPending.isSome || (s.findClaim r.addr).isSome

/-- Whether the ICU is in DRAINING or STAGED. -/
def State.emptying (s : State) : Bool := decide (s.icu.install = .draining ∨ s.icu.install = .staged)

/-- What an evaluation reads of a record REMOTE (p) that meets the seven preconditions of a claim (R74): its local S, the
served report and p's entry. None when a precondition fails. -/
def State.claimReady (s : State) (r : ClientRecord) (p : NodeId) : Option (Int × PeerReport × Entry) :=
  match s.entryOf p, r.localLevel, r.sightTime, r.servedReport p with
  | some e, some level, some seen, some rep =>
    if e.link = .active ∧ s.now - seen ≤ 512 ∧ s.now - rep.time ≤ 1024 ∧ s.findClaim r.addr = none ∧
        r.claimHoldoff = none ∧ s.emptying = false ∧ (firstFree s.hoc.contexts).isSome ∧ s.committed < 64 then
      some (level, rep, e)
    else none
  | none, _, _, _ => none
  | some _, none, _, _ => none
  | some _, some _, none, _ => none
  | some _, some _, some _, none => none

/-- The RSE hands the HOC a claim: a context is opened in the lowest free slot with the next claim seq and a deadline 256
ticks later, and CLAIM is sent to the server (R81). -/
def State.openClaim (s : State) (client : ClientAddr) (server : NodeId) (score : Int) : State :=
  match firstFree s.hoc.contexts with
  | none => s
  | some i =>
    let seq := (s.hoc.seqCounter + 1) % 256
    let ctx : ClaimContext :=
      { client := client, server := server, seq := seq, state := .claiming, deadline := s.now + 256, score := score }
    (s.modHoc fun h => { h with seqCounter := seq, contexts := h.contexts.set i (some ctx) }).sendFrame
      .claim server (claimBytes client seq score)

/-- The evaluation of one record (R75): only REMOTE records are reached. -/
def State.evaluateClaim (s : State) (i : Nat) : State :=
  match s.record i with
  | none => s
  | some r =>
    match r.serving with
    | .served _ => s
    | .unseen => s
    | .remote p =>
      match s.claimReady r p with
      | none => s.modRecord i fun r => { r with confirm := 0 }
      | some (level, rep, e) =>
        let own := level - loadPenalty s.ownLoad
        let peer := rep.level - loadPenalty e.adv.load
        if own - peer < claimMargin s.cfg rep e.adv then s.modRecord i fun r => { r with confirm := 0 }
        else if r.confirm + 1 < s.cfg.nConf then s.modRecord i fun r => { r with confirm := r.confirm + 1 }
        else (s.modRecord i fun r => { r with confirm := 0 }).openClaim r.addr p own

/-! ## The grant test (R77, R78) -/

/-- The server's own score for a record; −1760 without a local S (R77). -/
def State.serverScore (s : State) (r : ClientRecord) : Int :=
  match r.localLevel with
  | none => -1760
  | some level => level - loadPenalty s.ownLoad

/-- The server's effective margin: 2M when the record is game-active with S at least −1280 (R78). -/
def serverMargin (cfg : Configuration) (r : ClientRecord) : Int :=
  if r.gameActive ∧ r.localLevel.any (fun l => decide (-1280 ≤ l)) then 2 * roamMargin cfg else roamMargin cfg

/-- The claimed score clamped to the range of scores (R77). -/
def clampScore (q : Int) : Int := max (-1760) (min q (-160))

/-- The grant test: the claimant is better by half the effective margin (R78). -/
def State.grantTest (s : State) (r : ClientRecord) (claimed : Int) : Bool :=
  decide (Int.fdiv (serverMargin s.cfg r) 2 ≤ clampScore claimed - s.serverScore r)

/-! ## Release contexts (R83, R88 to R92) -/

/-- The GRANT content for a record (R83). -/
def State.grantFor (s : State) (r : ClientRecord) (seq : Nat) : GrantBody :=
  { client := r.addr, seq := seq, epoch := r.epoch, group := r.group, clsCode := classCode r.cls,
    evidence := r.evidence, gameActive := r.gameActive, pauseUntil := s.pauseUntil r }

/-- A release context opened with a deadline 2048 ticks later; GRANT is sent and STEER issued toward the claimant
(R83). -/
def State.openRelease (s : State) (i : Nat) (r : ClientRecord) (claimant : NodeId) (seq : Nat) : State :=
  let s := s.modRecord i fun r =>
    { r with release := some { claimant := claimant, seq := seq, deadline := s.now + 2048 } }
  (s.sendFrame .grant claimant (s.grantFor r seq).bytes).issueControl i (.steer claimant)

/-- A release context cleared with its deadline, and its unsent STEER discarded (R89, R90, R94, R96). -/
def State.closeRelease (s : State) (i : Nat) (c : ReleaseContext) : State :=
  (s.modRecord i fun r => { r with release := none }).discardSteer i c.claimant

/-- Queues HANDOFF-FAILED for a client with a cause. -/
def State.handoffFailed (s : State) (client : ClientAddr) (cause : Nat) : State :=
  s.queueEvent .handoffFailed client cause

/-- The HOC's action on a release context when its record learns a fresher epoch from `sender` or yields to it (R92). -/
def State.overtakeRelease (s : State) (i : Nat) (sender : NodeId) : State :=
  match s.record i with
  | none => s
  | some r =>
    match r.release with
    | none => s
    | some c =>
      let s := s.modRecord i fun r => { r with release := none }
      if c.claimant = sender then s.queueEvent .clientTaken r.addr Detail.takenByNotice
      else s.handoffFailed r.addr Detail.overtaken

/-- The HOC's action on a claimant context when the client's record becomes REMOTE (server) (R92). -/
def State.overtakeClaim (s : State) (client : ClientAddr) (server : NodeId) : State :=
  match s.findClaim client with
  | none => s
  | some k =>
    match s.claimAt k with
    | none => s
    | some c => if c.server = server then s else (s.freeClaim k).handoffFailed client Detail.overtaken

/-! ## Removal of a peer, drain, restart (R94 to R96) -/

/-- One claimant context whose server is a removed peer is freed with HANDOFF-FAILED (PEER-LOST) (R94). -/
def State.loseClaim (peer : NodeId) (s : State) (k : Nat) : State :=
  match s.claimAt k with
  | none => s
  | some c => if c.server = peer then (s.freeClaim k).handoffFailed c.client Detail.peerLost else s

/-- One release context whose claimant is a removed peer is cleared with HANDOFF-FAILED (PEER-LOST) (R94). -/
def State.loseRelease (peer : NodeId) (s : State) (i : Nat) : State :=
  match s.record i with
  | none => s
  | some r =>
    match r.release with
    | none => s
    | some c => if c.claimant = peer then (s.closeRelease i c).handoffFailed r.addr Detail.peerLost else s

/-- The HOC closes each context naming a removed peer (R94): claimant slots 0 to 3, then the records in ascending number,
each with its event (the order is a DESIGN CHOICE, unsafe: log entry 41). -/
def State.losePeerContexts (s : State) (peer : NodeId) : State :=
  (List.range 64).foldl (State.loseRelease peer) ((List.range 4).foldl (State.loseClaim peer) s)

/-- One claimant context freed at a drain with CANCEL and HANDOFF-FAILED (DRAIN) (R95). -/
def State.drainClaim (s : State) (k : Nat) : State :=
  match s.claimAt k with
  | none => s
  | some c =>
    ((s.freeClaim k).sendFrame .cancel c.server (cancelBytes c.client c.seq)).handoffFailed c.client Detail.drain

/-- Told of DRAINING, the HOC frees every claimant context (R95), slots 0 to 3, each CANCEL before its event (the order is
a DESIGN CHOICE, unsafe: log entry 41). -/
def State.drainClaims (s : State) : State := (List.range 4).foldl State.drainClaim s

/-- A record's release context cleared at a link restart without an event, its unsent STEER discarded (R96). -/
def State.restartRelease (s : State) (i : Nat) : State :=
  match (s.record i).bind ClientRecord.release with
  | none => s
  | some c => s.closeRelease i c

/-- The link-restart values of the HOC (R96); the claim seq counter is kept (R81). -/
def State.restartHoc (s : State) : State :=
  (List.range 64).foldl State.restartRelease
    (s.modHoc fun h => { h with contexts := List.replicate 4 none, malformed := 0 })

/-- The SERVED notice for a record that this node has taken up (R91). -/
def State.sendServed (s : State) (r : ClientRecord) : State :=
  let level := if s.icu.install = .draining then -1600 else r.localLevel.getD (-1600)
  s.sendFrame .served allNodes (servedBytes r.addr r.epoch level r.gameActive)

end Sys2Proof.Machine
end

