-- ==== Sys2Proof/Machine/Install.lean ====
section
/-! DEFINITION. The Install Coordination Unit (chapter 11): intent, drain, staging, the installed marker. -/

namespace Sys2Proof.Machine

open Sys2Proof

/-- Queues an event of the ICU with the own node id as subject (section 11.1). -/
def State.icuEvent (s : State) (kind : EventKind) (detail : Nat) : State :=
  s.queueEvent kind (nodeSubject s.ownId) detail

/-- The install state returns to IDLE with the intent count 0 and the drain deadline cancelled. -/
def State.icuIdle (s : State) : State :=
  s.modIcu fun u => { u with install := .idle, intentCount := 0, drainDeadline := none }

/-- Some window slot holds an INSTALL record that covers the present minute-of-week; none without valid wall time
(R150). -/
def State.installWindow (s : State) : Bool :=
  match s.wallMinute with
  | none => false
  | some m => (windowsOf s.pst.slots).any fun w => decide (w.action = .install) && w.covers (m % 10080)

/-- Conditions 1 to 4 of R150. Condition 3 needs condition 2. -/
def State.intentConditions (s : State) : Bool :=
  decide (s.ims.image = .complete) && !s.icu.marker && s.installWindow && !yieldCondition s.gtm

/-- Whether an ACTIVE entry advertises INTENT, DRAINING or STAGED (R150, condition 5). -/
def State.installConflict (s : State) : Bool :=
  s.nbt.entries.any fun o => o.any fun e =>
    decide (e.link = .active ∧ (e.adv.install = .intent ∨ e.adv.install = .draining ∨ e.adv.install = .staged))

/-- STAGED is entered with its cause (R154, R156). -/
def State.enterStaged (s : State) (cause : Nat) : State :=
  (s.modIcu fun u => { u with install := .staged, drainDeadline := none }).icuEvent .imageStaged cause

/-- When no record is SERVED any more in DRAINING, the node is emptied (R154). -/
def State.checkEmptied (s : State) : State :=
  if s.icu.install = .draining ∧ s.servedCount = 0 then s.enterStaged Detail.emptied else s

/-- DRAINING is entered: the drain deadline is set, DRAIN-START queued, the HOC told; a node that serves no client is
STAGED at once (R153). -/
def State.enterDraining (s : State) : State :=
  let s := s.modIcu fun u =>
    { u with install := .draining, drainDeadline := some (s.now + drainTimeout s.cfg) }
  ((s.icuEvent .drainStart s.servedCount).drainClaims).checkEmptied

/-- The ICU's check at an own beacon build (R150, R151, R155). The intent count stays as it is in DRAINING and STAGED
(DEDUCED, unsafe: log entry 25). -/
def State.icuAtBuild (s : State) : State :=
  match s.icu.install with
  | .idle =>
    if s.intentConditions ∧ s.installConflict = false ∧ s.icu.retryHoldoff = none then
      (s.modIcu fun u => { u with install := .intent, intentCount := 1 }).icuEvent .installIntent 0
    else s
  | .intent =>
    if s.intentConditions = false then s.icuIdle
    else if s.icu.intentCount < 2 then s.modIcu fun u => { u with intentCount := u.intentCount + 1 }
    else s.enterDraining
  | .draining => if s.installWindow then s else s.icuIdle.icuEvent .drainAbort Detail.abortWindow
  | .staged => s
  | .done => s

/-- The ICU takes the advertised install state of an ACTIVE or FAILING peer in INTENT (R152). -/
def State.icuConflict (s : State) (peer : NodeId) (theirs : InstallState) : State :=
  if s.icu.install = .intent ∧
      (theirs = .draining ∨ theirs = .staged ∨ (theirs = .intent ∧ peer.toNat < s.ownId.toNat)) then
    ((s.icuIdle).modIcu fun u => { u with retryHoldoff := some (s.now + 16 * beaconInterval s.cfg) }).queueEvent
      .drainAbort (nodeSubject peer) Detail.abortConflict
  else s

/-- The IMS tells the ICU that the image has left COMPLETE (R151, R155, R156). -/
def State.icuImageLeft (s : State) : State :=
  match s.icu.install with
  | .idle => s
  | .intent => s.icuIdle
  | .draining => s.icuIdle.icuEvent .drainAbort Detail.abortImage
  | .staged => s.icuIdle.icuEvent .drainAbort Detail.abortImage
  | .done => s

/-- The IMS tells the ICU of a newer head before it accepts it: a drain is aborted (R155). -/
def State.icuNewerHead (s : State) : State :=
  if s.icu.install = .draining then s.icuIdle.icuEvent .drainAbort Detail.abortHead else s

/-- The acceptance of a head clears the marker, cancels the rewrite deadline and ends DONE (R138, R157). -/
def State.icuHeadAccepted (s : State) : State :=
  s.modIcu fun u =>
    { u with marker := false, rewriteDeadline := none, install := if u.install = .done then .idle else u.install }

/-- The recovery scan hands over the installed marker it found (R158). -/
def State.icuMarkerFound (s : State) (set : Bool) : State :=
  s.modIcu fun u => { u with marker := set, install := if set then .done else u.install }

/-- The link-restart values of the ICU (R158). -/
def State.restartIcu (s : State) : State :=
  match s.icu.install with
  | .intent => s.icuIdle
  | .draining => s.icuIdle.icuEvent .drainAbort Detail.abortRestart
  | .idle => s.modIcu fun u => { u with intentCount := 0 }
  | .staged => s.modIcu fun u => { u with intentCount := 0 }
  | .done => s.modIcu fun u => { u with intentCount := 0 }

end Sys2Proof.Machine
end

