-- ==== Sys2Proof/Machine/Image.lean ====
section
/-! DEFINITION. The Image Store and the Flash Port (chapter 10): requests and operations, image state and presence, the
taking of heads, fetching, buffers, FAULT and the recovery scan. The meanings are in FlashCommands.lean and
FrameCommands.lean. -/

namespace Sys2Proof.Machine

open Sys2Proof

/-! ## Flash requests (R147) -/

/-- Places a request at the FLP, behind those that wait (R147). -/
def State.requestFlash (s : State) (kind : FlashKind) : State :=
  s.modFlp fun f => { f with waiting := f.waiting ++ [{ kind := kind, discard := false }] }

/-- A head-block write is requested; a request already waiting covers it (R138). -/
def State.requestHeadWrite (s : State) : State :=
  if s.flp.waiting.any (fun r => r.kind = .headWrite) then s else s.requestFlash .headWrite

/-- The request the FLP begins: the oldest of the highest rank that has one (R147). -/
def nextRequest (waiting : List FlashRequest) : Option FlashRequest :=
  [1, 2, 3, 4, 5, 6].findSome? fun rank => waiting.find? fun r => flashRank r.kind == rank

/-- Requests that R138 withdraws at head acceptance: serve and patrol reads. -/
def FlashKind.isServeOrPatrol : FlashKind → Bool
  | .serveRead _ _ => true
  | .patrolRead _ => true
  | .configRead | .policyRead | .policyWrite | .headWrite | .program _ | .verify _ | .headRead | .scanRead _ => false

/-- Requests that R145 withdraws at entry to FAULT: program, verify, patrol, serve and scan reads, the head-block read
of the scan among them (DEDUCED, unsafe: log entry 28). -/
def FlashKind.isImageWork : FlashKind → Bool
  | .program _ | .verify _ | .patrolRead _ | .serveRead _ _ | .scanRead _ | .headRead => true
  | .configRead | .policyRead | .policyWrite | .headWrite => false

/-- The requests of buffer `i`. -/
def FlashKind.isForBuffer (i : Nat) : FlashKind → Bool
  | .program j => i == j
  | .verify j => i == j
  | .configRead | .policyRead | .policyWrite | .headWrite | .headRead | .scanRead _ | .patrolRead _
  | .serveRead _ _ => false

/-- Waiting requests of some kinds withdrawn, and the result of a running one marked to be discarded. -/
def Flp.abandon (p : FlashKind → Bool) (f : Flp) : Flp :=
  { waiting := f.waiting.filter fun r => !p r.kind
    operation := f.operation.map fun o => if p o.kind then { o with discard := true } else o }

/-- Whether the running operation is one of some kinds. -/
def Flp.isRunning (f : Flp) (p : FlashKind → Bool) : Bool := f.operation.any fun o => p o.kind

/-! ## Presence (R136) -/

/-- A rising list with `k` put in its place; unchanged if it holds `k`. -/
def insertRising (k : Nat) : List Nat → List Nat
  | [] => [k]
  | x :: xs => if k < x then k :: x :: xs else if k = x then x :: xs else x :: insertRising k xs

/-- Whether a chunk is present. -/
def Ims.isPresent (m : Ims) : ChunkRef → Bool
  | .data k => m.presentData.contains k
  | .index i => m.presentIndex.contains i

/-- Whether a data chunk's index chunk is present; an index chunk needs none (R136). -/
def Ims.checkable (m : Ims) : ChunkRef → Bool
  | .data k => m.presentIndex.contains (k / 1024)
  | .index _ => true

/-- The check value a chunk is checked against: the index table entry, or the head's index check (R141). -/
def Ims.expectedCheck (m : Ims) : ChunkRef → Option Nat
  | .data k => ((m.indexTable[k / 1024]?).join).bind fun es => es[k % 1024]?
  | .index i => m.head.bind fun h => if i < h.indexCount then h.indexChecks[i]? else none

/-- Whether bytes match the check value of a chunk (R141). -/
def Ims.bytesMatch (m : Ims) (c : ChunkRef) (bytes : List Byte) : Bool := m.expectedCheck c == some (crc32 bytes)

/-- The presence flag of a chunk set: a data chunk moves its segment's count, an index chunk brings its entries (R136). -/
def Ims.setPresent (m : Ims) (c : ChunkRef) (bytes : List Byte) : Ims :=
  if m.isPresent c then m
  else
    match c with
    | .data k =>
      { m with
        presentData := insertRising k m.presentData
        segmentCounts := m.segmentCounts.modify (k / 256) (· + 1) }
    | .index i =>
      { m with
        presentIndex := insertRising i m.presentIndex
        indexTable := m.indexTable.set i (some (parseIndexEntries bytes)) }

/-- The presence flag of a chunk cleared (R136). -/
def Ims.clearPresent (m : Ims) (c : ChunkRef) : Ims :=
  if m.isPresent c then
    match c with
    | .data k =>
      { m with
        presentData := m.presentData.filter (· ≠ k)
        segmentCounts := m.segmentCounts.modify (k / 256) (· - 1) }
    | .index i => { m with presentIndex := m.presentIndex.filter (· ≠ i), indexTable := m.indexTable.set i none }
  else m

/-- The number of chunks of segment `g` below N (R136). -/
def segmentSize (chunkCount g : Nat) : Nat := min 256 (chunkCount - 256 * g)

/-- The segments-complete mask (R136, R37): all clear unless the image is FETCHING or COMPLETE. -/
def Ims.segmentMask (m : Ims) : BitVec 32 :=
  match m.head with
  | none => 0#32
  | some h =>
    if m.image = .fetching ∨ m.image = .complete then
      (List.range 32).foldl
        (fun acc g =>
          if 0 < segmentSize h.chunkCount g ∧ (m.segmentCounts[g]?).getD 0 = segmentSize h.chunkCount g then
            acc ||| (1#32 <<< g)
          else acc) 0#32
    else 0#32

/-- Every index flag is set. -/
def Ims.allIndex (m : Ims) (h : Head) : Bool := decide (m.presentIndex.length = h.indexCount)

/-- Every data flag is set. -/
def Ims.allData (m : Ims) (h : Head) : Bool := decide (m.presentData.length = h.chunkCount)

/-! ## Image state (R136, R144) -/

/-- FETCHING or COMPLETE, in which a patrol deadline is held (R144). -/
def ImageState.patrolled : ImageState → Bool
  | .fetching | .complete => true
  | .empty | .indexing | .fault => false

/-- The image state changed: the patrol deadline is set or cancelled (R144) and the ICU is told when the image leaves
COMPLETE. -/
def State.setImage (s : State) (new : ImageState) : State :=
  let old := s.ims.image
  let s := s.modIms fun m =>
    { m with
      image := new
      patrolDeadline :=
        if new.patrolled then (if old.patrolled then m.patrolDeadline else some (s.now + 2048)) else none }
  if old = .complete ∧ new ≠ .complete then s.icuImageLeft else s

/-- Queues an event of the IMS with the own node id as subject. -/
def State.imageComplete (s : State) (detail : Nat) : State :=
  s.queueEvent .imageComplete (nodeSubject s.ownId) detail

/-- A chunk becomes present: its flag is set, and in INDEXING or FETCHING the state moves on when every flag asks for it
(R136). -/
def State.chunkPresent (s : State) (c : ChunkRef) (bytes : List Byte) : State :=
  let s := s.modIms (·.setPresent c bytes)
  match s.ims.head with
  | none => s
  | some h =>
    if (s.ims.image = .indexing ∨ s.ims.image = .fetching) ∧ s.ims.allIndex h ∧ s.ims.allData h then
      (s.setImage .complete).imageComplete Detail.fetched
    else if s.ims.image = .indexing ∧ s.ims.allIndex h then s.setImage .fetching
    else s

/-- Whether a serve read depends on chunk `c`: it is for `c`, or for a data chunk whose index chunk is `c` (R143). -/
def serveNeeds (c : ChunkRef) : FlashKind → Bool
  | .serveRead _ d =>
    decide (d = c) ||
      (match d, c with
        | .data k, .index i => k / 1024 == i
        | .data _, .data _ => false
        | .index _, _ => false)
  | .configRead | .policyRead | .policyWrite | .headWrite | .program _ | .verify _ | .headRead | .scanRead _
  | .patrolRead _ => false

/-- The peers and chunks of the serve reads, waiting or running and not yet discarded, that depend on `c`. -/
def Flp.serveReadsOf (f : Flp) (c : ChunkRef) : List (NodeId × ChunkRef) :=
  let kinds :=
    ((f.operation.toList.filter fun o => !o.discard).map (·.kind)) ++
      ((f.waiting.filter fun r => !r.discard).map (·.kind))
  kinds.filterMap fun k =>
    match k with
    | .serveRead peer d => if serveNeeds c k then some (peer, d) else none
    | .configRead | .policyRead | .policyWrite | .headWrite | .program _ | .verify _ | .headRead | .scanRead _
    | .patrolRead _ => none

/-- The reservations of serve reads that depend on a chunk that has ceased to be present are withdrawn, and the reads'
results will be discarded (R143); a waiting one keeps its place (DESIGN CHOICE, unsafe: log entry 27). -/
def State.voidServes (s : State) (c : ChunkRef) : State :=
  let voided := s.flp.serveReadsOf c
  let s := s.modBcu fun b => voided.foldl (fun b v => b.withdrawReservation v.1 v.2) b
  s.modFlp fun f =>
    { waiting := f.waiting.map fun r => if serveNeeds c r.kind then { r with discard := true } else r
      operation := f.operation.map fun o => if serveNeeds c o.kind then { o with discard := true } else o }

/-- A chunk found bad by a patrol or serve read is cleared, with a PATROL-BAD-CHUNK fault; a COMPLETE image returns to
FETCHING (R136, R143, R144). The fault's event comes ahead of the ICU's DRAIN-ABORT (the order is a DESIGN CHOICE, unsafe:
log entry 41). -/
def State.clearBadChunk (s : State) (c : ChunkRef) : State :=
  let s := (s.modIms (·.clearPresent c)).voidServes c
  let s := s.recordFault .patrolBadChunk
    (match c with
      | .index _ => 0
      | .data _ => 1)
  if s.ims.image = .complete then s.setImage .fetching else s

/-! ## Fetching (R139, R140) -/

/-- A peer the IMS may fetch from: ACTIVE, advertising the current head, with a fail count below 4 (R139). -/
def eligiblePeer (h : Head) (e : Entry) : Bool :=
  decide (e.link = .active ∧ e.adv.imageId = h.imageId ∧ e.adv.imageVersion = h.version ∧ e.fetchFails < 4)

/-- Whether an eligible peer is a source for a chunk (R139). -/
def isSource (h : Head) (c : ChunkRef) (e : Entry) : Bool :=
  eligiblePeer h e &&
    (match c with
      | .index _ => decide (e.adv.image = .fetching ∨ e.adv.image = .complete)
      | .data k => e.adv.segments.getLsbD (k / 256))

/-- The better source of two: lower fail count, then lower load, then lower node id (R139). -/
def betterSource (a b : Entry) : Entry :=
  if b.fetchFails < a.fetchFails ∨ (b.fetchFails = a.fetchFails ∧
      (b.adv.load < a.adv.load ∨ (b.adv.load = a.adv.load ∧ b.id.toNat < a.id.toNat))) then b
  else a

/-- The source the IMS asks for a chunk, if it has one. -/
def State.sourceFor (s : State) (h : Head) (c : ChunkRef) : Option Entry :=
  (s.nbt.entries.filterMap id |>.filter (isSource h c)).foldl
    (fun best e => some (match best with
      | none => e
      | some b => betterSource b e)) none

/-- Whether a buffer holds a chunk of the current head. -/
def Buffer.holds (c : ChunkRef) : Buffer → Bool
  | .free => false
  | .held _ d _ _ discard => decide (c = d) && !discard

/-- Whether a chunk is wanted: missing, not outstanding in a slot, not held in a buffer (R139). -/
def Ims.wants (m : Ims) (c : ChunkRef) : Bool :=
  !m.isPresent c && !m.fetches.any (fun o => o.any fun f => decide (f.chunk = c)) && !m.buffers.any (Buffer.holds c)

/-- The chunks in the order of R139: index chunks, then in FETCHING data chunks whose index chunk is present. -/
def Ims.fetchOrder (m : Ims) (h : Head) : List ChunkRef :=
  (List.range h.indexCount).map .index ++
    (if m.image = .fetching then ((List.range h.chunkCount).map .data).filter m.checkable else [])

/-- The first chunk that is wanted and has a source, with that source. -/
def State.nextFetch (s : State) (h : Head) : Option (ChunkRef × Entry) :=
  (s.ims.fetchOrder h).findSome? fun c =>
    if s.ims.wants c then (s.sourceFor h c).map fun e => (c, e) else none

/-- Whether slots are filled: INDEXING or FETCHING, no scan, no yield condition as the IMS knows it (R139). -/
def Ims.mayFetch (m : Ims) : Bool :=
  decide ((m.image = .indexing ∨ m.image = .fetching) ∧ m.scan = .off) && !m.yielding

/-- One free fetch slot filled, with a FETCH to the chosen peer and a deadline 4096 ticks later (R139). -/
def State.fillFetch (s : State) (i : Nat) : State :=
  match s.ims.head with
  | none => s
  | some h =>
    if (slotAt s.ims.fetches i).isSome then s
    else
      match s.nextFetch h with
      | none => s
      | some (c, e) =>
        (s.modIms fun m =>
          { m with
            fetches := m.fetches.set i
              (some { chunk := c, peer := e.id, deadline := .running (s.now + 4096) }) }).sendFrame
          .fetch e.id (chunkNameBytes h c)

/-- The IMS fills its free fetch slots, lowest-numbered first (R139). -/
def State.fillFetches (s : State) : State :=
  if s.ims.mayFetch then (List.range 4).foldl State.fillFetch s else s

/-- The fetch slots naming a removed peer are freed without a fail count (R32, R140). -/
def State.dropFetchesOf (s : State) (peer : NodeId) : State :=
  s.modIms fun m => { m with fetches := m.fetches.map fun o => o.filter fun f => decide (f.peer ≠ peer) }

/-! ## Buffers (R141, R142) -/

/-- The content of a buffer. -/
def Ims.buffer (m : Ims) (i : Nat) : Buffer := (m.buffers[i]?).getD .free

def State.setBuffer (s : State) (i : Nat) (b : Buffer) : State := s.modIms fun m => { m with buffers := m.buffers.set i b }

/-- BUF-A if it is FREE, else BUF-B if it is (R141). -/
def Ims.freeBuffer (m : Ims) : Option Nat := m.buffers.findIdx? fun b => decide (b = .free)

/-- A buffer's stage changed. -/
def Buffer.withStage (st : BufferStage) : Buffer → Buffer
  | .free => .free
  | .held _ c bytes check discard => .held st c bytes check discard

/-- A chunk checked into a free buffer, with its program request (R141). -/
def State.programChunk (s : State) (i : Nat) (c : ChunkRef) (bytes : List Byte) : State :=
  (s.setBuffer i (.held .filled c bytes (crc32 bytes) false)).requestFlash (.program i)

/-- What head acceptance and FAULT do to a buffer: freed, or at the end of its running operation (R138, R145). -/
def Flp.dropBuffer (f : Flp) (i : Nat) : Buffer → Buffer
  | .free => .free
  | .held st c bytes check _ => if f.isRunning (FlashKind.isForBuffer i) then .held st c bytes check true else .free

/-- Every buffer dropped, its waiting requests withdrawn. -/
def State.dropBuffers (s : State) : State :=
  let f := s.flp
  (s.modIms fun m => { m with buffers := m.buffers.mapIdx f.dropBuffer }).modFlp fun f =>
    { f with waiting := f.waiting.filter fun r => !(r.kind.isForBuffer 0 || r.kind.isForBuffer 1) }

/-! ## Taking a head (R138) -/

/-- A newer head is accepted: R138's six effects, in order. The subject of IMAGE-HEAD is the sending peer, or the own id
for HEAD-SUBMIT. -/
def State.acceptHead (s : State) (h : Head) (sender : Option NodeId) : State :=
  let s := s.icuNewerHead
  let s := s.modIms fun m =>
    { m with
      head := some h, presentData := [], presentIndex := [], segmentCounts := List.replicate 32 0,
      indexTable := List.replicate 8 none, verifyFailures := 0, fetches := List.replicate 4 none,
      patrolCursor := none }
  let s := (s.dropBuffers.modBcu (·.withdrawAll)).modFlp (Flp.abandon FlashKind.isServeOrPatrol)
  let s := s.icuHeadAccepted.requestHeadWrite
  let s := (s.setImage .indexing).queueEvent .imageHead (nodeSubject (sender.getD s.ownId)) 0
  s.fillFetches

/-- A peer's head that is refused or ignored is counted (R138). -/
def State.countRefusedHead (s : State) (sender : Option NodeId) : State :=
  if sender.isSome then s.modIms fun m => { m with refusedHeads := count16 m.refusedHeads } else s

/-- A head refused or ignored, with the answer a HEAD-SUBMIT is given. -/
def State.refuseHead (s : State) (sender : Option NodeId) (r : Result) : State × Result := (s.countRefusedHead sender, r)

/-- Whether a head is newer than a current one; every head is newer than none (R134). -/
def newerThanCurrent (h : Head) (current : Option Head) : Bool := current.all fun c => h.newerThan c

/-- A head that arrives is treated by the first case of R138 that applies; the answer is HEAD-SUBMIT's. A head
ignored during the scan is counted as refused (DEDUCED, unsafe: log entry 24). -/
def State.takeHead (s : State) (h : Head) (sender : Option NodeId) : State × Result :=
  if h.valid = false then s.refuseHead sender .refusedField
  else if flashCapacity s.cfg < h.chunkCount then s.refuseHead sender .tooLarge
  else if s.ims.scan ≠ .off then
    if newerThanCurrent h (s.ims.heldHead.map HeldHead.head) then
      (s.modIms fun m => { m with heldHead := some { head := h, sender := sender } }, .ok)
    else s.refuseHead sender .refusedState
  else if newerThanCurrent h s.ims.head = false then s.refuseHead sender .refusedState
  else if s.icu.install = .staged then s.refuseHead sender .refusedState
  else (s.acceptHead h sender, .ok)

/-- At the end of the scan the held head is taken as if it had just arrived (R146). -/
def State.takeHeldHead (s : State) : State :=
  match s.ims.heldHead with
  | none => s
  | some held => ((s.modIms fun m => { m with heldHead := none }).takeHead held.head held.sender).1

/-! ## FAULT (R145) and the recovery scan (R146) -/

/-- The image enters FAULT: fetches, buffers, reservations and waiting image requests are released, the patrol deadline
is cancelled, and a scan that runs ends, its held head taken (R145, R146). -/
def State.enterFault (s : State) : State :=
  let scanning := s.ims.scan
  let s := s.modIms fun m => { m with fetches := List.replicate 4 none, scan := .off }
  let s := (s.dropBuffers.modBcu (·.withdrawAll)).modFlp (Flp.abandon FlashKind.isImageWork)
  let s := s.setImage .fault
  if scanning = .off then s else s.takeHeldHead

/-- The data chunk the scan reads next, from number `k` on: the first whose index chunk was found present (R146). -/
def Ims.scanDataFrom (m : Ims) (h : Head) (k : Nat) : Option ChunkRef :=
  (((List.range h.chunkCount).filter (k ≤ ·)).map ChunkRef.data).find? m.checkable

/-- The chunk the scan reads after `c`; none when the reads have ended (R146). -/
def Ims.scanNext (m : Ims) (h : Head) : ChunkRef → Option ChunkRef
  | .index i => if i + 1 < h.indexCount then some (.index (i + 1)) else m.scanDataFrom h 0
  | .data k => m.scanDataFrom h (k + 1)

/-- The end of the scan's reads: the image state is set by what is present, and the held head is taken (R146). It is taken
before fetch slots are filled, so that where it is newer no FETCH goes out for the scanned image (R139; the order is a
DESIGN CHOICE, unsafe: log entry 48). -/
def State.endScan (s : State) (h : Head) : State :=
  let s := s.modIms fun m => { m with scan := .off }
  let s :=
    if s.ims.allIndex h = false then s.setImage .indexing
    else if s.ims.allData h then (s.setImage .complete).imageComplete Detail.scanned
    else s.setImage .fetching
  s.takeHeldHead.fillFetches

/-- The scan goes on to its next read, or ends (R146). -/
def State.scanStep (s : State) (h : Head) (next : Option ChunkRef) : State :=
  match next with
  | none => s.endScan h
  | some c => (s.modIms fun m => { m with scan := .reading c }).requestFlash (.scanRead c)

/-! ## Patrol (R144) -/

/-- The chunks in patrol order (R144). -/
def patrolOrder (h : Head) : List ChunkRef :=
  (List.range h.indexCount).map .index ++ (List.range h.chunkCount).map .data

/-- The patrol order from the chunk after the cursor on, wrapping. -/
def patrolFrom (cursor : Option ChunkRef) (order : List ChunkRef) : List ChunkRef :=
  match cursor with
  | none => order
  | some c =>
    let n := order.idxOf c + 1
    order.drop n ++ order.take n

/-- The chunk the patrol reads next: the next present one after the cursor whose index chunk is present (R144). -/
def Ims.patrolNext (m : Ims) : Option ChunkRef :=
  m.head.bind fun h => (patrolFrom m.patrolCursor (patrolOrder h)).find? fun c => m.isPresent c && m.checkable c

/-- Whether a patrol read waits or runs (R144). -/
def Flp.patrolBusy (f : Flp) : Bool :=
  let isPatrol : FlashKind → Bool := fun k =>
    match k with
    | .patrolRead _ => true
    | .configRead | .policyRead | .policyWrite | .headWrite | .program _ | .verify _ | .headRead | .scanRead _
    | .serveRead _ _ => false
  f.isRunning isPatrol || f.waiting.any fun r => isPatrol r.kind

/-! ## The restart notice (R148) -/

/-- Waiting serve reads are withdrawn with the reservations they were to fill, and a running one's result is discarded
(R143, R148). -/
def State.restartServes (s : State) : State :=
  (s.modBcu (·.withdrawAll)).modFlp Flp.voidServeReads

/-- The link-restart values of the IMS (R148). -/
def State.restartIms (s : State) : State :=
  s.restartServes.modIms fun m =>
    { m with
      fetches := List.replicate 4 none, halvingDeadline := some (s.now + 16384), refusedHeads := 0,
      unmatchedChunks := 0, lostChunks := 0, checkFailures := 0, ignoredFetches := 0 }

end Sys2Proof.Machine
end

