-- ==== Sys2Proof/Machine/Policy.lean ====
section
/-! DEFINITION. The Household Policy Store (chapter 7): stamps, slot changes and their notices, local submission,
gossip, persistence and the load of the policy image. -/

namespace Sys2Proof.Machine

open Sys2Proof

/-! ## Stamps and slots (R97, R98) -/

/-- Stamp `x` is newer than `y`: larger counter, or equal counters and larger origin id (R98). -/
def Stamp.newerThan (x y : Stamp) : Bool :=
  decide (y.counter < x.counter ∨ (x.counter = y.counter ∧ y.origin.toNat < x.origin.toNat))

/-- What slot `n` holds; beyond the 97 slots, nothing. -/
def State.slot (s : State) (n : Nat) : Slot := (s.pst.slots[n]?).getD emptySlot

/-- The client address a slot's content names, if it holds a device record. -/
def SlotContent.deviceAddr : SlotContent → Option ClientAddr
  | .device d => some d.addr
  | .empty => none
  | .tombstone => none
  | .window _ => none
  | .clock _ => none

/-! ## Persistence (R108, R109) -/

/-- The persistence unit takes a slot change (R108). -/
def Pst.takeChange (p : Pst) (now : Nat) : Pst :=
  match p.persist with
  | .clean => { p with persist := .scheduled (now + 1024) }
  | .scheduled _ => p
  | .waiting => p
  | .writing => { p with rewrite := true }

/-- The policy write ends; `complete` is false for a write that the FLP abandoned (R109). -/
def Pst.endWrite (p : Pst) (now : Nat) (complete : Bool) : Pst :=
  { p with rewrite := false, persist := if complete ∧ p.rewrite = false then .clean else .scheduled (now + 1024) }

/-! ## A slot change and its notices (R102) -/

/-- A device slot change reaches one address: the group and class of its record are read again, its carried pause-until
becomes absent, and a SERVED client is evaluated (R102, R85, R117). Without an effective device record they are 0 and AUTO
(DEDUCED, unsafe: log entry 34). -/
def State.deviceNotice (s : State) (a : ClientAddr) : State :=
  match s.findRecord a with
  | none => s
  | some i =>
    let d := s.effectiveDevice a
    (s.modRecord i fun r =>
      { r with
        group := (d.map DeviceRecord.group).getD 0
        cls := (d.map DeviceRecord.cls).getD .auto
        carriedPause := none }).evaluateClient i

/-- The addresses a device slot change names, once each (R102), the one before ahead of the one after (the order is a
DESIGN CHOICE, unsafe: log entry 41). -/
def changedAddrs (old new : SlotContent) : List ClientAddr :=
  if old.deviceAddr = new.deviceAddr then new.deviceAddr.toList else old.deviceAddr.toList ++ new.deviceAddr.toList

/-- The clock slot has changed: CLOCK-SET with the origin of the new stamp and the validity after the change, and the
wall state is computed anew (R47, R48). -/
def State.clockChanged (s : State) (origin : NodeId) : State :=
  (s.queueEvent .clockSet (nodeSubject origin)
    (if s.wallSeconds.isSome then Detail.clockValid else Detail.clockInvalid)).computeWall

/-- A slot takes new content with a new stamp, with the effects of R102; `detail` is LOCAL or MERGED. A wall-state notice
that waits, as one that an earlier record of the frame brought, is taken first (R112). -/
def State.changeSlot (s : State) (n : Nat) (new : Slot) (detail : Nat) : State :=
  let s := s.takeNotices
  let old := (s.slot n).content
  let s := s.modPst fun p => { p with slots := p.slots.set n new, digest := digestOf (p.slots.set n new) }
  let s := (s.queueEvent .policyChanged (numberSubject n) detail).modPst (·.takeChange s.now)
  if n < 32 then s.fullEvaluation
  else if n < 96 then (changedAddrs old new.content).foldl State.deviceNotice s
  else s.clockChanged new.stamp.origin

/-! ## Local submission (R100, R101) -/

/-- The content a POLICY-SUBMIT gives, if it passes the checks of Table 7.2. -/
def submittedContent (now : Nat) (r : RawRecord) : Option SlotContent :=
  if 96 < r.slot then none
  else if r.condition = 2 then some .tombstone
  else if r.condition = 1 then
    match parseContent r.slot r.content with
    | some (.clock c) => if c.meshTime ≤ now then some (.clock c) else none
    | some (.window w) => some (.window w)
    | some (.device d) => some (.device d)
    | some .empty => none
    | some .tombstone => none
    | none => none
  else none

/-- A POLICY-SUBMIT body is taken: BUSY during the load, else as Table 7.3. -/
def State.submitPolicy (s : State) (b : List Byte) : State × Result :=
  let r := parseRecordAt b 0
  if s.pst.loading then (s, .busy)
  else
    match submittedContent s.now r with
    | none => (s, .refusedField)
    | some c =>
      let counter := (s.slot r.slot).stamp.counter
      if counter = 65535 then (s, .refusedFull)
      else
        (s.changeSlot r.slot { content := c, stamp := { counter := counter + 1, origin := s.ownId } }
          Detail.policyLocal, .ok)

/-- A POLICY-READ body is answered (R103). -/
def State.readPolicy (s : State) (b : List Byte) : Result × List Byte :=
  if s.pst.loading then (.busy, [])
  else if 96 < byteAt b 0 then (.refusedField, [])
  else (.ok, policyRecordBytes (byteAt b 0) (s.slot (byteAt b 0)))

/-! ## Gossip (R104 to R107) -/

/-- The digest compare for the ACTIVE peer in entry slot `i` (R104); none during the load (R110). -/
def State.compareDigest (s : State) (i : Nat) : State :=
  match s.entry i with
  | none => s
  | some e =>
    if s.pst.loading ∨ e.adv.digest = s.pst.digest ∨ e.listGuard.isSome then s
    else
      (s.modEntry i fun e => { e with listGuard := some (s.now + 2 * beaconInterval s.cfg) }).sendFrame
        .policyList e.id (stampListBytes s.pst.slots)

/-- A list cut into pieces of eight, the last taking the remainder; `fuel` bounds the pieces. -/
def piecesOfEight {α : Type} : Nat → List α → List (List α)
  | 0, _ => []
  | _ + 1, [] => []
  | fuel + 1, x :: xs => (x :: xs).take 8 :: piecesOfEight fuel ((x :: xs).drop 8)

/-- The slots named, sent in POLICY-RECORD frames of up to eight records (R105, R106). -/
def State.sendRecords (s : State) (peer : NodeId) (ns : List Nat) : State :=
  (piecesOfEight ns.length ns).foldl
    (fun s piece =>
      s.sendFrame .policyRecord peer (be 1 piece.length ++ (piece.map fun n => policyRecordBytes n (s.slot n)).flatten)) s

/-- A POLICY-LIST from a peer (R105). The slots where this node is ahead go out as records, then one POLICY-GET names
those where it is behind. -/
def State.takePolicyList (peer : NodeId) (b : List Byte) (s : State) : State :=
  match s.findEntry peer with
  | none => s
  | some i =>
    if s.pst.loading then s
    else if (s.entry i).any Entry.answered then s.modPst fun p => { p with excessLists := count16 p.excessLists }
    else
      let s := s.modEntry i fun e => { e with answered := true }
      let ahead := (List.range 97).filter fun n => (s.slot n).stamp.newerThan (parseStamp b (4 * n))
      let behind := (List.range 97).filter fun n => (parseStamp b (4 * n)).newerThan (s.slot n).stamp
      let s := s.sendRecords peer ahead
      if behind = [] then s
      else s.sendFrame .policyGet peer (be 1 behind.length ++ (behind.map (be 1)).flatten)

/-- A POLICY-GET from a peer (R106). -/
def State.takePolicyGet (peer : NodeId) (b : List Byte) (s : State) : State :=
  let named := (b.drop 1).map BitVec.toNat
  if s.pst.loading then s
  else if named = [] ∨ named.any (96 < ·) then s.modPst fun p => { p with malformed := count16 p.malformed }
  else
    s.sendRecords peer
      ((List.range 97).filter fun n => named.contains n && decide ((s.slot n).content ≠ .empty))

/-- The slot content a received policy record gives, if it passes the checks of R107. -/
def receivedSlot (r : RawRecord) : Option Slot :=
  if 96 < r.slot ∨ r.stamp.counter = 0 ∨ validNodeId r.stamp.origin = false then none
  else if r.condition = 2 then some { content := .tombstone, stamp := r.stamp }
  else if r.condition = 1 then (parseContent r.slot r.content).map fun c => { content := c, stamp := r.stamp }
  else none

/-- One record of a POLICY-RECORD frame: dropped and counted, merged when its stamp is newer, else ignored (R107). -/
def State.mergeRecord (s : State) (r : RawRecord) : State :=
  match receivedSlot r with
  | none => s.modPst fun p => { p with invalidRecords := count16 p.invalidRecords }
  | some new =>
    if new.stamp.newerThan (s.slot r.slot).stamp then s.changeSlot r.slot new Detail.policyMerged else s

/-- A POLICY-RECORD from a peer, record by record in frame order (R107). -/
def State.takePolicyRecord (_peer : NodeId) (b : List Byte) (s : State) : State :=
  if s.pst.loading then s
  else ((List.range (byteAt b 0)).map fun i => parseRecordAt b (1 + 18 * i)).foldl State.mergeRecord s

/-! ## The load (R110) and the restart notice (R107, R111) -/

/-- A bad policy image, or a read that did not complete: the slots stay empty, the fault is recorded and a rewrite is
scheduled. -/
def State.policyImageBad (s : State) : State :=
  (s.modPst fun p => { p with loading := false, persist := .scheduled (s.now + 1024) }).recordFault .policyImageBad 0

/-- The policy image as read: a good one fills the slots, and the wall state is computed from it (R47, R48). A wall-state
notice that waits is taken first (R112). -/
def State.loadPolicy (s : State) (data : List Byte) : State :=
  match parsePolicyImage data with
  | none => s.policyImageBad
  | some slots =>
    (s.takeNotices.modPst fun p =>
      { p with slots := slots, digest := digestOf slots, loading := false, persist := .clean }).computeWall

/-- The link-restart values of the PST: its three counts (R107); slots, digest and persistence are kept (R111). -/
def State.restartPst (s : State) : State :=
  s.modPst fun p => { p with excessLists := 0, malformed := 0, invalidRecords := 0 }

end Sys2Proof.Machine
end

