-- ==== Sys2Proof/Machine/Clients.lean ====
section
/-! DEFINITION. The Client Register (chapter 4): obtaining records, admission, association, departure, sightings, peer
reports, aging and the node's own SIGHTINGS, with what the Handoff Controller does at each (chapter 6). -/

namespace Sys2Proof.Machine

open Sys2Proof

/-! ## Obtaining a record (R54, R58) -/

/-- An UNSEEN record for a client with the values at creation of Table 4.3. -/
def State.newRecord (s : State) (a : ClientAddr) : ClientRecord :=
  let d := s.effectiveDevice a
  { addr := a, serving := .unseen, admitPending := none, localLevel := none, sightTime := none, reports := [],
    epoch := 0, confirm := 0, claimHoldoff := none, release := none,
    group := (d.map DeviceRecord.group).getD 0, cls := (d.map DeviceRecord.cls).getD .auto,
    evidence := 0, gameActive := false, effective := .open, lastActivity := s.now, remoteDeadline := none,
    removalDeadline := some (s.now + 65536), carriedPause := none, directed := .normal, enforced := .open,
    pendingControl := none, pendingEnforcement := none, pendingPriority := none }

/-- Whether a record is neither admit-pending nor holds a context (R58). -/
def State.unbound (s : State) (r : ClientRecord) : Bool := r.admitPending.isNone && !s.holdsContext r

/-- The first record that satisfies `ok` and that no later one precedes. -/
def State.firstBy (s : State) (ok : ClientRecord → Bool) (precedes : ClientRecord → ClientRecord → Bool) : Option Nat :=
  ((List.range 64).foldl
    (fun best i =>
      match s.record i with
      | none => best
      | some r =>
        if ok r then
          (match best with
            | none => some (i, r)
            | some (j, b) => if precedes r b then some (i, r) else some (j, b))
        else best) none).map Prod.fst

/-- The first step of the admission order: the UNSEEN record with the oldest last activity time (R58). -/
def State.evictUnseen (s : State) : Option Nat :=
  s.firstBy (fun r => decide (r.serving = .unseen) && s.unbound r) fun a b => decide (a.lastActivity < b.lastActivity)

/-- Whether local S `a` is weaker than `b`; an absent one is weaker than any present one (R58). -/
def weakerLevel : Option Int → Option Int → Bool
  | none, some _ => true
  | some x, some y => decide (x < y)
  | none, none => false
  | some _, none => false

/-- The second step: the REMOTE record with the weakest local S, ties to the oldest last activity time (R58). -/
def State.evictRemote (s : State) : Option Nat :=
  s.firstBy
    (fun r =>
      (match r.serving with
        | .remote _ => true
        | .served _ => false
        | .unseen => false) && s.unbound r)
    fun a b =>
      weakerLevel a.localLevel b.localLevel ||
        (decide (a.localLevel = b.localLevel) && decide (a.lastActivity < b.lastActivity))

/-- The record number that a sighting obtains (R58). -/
def State.obtainForSighting (s : State) : Option Nat :=
  match firstFree s.crg.records with
  | some i => some i
  | none => s.evictUnseen

/-- The record number that an admission obtains (R58). -/
def State.obtainForAdmission (s : State) : Option Nat :=
  match s.obtainForSighting with
  | some i => some i
  | none => s.evictRemote

/-- A record number filled; what it held is lost with every field (R54). -/
def State.fillRecord (s : State) (i : Nat) (r : ClientRecord) : State :=
  s.modCrg fun c => { c with records := c.records.set i (some r) }

/-- Adds one to the unplaced-sighting count (R62, R64). -/
def State.countUnplaced (s : State) : State :=
  s.modCrg fun c => { c with unplacedSightings := count16 c.unplacedSightings }

/-! ## Admission (R55 to R57) -/

/-- A record made admit-pending, its last activity renewed (R57). -/
def ClientRecord.admitted (r : ClientRecord) (now : Nat) : ClientRecord :=
  { r.renewed now with admitPending := some (now + 2048) }

/-- The answer to an ADMIT-QUERY, true for ALLOW, and its effect on the register, by the first case of R55. -/
def State.admitClient (s : State) (client : ClientAddr) : State × Bool :=
  match s.findRecord client with
  | some i =>
    match s.record i with
    | none => (s, false)
    | some r =>
      if r.isServed then (s.renewActivity i, true)
      else if s.emptying then (s.renewActivity i, false)
      else if r.admitPending.isSome then (s.renewActivity i, true)
      else (s.modRecord i (·.admitted s.now), true)
  | none =>
    if s.emptying then (s, false)
    else
      match s.obtainForAdmission with
      | none => (s, false)
      | some i => (s.fillRecord i ((s.newRecord client).admitted s.now), true)

/-! ## Association (R59, R87) -/

/-- A record as it is once SERVED on a radio: the reservation and the remote deadline are gone, no report is served, the
epoch is one more (R59). -/
def ClientRecord.toServed (r : ClientRecord) (radio now : Nat) : ClientRecord :=
  { r with
    serving := .served radio
    admitPending := none
    reports := clearServedFlags none r.reports
    epoch := min (r.epoch + 1) (2 ^ 32 - 1)
    confirm := 0
    lastActivity := now
    remoteDeadline := none
    removalDeadline := none }

/-- Queues CLIENT-JOINED with the radio index. -/
def State.joined (s : State) (client : ClientAddr) (radio : Nat) : State := s.queueEvent .clientJoined client radio

/-- The HOC's part of an association: a claimant context for the client is completed or closed with its own event;
without one the CRG queues CLIENT-JOINED (R59, R87). -/
def State.closeClaimOnAssoc (s : State) (client : ClientAddr) (radio : Nat) : State :=
  match s.findClaim client with
  | none => s.joined client radio
  | some k =>
    match s.claimAt k with
    | none => s.joined client radio
    | some c =>
      match c.state with
      | .admitting => (s.freeClaim k).queueEvent .handoffDone client radio
      | .claiming => ((s.sendFrame .cancel c.server (cancelBytes client c.seq)).freeClaim k).joined client radio

/-- What the SEU and the GTM do at an arrival; nothing in CONFIG-HALT (R67, R119, R129; DEDUCED, unsafe: log entry
19). -/
def State.arrive (s : State) (i : Nat) : State := if s.run = .running then s.enforceArrival i else s

/-- Record `i` becomes SERVED on a radio from REMOTE, from UNSEEN or by creation (R59). -/
def State.beginService (s : State) (i radio : Nat) (r : ClientRecord) : State :=
  let r := r.toServed radio s.now
  let s := (s.modRecord i fun _ => r).sendServed r
  let s := s.closeClaimOnAssoc r.addr radio
  let s := if r.gameActive then s.gameCountUp else s
  s.arrive i

/-- Record `i` moves from one radio of the node to another (R59); a standing release context has its STEER issued again
for the new radio (R83). -/
def State.moveRadio (s : State) (i radio : Nat) (r : ClientRecord) : State :=
  let s := (s.discardPending i).modRecord i fun r =>
    { r with serving := .served radio, confirm := 0, lastActivity := s.now }
  let s := s.joined r.addr radio
  let s :=
    match r.release with
    | none => s
    | some c => s.issueControl i (.steer c.claimant)
  s.arrive i

/-- An ASSOC for which no record can be had: counted, and answered with ADMIT-ANSWER (REFUSE) but in CONFIG-HALT (R59,
R67). -/
def State.refuseAssoc (s : State) (radio : Nat) (client : ClientAddr) : State :=
  let s := s.modCrg fun c => { c with refusedAssociations := count16 c.refusedAssociations }
  if s.run = .running then s.emit (.admitAnswer radio client false) else s

/-- An ASSOC of a client on a radio (R59). -/
def State.associate (s : State) (radio : Nat) (client : ClientAddr) : State :=
  match s.findRecord client with
  | some i =>
    match s.record i with
    | none => s
    | some r =>
      match r.serving with
      | .served q => if q = radio then s.renewActivity i else s.moveRadio i radio r
      | .remote _ => s.beginService i radio r
      | .unseen => s.beginService i radio r
  | none =>
    match s.obtainForAdmission with
    | none => s.refuseAssoc radio client
    | some i => (s.fillRecord i (s.newRecord client)).beginService i radio (s.newRecord client)

/-! ## Departure (R60, R88) -/

/-- A record as it is once it has left SERVED: REMOTE of a release context's claimant, else of the first served report's
peer, else UNSEEN; no effective state, no context (R60, R88, R119). -/
def ClientRecord.departed (r : ClientRecord) (now : Nat) : ClientRecord :=
  let r' := { r with effective := .open, lastActivity := now, release := none }
  match r.release with
  | some c => { r' with reports := clearServedFlags none r.reports }.toRemote c.claimant now
  | none =>
    match r.reports.find? PeerReport.served with
    | some p => r'.toRemote p.peer now
    | none => r'.toUnseen

/-- A DISASSOC of a client from a radio; ignored unless the record is SERVED on that radio (R60). -/
def State.disassociate (s : State) (radio : Nat) (client : ClientAddr) (cause : RadioCause) : State :=
  match s.findRecord client with
  | none => s
  | some i =>
    match s.record i with
    | none => s
    | some r =>
      if r.serving ≠ .served radio then s
      else
        let s := (s.discardPending i).modRecord i (·.departed s.now)
        let s := s.queueEvent (if r.release.isSome then .clientTaken else .clientLeft) client (causeCode cause)
        (s.gameDeparture i r).checkEmptied

/-! ## Local sightings (R62) -/

/-- A record after a SIGHT: smoothed level, sight time, last activity (R62, R69). -/
def ClientRecord.sighted (r : ClientRecord) (k now : Nat) (level : Int) : ClientRecord :=
  { r.renewed now with localLevel := some (smoothLevel k r.localLevel level), sightTime := some now }

/-- A SIGHT of a client (R62). -/
def State.sightClient (s : State) (client : ClientAddr) (level : Int) : State :=
  match s.findRecord client with
  | some i => s.modRecord i (·.sighted (smoothingShift s.cfg) s.now level)
  | none =>
    match s.obtainForSighting with
    | none => s.countUnplaced
    | some i => s.fillRecord i ((s.newRecord client).sighted (smoothingShift s.cfg) s.now level)

/-! ## Peer reports (R63) -/

/-- Report `p` stands before `x` in a record's order: stronger, or as strong with the lower peer id. -/
def PeerReport.precedes (p x : PeerReport) : Bool :=
  decide (x.level < p.level ∨ (x.level = p.level ∧ p.peer.toNat < x.peer.toNat))

/-- A report put at its place in the order. -/
def insertReport (p : PeerReport) : List PeerReport → List PeerReport
  | [] => [p]
  | x :: xs => if p.precedes x then p :: x :: xs else x :: insertReport p xs

/-- Peer P's report written into a record's reports (R63); `server` is the peer named by REMOTE. Of two reports of equal S
the weakest is the later in the record's order, the one of the higher peer id (DEDUCED, unsafe: log entry 49). -/
def writeReport (server : Option NodeId) (p : PeerReport) (reports : List PeerReport) : List PeerReport :=
  let others := reports.filter fun x => decide (x.peer ≠ p.peer)
  if others.length < reports.length ∨ reports.length < 3 then insertReport p others
  else
    match (reports.filter fun x => decide (some x.peer ≠ server)).getLast? with
    | none => reports
    | some weakest =>
      if p.served ∨ weakest.level < p.level then insertReport p (reports.erase weakest) else reports

/-- The peer a record is REMOTE of. -/
def ClientRecord.server (r : ClientRecord) : Option NodeId :=
  match r.serving with
  | .remote p => some p
  | .served _ => none
  | .unseen => none

/-! ## A SIGHTINGS entry or SERVED notice (R64, R91, R92) -/

/-- A record with a peer's report of an entry written, the flag `served` being the one the report keeps, and the last
activity renewed. A record REMOTE of the peer after a served entry has its remote deadline set anew (R64). -/
def ClientRecord.reported (r : ClientRecord) (peer : NodeId) (e : SightingEntry) (served : Bool) (now : Nat) :
    ClientRecord :=
  let report : PeerReport := { peer := peer, level := e.level, served := served, game := e.game, time := now }
  { r.renewed now with
    reports := writeReport r.server report r.reports
    remoteDeadline := if e.served ∧ r.serving = .remote peer then some (now + 8192) else r.remoteDeadline }

/-- A record that becomes REMOTE of a peer by its entry, at the entry's epoch. The report is placed with the new server
in mind, and at an equal epoch other served flags stay (DEDUCED, unsafe: log entries 29 and 30). -/
def ClientRecord.takenBy (r : ClientRecord) (peer : NodeId) (e : SightingEntry) (now : Nat) : ClientRecord :=
  { r.toRemote peer now with
    epoch := e.epoch
    reports := if r.epoch < e.epoch then clearServedFlags none r.reports else r.reports }.reported peer e true now

/-- A record SERVED here gives way: it takes the entry's epoch, DISCONNECT is issued, and the HOC acts on a release
context (R64, R91, R92). -/
def State.giveWay (s : State) (i : Nat) (peer : NodeId) (e : SightingEntry) : State :=
  ((s.modRecord i fun r => { r with epoch := e.epoch }.reported peer e true s.now).issueControl i
    .disconnect).overtakeRelease i peer

/-- Whether a SERVED notice at a tied epoch makes this node yield (R91). -/
def State.yieldsTo (s : State) (r : ClientRecord) (peer : NodeId) (e : SightingEntry) : Bool :=
  decide (e.epoch = r.epoch) && !r.reports.any PeerReport.served && decide (s.ownId.toNat < peer.toNat)

/-- An entry is applied to the client's record as Table 4.4 gives; `notice` marks a SERVED notice. The table holds for a
superseded record too: a later entry of its peer at an equal or lower epoch clears that report's served flag (DESIGN
CHOICE, unsafe: log entry 45). -/
def State.applyToRecord (s : State) (peer : NodeId) (notice : Bool) (e : SightingEntry) (i : Nat) (r : ClientRecord) :
    State :=
  let kept := s.modRecord i (·.reported peer e false s.now)
  let taken := s.modRecord i (·.takenBy peer e s.now)
  match r.serving with
  | .served _ =>
    if e.served = true ∧ (r.epoch < e.epoch ∨ (notice = true ∧ s.yieldsTo r peer e = true)) then s.giveWay i peer e
    else kept
  | .remote q =>
    if e.served then
      if r.epoch < e.epoch then (if q = peer then taken else taken.overtakeClaim r.addr peer)
      else if r.epoch = e.epoch ∧ q = peer then s.modRecord i (·.reported peer e true s.now)
      else kept
    else if q = peer ∧ r.epoch ≤ e.epoch then s.modRecord i (·.toUnseen.reported peer e false s.now)
    else kept
  | .unseen => if e.served = true ∧ r.epoch ≤ e.epoch then taken.overtakeClaim r.addr peer else kept

/-- A valid entry is applied; one for a client without a record makes one only when it is served (Table 4.4). -/
def State.applyEntry (peer : NodeId) (notice : Bool) (s : State) (e : SightingEntry) : State :=
  match s.findRecord e.client with
  | some i =>
    match s.record i with
    | none => s
    | some r => s.applyToRecord peer notice e i r
  | none =>
    if e.served = false then s
    else
      match s.obtainForSighting with
      | none => s.countUnplaced
      | some i => s.fillRecord i ((s.newRecord e.client).takenBy peer e s.now)

/-- Whether an entry's S lies within range and its client is one (R64, R79). -/
def SightingEntry.valid (e : SightingEntry) : Bool := decide (e.client ≠ 0#48 ∧ -1600 ≤ e.level ∧ e.level ≤ -160)

/-- One entry of a SIGHTINGS frame: applied, or discarded and counted (R64). -/
def State.takeEntry (peer : NodeId) (s : State) (e : SightingEntry) : State :=
  if e.valid then s.applyEntry peer false e
  else s.modCrg fun c => { c with invalidEntries := count16 c.invalidEntries }

/-- A SIGHTINGS frame from a peer, entry by entry in frame order (R64). -/
def State.takeSightings (peer : NodeId) (b : List Byte) (s : State) : State :=
  (parseSightings b).foldl (State.takeEntry peer) s

/-! ## Aging (R65) -/

/-- A remote deadline expires: the record becomes UNSEEN and its server's report loses its served flag. -/
def ClientRecord.remoteLapsed (r : ClientRecord) : ClientRecord :=
  { r.toUnseen with reports := clearServedFlags r.server r.reports }

/-- A removal deadline expires: the record is freed, or kept 65536 ticks more while it is admit-pending or holds a
context (counted from the present mesh time, DEDUCED, unsafe: log entry 23). -/
def State.ageRecord (s : State) (i : Nat) (r : ClientRecord) : State :=
  if s.unbound r then s.modCrg fun c => { c with records := c.records.set i none }
  else s.modRecord i fun r => { r with removalDeadline := some (s.now + 65536) }

/-! ## A removed peer (R32) -/

/-- A record after peer P's removal: REMOTE (P) becomes UNSEEN, and P's report goes. -/
def ClientRecord.withoutPeer (peer : NodeId) (r : ClientRecord) : ClientRecord :=
  let r := { r with reports := r.reports.filter fun p => decide (p.peer ≠ peer) }
  if r.serving = .remote peer then r.toUnseen else r

/-- Every record after a peer's removal. -/
def State.forgetPeer (s : State) (peer : NodeId) : State :=
  s.modCrg fun c => { c with records := c.records.map (Option.map (·.withoutPeer peer)) }

/-! ## The node's own sightings (R66) -/

/-- The record numbers from the one after the served cursor on, wrapping. -/
def cursorOrder (cursor : Nat) : List Nat := (List.range 64).map fun k => (cursor + 1 + k) % 64

/-- The SERVED records a SIGHTINGS frame carries, at most 24. -/
def State.servedPart (s : State) : List Nat :=
  ((cursorOrder s.crg.servedCursor).filter fun i => (s.record i).any ClientRecord.isServed).take 24

/-- Whether a record is one of the sighted clients: not SERVED, sighted within the last 1024 ticks. -/
def ClientRecord.isSighted (r : ClientRecord) (now : Nat) : Bool :=
  !r.isServed && r.sightTime.any fun t => decide (now - t ≤ 1024)

/-- A record number put at its place, the strongest local S first; equal ones stay in the order they come. -/
def State.insertByLevel (s : State) (i : Nat) : List Nat → List Nat
  | [] => [i]
  | x :: xs =>
    if weakerLevel ((s.record x).bind ClientRecord.localLevel) ((s.record i).bind ClientRecord.localLevel) then
      i :: x :: xs
    else x :: s.insertByLevel i xs

/-- The sighted clients, strongest first, ties to the lowest number. -/
def State.sightedPart (s : State) : List Nat :=
  ((List.range 64).filter fun i => (s.record i).any fun r => r.isSighted s.now).foldl
    (fun acc i => s.insertByLevel i acc) []

/-- The SIGHTINGS entry of a record. -/
def State.entryFor (s : State) (r : ClientRecord) : SightingEntry :=
  { client := r.addr
    level := if r.isServed ∧ s.icu.install = .draining then -1600 else r.localLevel.getD (-1600)
    served := r.isServed
    game := r.gameActive
    epoch := r.epoch }

/-- The SIGHTINGS frame built at an expiry, and the cursor moved; no frame without a record that qualifies. -/
def State.buildSightings (s : State) : State :=
  let served := s.servedPart
  let chosen := served ++ s.sightedPart.take (24 - served.length)
  let body := sightingsBytes ((chosen.filterMap s.record).map s.entryFor)
  let s := s.modCrg fun c =>
    { c with sightingsDeadline := some (s.now + 256), servedCursor := served.getLast?.getD c.servedCursor }
  if chosen = [] then s else s.sendFrame .sightings allNodes body

/-! ## The restart notices of the CRG and the RSE (R67, R73, R76) -/

/-- A record after a link restart. -/
def ClientRecord.restarted (r : ClientRecord) : ClientRecord :=
  let r := { r with reports := [], admitPending := none, confirm := 0 }
  match r.serving with
  | .served _ => r
  | .remote _ => r.toUnseen
  | .unseen => r

/-- The link-restart values of the CRG. -/
def State.restartCrg (s : State) : State :=
  s.modCrg fun c =>
    { records := c.records.map (Option.map ClientRecord.restarted), sightingsDeadline := some (s.now + 256),
      servedCursor := 63, refusedAssociations := 0, unplacedSightings := 0, invalidEntries := 0 }

/-- The link-restart values of the RSE: confirm counts 0 and a new evaluation deadline. -/
def State.restartRse (s : State) : State :=
  { s.modCrg fun c => { c with records := c.records.map (Option.map fun r => { r with confirm := 0 }) } with
    rse := { evaluationDeadline := some (s.now + 128) } }

end Sys2Proof.Machine
end

