-- ==== Sys2Proof/Machine/Neighbours.lean ====
section
/-! DEFINITION. The Mesh Timebase's tick and merge (sections 3.1 and 3.2) and the Neighbour Table (chapter 2): link
states, removal, the node's own beacons. Beacons.lean takes a peer's beacon. -/

namespace Sys2Proof.Machine

open Sys2Proof

/-! ## Mesh time (R39 to R42) -/

/-- Mesh time moved forward, holding at 2^40 − 1 (R39). -/
def advanceTime (now n : Nat) : Nat := min (now + n) meshTimeMax

/-- One tick: the divider has wrapped and mesh time advances by one (R39); the wall state is computed (R48). A wall-state
notice that waits is taken first (R112). -/
def State.tick (s : State) : State :=
  (s.takeNotices.modMtb fun m => { m with divider := 0, meshTime := advanceTime m.meshTime 1 }).computeWall

/-- One cycle of the reference clock (R39). While RESET is asserted nothing counts (R161; log entry 5). -/
def State.referenceCycle (s : State) : State :=
  if s.run = .resetHeld then s
  else if s.mtb.divider < 31 then s.modMtb fun m => { m with divider := m.divider + 1 }
  else s.tick.finish

/-- The merge of a synced node: a step of at most 1024 ticks, with TIME-STEP (SLEWED) above 64 (R41). The detail is
of the step before the cap at 2^40 − 1 (DESIGN CHOICE, unsafe: log entry 31). -/
def State.slew (s : State) (src : NodeId) (t : Nat) : State :=
  let d := t + 1 - s.now
  let step := min d 1024
  let s := s.modMtb fun m => { m with meshTime := advanceTime m.meshTime step }
  if d < 65 then s else s.queueEvent .timeStep (nodeSubject src) (step / 8)

/-- The first adoption: the larger time, every deadline and arrival time moved with it, the synced flag set, TIME-STEP
(ADOPTED) (R42). -/
def State.adopt (s : State) (src : NodeId) (t : Nat) : State :=
  let new := min (max s.now (t + 1)) meshTimeMax
  ((s.shiftTimes (new - s.now)).modMtb fun m => { m with meshTime := new, synced := true }).queueEvent
    .timeStep (nodeSubject src) Detail.adopted

/-- A beacon's time is merged (R41, R42), and the wall state computed (R48). A wall-state notice that waits is taken first
(R112). -/
def State.mergeTime (s : State) (src : NodeId) (t : Nat) : State :=
  let s := s.takeNotices
  (if s.mtb.synced then s.slew src t else s.adopt src t).computeWall

/-! ## Link states (R26 to R29) -/

/-- A new entry with the values at creation of Table 2.1; its deadline is set as the beacon is taken. -/
def newEntry (id : NodeId) (adv : Advertised) : Entry :=
  { id := id, link := .heard, joinCount := 1, missCount := 0, badFrames := 0, goodRun := 0, dueDeadline := 0,
    sinceWindow := 0, adv := adv, fetchFails := 0, listGuard := none, answered := false }

/-- Steps 3 and 4 of R26: the due deadline renewed, the beacon counted in its window of sixteen. -/
def Entry.renewedBy (e : Entry) (now : Nat) (cfg : Configuration) : Entry :=
  { e with
    dueDeadline := now + beaconInterval cfg + 64
    sinceWindow := if 15 ≤ e.sinceWindow then 0 else e.sinceWindow + 1
    badFrames := if 15 ≤ e.sinceWindow then 0 else e.badFrames }

/-- The state rule of step 5 for an entry, and the detail of the PEER-ACTIVE event it brings, if any (R27 to R29). -/
def Entry.stateRule (e : Entry) (threshold : Nat) : Entry × Option Nat :=
  match e.link with
  | .heard =>
    if threshold ≤ e.badFrames then (e, none)
    else if e.joinCount + 1 < 3 then ({ e with joinCount := e.joinCount + 1 }, none)
    else ({ e with joinCount := 3, link := .active, missCount := 0 }, some Detail.joined)
  | .active => ({ e with missCount := 0 }, none)
  | .failing =>
    if threshold ≤ e.badFrames then ({ e with goodRun := 0 }, none)
    else if e.goodRun + 1 < 2 then ({ e with goodRun := e.goodRun + 1 }, none)
    else
      ({ e with link := .active, missCount := 0, badFrames := 0, goodRun := 0, sinceWindow := 0 },
        some Detail.returned)

/-- Whether an entry counts for the peer-game count (R131). -/
def Entry.countsGame (e : Entry) : Bool := decide (e.link ≠ .heard) && e.adv.gameActive

/-- The peer-game count moved as an entry's counting changes (R131), and the yield condition judged. -/
def State.movePeerGame (s : State) (before after : Bool) : State :=
  if before = after then s
  else (s.modGtm fun g => { g with peerGame := if after then g.peerGame + 1 else g.peerGame - 1 }).judgeYield

/-! ## Misses and removal (R30, R32) -/

/-- The fetch slots naming a removed peer are freed, and free slots filled (R32, R139). -/
def State.releaseFetches (s : State) (peer : NodeId) : State :=
  if s.ims.fetches.any (fun o => o.any fun f => decide (f.peer = peer)) then (s.dropFetchesOf peer).fillFetches else s

/-- A FAILING entry removed at its sixth miss, with the effects of Table 2.5. -/
def State.removePeer (s : State) (i : Nat) (e : Entry) : State :=
  let s := (s.modNbt fun n => { n with entries := n.entries.set i none }).queueEvent .peerLost (nodeSubject e.id) 0
  let s := (s.losePeerContexts e.id).forgetPeer e.id
  (s.releaseFetches e.id).movePeerGame e.countsGame false

/-- The entry's beacon-due deadline has expired (R30). -/
def State.missBeacon (s : State) (i : Nat) (e : Entry) : State :=
  let missed := { e with missCount := e.missCount + 1, dueDeadline := e.dueDeadline + beaconInterval s.cfg }
  match e.link with
  | .heard => s.modNbt fun n => { n with entries := n.entries.set i none }
  | .active =>
    if missed.missCount < 2 then s.modEntry i fun _ => missed
    else
      (s.modEntry i fun _ => { missed with link := .failing, goodRun := 0 }).queueEvent .peerFailing
        (nodeSubject e.id) Detail.misses
  | .failing =>
    if missed.missCount < 6 then s.modEntry i fun _ => { missed with goodRun := 0 } else s.removePeer i e

/-! ## Own beacons (R36, R37) -/

/-- The image id and version the beacon carries: 0 in EMPTY, else the current head's (R37). -/
def State.advertisedImage (s : State) : Nat × Nat :=
  if s.ims.image = .empty then (0, 0)
  else
    match s.ims.head with
    | some h => (h.imageId, h.version)
    | none => (Config.headlessImageId, Config.headlessImageVersion)

/-- The advertised state of the node as the blocks hold it (R37). -/
def State.advertised (s : State) : Advertised :=
  { load := s.ownLoad
    gameActive := nodeGameFlag s.gtm
    drainIntent := decide (s.icu.install = .intent)
    clockValid := s.wallSeconds.isSome
    install := s.icu.install
    image := s.ims.image
    imageId := s.advertisedImage.1
    imageVersion := s.advertisedImage.2
    segments := s.ims.segmentMask
    digest := s.pst.digest
    servedCount := s.servedCount }

/-- The first beacon build deadline: 0..255 ticks from now (R36). -/
def State.firstBuild (s : State) : State :=
  let (n, s) := s.drawUpTo 255
  s.modNbt fun t => { t with buildDeadline := some (s.now + n) }

/-- One own beacon built: the ICU's check, the body with a zero time, the answered flags cleared, the next deadline with
its jitter (R36, R37). -/
def State.buildBeacon (s : State) : State :=
  let s := s.icuAtBuild
  let s := s.sendFrame .beacon allNodes (beaconBytes 0 s.advertised)
  let (jitter, s) := s.drawUpTo 63
  s.modNbt fun t =>
    { t with
      entries := t.entries.map (Option.map fun e => { e with answered := false })
      buildDeadline := some (s.now + beaconInterval s.cfg + jitter) }

/-- The link-restart values of the NBT (R36, R38); the peer-game count goes with the entries (R131). -/
def State.restartNbt (s : State) : State :=
  ((s.modNbt fun t =>
    { t with entries := List.replicate 8 none, clashHoldoff := none, tableFull := 0 }).firstBuild).clearPeerGame

end Sys2Proof.Machine
end

