-- ==== Sys2Proof/Machine/StartCommands.lean ====
section
/-! DEFINITION. Reset, the tick, the wall-state notice, and how the configuration read ends: the meanings of FULL_RESET,
RESET_ASSERTED, TICK and WALL_STATE_NOTICE, and the two ends of CONFIG_READ_COMPLETE. -/

namespace Sys2Proof.Machine

open Sys2Proof

/-! ## Reset (R161) -/

/-- The full-reset values with what is the model's own kept: the commands that wait, the record of what has been sent,
the number of draws made. -/
def State.fullResetState (s : State) : State :=
  { State.reset with sent := s.sent, draws := s.draws, pending := s.pending }

/-- FULL_RESET: power-on, or RESET released (R161). -/
def execFullReset (s : State) : Host.Outcome State Fault Refusal := .next s.fullResetState

/-- RESET_ASSERTED: every block holds its full-reset values and no interface is answered; the configuration read comes
at the release (R161). -/
def execResetAsserted (s : State) : Host.Outcome State Fault Refusal :=
  .next { s.fullResetState with run := .resetHeld, flp := { waiting := [], operation := none } }

/-! ## Time -/

/-- TICK: the divider wraps (R39); nothing counts while RESET is asserted (DESIGN CHOICE, unsafe: log entry 5). -/
def execTick (s : State) : Host.Outcome State Fault Refusal := if s.run = .resetHeld then .next s else done s.tick

/-- WALL_STATE_NOTICE: the SEU takes the oldest notice, holds its wall state and makes a full evaluation (R116).
Without a notice there is no effect (DESIGN CHOICE, safe: log entry 8). -/
def execWallStateNotice (s : State) : Host.Outcome State Fault Refusal :=
  match s.wallNotices with
  | [] => .next s
  | w :: _ => .next (s.takeNotice w)

/-! ## The end of the configuration read (R159 to R161) -/

/-- A bad configuration block: CONFIG-BAD with its detail, and CONFIG-HALT. The BCU stays in its reset state (R21). -/
def State.configBad (s : State) (detail : Nat) : State :=
  { s.recordFault .configBad detail with run := .configHalt }

/-- An accepted configuration block: every block begins (R161). -/
def State.startRunning (s : State) : State :=
  let s := { s with run := .running }
  let s := (s.modBcu fun b =>
    { b with credit := creditCapacity s.cfg, refillDeadline := some (s.now + 64) }).emit .mediumQuery
  let s := (s.modPst fun p => { p with loading := true }).requestFlash .policyRead
  let s := (s.modIms fun m =>
    { m with scan := .readingHead, halvingDeadline := some (s.now + 16384) }).requestFlash .headRead
  let s := s.firstBuild
  let s := s.modCrg fun c => { c with sightingsDeadline := some (s.now + 256) }
  { s with rse := { evaluationDeadline := some (s.now + 128) } }

/-- The configuration block as read is checked and held (R159). -/
def State.takeConfig (s : State) (data : List Byte) : State :=
  let s := { s with cfg := parseConfig data }
  match configProblem data with
  | some detail => s.configBad detail
  | none => s.startRunning

end Sys2Proof.Machine
end

