-- ==== Sys2Proof/Machine/FlashCommands.lean ====
section
/-! DEFINITION. The Flash Port's commands (R147): an operation begins, completes or is abandoned. R147 takes any
completion as the running operation's, so each completion command is judged by what runs (DEDUCED, unsafe: log entry
12). An operation begins at its own command (DEDUCED, unsafe: log entry 38). -/

namespace Sys2Proof.Machine

open Sys2Proof

/-! ## Beginning an operation -/

/-- What the FLP sends the device for an operation, and the block it concerns (Table 10.2). -/
def State.flashOutput (s : State) : FlashKind → Option Output
  | .configRead => some (.flashRead 0)
  | .policyRead => some (.flashRead 1)
  | .policyWrite => some (.flashWrite 1 (policyImageBytes s.pst.slots))
  | .headWrite => s.ims.head.map fun h => .flashWrite 2 (headBlockBytes h s.icu.marker)
  | .program i =>
    match s.ims.buffer i with
    | .free => none
    | .held _ c bytes _ _ => some (.flashWrite (chunkBlock c) bytes)
  | .verify i =>
    match s.ims.buffer i with
    | .free => none
    | .held _ c _ _ _ => some (.flashRead (chunkBlock c))
  | .headRead => some (.flashRead 2)
  | .scanRead c => some (.flashRead (chunkBlock c))
  | .patrolRead c => some (.flashRead (chunkBlock c))
  | .serveRead _ c => some (.flashRead (chunkBlock c))

/-- What the requester does as its operation begins: the persistence unit is WRITING (R108), a buffer PROGRAMMING
(R142). -/
def State.operationBegun (s : State) : FlashKind → State
  | .policyWrite => s.modPst fun p => { p with persist := .writing }
  | .program i => s.modIms fun m => { m with buffers := m.buffers.modify i (Buffer.withStage .programming) }
  | .configRead | .policyRead | .headWrite | .verify _ | .headRead | .scanRead _ | .patrolRead _ | .serveRead _ _ => s

/-- The FLP begins a waiting request, with a deadline 2048 ticks later (R147). -/
def State.beginOperation (s : State) (r : FlashRequest) : State :=
  let out := s.flashOutput r.kind
  let s := s.modFlp fun f =>
    { waiting := f.waiting.erase r
      operation := some { kind := r.kind, discard := r.discard, deadline := s.now + 2048, marker := s.icu.marker } }
  let s := s.operationBegun r.kind
  match out with
  | none => s
  | some o => s.emit o

/-- FLASH_OPERATION_BEGIN: with no operation running and a request waiting, the oldest of the highest rank begins. -/
def execFlashOperationBegin (s : State) : Host.Outcome State Fault Refusal :=
  match s.flp.operation, nextRequest s.flp.waiting with
  | none, some r => done (s.beginOperation r)
  | none, none => .next s
  | some _, _ => .next s

/-! ## Completions -/

/-- A program operation has completed: the buffer becomes VERIFYING and its verify read is requested; a discarded one is
freed (R142, R138). -/
def State.programDone (s : State) (i : Nat) : State :=
  match s.ims.buffer i with
  | .free => s
  | .held _ _ _ _ true => (s.setBuffer i .free).fillFetches
  | .held _ c bytes check false => (s.setBuffer i (.held .verifying c bytes check false)).requestFlash (.verify i)

/-- A verify read has completed (R142). A chunk that becomes present brings its index entries from the buffer (R136). -/
def State.verifyDone (s : State) (i : Nat) (data : List Byte) : State :=
  match s.ims.buffer i with
  | .free => s
  | .held _ c bytes check discard =>
    let s := s.setBuffer i .free
    if discard then s.fillFetches
    else if crc32 data = check then
      ((s.modIms fun m => { m with verifyFailures := 0 }).chunkPresent c bytes).fillFetches
    else
      let n := s.ims.verifyFailures + 1
      let s := s.modIms fun m => { m with verifyFailures := min n 3 }
      if n < 3 then s.fillFetches else s.enterFault.recordFault .storeVerify 3

/-- The head-block read of the recovery scan has completed (R146). -/
def State.headReadDone (s : State) (data : List Byte) : State :=
  let h := parseHead data
  if h.valid ∧ h.chunkCount ≤ flashCapacity s.cfg then
    ((s.modIms fun m => { m with head := some h }).icuMarkerFound (parseMarker data)).scanStep h (some (.index 0))
  else ((s.modIms fun m => { m with scan := .off }).setImage .empty).takeHeldHead

/-- A recovery-scan read of a chunk has completed (R146). -/
def State.scanReadDone (s : State) (c : ChunkRef) (data : List Byte) : State :=
  let s := if s.ims.bytesMatch c data then s.modIms (·.setPresent c data) else s
  match s.ims.head with
  | none => s
  | some h => s.scanStep h (s.ims.scanNext h c)

/-- A patrol read has completed; its result is discarded when the chunk is no longer present (R144). -/
def State.patrolDone (s : State) (c : ChunkRef) (data : List Byte) : State :=
  if s.ims.isPresent c = false ∨ s.ims.checkable c = false ∨ s.ims.bytesMatch c data = true then s
  else (s.clearBadChunk c).fillFetches

/-- A serve read has completed: the CHUNK fills its reservation, or the chunk is found bad (R143). -/
def State.serveDone (s : State) (peer : NodeId) (c : ChunkRef) (data : List Byte) : State :=
  match s.ims.head with
  | none => s
  | some h =>
    if s.ims.bytesMatch c data then s.sendChunk peer c (chunkNameBytes h c ++ data)
    else ((s.modBcu (·.withdrawReservation peer c)).clearBadChunk c).fillFetches

/-- The result of a completed operation handed to its requester (R147). -/
def State.operationDone (s : State) (o : FlashOperation) (data : List Byte) : State :=
  match o.kind with
  | .configRead => s.takeConfig data
  | .policyRead => s.loadPolicy data
  | .policyWrite => s.modPst (·.endWrite s.now true)
  | .headWrite => s
  | .program i => s.programDone i
  | .verify i => s.verifyDone i data
  | .headRead => if o.discard then s else s.headReadDone data
  | .scanRead c => if o.discard then s else s.scanReadDone c data
  | .patrolRead c => if o.discard then s else s.patrolDone c data
  | .serveRead peer c => if o.discard then s else s.serveDone peer c data

/-- A completion given with bytes: the running operation's, its deadline cancelled; ignored when none runs (R147). -/
def State.complete (s : State) (data : List Byte) : Host.Outcome State Fault Refusal :=
  match s.flp.operation with
  | none => .next s
  | some o => done ((s.modFlp fun f => { f with operation := none }).operationDone o data)

/-- Whether an operation is a read. -/
def FlashKind.isRead : FlashKind → Bool
  | .configRead | .policyRead | .verify _ | .headRead | .scanRead _ | .patrolRead _ | .serveRead _ _ => true
  | .policyWrite | .headWrite | .program _ => false

/-- A completion given without bytes. A running read takes free bytes, since R147 takes the completion as its own and no
rule says what it then reads (DESIGN CHOICE, safe: log entry 4). -/
def State.completeBare (s : State) : Host.Outcome State Fault Refusal :=
  if s.flp.isRunning FlashKind.isRead then { s with draws := s.draws + 1 }.complete (Config.strayRead s.draws)
  else s.complete []

/-- CONFIG_READ_COMPLETE (R159). -/
def execConfigReadComplete (data : List Byte) (s : State) : Host.Outcome State Fault Refusal := s.complete data

/-- POLICY_IMAGE_READ_COMPLETE (R110). -/
def execPolicyImageReadComplete (data : List Byte) (s : State) : Host.Outcome State Fault Refusal := s.complete data

/-- POLICY_WRITE_COMPLETE (R109). -/
def execPolicyWriteComplete (s : State) : Host.Outcome State Fault Refusal := s.completeBare

/-- CHUNK_PROGRAM_COMPLETE (R142). -/
def execChunkProgramComplete (s : State) : Host.Outcome State Fault Refusal := s.completeBare

/-- VERIFY_READ_COMPLETE (R142). -/
def execVerifyReadComplete (data : List Byte) (s : State) : Host.Outcome State Fault Refusal := s.complete data

/-- SERVE_READ_COMPLETE (R143). -/
def execServeReadComplete (data : List Byte) (s : State) : Host.Outcome State Fault Refusal := s.complete data

/-- PATROL_READ_COMPLETE (R144). -/
def execPatrolReadComplete (data : List Byte) (s : State) : Host.Outcome State Fault Refusal := s.complete data

/-- HEAD_BLOCK_READ_COMPLETE (R146). -/
def execHeadBlockReadComplete (data : List Byte) (s : State) : Host.Outcome State Fault Refusal := s.complete data

/-- SCAN_READ_COMPLETE (R146). -/
def execScanReadComplete (data : List Byte) (s : State) : Host.Outcome State Fault Refusal := s.complete data

/-- HEAD_BLOCK_WRITE_COMPLETE (R147, R157): the head and its marker have reached flash; nothing else follows. -/
def execHeadBlockWriteComplete (s : State) : Host.Outcome State Fault Refusal := s.completeBare

/-! ## The operation deadline -/

/-- What the requester of an abandoned operation does beside the image's FAULT (R109, R110, R157). A head-block write
that stores the installed marker is requested again 1024 ticks later while the marker still stands (DEDUCED, unsafe: log
entry 32). -/
def State.operationFailed (s : State) (o : FlashOperation) : State :=
  match o.kind with
  | .policyRead => s.policyImageBad
  | .policyWrite => s.modPst (·.endWrite s.now false)
  | .headWrite =>
    if o.marker ∧ s.icu.marker then s.modIcu fun u => { u with rewriteDeadline := some (s.now + 1024) } else s
  | .configRead | .program _ | .verify _ | .headRead | .scanRead _ | .patrolRead _ | .serveRead _ _ => s

/-- An operation that did not complete is abandoned: FLASH-NO-RESPONSE with its rank, the device is reset, and the image
enters FAULT, or for the configuration read the part enters CONFIG-HALT, after FLASH-NO-RESPONSE (R147, R159). For any
other, FLASH-NO-RESPONSE comes first, then what the requester does, then the image's FAULT (the order is a DESIGN CHOICE,
unsafe: log entry 41). -/
def State.abandonOperation (s : State) (o : FlashOperation) : State :=
  let s := (s.modFlp fun f => { f with operation := none }).recordFault .flashNoResponse (flashRank o.kind)
  let s := s.emit .flashReset
  if o.kind = .configRead then s.configBad 4 else (s.operationFailed o).enterFault

/-- The running operation's deadline (R147). -/
def State.operationDeadline (s : State) : Option Expiry :=
  match s.flp.operation with
  | none => none
  | some o => some { deadline := o.deadline, taken := s.abandonOperation o }

/-- FLASH_OPERATION_DEADLINE (R147). -/
def execFlashOperationDeadline (s : State) : Host.Outcome State Fault Refusal := s.expire s.operationDeadline

end Sys2Proof.Machine
end

