-- ==== Sys2Proof/Machine/Expiries.lean ====
section
/-! DEFINITION. The deadlines that the blocks hold, each with what its expiry does (`Expiry`), and the expiries that a
step of mesh time brings. An expiry has its own command, which takes it when its deadline is due; those that a beacon's
step brings are taken within the beacon (R41). -/

namespace Sys2Proof.Machine

open Sys2Proof

/-- A deadline of the client record in a slot. -/
def State.recordExpiry (s : State) (i : Nat) (deadline : ClientRecord → Option Nat) (taken : ClientRecord → State) :
    Option Expiry :=
  match s.record i with
  | none => none
  | some r => expiryOf (deadline r) (taken r)

/-! ## Backhaul Channel Unit -/

/-- One refill, the deadline set again 64 ticks later (R17, R44). -/
def Bcu.refill (b : Bcu) (capacity deadline : Nat) : Bcu :=
  { b with credit := min (b.credit + capacity / 16) capacity, refillDeadline := some (deadline + 64) }

/-- The credit refill deadline (R17). -/
def State.creditRefill (s : State) : Option Expiry :=
  match s.bcu.refillDeadline with
  | none => none
  | some d => some { deadline := d, taken := s.modBcu (·.refill (creditCapacity s.cfg) d) }

/-! ## Neighbour Table -/

/-- An entry's beacon-due deadline (R30). -/
def State.beaconDue (s : State) (slot : Nat) : Option Expiry :=
  match s.entry slot with
  | none => none
  | some e => some { deadline := e.dueDeadline, taken := s.missBeacon slot e }

/-- The beacon build deadline (R36). -/
def State.beaconBuild (s : State) : Option Expiry := expiryOf s.nbt.buildDeadline s.buildBeacon

/-- The clash hold-off (R23). -/
def State.clashLapse (s : State) : Option Expiry :=
  expiryOf s.nbt.clashHoldoff (s.modNbt fun n => { n with clashHoldoff := none })

/-- An entry's POLICY-LIST guard (R35). -/
def State.guardLapse (s : State) (slot : Nat) : Option Expiry :=
  expiryOf ((s.entry slot).bind Entry.listGuard) (s.modEntry slot fun e => { e with listGuard := none })

/-! ## Client Register, Roam Scoring Engine, Handoff Controller -/

/-- A record's reservation (R57). -/
def State.admitLapse (s : State) (record : Nat) : Option Expiry :=
  s.recordExpiry record ClientRecord.admitPending fun _ => s.modRecord record fun r => { r with admitPending := none }

/-- A record's remote deadline (R65). -/
def State.remoteLapse (s : State) (record : Nat) : Option Expiry :=
  s.recordExpiry record ClientRecord.remoteDeadline fun _ => s.modRecord record ClientRecord.remoteLapsed

/-- A record's removal deadline (R65). -/
def State.removalLapse (s : State) (record : Nat) : Option Expiry :=
  s.recordExpiry record ClientRecord.removalDeadline (s.ageRecord record)

/-- The sightings deadline (R66). -/
def State.sightingsBuild (s : State) : Option Expiry := expiryOf s.crg.sightingsDeadline s.buildSightings

/-- One evaluation over the records in ascending number, the next deadline 128 ticks later (R73, R75). -/
def State.evaluate (s : State) : State :=
  let s := (List.range 64).foldl State.evaluateClaim s
  { s with rse := { evaluationDeadline := some (s.now + 128) } }

/-- The evaluation deadline (R73). -/
def State.evaluation (s : State) : Option Expiry := expiryOf s.rse.evaluationDeadline s.evaluate

/-- A record's claim hold-off (R84). -/
def State.holdoffLapse (s : State) (record : Nat) : Option Expiry :=
  s.recordExpiry record ClientRecord.claimHoldoff fun _ => s.modRecord record fun r => { r with claimHoldoff := none }

/-- A claimant context expires: freed, the hold-off set, with CLAIM-TIMEOUT, or CANCEL and ADMIT-TIMEOUT (R86). -/
def State.claimExpired (s : State) (k : Nat) (c : ClaimContext) : State :=
  let s := s.freeClaim k
  let s :=
    match s.findRecord c.client with
    | none => s
    | some i => s.modRecord i fun r => { r with claimHoldoff := some (s.now + 1024) }
  match c.state with
  | .claiming => s.handoffFailed c.client Detail.claimTimeout
  | .admitting =>
    (s.sendFrame .cancel c.server (cancelBytes c.client c.seq)).handoffFailed c.client Detail.admitTimeout

/-- A claimant context's deadline (R86). -/
def State.claimExpiry (s : State) (slot : Nat) : Option Expiry :=
  match s.claimAt slot with
  | none => none
  | some c => some { deadline := c.deadline, taken := s.claimExpired slot c }

/-- A release context's deadline (R89). -/
def State.releaseExpiry (s : State) (record : Nat) : Option Expiry :=
  match s.record record with
  | none => none
  | some r =>
    match r.release with
    | none => none
    | some c =>
      some
        { deadline := c.deadline
          taken := (s.closeRelease record c).handoffFailed r.addr Detail.steerIgnored }

/-! ## Policy Store -/

/-- The persist deadline, held in SCHEDULED alone (R108). -/
def Persist.deadline : Persist → Option Nat
  | .scheduled d => some d
  | .clean => none
  | .waiting => none
  | .writing => none

/-- The persist deadline (R108). -/
def State.persistExpiry (s : State) : Option Expiry :=
  expiryOf s.pst.persist.deadline ((s.modPst fun p => { p with persist := .waiting }).requestFlash .policyWrite)

/-! ## Image Store -/

/-- The mesh time at which a fetch deadline expires; a held one does not (R45). -/
def FetchDeadline.expiry : FetchDeadline → Option Nat
  | .running d => some d
  | .held _ => none

/-- A fetch deadline expires: its slot is freed, the peer charged, free slots filled (R140, R139). -/
def State.fetchExpired (s : State) (i : Nat) (f : FetchSlot) : State :=
  ((s.modIms fun m => { m with fetches := m.fetches.set i none }).countFetchFail f.peer).fillFetches

/-- A fetch slot's deadline (R140). -/
def State.fetchExpiry (s : State) (slot : Nat) : Option Expiry :=
  match slotAt s.ims.fetches slot with
  | none => none
  | some f => expiryOf f.deadline.expiry (s.fetchExpired slot f)

/-- Every entry's fail count is halved, the deadline advanced from its expired value, free slots filled (R140). -/
def State.halveFails (s : State) : State :=
  ((s.modNbt fun n =>
      { n with entries := n.entries.map (Option.map fun e => { e with fetchFails := e.fetchFails / 2 }) }).modIms
    fun m => { m with halvingDeadline := m.halvingDeadline.map (· + 16384) }).fillFetches

/-- The halving deadline (R140). -/
def State.halving (s : State) : Option Expiry := expiryOf s.ims.halvingDeadline s.halveFails

/-- The patrol takes its next chunk, unless a patrol read still waits or runs or no chunk is present (R144). -/
def State.patrol (s : State) : State :=
  let s := s.modIms fun m => { m with patrolDeadline := some (s.now + 2048) }
  if s.flp.patrolBusy then s
  else
    match s.ims.patrolNext with
    | none => s
    | some c => (s.modIms fun m => { m with patrolCursor := some c }).requestFlash (.patrolRead c)

/-- The patrol deadline (R144). -/
def State.patrolExpiry (s : State) : Option Expiry := expiryOf s.ims.patrolDeadline s.patrol

/-! ## Install Coordination Unit -/

/-- The retry hold-off (R152). -/
def State.retryLapse (s : State) : Option Expiry :=
  expiryOf s.icu.retryHoldoff (s.modIcu fun u => { u with retryHoldoff := none })

/-- The drain deadline expires: DISCONNECT for every record still SERVED, then STAGED (R154). The
records are taken in ascending number (DESIGN CHOICE, unsafe: log entry 41). -/
def State.drainTimedOut (s : State) : State :=
  ((List.range 64).foldl (fun s i => s.issueControl i .disconnect) s).enterStaged Detail.drainTimedOut

/-- The drain deadline (R154). -/
def State.drainExpiry (s : State) : Option Expiry := expiryOf s.icu.drainDeadline s.drainTimedOut

/-- The rewrite deadline (R157). -/
def State.rewriteExpiry (s : State) : Option Expiry :=
  expiryOf s.icu.rewriteDeadline ((s.modIcu fun u => { u with rewriteDeadline := none }).requestHeadWrite)

/-! ## The expiries of a step (R41, R44) -/

/-- The expiries that a step from `old` brings to the like deadlines of several slots, in ascending number. -/
def State.passEach (s : State) (old : Nat) (slots : List Nat) (x : State → Nat → Option Expiry) : State :=
  slots.foldl (fun s i => s.pass old (x s i)) s

/-- The expiries that a step from `old` brings to the BCU: one refill for each 64 ticks, at most 16, since a step is at
most 1024 ticks (R44). -/
def State.passBcu (s : State) (old : Nat) : State := s.passEach old (List.range 16) fun s _ => s.creditRefill

/-- The beacon-due expiries of one entry: one for each interval that the step crosses, at most four, since an interval is
at least 256 ticks (R44). -/
def State.passEntry (old : Nat) (s : State) (slot : Nat) : State :=
  s.passEach old (List.range 4) fun s _ => s.beaconDue slot

/-- The expiries that a step from `old` brings to the NBT. The beacon-due deadline of the entry in slot `own`, whose beacon
made the step, is renewed by that beacon and does not expire (R26, R28, R30; DEDUCED, unsafe: log entry 40). -/
def State.passNbt (s : State) (old own : Nat) : State :=
  let s := ((List.range 8).filter fun j => decide (j ≠ own)).foldl (State.passEntry old) s
  let s := s.passEach old (List.range 8) State.guardLapse
  let s := s.pass old s.beaconBuild
  s.pass old s.clashLapse

/-- The expiries that a step from `old` brings to the CRG, the RSE and the HOC. -/
def State.passClients (s : State) (old : Nat) : State :=
  let s := s.passEach old (List.range 64) State.admitLapse
  let s := s.passEach old (List.range 64) State.remoteLapse
  let s := s.passEach old (List.range 64) State.removalLapse
  let s := s.pass old s.sightingsBuild
  let s := s.pass old s.evaluation
  let s := s.passEach old (List.range 64) State.holdoffLapse
  let s := s.passEach old (List.range 4) State.claimExpiry
  s.passEach old (List.range 64) State.releaseExpiry

/-- The expiries that a step from `old` brings to the PST, the IMS, the ICU and the FLP. A configuration read's deadline is
none of them: no frame is taken until that read has ended (R161). -/
def State.passStores (s : State) (old : Nat) : State :=
  let s := s.pass old s.persistExpiry
  let s := s.passEach old (List.range 4) State.fetchExpiry
  let s := s.pass old s.halving
  let s := s.pass old s.patrolExpiry
  let s := s.pass old s.retryLapse
  let s := s.pass old s.drainExpiry
  let s := s.pass old s.rewriteExpiry
  if s.flp.isRunning (fun k => decide (k = .configRead)) then s else s.pass old s.operationDeadline

/-- The expiries that a beacon's step from `old` to the present brings, `own` being the slot of the beacon's entry (R41,
R44). The order is block by block, and slots in ascending number; R44 gives none (DESIGN CHOICE, unsafe: log entry 41). -/
def State.expireStep (s : State) (old own : Nat) : State :=
  if s.now ≤ old then s else (((s.passBcu old).passNbt old own).passClients old).passStores old

end Sys2Proof.Machine
end

