-- ==== Sys2Proof/Machine/Beacons.lean ====
section
/-! DEFINITION. Taking a peer's BEACON (sections 2.2 to 2.4): the merge of its time with the expiries that the step brings,
the renewal of its entry, and the handing on of its values. -/

namespace Sys2Proof.Machine

open Sys2Proof

/-- The image compare for an ACTIVE peer: HEAD-GET when it advertises a newer image (R137). -/
def State.compareImage (s : State) (e : Entry) : State :=
  let newer : Bool :=
    match s.ims.head with
    | none => true
    | some h =>
      decide (h.version < e.adv.imageVersion ∨ (e.adv.imageVersion = h.version ∧ h.imageId < e.adv.imageId))
  if e.adv.image ≠ .empty ∧ (s.ims.image = .empty ∨ newer = true) ∧ s.ims.scan = .off ∧ s.icu.install ≠ .staged then
    s.sendFrame .headGet e.id []
  else s

/-- The advertised values are handed on to the blocks whose use the link state allows (R33); the order among the blocks
is a DESIGN CHOICE, unsafe: log entry 20. -/
def State.handOn (s : State) (i : Nat) : State :=
  match s.entry i with
  | none => s
  | some e =>
    let s := if e.link = .active then ((s.compareDigest i).compareImage e).fillFetches else s
    if e.link ≠ .heard then s.icuConflict e.id e.adv.install else s

/-! ## Taking a beacon (R23 to R26) -/

/-- Steps 3, 4 and 5 of R26 for the entry in slot `i`, then the handing on of its values (R33). `before` says whether the
entry counted for the peer-game count before the beacon, `created` whether the beacon made the entry. -/
def State.renewEntry (s : State) (i : Nat) (before created : Bool) : State :=
  match s.entry i with
  | none => s
  | some told =>
    let e := told.renewedBy s.now s.cfg
    let (e, event) := if created then (e, none) else e.stateRule (badFrameThreshold s.cfg)
    let s := s.modEntry i fun _ => e
    let s :=
      match event with
      | none => s
      | some detail => s.queueEvent .peerActive (nodeSubject e.id) detail
    (s.movePeerGame before e.countsGame).handOn i

/-- The merge of a beacon's time (step 2 of R26), `i` being the slot of the beacon's entry, with the expiries that its step
brings to other deadlines (R41). The first adoption expires nothing (R42). -/
def State.stepTime (s : State) (i : Nat) (src : NodeId) (time : Nat) : State :=
  let merged := s.mergeTime src time
  if s.mtb.synced then merged.expireStep s.now i else merged

/-- Steps 2 to 5 of R26 for the entry in slot `i`, which holds the beacon's values: the merge with its expiries, then the
renewal. -/
def State.applyBeacon (s : State) (i : Nat) (src : NodeId) (time : Nat) (before created : Bool) : State :=
  (s.stepTime i src time).renewEntry i before created

/-- A beacon with the node's own id (R23). -/
def State.idClash (s : State) : State :=
  if s.nbt.clashHoldoff.isSome then s
  else
    (s.queueEvent .idClash (nodeSubject s.ownId) 0).modNbt fun n =>
      { n with clashHoldoff := some (s.now + 65536) }

/-- The values of a beacon replace those that the entry in slot `i` holds (step 1 of R26). -/
def State.tellEntry (s : State) (i : Nat) (adv : Advertised) : State := s.modEntry i fun e => { e with adv := adv }

/-- A node enters the table in slot `i`, HEARD (R25). -/
def State.enterNeighbour (s : State) (i : Nat) (src : NodeId) (adv : Advertised) : State :=
  s.modNbt fun n => { n with entries := n.entries.set i (some (newEntry src adv)) }

/-- A BEACON that the BCU has taken, whatever its source (R23 to R26). -/
def State.takeBeacon (src : NodeId) (b : List Byte) (s : State) : State :=
  if src = s.ownId then s.idClash
  else
    match parseAdvertised b with
    | none => s.chargeBadFrameTo src
    | some adv =>
      match s.findEntry src with
      | some i =>
        (s.tellEntry i adv).applyBeacon i src (beaconTime b) ((s.entry i).any Entry.countsGame) false
      | none =>
        match firstFree s.nbt.entries with
        | none => s.modNbt fun n => { n with tableFull := count16 n.tableFull }
        | some i => (s.enterNeighbour i src adv).applyBeacon i src (beaconTime b) false true

end Sys2Proof.Machine
end

