-- ==== Sys2Proof/Machine/FrameCommands.lean ====
section
/-! DEFINITION. The frames of Table 1.1 as a peer sends them: the handoff frames (chapter 6), the image frames (chapter
10), and the meaning of each frame kind and of a bad frame. -/

namespace Sys2Proof.Machine

open Sys2Proof

/-! ## Handoff frames (R79 to R91) -/

/-- A malformed handoff frame is dropped and counted (R79). -/
def State.countMalformed (s : State) : State := s.modHoc fun h => { h with malformed := count16 h.malformed }

/-- The last activity time of the client a handoff frame names is renewed, if it holds a record (R79, R65). -/
def State.renewClient (s : State) (client : ClientAddr) : State :=
  match s.findRecord client with
  | none => s
  | some i => s.renewActivity i

/-- The causes of a REFUSE frame (Table 6.1). -/
inductive RefuseCause where
  | weaker | busy | notServed
deriving DecidableEq, Repr

/-- Table 12.6. -/
def refuseCode : RefuseCause → Nat
  | .weaker => 1 | .busy => 2 | .notServed => 3

/-- The answer to a CLAIM by the first case of Table 6.3. -/
inductive ClaimAnswer where
  | refuse (cause : RefuseCause)
  /-- GRANT again to the claimant whose release context stands. -/
  | regrant
  /-- GRANT with a new release context. -/
  | grant
deriving DecidableEq, Repr

/-- A record is superseded when it is SERVED here and holds a served peer report (R82). -/
def ClientRecord.superseded (r : ClientRecord) : Bool := r.isServed && r.reports.any PeerReport.served

/-- How a CLAIM from a peer with a score is answered for a record (Table 6.3). -/
def State.claimAnswer (s : State) (r : ClientRecord) (peer : NodeId) (score : Int) : ClaimAnswer :=
  if r.isServed = false ∨ r.superseded = true then .refuse .notServed
  else
    match r.release with
    | some c => if c.claimant = peer then .regrant else .refuse .busy
    | none => if s.emptying ∨ s.grantTest r score then .grant else .refuse .weaker

/-- A REFUSE is sent to a claimant. -/
def State.sendRefuse (s : State) (peer : NodeId) (client : ClientAddr) (seq : Nat) (cause : RefuseCause) : State :=
  s.sendFrame .refuse peer (refuseBytes client seq (refuseCode cause))

/-- An answer to a CLAIM is carried out (R82, R83). -/
def State.answerClaim (s : State) (i : Nat) (r : ClientRecord) (peer : NodeId) (seq : Nat) : ClaimAnswer → State
  | .refuse cause => s.sendRefuse peer r.addr seq cause
  | .regrant =>
    (s.modRecord i fun r => { r with release := r.release.map fun c => { c with seq := seq } }).sendFrame
      .grant peer (s.grantFor r seq).bytes
  | .grant => s.openRelease i r peer seq

/-- A CLAIM from a peer (R79, R82). -/
def State.takeClaim (peer : NodeId) (b : List Byte) (s : State) : State :=
  let client := addrAt b 0
  let seq := byteAt b 6
  if client = 0#48 then s.countMalformed
  else
    let s := s.renewClient client
    match s.findRecord client with
    | none => s.sendRefuse peer client seq .notServed
    | some i =>
      match s.record i with
      | none => s
      | some r => s.answerClaim i r peer seq (s.claimAnswer r peer (signed16 (fieldAt b 7 2)))

/-- A matching GRANT's content loaded into the claimant's record (R85). -/
def ClientRecord.loadGrant (r : ClientRecord) (g : GrantBody) (cls : ClientClass) (hasDevice : Bool) : ClientRecord :=
  let r := { r with epoch := max r.epoch g.epoch, evidence := g.evidence, gameActive := g.gameActive }
  if hasDevice then r
  else
    { r with group := g.group, cls := cls, carriedPause := if g.pauseUntil = 0 then none else some g.pauseUntil }

/-- The claimant context that a GRANT or REFUSE from a peer matches (R84). -/
def State.matchClaim (s : State) (client : ClientAddr) (peer : NodeId) (seq : Nat) : Option (Nat × ClaimContext) :=
  match s.findClaim client with
  | none => none
  | some k =>
    match s.claimAt k with
    | none => none
    | some c => if c.server = peer ∧ c.seq = seq then some (k, c) else none

/-- A GRANT from a peer (R79, R84, R85). -/
def State.takeGrant (peer : NodeId) (b : List Byte) (s : State) : State :=
  let g := parseGrant b
  match classOf g.clsCode with
  | none => s.countMalformed
  | some cls =>
    if g.client = 0#48 ∨ 7 < g.group ∨ 15 < g.evidence then s.countMalformed
    else
      let s := s.renewClient g.client
      match s.matchClaim g.client peer g.seq with
      | none => s.sendFrame .cancel peer (cancelBytes g.client g.seq)
      | some (k, c) =>
        match c.state with
        | .admitting => s
        | .claiming =>
          let s := s.modHoc fun h =>
            { h with contexts := h.contexts.set k (some { c with state := .admitting, deadline := s.now + 2048 }) }
          match s.findRecord g.client with
          | none => s
          | some i => s.modRecord i (·.loadGrant g cls (s.effectiveDevice g.client).isSome)

/-- A record after a REFUSE with cause NOT-SERVED: it becomes UNSEEN and the peer's report loses its served flag
(R84; DEDUCED, unsafe: log entry 26). -/
def ClientRecord.notServed (peer : NodeId) (r : ClientRecord) : ClientRecord :=
  if r.isServed then r else { r.toUnseen with reports := clearServedFlags (some peer) r.reports }

/-- A REFUSE from a peer (R79, R84). -/
def State.takeRefuse (peer : NodeId) (b : List Byte) (s : State) : State :=
  let client := addrAt b 0
  let cause := byteAt b 7
  if client = 0#48 ∨ cause < 1 ∨ 3 < cause then s.countMalformed
  else
    let s := s.renewClient client
    match s.matchClaim client peer (byteAt b 6) with
    | none => s
    | some (k, c) =>
      match c.state with
      | .admitting => s
      | .claiming =>
        let s := s.freeClaim k
        let s :=
          match s.findRecord client with
          | none => s
          | some i =>
            s.modRecord i fun r =>
              let r := { r with claimHoldoff := some (s.now + 1024) }
              if cause = refuseCode .notServed then r.notServed peer else r
        s.handoffFailed client cause

/-- A CANCEL from a peer (R79, R90). -/
def State.takeCancel (peer : NodeId) (b : List Byte) (s : State) : State :=
  let client := addrAt b 0
  if client = 0#48 then s.countMalformed
  else
    let s := s.renewClient client
    match s.findRecord client with
    | none => s
    | some i =>
      match (s.record i).bind ClientRecord.release with
      | none => s
      | some c =>
        if c.claimant = peer ∧ c.seq = byteAt b 6 then (s.closeRelease i c).handoffFailed client Detail.cancelled else s

/-- A SERVED notice from a peer (R79, R91). -/
def State.takeServed (peer : NodeId) (b : List Byte) (s : State) : State :=
  let e := parseServed b
  if e.valid then s.applyEntry peer true e else s.countMalformed

/-! ## Image frames (R137, R138, R141, R143) -/

/-- A HEAD-GET from a peer (R137); ignored while no head is held (DESIGN CHOICE, unsafe: log entry 21). -/
def State.takeHeadGet (peer : NodeId) (_b : List Byte) (s : State) : State :=
  match s.ims.head with
  | none => s
  | some h => if s.ims.image ≠ .empty ∧ s.ims.scan = .off then s.sendFrame .head peer (headBytes h) else s

/-- A HEAD from a peer (R138). -/
def State.takeHeadFrame (peer : NodeId) (b : List Byte) (s : State) : State := (s.takeHead (parseHead b) (some peer)).1

/-- Adds one to the ignored-fetch count (R143). -/
def State.ignoreFetch (s : State) : State := s.modIms fun m => { m with ignoredFetches := count16 m.ignoredFetches }

/-- The chunk that a FETCH body asks for, if it may be served (R143). -/
def Ims.servable (m : Ims) (b : List Byte) : Option ChunkRef :=
  match m.head, parseChunkRef b with
  | some h, some c =>
    if m.image ≠ .empty ∧ m.image ≠ .fault ∧ m.scan = .off ∧ namesHead b h = true ∧ m.isPresent c = true ∧
        m.checkable c = true then some c
    else none
  | none, _ => none
  | some _, none => none

/-- A FETCH from a peer (R143). -/
def State.takeFetch (peer : NodeId) (b : List Byte) (s : State) : State :=
  match s.ims.servable b with
  | none => s.ignoreFetch
  | some c =>
    match s.bcu.reserve peer c with
    | none => s.ignoreFetch
    | some bcu => (s.modBcu fun _ => bcu).requestFlash (.serveRead peer c)

/-- The outstanding fetch slot that a CHUNK from a peer matches (R141). -/
def State.matchFetch (s : State) (peer : NodeId) (b : List Byte) : Option (Nat × ChunkRef) :=
  match s.ims.head, parseChunkRef b with
  | some h, some c =>
    if namesHead b h then
      (findSlot s.ims.fetches fun f => decide (f.peer = peer ∧ f.chunk = c)).map fun i => (i, c)
    else none
  | none, _ => none
  | some _, none => none

/-- A matched chunk's 4096 bytes are placed (R141). -/
def State.placeChunk (s : State) (peer : NodeId) (c : ChunkRef) (bytes : List Byte) : State :=
  if s.ims.checkable c = false then s
  else
    match s.ims.freeBuffer with
    | none => s.modIms fun m => { m with lostChunks := count16 m.lostChunks }
    | some i =>
      if s.ims.bytesMatch c bytes then s.programChunk i c bytes
      else (s.countFetchFail peer).modIms fun m => { m with checkFailures := count16 m.checkFailures }

/-- A CHUNK from a peer (R141); free slots are filled at its end (R139). -/
def State.takeChunk (peer : NodeId) (b : List Byte) (s : State) : State :=
  match s.matchFetch peer b with
  | none => s.modIms fun m => { m with unmatchedChunks := count16 m.unmatchedChunks }
  | some (i, c) =>
    ((s.modIms fun m => { m with fetches := m.fetches.set i none }).placeChunk peer c (b.drop 9)).fillFetches

/-! ## The meanings -/

/-- A frame of a kind, with the owning block's `take` of its source and body. Before the configuration is accepted and
in CONFIG-HALT the frame is discarded without check or count (R5, R161). -/
def State.frame (s : State) (kind : FrameKind) (link : NodeId) (f : RxFrame)
    (take : NodeId → List Byte → State → State) : Host.Outcome State Fault Refusal :=
  if s.run = .running then done (s.receive kind link f take) else .next s

/-- BEACON (R26). -/
def execBeacon (link : NodeId) (f : RxFrame) (s : State) : Host.Outcome State Fault Refusal :=
  s.frame .beacon link f State.takeBeacon

/-- SIGHTINGS (R64). -/
def execSightings (link : NodeId) (f : RxFrame) (s : State) : Host.Outcome State Fault Refusal :=
  s.frame .sightings link f State.takeSightings

/-- CLAIM (R82). -/
def execClaim (link : NodeId) (f : RxFrame) (s : State) : Host.Outcome State Fault Refusal :=
  s.frame .claim link f State.takeClaim

/-- GRANT (R84). -/
def execGrant (link : NodeId) (f : RxFrame) (s : State) : Host.Outcome State Fault Refusal :=
  s.frame .grant link f State.takeGrant

/-- REFUSE (R84). -/
def execRefuse (link : NodeId) (f : RxFrame) (s : State) : Host.Outcome State Fault Refusal :=
  s.frame .refuse link f State.takeRefuse

/-- CANCEL (R90). -/
def execCancel (link : NodeId) (f : RxFrame) (s : State) : Host.Outcome State Fault Refusal :=
  s.frame .cancel link f State.takeCancel

/-- SERVED (R91). -/
def execServed (link : NodeId) (f : RxFrame) (s : State) : Host.Outcome State Fault Refusal :=
  s.frame .served link f State.takeServed

/-- POLICY-LIST (R105). -/
def execPolicyList (link : NodeId) (f : RxFrame) (s : State) : Host.Outcome State Fault Refusal :=
  s.frame .policyList link f State.takePolicyList

/-- POLICY-GET (R106). -/
def execPolicyGet (link : NodeId) (f : RxFrame) (s : State) : Host.Outcome State Fault Refusal :=
  s.frame .policyGet link f State.takePolicyGet

/-- POLICY-RECORD (R107). -/
def execPolicyRecord (link : NodeId) (f : RxFrame) (s : State) : Host.Outcome State Fault Refusal :=
  s.frame .policyRecord link f State.takePolicyRecord

/-- HEAD-GET (R137). -/
def execHeadGet (link : NodeId) (f : RxFrame) (s : State) : Host.Outcome State Fault Refusal :=
  s.frame .headGet link f State.takeHeadGet

/-- HEAD (R138). -/
def execHead (link : NodeId) (f : RxFrame) (s : State) : Host.Outcome State Fault Refusal :=
  s.frame .head link f State.takeHeadFrame

/-- FETCH (R143). -/
def execFetch (link : NodeId) (f : RxFrame) (s : State) : Host.Outcome State Fault Refusal :=
  s.frame .fetch link f State.takeFetch

/-- CHUNK (R141). -/
def execChunk (link : NodeId) (f : RxFrame) (s : State) : Host.Outcome State Fault Refusal :=
  s.frame .chunk link f State.takeChunk

/-- What the owning block does with a frame of each kind (Table 1.2). -/
def takerOf : FrameKind → NodeId → List Byte → State → State
  | .beacon => State.takeBeacon
  | .sightings => State.takeSightings
  | .claim => State.takeClaim
  | .grant => State.takeGrant
  | .refuse => State.takeRefuse
  | .cancel => State.takeCancel
  | .served => State.takeServed
  | .policyList => State.takePolicyList
  | .policyGet => State.takePolicyGet
  | .policyRecord => State.takePolicyRecord
  | .headGet => State.takeHeadGet
  | .head => State.takeHeadFrame
  | .fetch => State.takeFetch
  | .chunk => State.takeChunk

/-- BAD_FRAME_RECEIVED: the bytes of a delivered frame. A frame that R3 calls bad is dropped, counted and charged; bytes
that hold a frame of a known kind are taken as that frame (DEDUCED, safe: log entry 13). -/
def execBadFrameReceived (link : NodeId) (bytes : List Byte) (s : State) : Host.Outcome State Fault Refusal :=
  match parseFrame bytes with
  | some (kind, f) => s.frame kind link f (takerOf kind)
  | none => if s.run = .running then done (s.dropBadFrame link) else .next s

end Sys2Proof.Machine
end

