-- ==== Sys2Proof/Machine/ChannelCommands.lean ====
section
/-! DEFINITION. The transceiver's indications, outcomes and requests, the credit refill, and the yield notices at the
BCU and the IMS: the meanings of sections 1.2 to 1.6 and R139's holding of fetch deadlines. -/

namespace Sys2Proof.Machine

open Sys2Proof

/-! ## Medium and outcomes. Outside the running state the BCU stays in its reset state (R21; DEDUCED, unsafe:
log entry 18). -/

/-- MEDIUM_IDLE (R7). -/
def execMediumIdle (s : State) : Host.Outcome State Fault Refusal :=
  if s.run = .running then done (s.modBcu fun b => { b with medium := .idle }) else .next s

/-- MEDIUM_BUSY (R7, R9). -/
def execMediumBusy (s : State) : Host.Outcome State Fault Refusal :=
  if s.run = .running then done (s.modBcu (·.becomeBusy)) else .next s

/-- IDLE_SLOT: acted upon while the medium is IDLE and no transmission is in flight (R7, R11). -/
def execIdleSlot (s : State) : Host.Outcome State Fault Refusal :=
  if s.run = .running ∧ s.bcu.medium = .idle ∧ s.bcu.inFlight = none then done s.takeIdleSlot else .next s

/-- SENT_CLEAN: the item of the class in flight is finished; ignored when nothing is in flight (R7, R12). -/
def execSentClean (s : State) : Host.Outcome State Fault Refusal :=
  match s.bcu.inFlight with
  | none => .next s
  | some c => if s.run = .running then done (s.modBcu (·.finishItem c)) else .next s

/-- SENT_COLLIDED: a retry, or the item is dropped beyond the retry limit (R12). -/
def execSentCollided (s : State) : Host.Outcome State Fault Refusal :=
  match s.bcu.inFlight with
  | none => .next s
  | some c => if s.run = .running then done (s.takeCollision c) else .next s

/-! ## Burst requests and credit -/

/-- A BURST-REQUEST while running (R16). -/
def State.requestBurst (s : State) (cls : BurstClass) (handle : Nat) : State :=
  match s.bcu.requestSlot cls with
  | none => s.modBcu (·.fillRequest cls handle)
  | some _ => s.modBcu fun b => { b with duplicateRequests := count16 b.duplicateRequests }

/-- BURST_REQUEST: ACCESS-DROP before the configuration is accepted and in CONFIG-HALT (R16, R161); no interface is
answered while RESET is asserted. -/
def execBurstRequest (cls : BurstClass) (handle : Nat) (s : State) : Host.Outcome State Fault Refusal :=
  match s.run with
  | .running => done (s.requestBurst cls handle)
  | .starting => done (s.emit (.accessDrop handle))
  | .configHalt => done (s.emit (.accessDrop handle))
  | .resetHeld => .next s

/-- CREDIT_REFILL_EXPIRY (R17). -/
def execCreditRefillExpiry (s : State) : Host.Outcome State Fault Refusal := s.expire s.creditRefill

/-! ## The yield notices. Each receiver takes its notices in the order in which the GTM gave them (R132);
without a notice at hand the command has no effect (DESIGN CHOICE, safe: log entry 8). -/

/-- The BCU takes a yield notice: the BULK class is set back to its full deferral at the beginning and at the end, a
held backoff count is kept (R19). -/
def Bcu.takeYield (b : Bcu) (holds : Bool) : Bcu := { b with yielding := holds }.fullDeferral .bulk

/-- YIELD_BEGIN_BCU (R19). -/
def execYieldBeginBcu (s : State) : Host.Outcome State Fault Refusal :=
  match s.yieldNoticesBcu with
  | true :: rest => done ({ s with yieldNoticesBcu := rest }.modBcu (·.takeYield true))
  | false :: _ => .next s
  | [] => .next s

/-- YIELD_END_BCU (R19). -/
def execYieldEndBcu (s : State) : Host.Outcome State Fault Refusal :=
  match s.yieldNoticesBcu with
  | false :: rest => done ({ s with yieldNoticesBcu := rest }.modBcu (·.takeYield false))
  | true :: _ => .next s
  | [] => .next s

/-- A fetch deadline held with its remaining duration, 0 for one already due (DESIGN CHOICE, unsafe: log entry 33); one
already held stays (R45). -/
def FetchDeadline.hold (now : Nat) : FetchDeadline → FetchDeadline
  | .running d => .held (d - now)
  | .held r => .held r

/-- A held fetch deadline released to run for its remaining duration; one that runs stays (R45). -/
def FetchDeadline.release (now : Nat) : FetchDeadline → FetchDeadline
  | .running d => .running d
  | .held r => .running (now + r)

/-- The IMS takes a yield notice: every outstanding fetch deadline is held or released (R139). -/
def Ims.takeYield (m : Ims) (holds : Bool) (now : Nat) : Ims :=
  { m with
    yielding := holds
    fetches := m.fetches.map (Option.map fun f =>
      { f with deadline := if holds then f.deadline.hold now else f.deadline.release now }) }

/-- YIELD_BEGIN_IMS (R139). -/
def execYieldBeginIms (s : State) : Host.Outcome State Fault Refusal :=
  match s.yieldNoticesIms with
  | true :: rest => done ({ s with yieldNoticesIms := rest }.modIms (·.takeYield true s.now))
  | false :: _ => .next s
  | [] => .next s

/-- YIELD_END_IMS: the held deadlines are released and free slots filled (R139). -/
def execYieldEndIms (s : State) : Host.Outcome State Fault Refusal :=
  match s.yieldNoticesIms with
  | false :: rest => done ({ s with yieldNoticesIms := rest }.modIms (·.takeYield false s.now)).fillFetches
  | true :: _ => .next s
  | [] => .next s

end Sys2Proof.Machine
end

