-- ==== Sys2Proof/Machine/RadioCommands.lean ====
section
/-! DEFINITION. The radios' reports (Table 4.1): the meanings of sections 4.1 to 4.7, R20 and R123. -/

namespace Sys2Proof.Machine

open Sys2Proof

/-- The answer to an ADMIT-QUERY is sent on its link at once (R53). -/
def State.answerQuery (radio : Nat) (client : ClientAddr) (a : State × Bool) : State :=
  a.1.emit (.admitAnswer radio client a.2)

/-- ADMIT_QUERY: answered by the register while running (R55), REFUSE before the configuration is accepted (R161), ALLOW
in CONFIG-HALT (R67); the RLI hands on only what R51 lets in (log entry 18). -/
def execAdmitQuery (radio : Nat) (client : ClientAddr) (s : State) : Host.Outcome State Fault Refusal :=
  match s.run with
  | .running => if s.reportTaken radio client then done (State.answerQuery radio client (s.admitClient client)) else .next s
  | .starting => done (State.answerQuery radio client (s, false))
  | .configHalt => if s.reportTaken radio client then done (State.answerQuery radio client (s, true)) else .next s
  | .resetHeld => .next s

/-- Whether an ASSOC or DISASSOC is handed on: while running and in CONFIG-HALT, from a link below the radio count, with
a client address other than 0 (R51). -/
def State.linkReportTaken (s : State) (radio : Nat) (client : ClientAddr) : Bool :=
  match s.run with
  | .running => s.reportTaken radio client
  | .configHalt => s.reportTaken radio client
  | .starting => false
  | .resetHeld => false

/-- ASSOC (R59). A wall-state notice that waits is taken first (R112). -/
def execAssoc (radio : Nat) (client : ClientAddr) (s : State) : Host.Outcome State Fault Refusal :=
  if s.linkReportTaken radio client then done (s.takeNotices.associate radio client) else .next s

/-- DISASSOC (R60). -/
def execDisassoc (radio : Nat) (client : ClientAddr) (cause : RadioCause) (s : State) :
    Host.Outcome State Fault Refusal :=
  if s.linkReportTaken radio client ∧ causeKnown cause then done (s.disassociate radio client cause) else .next s

/-- SIGHT (R62). -/
def execSight (radio : Nat) (client : ClientAddr) (level : Int) (s : State) : Host.Outcome State Fault Refusal :=
  if s.run = .running ∧ s.reportTaken radio client then done (s.sightClient client level) else .next s

/-- A TRAFFIC report as R123 checks it: counted as invalid or unmatched, or applied. One that is both inconsistent and
unmatched is counted as invalid alone (DESIGN CHOICE, unsafe: log entry 47). -/
def State.takeTraffic (s : State) (radio : Nat) (client : ClientAddr) (t : TrafficCounts) : State :=
  if t.packetsUp < t.smallUp ∨ t.packetsDown < t.smallDown then
    s.modGtm fun g => { g with invalidTraffic := count16 g.invalidTraffic }
  else
    let unmatched := s.modGtm fun g => { g with unmatchedTraffic := count16 g.unmatchedTraffic }
    match s.findRecord client with
    | none => unmatched
    | some i =>
      match s.record i with
      | none => unmatched
      | some r => if r.serving = .served radio then s.applyTraffic i r t else unmatched

/-- TRAFFIC (R123). -/
def execTraffic (radio : Nat) (client : ClientAddr) (counts : TrafficCounts) (s : State) :
    Host.Outcome State Fault Refusal :=
  if s.run = .running ∧ s.reportTaken radio client then done (s.takeTraffic radio client counts) else .next s

/-- AIRTIME (R20). -/
def execAirtime (radio : Nat) (percent : Nat) (s : State) : Host.Outcome State Fault Refusal :=
  if s.run = .running ∧ radio < s.cfg.radioCount then done (s.modBcu (·.keepAirtime radio percent s.now)) else .next s

/-- TAKEN: the radio's oldest directive in flight is acknowledged; ignored when none is (R52). -/
def execTaken (radio : Nat) (s : State) : Host.Outcome State Fault Refusal :=
  if s.run = .running ∧ radio < s.cfg.radioCount then
    done (s.modRli fun l => { l with inFlight := modRadio l.inFlight radio (·.drop 1) })
  else .next s

end Sys2Proof.Machine
end

