-- ==== Sys2Proof/Machine/PortCommands.lean ====
section
/-! DEFINITION. The local port (sections 12.2 to 12.5): the twelve requests and their answers, the response buffer, the
restart notices. -/

namespace Sys2Proof.Machine

open Sys2Proof

/-! ## Taking a request (R163, R160, R161) -/

/-- A response placed in the response buffer; an unread one is discarded (R163). -/
def State.respond (s : State) (kind : Byte) (result : Result) (body : List Byte) : State :=
  s.modLpi fun l => { l with response := some { kind := kind, result := result, body := body } }

/-- What the owning block answers a request with: the state after it, the result, and the body for OK. -/
abbrev Served := State × Result × List Byte

/-- A request answered by its owning block. -/
def State.serve (s : State) (kind : RequestKind) (answer : State → Served) : Host.Outcome State Fault Refusal :=
  let (s, result, body) := answer s
  done (s.respond (BitVec.ofNat 8 (requestCode kind)) result body)

/-- A request refused by the LPI itself. -/
def State.refuse (s : State) (kind : Byte) (result : Result) : Host.Outcome State Fault Refusal :=
  done (s.respond kind result [])

/-- A request of a known kind: BUSY before the configuration read ends (R161); REFUSED-FIELD for a wrong body length
(R163); in CONFIG-HALT only four kinds are answered (R160); else the owning block answers, the PST with BUSY during the
policy load (R110). The order of these tests is a DESIGN CHOICE, unsafe: log entries 14 and 18. -/
def State.request (s : State) (kind : RequestKind) (b : List Byte) (answer : State → Served) :
    Host.Outcome State Fault Refusal :=
  let code := BitVec.ofNat 8 (requestCode kind)
  match s.run with
  | .resetHeld => .next s
  | .starting => s.refuse code .busy
  | .running => if b.length = requestLength kind then s.serve kind answer else s.refuse code .refusedField
  | .configHalt =>
    if b.length ≠ requestLength kind then s.refuse code .refusedField
    else if answeredInHalt kind then s.serve kind answer
    else s.refuse code .refusedState

/-! ## Reads -/

/-- The twenty 16-bit counts in the order of Table 12.15. -/
def State.counts (s : State) : List Nat :=
  [s.bcu.badFrames, s.bcu.nonMember, s.bcu.controlDrops, s.bcu.ownDrops, s.bcu.duplicateRequests, s.nbt.tableFull,
   s.crg.refusedAssociations, s.crg.unplacedSightings, s.crg.invalidEntries, s.hoc.malformed, s.pst.excessLists,
   s.pst.malformed, s.pst.invalidRecords, s.gtm.invalidTraffic, s.gtm.unmatchedTraffic, s.ims.refusedHeads,
   s.ims.unmatchedChunks, s.ims.lostChunks, s.ims.checkFailures, s.ims.ignoredFetches]

/-- The STATUS body (Table 12.15). -/
def State.statusBytes (s : State) : List Byte :=
  be 1 (if s.run = .configHalt then 2 else 1) ++ timeBytes s.now ++
    flagsByte [s.mtb.synced, s.wallSeconds.isSome, yieldCondition s.gtm, nodeGameFlag s.gtm,
      decide (s.pst.persist ≠ .clean), s.flp.operation.isSome, s.icu.retryHoldoff.isSome] ++
    be 4 (s.wallSeconds.getD 0) ++ be 1 (imageCode s.ims.image) ++ be 1 (installCode s.icu.install) ++
    be 1 s.gtm.servedGame ++ deadlineOptBytes s.icu.drainDeadline ++
    (s.seu.groups.map fun g => be 1 (groupCode g)).flatten ++ be 1 s.servedCount ++
    be 1 (countSlots s.hoc.contexts fun _ => true) ++ be 1 s.flp.waiting.length ++ be 1 s.evq.drops ++
    configBytes s.cfg ++ (s.counts.map (be 2)).flatten ++ be 1 s.ownLoad

/-- EVENT-READ: the oldest event record, removed (R165). -/
def State.readEvent (s : State) : Served :=
  match s.evq.events with
  | [] => (s, .empty, [])
  | e :: rest => (s.modEvq fun q => { q with events := rest }, .ok, e.bytes)

/-- A client record read by number (R164). -/
def State.readRecord (s : State) (i : Nat) : Result × List Byte :=
  match s.record i with
  | none => (.empty, [])
  | some r => (.ok, clientBytes i r ((s.findClaim r.addr).bind s.claimAt))

/-- CLIENT-READ, by index or by address (R164); a selector that is neither is a field out of range
(DESIGN CHOICE, unsafe: log entry 15). -/
def State.readClient (s : State) (b : List Byte) : Result × List Byte :=
  if byteAt b 0 = 0 then if 63 < byteAt b 1 then (.refusedField, []) else s.readRecord (byteAt b 1)
  else if byteAt b 0 = 1 then
    if addrAt b 2 = 0#48 then (.refusedField, [])
    else
      match s.findRecord (addrAt b 2) with
      | none => (.empty, [])
      | some i => s.readRecord i
  else (.refusedField, [])

/-- NEIGHBOUR-READ (R164). -/
def State.readNeighbour (s : State) (b : List Byte) : Result × List Byte :=
  if 7 < byteAt b 0 then (.refusedField, [])
  else
    match s.entry (byteAt b 0) with
    | none => (.empty, [])
    | some e => (.ok, entryBytes (byteAt b 0) e)

/-! ## Image requests (R141, R157) -/

/-- Whether a chunk number lies within an image (R141). -/
def inImage (h : Head) : ChunkRef → Bool
  | .data k => decide (k < h.chunkCount)
  | .index i => decide (i < h.indexCount)

/-- A CHUNK-SUBMIT's chunk is missing, in no buffer, and can be checked (R141). -/
def Ims.submittable (m : Ims) (c : ChunkRef) : Bool :=
  !m.isPresent c && !m.buffers.any (Buffer.holds c) && m.checkable c

/-- A fetch slot outstanding for a chunk is freed without a fail count (R141). -/
def State.dropFetchOf (s : State) (c : ChunkRef) : State :=
  s.modIms fun m => { m with fetches := m.fetches.map fun o => o.filter fun f => decide (f.chunk ≠ c) }

/-- CHUNK-SUBMIT, by the first case that applies (R141). -/
def State.submitChunk (s : State) (b : List Byte) : State × Result :=
  if s.ims.scan ≠ .off then (s, .busy)
  else if s.ims.image ≠ .indexing ∧ s.ims.image ≠ .fetching then (s, .refusedState)
  else
    match s.ims.head, parseChunkRef b with
    | some h, some c =>
      if namesHead b h = false ∨ inImage h c = false then (s, .refusedField)
      else if s.ims.submittable c = false then (s, .refusedState)
      else
        match s.ims.freeBuffer with
        | none => (s, .busy)
        | some i =>
          if s.ims.bytesMatch c (b.drop 9) then (((s.programChunk i c (b.drop 9)).dropFetchOf c).fillFetches, .ok)
          else (s.fillFetches, .refusedField)
    | none, _ => (s, .refusedField)
    | some _, none => (s, .refusedField)

/-- IMAGE-INSTALLED (R157). -/
def State.imageInstalled (s : State) : State × Result :=
  if s.icu.install = .staged then
    ((s.modIcu fun u => { u with marker := true, install := .done }).requestHeadWrite, .ok)
  else (s, .refusedState)

/-! ## Restart (R162) -/

/-- The blocks of Table 0.2, each of which is given a restart notice. -/
def allBlocks : List Block :=
  [.bcu, .nbt, .mtb, .crg, .rse, .hoc, .pst, .seu, .gtm, .ims, .icu, .rli, .lpi, .evq, .frc, .flp]

/-- RESTART: a notice to every block, and RESTARTED queued (R162). -/
def State.takeRestart (s : State) : State :=
  { s with restartNotices := s.restartNotices ++ allBlocks }.queueEvent .restarted (nodeSubject s.ownId) 0

/-- The link-restart values of the GTM but for the peer-game count, which goes with the entries (R123, R133). -/
def State.restartGtm (s : State) : State := s.modGtm fun g => { g with invalidTraffic := 0, unmatchedTraffic := 0 }

/-- The link-restart values of one block; those with nothing to set keep what they hold (R49, R53, R121, R162). What each
notice does when they are taken apart is a DESIGN CHOICE, unsafe: log entry 36. -/
def State.restartBlock (s : State) : Block → State
  | .bcu => s.restartBcu
  | .nbt => s.restartNbt
  | .mtb => s
  | .crg => s.restartCrg
  | .rse => s.restartRse
  | .hoc => s.restartHoc
  | .pst => s.restartPst
  | .seu => s
  | .gtm => s.restartGtm
  | .ims => s.restartIms
  | .icu => s.restartIcu
  | .rli => s
  | .lpi => s
  | .evq => s
  | .frc => s
  | .flp => s

/-! ## The meanings -/

/-- STATUS (R164). -/
def execStatus (b : List Byte) (s : State) : Host.Outcome State Fault Refusal :=
  s.request .status b fun s => (s, .ok, s.statusBytes)

/-- EVENT_READ (R165). -/
def execEventRead (b : List Byte) (s : State) : Host.Outcome State Fault Refusal :=
  s.request .eventRead b State.readEvent

/-- POLICY_SUBMIT (R101). -/
def execPolicySubmit (b : List Byte) (s : State) : Host.Outcome State Fault Refusal :=
  s.request .policySubmit b fun s => ((s.submitPolicy b).1, (s.submitPolicy b).2, [])

/-- POLICY_READ (R103). -/
def execPolicyRead (b : List Byte) (s : State) : Host.Outcome State Fault Refusal :=
  s.request .policyRead b fun s => (s, s.readPolicy b)

/-- CLIENT_READ (R164). -/
def execClientRead (b : List Byte) (s : State) : Host.Outcome State Fault Refusal :=
  s.request .clientRead b fun s => (s, s.readClient b)

/-- NEIGHBOUR_READ (R164). -/
def execNeighbourRead (b : List Byte) (s : State) : Host.Outcome State Fault Refusal :=
  s.request .neighbourRead b fun s => (s, s.readNeighbour b)

/-- HEAD_SUBMIT (R138). -/
def execHeadSubmit (b : List Byte) (s : State) : Host.Outcome State Fault Refusal :=
  s.request .headSubmit b fun s => ((s.takeHead (parseHead b) none).1, (s.takeHead (parseHead b) none).2, [])

/-- CHUNK_SUBMIT (R141). -/
def execChunkSubmit (b : List Byte) (s : State) : Host.Outcome State Fault Refusal :=
  s.request .chunkSubmit b fun s => ((s.submitChunk b).1, (s.submitChunk b).2, [])

/-- IMAGE_INSTALLED (R157). -/
def execImageInstalled (b : List Byte) (s : State) : Host.Outcome State Fault Refusal :=
  s.request .imageInstalled b fun s => (s.imageInstalled.1, s.imageInstalled.2, [])

/-- FAULT_READ (R164). -/
def execFaultRead (b : List Byte) (s : State) : Host.Outcome State Fault Refusal :=
  s.request .faultRead b fun s => (s, .ok, faultBytes s.frc)

/-- FAULT_CLEAR (R166). -/
def execFaultClear (b : List Byte) (s : State) : Host.Outcome State Fault Refusal :=
  s.request .faultClear b fun s => ({ s with frc := { first := none, later := 0#5 } }, .ok, [])

/-- RESTART (R162). -/
def execRestart (b : List Byte) (s : State) : Host.Outcome State Fault Refusal :=
  s.request .restart b fun s => (s.takeRestart, .ok, [])

/-- RESTART_NOTICE: a block takes a notice given to it (R162); no effect without one (DESIGN CHOICE, safe: log entry
8). -/
def execRestartNotice (block : Block) (s : State) : Host.Outcome State Fault Refusal :=
  if s.restartNotices.contains block then
    done ({ s with restartNotices := s.restartNotices.erase block }.restartBlock block)
  else .next s

/-- RESPONSE_READ: the host reads the response buffer, which empties it (R163; DEDUCED, safe: log entry 16). A read of an
empty buffer gives the host nothing and changes nothing (DESIGN CHOICE, unsafe: log entry 50). -/
def execResponseRead (s : State) : Host.Outcome State Fault Refusal :=
  match s.run, s.lpi.response with
  | .resetHeld, _ => .next s
  | _, none => .next s
  | _, some r => done ((s.modLpi fun l => { l with response := none }).emit (.response r))

/-- A request of a known kind and its body. -/
def execRequest (kind : RequestKind) (b : List Byte) (s : State) : Host.Outcome State Fault Refusal :=
  match kind with
  | .status => execStatus b s
  | .eventRead => execEventRead b s
  | .policySubmit => execPolicySubmit b s
  | .policyRead => execPolicyRead b s
  | .clientRead => execClientRead b s
  | .neighbourRead => execNeighbourRead b s
  | .headSubmit => execHeadSubmit b s
  | .chunkSubmit => execChunkSubmit b s
  | .imageInstalled => execImageInstalled b s
  | .faultRead => execFaultRead b s
  | .faultClear => execFaultClear b s
  | .restart => execRestart b s

/-- UNKNOWN_REQUEST: a request frame by its kind byte. An unknown kind is answered REFUSED-FIELD (BUSY before the
configuration read ends); a known kind is that request, which refuses a wrong body length the same way (R163;
DEDUCED, safe: log entry 13). -/
def execUnknownRequest (kind : Byte) (b : List Byte) (s : State) : Host.Outcome State Fault Refusal :=
  match requestOf kind with
  | some k => execRequest k b s
  | none =>
    match s.run with
    | .resetHeld => .next s
    | .starting => s.refuse kind .busy
    | .running => s.refuse kind .refusedField
    | .configHalt => s.refuse kind .refusedField

end Sys2Proof.Machine
end

