-- ==== Sys2Proof/Machine/ExpiryCommands.lean ====
section
/-! DEFINITION. The commands of the expiries: each takes the expiry of its deadline (Expiries.lean) when that is due. -/

namespace Sys2Proof.Machine

open Sys2Proof

/-- BEACON_DUE_EXPIRY (R30). -/
def execBeaconDueExpiry (slot : Nat) (s : State) : Host.Outcome State Fault Refusal := s.expire (s.beaconDue slot)

/-- BEACON_BUILD_EXPIRY (R36). -/
def execBeaconBuildExpiry (s : State) : Host.Outcome State Fault Refusal := s.expire s.beaconBuild

/-- CLASH_HOLDOFF_EXPIRY (R23). -/
def execClashHoldoffExpiry (s : State) : Host.Outcome State Fault Refusal := s.expire s.clashLapse

/-- POLICY_LIST_GUARD_EXPIRY (R35). -/
def execPolicyListGuardExpiry (slot : Nat) (s : State) : Host.Outcome State Fault Refusal :=
  s.expire (s.guardLapse slot)

/-- ADMIT_PENDING_EXPIRY (R57). -/
def execAdmitPendingExpiry (record : Nat) (s : State) : Host.Outcome State Fault Refusal :=
  s.expire (s.admitLapse record)

/-- REMOTE_DEADLINE_EXPIRY (R65). -/
def execRemoteDeadlineExpiry (record : Nat) (s : State) : Host.Outcome State Fault Refusal :=
  s.expire (s.remoteLapse record)

/-- REMOVAL_DEADLINE_EXPIRY (R65). -/
def execRemovalDeadlineExpiry (record : Nat) (s : State) : Host.Outcome State Fault Refusal :=
  s.expire (s.removalLapse record)

/-- SIGHTINGS_BUILD_EXPIRY (R66). -/
def execSightingsBuildExpiry (s : State) : Host.Outcome State Fault Refusal := s.expire s.sightingsBuild

/-- EVALUATION_EXPIRY (R73). -/
def execEvaluationExpiry (s : State) : Host.Outcome State Fault Refusal := s.expire s.evaluation

/-- CLAIM_HOLDOFF_EXPIRY (R84). -/
def execClaimHoldoffExpiry (record : Nat) (s : State) : Host.Outcome State Fault Refusal :=
  s.expire (s.holdoffLapse record)

/-- CLAIMANT_CONTEXT_EXPIRY (R86). -/
def execClaimantContextExpiry (slot : Nat) (s : State) : Host.Outcome State Fault Refusal :=
  s.expire (s.claimExpiry slot)

/-- RELEASE_DEADLINE_EXPIRY (R89). -/
def execReleaseDeadlineExpiry (record : Nat) (s : State) : Host.Outcome State Fault Refusal :=
  s.expire (s.releaseExpiry record)

/-- PERSIST_DEADLINE_EXPIRY (R108). -/
def execPersistDeadlineExpiry (s : State) : Host.Outcome State Fault Refusal := s.expire s.persistExpiry

/-- FETCH_DEADLINE_EXPIRY (R140). -/
def execFetchDeadlineExpiry (slot : Nat) (s : State) : Host.Outcome State Fault Refusal :=
  s.expire (s.fetchExpiry slot)

/-- HALVING_DEADLINE_EXPIRY (R140). -/
def execHalvingDeadlineExpiry (s : State) : Host.Outcome State Fault Refusal := s.expire s.halving

/-- PATROL_DEADLINE_EXPIRY (R144). -/
def execPatrolDeadlineExpiry (s : State) : Host.Outcome State Fault Refusal := s.expire s.patrolExpiry

/-- RETRY_HOLDOFF_EXPIRY (R152). -/
def execRetryHoldoffExpiry (s : State) : Host.Outcome State Fault Refusal := s.expire s.retryLapse

/-- DRAIN_DEADLINE_EXPIRY (R154). -/
def execDrainDeadlineExpiry (s : State) : Host.Outcome State Fault Refusal := s.expire s.drainExpiry

/-- REWRITE_DEADLINE_EXPIRY (R157). -/
def execRewriteDeadlineExpiry (s : State) : Host.Outcome State Fault Refusal := s.expire s.rewriteExpiry

end Sys2Proof.Machine
end

