-- ==== Sys2Proof/Machine/Dispatch.lean ====
section
/-! DEFINITION. One arm for each command: a direct call of its meaning. -/

namespace Sys2Proof.Machine

def exec (i : Instr) (s : State) : Host.Outcome State Fault Refusal :=
  match i with
  | .fullReset => Sys2Proof.Machine.execFullReset s
  | .tick => Sys2Proof.Machine.execTick s
  | .wallStateNotice => Sys2Proof.Machine.execWallStateNotice s
  | .configReadComplete data => Sys2Proof.Machine.execConfigReadComplete data s
  | .flashOperationBegin => Sys2Proof.Machine.execFlashOperationBegin s
  | .flashOperationDeadline => Sys2Proof.Machine.execFlashOperationDeadline s
  | .policyImageReadComplete data => Sys2Proof.Machine.execPolicyImageReadComplete data s
  | .policyWriteComplete => Sys2Proof.Machine.execPolicyWriteComplete s
  | .chunkProgramComplete => Sys2Proof.Machine.execChunkProgramComplete s
  | .verifyReadComplete data => Sys2Proof.Machine.execVerifyReadComplete data s
  | .serveReadComplete data => Sys2Proof.Machine.execServeReadComplete data s
  | .patrolReadComplete data => Sys2Proof.Machine.execPatrolReadComplete data s
  | .headBlockReadComplete data => Sys2Proof.Machine.execHeadBlockReadComplete data s
  | .scanReadComplete data => Sys2Proof.Machine.execScanReadComplete data s
  | .headBlockWriteComplete => Sys2Proof.Machine.execHeadBlockWriteComplete s
  | .beacon link f => Sys2Proof.Machine.execBeacon link f s
  | .sightings link f => Sys2Proof.Machine.execSightings link f s
  | .claim link f => Sys2Proof.Machine.execClaim link f s
  | .grant link f => Sys2Proof.Machine.execGrant link f s
  | .refuse link f => Sys2Proof.Machine.execRefuse link f s
  | .cancel link f => Sys2Proof.Machine.execCancel link f s
  | .served link f => Sys2Proof.Machine.execServed link f s
  | .policyList link f => Sys2Proof.Machine.execPolicyList link f s
  | .policyGet link f => Sys2Proof.Machine.execPolicyGet link f s
  | .policyRecord link f => Sys2Proof.Machine.execPolicyRecord link f s
  | .headGet link f => Sys2Proof.Machine.execHeadGet link f s
  | .head link f => Sys2Proof.Machine.execHead link f s
  | .fetch link f => Sys2Proof.Machine.execFetch link f s
  | .chunk link f => Sys2Proof.Machine.execChunk link f s
  | .mediumIdle => Sys2Proof.Machine.execMediumIdle s
  | .mediumBusy => Sys2Proof.Machine.execMediumBusy s
  | .idleSlot => Sys2Proof.Machine.execIdleSlot s
  | .sentClean => Sys2Proof.Machine.execSentClean s
  | .sentCollided => Sys2Proof.Machine.execSentCollided s
  | .burstRequest cls handle => Sys2Proof.Machine.execBurstRequest cls handle s
  | .creditRefillExpiry => Sys2Proof.Machine.execCreditRefillExpiry s
  | .yieldBeginBcu => Sys2Proof.Machine.execYieldBeginBcu s
  | .yieldEndBcu => Sys2Proof.Machine.execYieldEndBcu s
  | .yieldBeginIms => Sys2Proof.Machine.execYieldBeginIms s
  | .yieldEndIms => Sys2Proof.Machine.execYieldEndIms s
  | .admitQuery radio client => Sys2Proof.Machine.execAdmitQuery radio client s
  | .assoc radio client => Sys2Proof.Machine.execAssoc radio client s
  | .disassoc radio client cause => Sys2Proof.Machine.execDisassoc radio client cause s
  | .sight radio client level => Sys2Proof.Machine.execSight radio client level s
  | .traffic radio client counts => Sys2Proof.Machine.execTraffic radio client counts s
  | .airtime radio percent => Sys2Proof.Machine.execAirtime radio percent s
  | .taken radio => Sys2Proof.Machine.execTaken radio s
  | .status body => Sys2Proof.Machine.execStatus body s
  | .eventRead body => Sys2Proof.Machine.execEventRead body s
  | .policySubmit body => Sys2Proof.Machine.execPolicySubmit body s
  | .policyRead body => Sys2Proof.Machine.execPolicyRead body s
  | .clientRead body => Sys2Proof.Machine.execClientRead body s
  | .neighbourRead body => Sys2Proof.Machine.execNeighbourRead body s
  | .headSubmit body => Sys2Proof.Machine.execHeadSubmit body s
  | .chunkSubmit body => Sys2Proof.Machine.execChunkSubmit body s
  | .imageInstalled body => Sys2Proof.Machine.execImageInstalled body s
  | .faultRead body => Sys2Proof.Machine.execFaultRead body s
  | .faultClear body => Sys2Proof.Machine.execFaultClear body s
  | .restart body => Sys2Proof.Machine.execRestart body s
  | .restartNotice block => Sys2Proof.Machine.execRestartNotice block s
  | .responseRead => Sys2Proof.Machine.execResponseRead s
  | .beaconDueExpiry slot => Sys2Proof.Machine.execBeaconDueExpiry slot s
  | .beaconBuildExpiry => Sys2Proof.Machine.execBeaconBuildExpiry s
  | .clashHoldoffExpiry => Sys2Proof.Machine.execClashHoldoffExpiry s
  | .policyListGuardExpiry slot => Sys2Proof.Machine.execPolicyListGuardExpiry slot s
  | .admitPendingExpiry record => Sys2Proof.Machine.execAdmitPendingExpiry record s
  | .remoteDeadlineExpiry record => Sys2Proof.Machine.execRemoteDeadlineExpiry record s
  | .removalDeadlineExpiry record => Sys2Proof.Machine.execRemovalDeadlineExpiry record s
  | .sightingsBuildExpiry => Sys2Proof.Machine.execSightingsBuildExpiry s
  | .evaluationExpiry => Sys2Proof.Machine.execEvaluationExpiry s
  | .claimHoldoffExpiry record => Sys2Proof.Machine.execClaimHoldoffExpiry record s
  | .claimantContextExpiry slot => Sys2Proof.Machine.execClaimantContextExpiry slot s
  | .releaseDeadlineExpiry record => Sys2Proof.Machine.execReleaseDeadlineExpiry record s
  | .persistDeadlineExpiry => Sys2Proof.Machine.execPersistDeadlineExpiry s
  | .fetchDeadlineExpiry slot => Sys2Proof.Machine.execFetchDeadlineExpiry slot s
  | .halvingDeadlineExpiry => Sys2Proof.Machine.execHalvingDeadlineExpiry s
  | .patrolDeadlineExpiry => Sys2Proof.Machine.execPatrolDeadlineExpiry s
  | .retryHoldoffExpiry => Sys2Proof.Machine.execRetryHoldoffExpiry s
  | .drainDeadlineExpiry => Sys2Proof.Machine.execDrainDeadlineExpiry s
  | .rewriteDeadlineExpiry => Sys2Proof.Machine.execRewriteDeadlineExpiry s
  | .resetAsserted => Sys2Proof.Machine.execResetAsserted s
  | .badFrameReceived link bytes => Sys2Proof.Machine.execBadFrameReceived link bytes s
  | .unknownRequest kind body => Sys2Proof.Machine.execUnknownRequest kind body s

end Sys2Proof.Machine
end

