-- ==== Sys2Proof/Machine/Step.lean ====
section
/-! DEFINITION. One step of the block: the command at the front of the queue, or one cycle of the reference clock when
none waits. -/

namespace Sys2Proof.Machine

open Sys2Proof

/-- Takes the command at the front of the queue and carries it out on the state with the queue's rest. With no command
waiting the reference clock makes one cycle (R39), which is all that happens by itself (DESIGN CHOICE, unsafe: log entry 5). -/
def step (s : State) : Host.Outcome State Fault Refusal :=
  match s.pending with
  | [] => .next s.referenceCycle
  | c :: rest => exec c { s with pending := rest }

/-- The state with the command that a word spells at the front of its queue; unchanged where it spells none (log
entry 6). -/
def State.withFetchWord (s : State) (nbits w : Nat) : State :=
  match decodeTableWord nbits w with
  | none => s
  | some c => { s with pending := c :: s.pending }

end Sys2Proof.Machine
end

