-- ==== Sys2Proof/Safety.lean ====
section
/-! DEFINITION. What claims say of a state: the bounds and agreements that the spec gives each block's data (`Sound`),
the settled outputs that every event leaves (`Settled`), when a frame or a request reaches its owning block, and how one
state may follow another. -/

namespace Sys2Proof.Machine

open Sys2Proof

/-! ## Tables -/

/-- No two occupied slots of a table agree in `key`. -/
def DistinctBy {α β : Type} (key : α → β) (l : List (Option α)) : Prop :=
  ∀ i j x y, slotAt l i = some x → slotAt l j = some y → key x = key y → i = j

/-- Every occupied slot of a table satisfies `p`. -/
def EverySlot {α : Type} (p : α → Prop) (l : List (Option α)) : Prop := ∀ i x, slotAt l i = some x → p x

/-! ## Soundness, block by block -/

/-- A contention state within its class's parameters: CW, retry count and deferral count at most the class's own, a held
backoff count drawn from 0..CW (R8 to R12). -/
def Contention.Within (k : Contention) (p : ClassParams) : Prop :=
  k.deferral ≤ p.deferral ∧ k.window ≤ p.windowMax ∧ k.retry ≤ p.retryLimit ∧ ∀ n, k.backoff = some n → n ≤ k.window

/-- The BCU's counts are 16-bit (R6), its queues hold at most eight and two places (R13, R15), four AIRTIME values are
kept for each of three radios (R20), and each class is within its parameters (Table 1.4). -/
structure Bcu.Sound (b : Bcu) : Prop where
  badFrames : b.badFrames ≤ 65535
  nonMember : b.nonMember ≤ 65535
  controlDrops : b.controlDrops ≤ 65535
  ownDrops : b.ownDrops ≤ 65535
  duplicateRequests : b.duplicateRequests ≤ 65535
  control : b.controlQueue.length ≤ 8
  bulk : b.bulkQueue.length ≤ 2
  radios : b.airtime.length = 3
  airtime : ∀ vs ∈ b.airtime, vs.length ≤ 4
  within : ∀ c, (b.contention c).Within (b.params c)

/-- The most misses an entry holds in a link state: none while HEARD, one while ACTIVE, five while FAILING (R30). -/
def mostMisses : LinkState → Nat
  | .heard => 0
  | .active => 1
  | .failing => 5

/-- An entry's counts lie within Table 2.1 and its advertised load and served count within Table 2.2. -/
structure Entry.Sound (e : Entry) : Prop where
  joins : e.joinCount ≤ 3
  misses : e.missCount ≤ mostMisses e.link
  badFrames : e.badFrames ≤ 255
  goodRun : e.goodRun ≤ 1
  sinceWindow : e.sinceWindow ≤ 15
  load : e.adv.load ≤ 100
  served : e.adv.servedCount ≤ 64
  fetchFails : e.fetchFails ≤ 7

/-- Eight entry slots, no two for one node (R22). -/
structure Nbt.Sound (n : Nbt) : Prop where
  size : n.entries.length = 8
  distinct : DistinctBy Entry.id n.entries
  entries : EverySlot Entry.Sound n.entries
  tableFull : n.tableFull ≤ 65535

/-- The divider counts 0..31 and mesh time 0..2^40 − 1 (R39). -/
structure Mtb.Sound (m : Mtb) : Prop where
  divider : m.divider ≤ 31
  meshTime : m.meshTime ≤ meshTimeMax

/-- The deadlines that a serving state calls for: none for SERVED, with no reservation beside it (R57, R59); a remote
deadline for REMOTE (R64); a removal deadline for UNSEEN (R65). -/
def ClientRecord.DeadlinesFit (r : ClientRecord) : Prop :=
  match r.serving with
  | .served _ => r.admitPending = none ∧ r.remoteDeadline = none ∧ r.removalDeadline = none
  | .remote _ => r.remoteDeadline.isSome ∧ r.removalDeadline = none
  | .unseen => r.remoteDeadline = none ∧ r.removalDeadline.isSome

/-- A client record as Table 4.3 bounds it: at most three reports, of different peers (R63), evidence at most 15 (R125),
the deadlines of its serving state; a release context (R83) and pending directives (R52, R53) only while SERVED. -/
structure ClientRecord.Sound (r : ClientRecord) : Prop where
  reports : r.reports.length ≤ 3
  reporters : (r.reports.map PeerReport.peer).Nodup
  evidence : r.evidence ≤ 15
  deadlines : r.DeadlinesFit
  release : r.release.isSome → r.isServed
  directives : r.hasPending → r.isServed

/-- Sixty-four records, no two for one client (R54). -/
structure Crg.Sound (c : Crg) : Prop where
  size : c.records.length = 64
  distinct : DistinctBy ClientRecord.addr c.records
  records : EverySlot ClientRecord.Sound c.records
  refusedAssociations : c.refusedAssociations ≤ 65535
  unplacedSightings : c.unplacedSightings ≤ 65535
  invalidEntries : c.invalidEntries ≤ 65535

/-- Three radios with at most 16 directives in flight each (R52). -/
structure Rli.Sound (l : Rli) : Prop where
  waiting : l.waiting.length = 3
  inFlight : l.inFlight.length = 3
  room : ∀ q ∈ l.inFlight, q.length ≤ 16

/-- Four claimant contexts, no two for one client (R80); an 8-bit claim seq (R81). -/
structure Hoc.Sound (h : Hoc) : Prop where
  size : h.contexts.length = 4
  distinct : DistinctBy ClaimContext.client h.contexts
  seq : h.seqCounter ≤ 255
  malformed : h.malformed ≤ 65535

/-- Ninety-seven slots (R97) and the digest over their stamps (R104). -/
structure Pst.Sound (p : Pst) : Prop where
  size : p.slots.length = 97
  digest : p.digest = digestOf p.slots
  excessLists : p.excessLists ≤ 65535
  malformed : p.malformed ≤ 65535
  invalidRecords : p.invalidRecords ≤ 65535

/-- Eight groups (R112). -/
def Seu.Sound (u : Seu) : Prop := u.groups.length = 8

/-- Two 16-bit counts (R123). -/
structure Gtm.Sound (g : Gtm) : Prop where
  invalid : g.invalidTraffic ≤ 65535
  unmatched : g.unmatchedTraffic ≤ 65535

/-- Two buffers (R141), four fetch slots (R139), 32 segment counts and eight index chunks (R136), at most three verify
failures in a row (R142); a patrol deadline is held in FETCHING and COMPLETE and in no other image state (R144). -/
structure Ims.Sound (m : Ims) : Prop where
  buffers : m.buffers.length = 2
  fetches : m.fetches.length = 4
  segments : m.segmentCounts.length = 32
  index : m.indexTable.length = 8
  failures : m.verifyFailures ≤ 3
  patrol : m.patrolDeadline.isSome = m.image.patrolled
  refusedHeads : m.refusedHeads ≤ 65535
  unmatchedChunks : m.unmatchedChunks ≤ 65535
  lostChunks : m.lostChunks ≤ 65535
  checkFailures : m.checkFailures ≤ 65535
  ignoredFetches : m.ignoredFetches ≤ 65535

/-- A node that drains holds a drain deadline (R153). -/
def Icu.Sound (u : Icu) : Prop := u.install = .draining → u.drainDeadline.isSome

/-- At most 32 events wait; the drop count is 8-bit (R165). -/
structure Evq.Sound (q : Evq) : Prop where
  events : q.events.length ≤ 32
  drops : q.drops ≤ 255

/-- The later-fault set is empty while no fault is recorded, and the first fault has its kind's class (R166). -/
structure Frc.Sound (f : Frc) : Prop where
  later : f.first = none → f.later = 0#5
  cls : ∀ r, f.first = some r → r.cls = faultClassOf r.kind

/-- The bounds and agreements of every block. -/
structure State.Sound (s : State) : Prop where
  bcu : s.bcu.Sound
  nbt : s.nbt.Sound
  mtb : s.mtb.Sound
  crg : s.crg.Sound
  rli : s.rli.Sound
  hoc : s.hoc.Sound
  pst : s.pst.Sound
  seu : s.seu.Sound
  gtm : s.gtm.Sound
  ims : s.ims.Sound
  icu : s.icu.Sound
  evq : s.evq.Sound
  frc : s.frc.Sound

/-! ## Settled outputs -/

/-- The RLI has sent what it can: each radio's in-flight queue is full or its waiting list is empty (R52). -/
def State.RadiosSettled (s : State) : Prop :=
  ∀ r, r < 3 → 16 ≤ (forRadio s.rli.inFlight r).length ∨ forRadio s.rli.waiting r = []

/-- The three output lines are what the event queue, the install state and the fault record call for (R165, R156,
R166). -/
def State.LinesAgree (s : State) : Prop := s.lines = linesOf s

/-- What every event leaves behind. -/
structure State.Settled (s : State) : Prop where
  radios : s.RadiosSettled
  lines : s.LinesAgree

/-! ## When an event reaches its owning block -/

/-- The command by which a frame of a kind arrives. -/
def frameCommand (kind : FrameKind) (link : NodeId) (f : RxFrame) : Instr :=
  match kind with
  | .beacon => .beacon link f
  | .sightings => .sightings link f
  | .claim => .claim link f
  | .grant => .grant link f
  | .refuse => .refuse link f
  | .cancel => .cancel link f
  | .served => .served link f
  | .policyList => .policyList link f
  | .policyGet => .policyGet link f
  | .policyRecord => .policyRecord link f
  | .headGet => .headGet link f
  | .head => .head link f
  | .fetch => .fetch link f
  | .chunk => .chunk link f

/-- The command by which a request of a kind arrives. -/
def requestCommand (kind : RequestKind) (b : List Byte) : Instr :=
  match kind with
  | .status => .status b
  | .eventRead => .eventRead b
  | .policySubmit => .policySubmit b
  | .policyRead => .policyRead b
  | .clientRead => .clientRead b
  | .neighbourRead => .neighbourRead b
  | .headSubmit => .headSubmit b
  | .chunkSubmit => .chunkSubmit b
  | .imageInstalled => .imageInstalled b
  | .faultRead => .faultRead b
  | .faultClear => .faultClear b
  | .restart => .restart b

/-- A received frame passes R3 and R4 and is handed to the block that owns its kind. -/
structure State.Dispatches (s : State) (kind : FrameKind) (f : RxFrame) : Prop where
  running : s.run = .running
  form : frameFormOk kind f = true
  dest : f.dst = allNodes ∨ f.dst = s.ownId
  member : kind = .beacon ∨ s.isMember f.src = true

/-- A request of a kind with a body of its length is answered by its owning block (R163): in a running part, and for the
four kinds that CONFIG-HALT still answers, there too (R160). -/
structure State.Takes (s : State) (kind : RequestKind) (b : List Byte) : Prop where
  run : s.run = .running ∨ (s.run = .configHalt ∧ answeredInHalt kind = true)
  length : b.length = requestLength kind

/-! ## Steps of mesh time -/

/-- Whether a deadline lies in a step of mesh time from `old` to `new`: above the first value and not above the second
(R44). -/
def Crossed (old new : Nat) (deadline : Option Nat) : Prop := ∃ d, deadline = some d ∧ old < d ∧ d ≤ new

/-- No deadline lies in a step from `old` to `new`, but perhaps the beacon-due deadline of the entry in slot `own`. The
configuration read's is left out: no frame is taken until that read has ended (R161). -/
structure State.CrossesNothing (s : State) (old new own : Nat) : Prop where
  refill : ¬Crossed old new s.bcu.refillDeadline
  due : ∀ i e, i ≠ own → s.entry i = some e → ¬Crossed old new (some e.dueDeadline)
  guards : ∀ i e, s.entry i = some e → ¬Crossed old new e.listGuard
  build : ¬Crossed old new s.nbt.buildDeadline
  clash : ¬Crossed old new s.nbt.clashHoldoff
  reservations : ∀ i r, s.record i = some r → ¬Crossed old new r.admitPending
  remote : ∀ i r, s.record i = some r → ¬Crossed old new r.remoteDeadline
  removal : ∀ i r, s.record i = some r → ¬Crossed old new r.removalDeadline
  sightings : ¬Crossed old new s.crg.sightingsDeadline
  evaluation : ¬Crossed old new s.rse.evaluationDeadline
  holdoffs : ∀ i r, s.record i = some r → ¬Crossed old new r.claimHoldoff
  claims : ∀ k c, s.claimAt k = some c → ¬Crossed old new (some c.deadline)
  releases : ∀ i r c, s.record i = some r → r.release = some c → ¬Crossed old new (some c.deadline)
  persist : ¬Crossed old new s.pst.persist.deadline
  fetches : ∀ k f, slotAt s.ims.fetches k = some f → ¬Crossed old new f.deadline.expiry
  halving : ¬Crossed old new s.ims.halvingDeadline
  patrol : ¬Crossed old new s.ims.patrolDeadline
  retry : ¬Crossed old new s.icu.retryHoldoff
  drain : ¬Crossed old new s.icu.drainDeadline
  rewrite : ¬Crossed old new s.icu.rewriteDeadline
  operation : ∀ o, s.flp.operation = some o → o.kind ≠ .configRead → ¬Crossed old new (some o.deadline)

/-! ## How one state may follow another -/

/-- Whether a command is a reset: it returns every block to its full-reset values (R161). -/
def isReset (c : Instr) : Bool := decide (c = .fullReset ∨ c = .resetAsserted)

/-- No slot's stamp is older than it was (R98). -/
def SlotsKeepPace (old new : List Slot) : Prop :=
  ∀ (n : Nat) (x y : Slot), old[n]? = some x → new[n]? = some y → x.stamp.newerThan y.stamp = false

/-- The flash port holds no configuration read: none waits and none runs (R159, R161). -/
def Flp.NoConfigRead (f : Flp) : Prop :=
  (∀ r ∈ f.waiting, r.kind ≠ .configRead) ∧ (∀ o, f.operation = some o → o.kind ≠ .configRead)

end Sys2Proof.Machine
end

