-- ==== Sys2Proof/Certificates/Slice0/Obligations.lean ====
section
/-! DEFINITION. The statements for the provers, in the order of the spec's chapters: what the queue and the clock do, what
each command does and what it leaves alone, and what every command keeps.

A statement about one command mostly gives its next state outright, as the state before with the fields that change; so
it is at once the command's result, its completion and its frame. Its premise `Settled` says only that the RLI has
nothing it could send and that the output lines agree with the state, which every command leaves behind
(`Obligations.StepKeepsSettled`). `driveLines` sets the three output lines from the event queue, the install state and
the fault record, and nothing else. -/

open Sys2Proof Sys2Proof.Machine

/-! ## The queue and the clock -/

/-- A step carries out the command at the front of the queue on the state with the queue's rest. -/
def Obligations.StepTakesFront : Prop :=
  ∀ (c : Instr) (rest : List Instr) (s : State), s.pending = c :: rest → step s = exec c { s with pending := rest }

/-- With no command waiting a step is one cycle of the 32.768 kHz reference: the divider counts 0..31, and the cycle
that would take it past 31 is a tick; nothing counts while RESET is asserted. That an empty queue is one cycle is the
model's choice (log entry 5). TICK, with no wall-state notice waiting: mesh time rises by one and holds at 2^40 − 1,
and a wall state other than the one last notified is notified; nothing else changes. While RESET is asserted nothing
does. Wall time: valid while the clock slot holds a clock record, mesh time has reached its M0 and the wall seconds
fit 32 bits; the wall minute is the wall seconds over 60. That a tick takes a waiting wall-state notice first is
inferred (log entry 46). From R39, R46, R48. -/
def Obligations.ClockMovesMeshAndWallTime : Prop :=
  (∀ s : State, s.pending = [] →
     (s.run ≠ .resetHeld → s.mtb.divider < 31 →
       step s = .next { s with mtb := { s.mtb with divider := s.mtb.divider + 1 } }) ∧
     (s.run ≠ .resetHeld → s.mtb.divider = 31 → step s = exec .tick s) ∧
     (s.run = .resetHeld → step s = .next s)) ∧
  (∀ (s : State) (now : Nat) (wall : Option Nat), s.Settled → s.wallNotices = [] →
     now = (if s.now < 2 ^ 40 - 1 then s.now + 1 else s.now) → s.now ≤ 2 ^ 40 - 1 →
     wall = State.wallMinute { s with mtb := { s.mtb with meshTime := now } } →
     exec .tick s = .next (
       if s.run = .resetHeld then s
       else
         { s with
           mtb := { s.mtb with divider := 0, meshTime := now, lastNotified := wall }
           wallNotices := if wall = s.mtb.lastNotified then s.wallNotices else [wall] })) ∧
  (∀ s : State,
     (∀ c, (s.slot 96).content = .clock c →
       (c.meshTime ≤ s.now → c.seconds + (s.now - c.meshTime) / 1024 ≤ 2 ^ 32 - 1 →
         s.wallSeconds = some (c.seconds + (s.now - c.meshTime) / 1024) ∧
         s.wallMinute = some ((c.seconds + (s.now - c.meshTime) / 1024) / 60)) ∧
       (s.now < c.meshTime ∨ 2 ^ 32 - 1 < c.seconds + (s.now - c.meshTime) / 1024 →
         s.wallSeconds = none ∧ s.wallMinute = none)) ∧
     ((∀ c, (s.slot 96).content ≠ .clock c) → s.wallSeconds = none ∧ s.wallMinute = none))

/-! ## Reset and the start -/

/-- FULL_RESET: the full-reset values of every block, the configuration read in rank 1, no notice waiting, and the
model's own queue, record of outputs and draw counter kept. RESET_ASSERTED: mesh time is 0, the output lines are
deasserted, no configuration read waits; and from the state it leaves, every command but FULL_RESET leaves that state
as it is, so that no interface is answered. That the configuration fields are 0 but the radio count 3, and the credit
64, before the block is read is the model's choice (log entry 9). From R161, R21, R38, R39, R67, R96, R111, R148,
R158, R163, R165, R166. -/
def Obligations.ResetsSetEveryBlock : Prop :=
  (∀ s : State, ∃ t, exec .fullReset s = .next t ∧
     t.run = .starting ∧
     t.mtb = { divider := 0, meshTime := 0, synced := false, lastNotified := none } ∧
     t.flp = { waiting := [{ kind := .configRead, discard := false }], operation := none } ∧
     (∀ c, t.bcu.contention c =
       { window := (classParams c).windowMin, retry := 0, deferral := (classParams c).deferral, backoff := none }) ∧
     (t.bcu.medium = .busy ∧ t.bcu.inFlight = none ∧ t.bcu.controlQueue = [] ∧ t.bcu.bulkQueue = [] ∧
       t.bcu.gameSlot = none ∧ t.bcu.normalSlot = none ∧ t.bcu.airtime = [[], [], []]) ∧
     (t.bcu.demoted = false ∧ t.bcu.credit = 64 ∧ t.bcu.refillDeadline = none ∧ t.bcu.yielding = false) ∧
     (t.bcu.badFrames = 0 ∧ t.bcu.nonMember = 0 ∧ t.bcu.controlDrops = 0 ∧ t.bcu.ownDrops = 0 ∧
       t.bcu.duplicateRequests = 0) ∧
     ((∀ i, t.entry i = none) ∧ t.nbt.clashHoldoff = none ∧ t.nbt.tableFull = 0 ∧ t.nbt.buildDeadline = none) ∧
     ((∀ i, t.record i = none) ∧ t.crg.servedCursor = 63 ∧ t.crg.refusedAssociations = 0 ∧
       t.crg.unplacedSightings = 0 ∧ t.crg.invalidEntries = 0 ∧ t.crg.sightingsDeadline = none) ∧
     t.rse.evaluationDeadline = none ∧
     (t.rli.waiting = [[], [], []] ∧ t.rli.inFlight = [[], [], []]) ∧
     ((∀ k, t.claimAt k = none) ∧ t.hoc.seqCounter = 0 ∧ t.hoc.malformed = 0) ∧
     ((∀ n, t.slot n = { content := .empty, stamp := { counter := 0, origin := 0#16 } }) ∧
       t.pst.digest = crc16 (List.replicate 388 0#8) ∧ t.pst.persist = .clean ∧ t.pst.rewrite = false ∧
       t.pst.loading = false ∧ t.pst.excessLists = 0 ∧ t.pst.malformed = 0 ∧ t.pst.invalidRecords = 0) ∧
     (t.seu.held = none ∧ t.seu.groups = List.replicate 8 .open) ∧
     (t.gtm.servedGame = 0 ∧ t.gtm.peerGame = 0 ∧ yieldCondition t.gtm = false ∧ t.gtm.invalidTraffic = 0 ∧
       t.gtm.unmatchedTraffic = 0 ∧ t.gtm.yieldHolds = false) ∧
     (t.ims.image = .empty ∧ t.ims.head = none ∧ t.ims.presentData = [] ∧ t.ims.presentIndex = [] ∧
       t.ims.buffers = [.free, .free] ∧ t.ims.fetches = [none, none, none, none] ∧ t.ims.verifyFailures = 0 ∧
       t.ims.patrolCursor = none ∧ t.ims.patrolDeadline = none) ∧
     (t.ims.segmentCounts = List.replicate 32 0 ∧ t.ims.indexTable = List.replicate 8 none ∧
       t.ims.halvingDeadline = none ∧ t.ims.yielding = false ∧ t.ims.scan = .off ∧ t.ims.heldHead = none) ∧
     (t.ims.refusedHeads = 0 ∧ t.ims.unmatchedChunks = 0 ∧ t.ims.lostChunks = 0 ∧ t.ims.checkFailures = 0 ∧
       t.ims.ignoredFetches = 0) ∧
     (t.icu.install = .idle ∧ t.icu.intentCount = 0 ∧ t.icu.retryHoldoff = none ∧ t.icu.drainDeadline = none ∧
       t.icu.marker = false ∧ t.icu.rewriteDeadline = none) ∧
     (t.lpi.request = none ∧ t.lpi.response = none ∧ t.evq = { events := [], drops := 0 } ∧
       t.frc = { first := none, later := 0#5 }) ∧
     t.lines = { eventPending := false, imageReady := false, fault := false } ∧
     (t.wallNotices = [] ∧ t.yieldNoticesBcu = [] ∧ t.yieldNoticesIms = [] ∧ t.restartNotices = []) ∧
     t.cfg =
       { nodeId := 0#16, radioCount := 3, kCode := 0, marginCode := 0, nConf := 0, beaconCode := 0, errorCode := 0,
         creditCode := 0, gameCode := 0, drainCode := 0, flashCode := 0 } ∧
     (t.pending = s.pending ∧ t.sent = s.sent ∧ t.draws = s.draws)) ∧
  (∀ s : State, ∃ t, exec .resetAsserted s = .next t ∧
     t.now = 0 ∧ t.lines = { eventPending := false, imageReady := false, fault := false } ∧ t.flp.waiting = [] ∧
     t.flp.operation = none ∧
     ∀ (c : Instr) (q : List Instr), c ≠ .fullReset → c ≠ .resetAsserted →
       exec c { t with pending := q } = .next { t with pending := q })

/-- CONFIG_READ_COMPLETE with a block that passes every check: each block of the part begins as R161 says, and nothing
else changes. CONFIG_READ_COMPLETE with a block that fails a check: CONFIG-BAD with the detail of the first check that
fails, in the order check value, node id, codes, its FAULT event, and CONFIG-HALT. The first build's jitter is a free
value within its range (log entry 1). From R159, R160, R161. -/
def Obligations.ConfigurationReadEnds : Prop :=
  (∀ (s : State) (o : FlashOperation) (data : List Byte), s.Settled → s.flp.operation = some o →
     o.kind = .configRead → crc16 (data.take 12) = fieldAt data 12 2 →
     (nodeAt data 0 ≠ 0x0000#16 ∧ nodeAt data 0 ≠ 0xFFFF#16) →
     (1 ≤ byteAt data 2 ∧ byteAt data 2 ≤ 3 ∧ byteAt data 3 ≤ 3 ∧ byteAt data 4 ≤ 3 ∧ 1 ≤ byteAt data 5 ∧
       byteAt data 5 ≤ 3 ∧ byteAt data 6 ≤ 2 ∧ byteAt data 7 ≤ 2 ∧ byteAt data 8 ≤ 3 ∧ byteAt data 9 ≤ 3 ∧
       byteAt data 10 ≤ 2 ∧ byteAt data 11 ≤ 2) →
     exec (.configReadComplete data) s = .next
       { s with
         run := .running
         cfg := parseConfig data
         bcu := { s.bcu with credit := 64 * 2 ^ byteAt data 8, refillDeadline := some (s.now + 64) }
         nbt := { s.nbt with buildDeadline := some (s.now + Config.draw s.draws % 256) }
         crg := { s.crg with sightingsDeadline := some (s.now + 256) }
         rse := { evaluationDeadline := some (s.now + 128) }
         pst := { s.pst with loading := true }
         ims := { s.ims with scan := .readingHead, halvingDeadline := some (s.now + 16384) }
         flp := { waiting := s.flp.waiting ++
                    [{ kind := .policyRead, discard := false }, { kind := .headRead, discard := false }],
                  operation := none }
         sent := s.sent ++ [.mediumQuery]
         draws := s.draws + 1 }) ∧
  (∀ (s : State) (o : FlashOperation) (data : List Byte) (detail : Nat), s.Settled → s.flp.operation = some o →
     o.kind = .configRead →
     (let check := crc16 (data.take 12) = fieldAt data 12 2
      let id := nodeAt data 0 ≠ 0x0000#16 ∧ nodeAt data 0 ≠ 0xFFFF#16
      (¬check ∧ detail = 1) ∨ (check ∧ ¬id ∧ detail = 2) ∨
        (check ∧ id ∧ codesInRange (parseConfig data) = false ∧ detail = 3)) →
     exec (.configReadComplete data) s = .next
       (State.queueEvent
         { s with
           run := .configHalt
           cfg := parseConfig data
           flp := { s.flp with operation := none }
           frc := s.frc.take s.now .configBad detail }
         .fault (nodeSubject (nodeAt data 0)) 1).driveLines)

/-- In CONFIG-HALT every frame is discarded without check or count, a burst request is answered ACCESS-DROP, an
admission query ALLOW, the four other radio reports are discarded, a query, ASSOC or DISASSOC from a link not below
the radio count or with client address 0 is discarded, and a request other than STATUS, EVENT-READ, FAULT-READ and
CLIENT-READ is answered REFUSED-STATE. An ASSOC for which no record can be had is counted, and not answered. Until the
configuration read ends every request is answered BUSY, an admission query REFUSE, a burst request ACCESS-DROP, and
every other report and every frame is discarded. While running, the RLI discards without any other effect a report
from a link not below the radio count, one that names client address 0, and a DISASSOC whose cause is none of the
four; the last in CONFIG-HALT too. That the form of a request is judged before its state is the model's choice (log
entry 14); that BUSY also meets a request with a wrong body is inferred (log entry 18), and what follows an ASSOC in
CONFIG-HALT is inferred (log entry 19); where no block was read the radio count is the model's (log entry 9). From R5,
R16, R51, R160, R161, R163. -/
def Obligations.AnswersOutsideRunning : Prop :=
  (∀ s : State, s.Settled → s.run = .configHalt →
     (∀ kind link f, exec (frameCommand kind link f) s = .next s) ∧
     (∀ link bytes, exec (.badFrameReceived link bytes) s = .next s) ∧
     (∀ cls h, exec (.burstRequest cls h) s = .next { s with sent := s.sent ++ [.accessDrop h] }) ∧
     (∀ r a, r < s.cfg.radioCount → a ≠ 0#48 →
       exec (.admitQuery r a) s = .next { s with sent := s.sent ++ [.admitAnswer r a true] }) ∧
     (∀ r a, s.cfg.radioCount ≤ r ∨ a = 0#48 → exec (.admitQuery r a) s = .next s ∧ exec (.assoc r a) s = .next s ∧
       ∀ c, exec (.disassoc r a c) s = .next s) ∧
     (∀ r a l, exec (.sight r a l) s = .next s) ∧ (∀ r a c, exec (.traffic r a c) s = .next s) ∧
     (∀ r p, exec (.airtime r p) s = .next s) ∧ (∀ r, exec (.taken r) s = .next s) ∧
     (∀ kind b, answeredInHalt kind = false → b.length = requestLength kind →
       exec (requestCommand kind b) s = .next
         { s with lpi := { s.lpi with
             response := some { kind := BitVec.ofNat 8 (requestCode kind), result := .refusedState, body := [] } } }) ∧
     (∀ r a, r < s.cfg.radioCount → a ≠ 0#48 → s.wallNotices = [] → s.findRecord a = none → s.obtainForAdmission = none →
       exec (.assoc r a) s = .next
         { s with crg := { s.crg with refusedAssociations := min (s.crg.refusedAssociations + 1) 65535 } })) ∧
  (∀ s : State, s.Settled → s.run = .starting →
     (∀ kind b, exec (requestCommand kind b) s = .next
       { s with lpi := { s.lpi with
           response := some { kind := BitVec.ofNat 8 (requestCode kind), result := .busy, body := [] } } }) ∧
     (∀ r a, exec (.admitQuery r a) s = .next { s with sent := s.sent ++ [.admitAnswer r a false] }) ∧
     (∀ cls h, exec (.burstRequest cls h) s = .next { s with sent := s.sent ++ [.accessDrop h] }) ∧
     (∀ r a, exec (.assoc r a) s = .next s) ∧ (∀ r a c, exec (.disassoc r a c) s = .next s) ∧
     (∀ r a l, exec (.sight r a l) s = .next s) ∧ (∀ r a c, exec (.traffic r a c) s = .next s) ∧
     (∀ r p, exec (.airtime r p) s = .next s) ∧ (∀ r, exec (.taken r) s = .next s) ∧
     (∀ kind link f, exec (frameCommand kind link f) s = .next s) ∧
     (∀ link bytes, exec (.badFrameReceived link bytes) s = .next s)) ∧
  (∀ (s : State) (radio : Nat) (a : ClientAddr),
     (s.run = .running → s.cfg.radioCount ≤ radio ∨ a = 0#48 →
       exec (.admitQuery radio a) s = .next s ∧ exec (.assoc radio a) s = .next s ∧
       (∀ cause, exec (.disassoc radio a cause) s = .next s) ∧ (∀ level, exec (.sight radio a level) s = .next s) ∧
       ∀ n, exec (.traffic radio a n) s = .next s) ∧
     (s.run = .running → s.cfg.radioCount ≤ radio →
       exec (.taken radio) s = .next s ∧ ∀ percent, exec (.airtime radio percent) s = .next s) ∧
     (s.run = .running ∨ s.run = .configHalt → ∀ code, exec (.disassoc radio a (.other code)) s = .next s))

/-! ## Backhaul channel access (chapter 1) -/

/-- MEDIUM_IDLE and MEDIUM_BUSY: the medium state; at BUSY every class's deferral count returns to the class's full
deferral, a demoted GAME class's being NORMAL's, and a held backoff count keeps its value. The yield notices at the
BCU: a begin or end notice given and not yet taken sets BULK back to its full deferral of 9, with its CW, retry count,
backoff count and the bulk queue untouched. BURST_REQUEST and CREDIT_REFILL_EXPIRY: a request fills its empty slot, at
the class's full deferral; an occupied slot keeps its request and the duplicate is counted; a due refill adds a
sixteenth of the capacity, up to the capacity, and falls due again 64 ticks after its own value. That a yield command
without its notice has no effect is the model's choice (log entry 8). From R7, R9, R10, R16, R17, R19. -/
def Obligations.ChannelIndications : Prop :=
  (∀ s : State, s.Settled → s.run = .running →
     exec .mediumIdle s = .next { s with bcu := { s.bcu with medium := .idle } } ∧
     exec .mediumBusy s = .next
       { s with bcu := { s.bcu with
           medium := .busy
           controlState := { s.bcu.controlState with deferral := 2 }
           gameState := { s.bcu.gameState with deferral := if s.bcu.demoted then 5 else 3 }
           normalState := { s.bcu.normalState with deferral := 5 }
           bulkState := { s.bcu.bulkState with deferral := 9 } } }) ∧
  (∀ (s : State) (rest : List Bool), s.Settled →
     (s.yieldNoticesBcu = true :: rest → exec .yieldBeginBcu s = .next
       { s with
         yieldNoticesBcu := rest
         bcu := { s.bcu with yielding := true, bulkState := { s.bcu.bulkState with deferral := 9 } } }) ∧
     (s.yieldNoticesBcu = false :: rest → exec .yieldEndBcu s = .next
       { s with
         yieldNoticesBcu := rest
         bcu := { s.bcu with yielding := false, bulkState := { s.bcu.bulkState with deferral := 9 } } })) ∧
  (∀ s : State, s.Settled → s.run = .running →
     (∀ h, s.bcu.gameSlot = none → exec (.burstRequest .game h) s = .next
       { s with bcu := { s.bcu with
           gameSlot := some h
           gameState := { s.bcu.gameState with deferral := (s.bcu.params .game).deferral } } }) ∧
     (∀ h, s.bcu.normalSlot = none → exec (.burstRequest .normal h) s = .next
       { s with bcu := { s.bcu with
           normalSlot := some h, normalState := { s.bcu.normalState with deferral := 5 } } }) ∧
     (∀ h h', s.bcu.gameSlot = some h' → exec (.burstRequest .game h) s = .next
       { s with bcu := { s.bcu with duplicateRequests := min (s.bcu.duplicateRequests + 1) 65535 } }) ∧
     (∀ h h', s.bcu.normalSlot = some h' → exec (.burstRequest .normal h) s = .next
       { s with bcu := { s.bcu with duplicateRequests := min (s.bcu.duplicateRequests + 1) 65535 } }) ∧
     (∀ d, s.bcu.refillDeadline = some d → d ≤ s.now → exec .creditRefillExpiry s = .next
       { s with bcu := { s.bcu with
           credit := min (s.bcu.credit + creditCapacity s.cfg / 16) (creditCapacity s.cfg)
           refillDeadline := some (d + 64) } }))

/-- IDLE_SLOT with one class that has work and does not reach zero on it: the class counts its deferral; when that has
ended it counts down the backoff count it holds, or draws one from 0..CW. Nothing else changes. IDLE_SLOT changes
nothing while the medium is BUSY, while a transmission is in flight, while no class has work, and for a BULK class
that alone has work while the yield condition holds. IDLE_SLOT on which a GAME class alone reaches zero with credit 0:
it is demoted, with CW 15, its retry count kept and a new count from 0..15, and nothing is sent. A draw is a free
value within its range (log entry 1); that a held count of 0 with its deferral ended is at zero on the next slot is
inferred (log entry 22). From R7, R9, R10, R11, R18, R19. -/
def Obligations.IdleSlotCounts : Prop :=
  (∀ (s : State) (c : AccessClass), s.Settled → s.run = .running → s.bcu.medium = .idle → s.bcu.inFlight = none →
     s.bcu.hasWork c = true → (∀ d, d ≠ c → s.bcu.hasWork d = false) → (c = .bulk → s.bcu.yielding = false) →
     (let counted (f : Contention → Contention) : State := { s with bcu := s.bcu.modContention c f }
      let k := s.bcu.contention c
      (1 < k.deferral → exec .idleSlot s = .next (counted fun k => { k with deferral := k.deferral - 1 })) ∧
      (∀ n, k.deferral = 1 → k.backoff = some n → n ≠ 0 →
        exec .idleSlot s = .next (counted fun k => { k with deferral := 0 })) ∧
      (∀ n, k.deferral = 0 → k.backoff = some n → 1 < n →
        exec .idleSlot s = .next (counted fun k => { k with backoff := some (n - 1) })) ∧
      (∀ n, k.deferral ≤ 1 → k.backoff = none → n = Config.draw s.draws % (k.window + 1) → n ≠ 0 →
        exec .idleSlot s = .next
          { counted fun k => { k with deferral := 0, backoff := some n } with draws := s.draws + 1 }))) ∧
  (∀ s : State, s.Settled →
     (s.bcu.medium = .busy ∨ s.bcu.inFlight.isSome ∨ (∀ c, s.bcu.hasWork c = false) ∨
       ((∀ c, c ≠ .bulk → s.bcu.hasWork c = false) ∧ s.bcu.yielding = true)) →
     exec .idleSlot s = .next s) ∧
  (∀ s : State, s.Settled → s.run = .running → s.bcu.medium = .idle → s.bcu.inFlight = none →
     s.bcu.hasWork .game = true → (∀ d, d ≠ .game → s.bcu.hasWork d = false) → s.bcu.gameState.deferral = 0 →
     s.bcu.gameState.backoff = some 1 → s.bcu.demoted = false → s.bcu.credit = 0 →
     exec .idleSlot s = .next
       { s with
         bcu := { s.bcu with
           demoted := true
           gameState := { s.bcu.gameState with window := 15, backoff := some (Config.draw s.draws % 16) } }
         draws := s.draws + 1 })

/-- IDLE_SLOT on which classes reach zero: the highest-ranked one transmits its item and gives up its backoff count,
the medium becomes BUSY, a GAME attempt that is not demoted takes one credit, and a BEACON carries the present mesh
time; every other class at zero draws a new count from its unchanged CW. IDLE_SLOT whatever classes have work, in
three stages. Every class with work counts, but BULK under the yield condition: its deferral; on the slot that ends
it, it draws a count where it holds none; after it, its backoff. The arbiter takes the highest-ranked class at zero
that can start, and demotes a GAME class without credit that it meets first. With no such class the medium stays IDLE
and what was counted stands. The class taken transmits: every class's deferral is set back, a class that still counts
keeps its count, each other class at zero draws anew from its unchanged CW, and a GAME class demoted on this slot
keeps the count drawn for it and draws no second. A draw is a free value within its range (log entry 1); that a held
count of 0 with its deferral ended is at zero on the next slot is inferred (log entry 22). From R2, R7, R9, R10, R11,
R17, R18, R19. -/
def Obligations.IdleSlotTransmits : Prop :=
  (∀ (s : State) (ready : AccessClass → Bool) (c : AccessClass), s.Settled → s.run = .running →
     s.bcu.medium = .idle → s.bcu.inFlight = none →
     (∀ d, ready d = true → s.bcu.hasWork d = true ∧ (s.bcu.contention d).deferral = 0 ∧
       (s.bcu.contention d).backoff = some 1) →
     (∀ d, ready d = false → s.bcu.hasWork d = false) → (ready .bulk = true → s.bcu.yielding = false) →
     (ready .game = true → s.bcu.demoted = true ∨ 0 < s.bcu.credit) → classRanks.find? ready = some c →
     ∃ t, exec .idleSlot s = .next t ∧ t.bcu.inFlight = some c ∧ t.bcu.medium = .busy ∧
       (t.bcu.contention c).backoff = none ∧
       t.bcu.credit = (if c = .game ∧ s.bcu.demoted = false then s.bcu.credit - 1 else s.bcu.credit) ∧
       (∀ d, d ≠ c → ready d = true → (t.bcu.contention d).window = (s.bcu.contention d).window ∧
         (t.bcu.contention d).retry = (s.bcu.contention d).retry ∧
         ∃ n, n ≤ (s.bcu.contention d).window ∧ (t.bcu.contention d).backoff = some n) ∧
       (∀ f rest, c = .control → s.bcu.controlQueue = f :: rest →
         (let sent := if f.kind = .beacon then buildFrame .beacon f.src f.dst (timeBytes s.now ++ f.body.drop 5) else f
          t.bcu.controlQueue = sent :: rest ∧ t.sent = s.sent ++ [.frameOut sent.bytes])) ∧
       (∀ h, c = .game → s.bcu.gameSlot = some h → t.sent = s.sent ++ [.burstGo h]) ∧
       (∀ h, c = .normal → s.bcu.normalSlot = some h → t.sent = s.sent ++ [.burstGo h]) ∧
       (∀ f rest, c = .bulk → s.bcu.bulkQueue = .filled f :: rest → t.sent = s.sent ++ [.frameOut f.bytes]) ∧
       t = { s with bcu := t.bcu, sent := t.sent, draws := t.draws }) ∧
  (∀ s : State, s.Settled → s.run = .running → s.bcu.medium = .idle → s.bcu.inFlight = none →
     ∃ (t : State) (drawn : AccessClass → Nat), exec .idleSlot s = .next t ∧
     (let counts (c : AccessClass) : Bool := s.bcu.hasWork c && !(decide (c = .bulk) && s.bcu.yielding)
      let ends (c : AccessClass) : Bool := counts c && decide ((s.bcu.contention c).deferral ≤ 1)
      let counted (c : AccessClass) : Contention :=
        let k := s.bcu.contention c
        if ends c then
          { k with
            deferral := 0
            backoff := some (match k.backoff with
              | none => drawn c
              | some n => if k.deferral = 0 then n - 1 else n) }
        else if counts c then { k with deferral := k.deferral - 1 }
        else k
      let draws (c : AccessClass) : Bool := ends c && (s.bcu.contention c).backoff.isNone
      let atZero (c : AccessClass) : Bool := ends c && decide ((counted c).backoff = some 0)
      let demotes : Bool := atZero .game && !atZero .control && !s.bcu.demoted && decide (s.bcu.credit = 0)
      let starts (c : AccessClass) : Bool := atZero c && !(decide (c = .game) && demotes)
      (∀ c, drawn c ≤ (s.bcu.contention c).window) ∧
      t.bcu.demoted = (s.bcu.demoted || demotes) ∧
      (demotes = true → t.bcu.gameState.window = 15 ∧ t.bcu.gameState.retry = s.bcu.gameState.retry ∧
        ∃ n, n ≤ 15 ∧ t.bcu.gameState.backoff = some n) ∧
      ((∀ c, starts c = false) →
        t = { s with bcu := t.bcu, draws := t.draws } ∧
        t.bcu = { s.bcu with
          controlState := t.bcu.controlState, gameState := t.bcu.gameState, normalState := t.bcu.normalState
          bulkState := t.bcu.bulkState, demoted := t.bcu.demoted } ∧
        t.draws = s.draws + (classRanks.filter draws).length + (if demotes then 1 else 0) ∧
        (∀ c, ¬(c = .game ∧ demotes = true) → t.bcu.contention c = counted c) ∧
        (demotes = true → t.bcu.gameState.deferral = 0)) ∧
      (∀ c, classRanks.find? starts = some c →
        t.bcu.inFlight = some c ∧ t.bcu.medium = .busy ∧ (t.bcu.contention c).backoff = none ∧
        t.bcu.credit = (if c = .game ∧ s.bcu.demoted = false then s.bcu.credit - 1 else s.bcu.credit) ∧
        (∀ d, (t.bcu.contention d).deferral = (t.bcu.params d).deferral ∧
          (t.bcu.contention d).retry = (s.bcu.contention d).retry) ∧
        (∀ d, ¬(d = .game ∧ demotes = true) → (t.bcu.contention d).window = (s.bcu.contention d).window) ∧
        (∀ d, d ≠ c → atZero d = false → (t.bcu.contention d).backoff = (counted d).backoff) ∧
        (∀ d, d ≠ c → starts d = true →
          ∃ n, n ≤ (s.bcu.contention d).window ∧ (t.bcu.contention d).backoff = some n) ∧
        t.draws = s.draws + (classRanks.filter draws).length + (if demotes then 1 else 0) +
          (classRanks.filter fun d => starts d && decide (d ≠ c)).length ∧
        t.bcu = { s.bcu with
          controlState := t.bcu.controlState, gameState := t.bcu.gameState, normalState := t.bcu.normalState
          bulkState := t.bcu.bulkState, demoted := t.bcu.demoted, credit := t.bcu.credit, medium := t.bcu.medium
          inFlight := t.bcu.inFlight, controlQueue := t.bcu.controlQueue } ∧
        (let sent := (s.bcu.controlQueue.head?).map fun f =>
           if f.kind = .beacon then buildFrame .beacon f.src f.dst (timeBytes s.now ++ f.body.drop 5) else f
         let output : Option Output :=
           match c with
           | .control => sent.map fun f => .frameOut f.bytes
           | .game => s.bcu.gameSlot.map .burstGo
           | .normal => s.bcu.normalSlot.map .burstGo
           | .bulk => (s.bcu.bulkQueue.head?).bind fun p =>
               match p with
               | .filled f => some (.frameOut f.bytes)
               | .reserved _ _ => none
         t.bcu.controlQueue = (if c = .control then sent.toList ++ s.bcu.controlQueue.tail else s.bcu.controlQueue) ∧
         output.isSome = true ∧ t.sent = s.sent ++ output.toList) ∧
        t = { s with bcu := t.bcu, sent := t.sent, draws := t.draws })))

/-- SENT_CLEAN: the item of the class in flight is finished, and the class rests at its CW min, retry count 0 and full
deferral; without a transmission in flight the outcome is ignored. SENT_COLLIDED: up to the retry limit the CW doubles
and the item stays; beyond it an own frame is dropped and counted, and a burst is given up with ACCESS-DROP. That the
full deferral is counted from the next IDLE-SLOT where MEDIUM-IDLE came before the outcome is the model's choice (log
entry 44). From R7, R8, R12, R18. -/
def Obligations.OutcomeEndsAttempt : Prop :=
  (∀ s : State, s.Settled → s.run = .running →
     (s.bcu.inFlight = none → exec .sentClean s = .next s) ∧
     (s.bcu.inFlight = some .control → exec .sentClean s = .next
       { s with bcu := { s.bcu with
           inFlight := none, controlQueue := s.bcu.controlQueue.tail,
           controlState := { window := 3, retry := 0, deferral := 2, backoff := none } } }) ∧
     (s.bcu.inFlight = some .game → exec .sentClean s = .next
       { s with bcu := { s.bcu with
           inFlight := none, gameSlot := none, demoted := false,
           gameState := { window := 3, retry := 0, deferral := 3, backoff := none } } }) ∧
     (s.bcu.inFlight = some .normal → exec .sentClean s = .next
       { s with bcu := { s.bcu with
           inFlight := none, normalSlot := none,
           normalState := { window := 15, retry := 0, deferral := 5, backoff := none } } }) ∧
     (s.bcu.inFlight = some .bulk → exec .sentClean s = .next
       { s with bcu := { s.bcu with
           inFlight := none, bulkQueue := s.bcu.bulkQueue.tail,
           bulkState := { window := 31, retry := 0, deferral := 9, backoff := none } } })) ∧
  (∀ s : State, s.Settled → s.run = .running →
     (s.bcu.inFlight = none → exec .sentCollided s = .next s) ∧
     (∀ c, s.bcu.inFlight = some c → (s.bcu.contention c).retry + 1 ≤ (s.bcu.params c).retryLimit →
       exec .sentCollided s = .next
         { s with bcu := { s.bcu.modContention c fun k =>
             { k with window := min (2 * k.window + 1) (s.bcu.params c).windowMax, retry := k.retry + 1 } with
           inFlight := none } }) ∧
     (s.bcu.inFlight = some .control → 6 < s.bcu.controlState.retry + 1 → exec .sentCollided s = .next
       { s with bcu := { s.bcu with
           inFlight := none, controlQueue := s.bcu.controlQueue.tail, ownDrops := min (s.bcu.ownDrops + 1) 65535,
           controlState := { window := 3, retry := 0, deferral := 2, backoff := none } } }) ∧
     (∀ h, s.bcu.inFlight = some .game → s.bcu.gameSlot = some h →
       (if s.bcu.demoted then 6 else 2) < s.bcu.gameState.retry + 1 → exec .sentCollided s = .next
       { s with
         bcu := { s.bcu with
           inFlight := none, gameSlot := none, demoted := false,
           gameState := { window := 3, retry := 0, deferral := 3, backoff := none } }
         sent := s.sent ++ [.accessDrop h] }) ∧
     (∀ h, s.bcu.inFlight = some .normal → s.bcu.normalSlot = some h → 6 < s.bcu.normalState.retry + 1 →
       exec .sentCollided s = .next
       { s with
         bcu := { s.bcu with
           inFlight := none, normalSlot := none,
           normalState := { window := 15, retry := 0, deferral := 5, backoff := none } }
         sent := s.sent ++ [.accessDrop h] }) ∧
     (s.bcu.inFlight = some .bulk → 4 < s.bcu.bulkState.retry + 1 → exec .sentCollided s = .next
       { s with bcu := { s.bcu with
           inFlight := none, bulkQueue := s.bcu.bulkQueue.tail, ownDrops := min (s.bcu.ownDrops + 1) 65535,
           bulkState := { window := 31, retry := 0, deferral := 9, backoff := none } } }))

/-- AIRTIME and the own load: a value is kept, clamped to 100, and a fifth pushes out the radio's oldest; the own load
is 100 in DRAINING and STAGED, else the largest value kept at most 2048 ticks, or 0 where there is none. From R20. -/
def Obligations.AirtimeFormsOwnLoad : Prop :=
  ∀ s : State, s.Settled →
    (∀ r p kept, s.run = .running → r < s.cfg.radioCount → s.bcu.airtime[r]? = some kept → kept.length ≤ 4 →
      exec (.airtime r p) s = .next
        { s with bcu := { s.bcu with
            airtime := s.bcu.airtime.set r
              ((if kept.length < 4 then kept else kept.tail) ++
                [{ percent := if p ≤ 100 then p else 100, arrival := s.now }]) } }) ∧
    ((s.icu.install = .draining ∨ s.icu.install = .staged) → s.ownLoad = 100) ∧
    (s.icu.install ≠ .draining → s.icu.install ≠ .staged →
      (∀ vs ∈ s.bcu.airtime, ∀ v ∈ vs, s.now - v.arrival ≤ 2048 → v.percent ≤ s.ownLoad) ∧
      (s.ownLoad = 0 ∨ ∃ vs ∈ s.bcu.airtime, ∃ v ∈ vs, s.now - v.arrival ≤ 2048 ∧ v.percent = s.ownLoad))

/-- A body handed to the BCU while running: a frame other than CHUNK joins the tail of the control queue, and the
class has its full deferral again where it gains work by it; at a queue of eight it is dropped and counted; but a
BEACON takes the place of the BEACON nearest the head that is not in flight, where there is one, and the other BEACONs
not in flight go; the frame carries the header and CRC-32 of its body. From R1, R9, R13, R14. -/
def Obligations.ControlQueueTakesFrames : Prop :=
  ∀ (s : State) (kind : FrameKind) (dst : NodeId) (body : List Byte), s.run = .running →
    kind ≠ .chunk →
    (let f := buildFrame kind s.cfg.nodeId dst body
     let queue := s.bcu.controlQueue
     let flying := if s.bcu.inFlight = some .control then queue.take 1 else []
     let rest := if s.bcu.inFlight = some .control then queue.drop 1 else queue
     (f.bytes = headerBytes kind s.cfg.nodeId dst body.length ++ body ++
       le 4 (crc32 (headerBytes kind s.cfg.nodeId dst body.length ++ body))) ∧
     (kind ≠ .beacon ∨ (∀ g ∈ rest, g.kind ≠ .beacon) →
       (queue.length < 8 → s.sendFrame kind dst body =
         { s with bcu := { s.bcu with
             controlQueue := queue ++ [f]
             controlState := if queue = [] then { s.bcu.controlState with deferral := 2 } else s.bcu.controlState } }) ∧
       (8 ≤ queue.length → s.sendFrame kind dst body =
         { s with bcu := { s.bcu with controlDrops := min (s.bcu.controlDrops + 1) 65535 } })) ∧
     (∀ before old after, kind = .beacon → rest = before ++ old :: after → (∀ g ∈ before, g.kind ≠ .beacon) →
       old.kind = .beacon →
       s.sendFrame kind dst body =
         { s with bcu := { s.bcu with
             controlQueue := flying ++ before ++ f :: after.filter fun g => decide (g.kind ≠ .beacon) } }))

/-! ## Received frames and neighbours (chapters 1 and 2) -/

/-- A good frame of any kind that the dispatch rules let in is taken whole by the block that owns its kind, as one
event. `takerOf` names that block's action; the statements below say what each does. Frames that no block sees: one
for another node leaves no trace, and one from a node that is not ACTIVE or FAILING, other than a BEACON, raises the
non-member count and nothing else. A bad frame, whether its bytes hold no frame at all or a frame that fails the form
check, is dropped and counted by the BCU, and counted against the entry of its link source id: an ACTIVE entry whose
count reaches the threshold enters FAILING with PEER-FAILING (BAD-FRAMES). The form of a frame: bytes hold a frame
where the kind code is one of Table 1.1's and the length field fits; its form is good where the check value is the
CRC-32 over header and body, the body length is one allowed for the kind, and the source and destination are ids that
the kind may have. Bytes that hold a frame are taken as that frame's command takes it. That BAD_FRAME_RECEIVED takes
bytes that hold a frame as that frame is inferred (log entry 13). From R3, R4, R5, R6, R31, R167. -/
def Obligations.FramesReachTheirBlock : Prop :=
  (∀ (s : State) (kind : FrameKind) (link : NodeId) (f : RxFrame), s.Dispatches kind f →
     exec (frameCommand kind link f) s = .next (takerOf kind f.src f.body s).finish) ∧
  (∀ (s : State) (kind : FrameKind) (link : NodeId) (f : RxFrame), s.Settled → s.run = .running →
     frameFormOk kind f = true →
     (f.dst ≠ allNodes → f.dst ≠ s.ownId → exec (frameCommand kind link f) s = .next s) ∧
     (f.dst = allNodes ∨ f.dst = s.ownId → kind ≠ .beacon →
       (∀ i e, s.entry i = some e → e.id = f.src → e.link = .heard) →
       exec (frameCommand kind link f) s =
         .next { s with bcu := { s.bcu with nonMember := min (s.bcu.nonMember + 1) 65535 } })) ∧
  (∀ (s : State) (link : NodeId) (c : Instr), s.Settled → s.run = .running →
     ((∃ bytes, c = .badFrameReceived link bytes ∧ parseFrame bytes = none) ∨
       (∃ bytes kind f, c = .badFrameReceived link bytes ∧ parseFrame bytes = some (kind, f) ∧
         frameFormOk kind f = false) ∨
       (∃ kind f, c = frameCommand kind link f ∧ frameFormOk kind f = false)) →
     (let counted : State := { s with bcu := { s.bcu with badFrames := min (s.bcu.badFrames + 1) 65535 } }
      (s.findEntry link = none → exec c s = .next counted) ∧
      (∀ i e, s.findEntry link = some i → s.entry i = some e →
        (let n := min (e.badFrames + 1) 255
         (e.link ≠ .active ∨ n < 4 * 2 ^ s.cfg.errorCode →
           exec c s = .next (counted.modEntry i fun e => { e with badFrames := n })) ∧
         (e.link = .active → 4 * 2 ^ s.cfg.errorCode ≤ n →
           exec c s = .next ((counted.modEntry i fun e =>
             { e with badFrames := n, link := .failing, goodRun := 0 }).queueEvent .peerFailing
               (nodeSubject e.id) 2).driveLines))))) ∧
  ((∀ (s : State) (link : NodeId) (bytes : List Byte) (kind : FrameKind) (f : RxFrame),
     parseFrame bytes = some (kind, f) → exec (.badFrameReceived link bytes) s = exec (frameCommand kind link f) s) ∧
   (∀ (bytes : List Byte) (kind : FrameKind) (f : RxFrame),
     parseFrame bytes = some (kind, f) ↔
       (let length := fieldAt bytes 5 2
        bytes.length = length + 11 ∧ byteAt bytes 0 = frameKindCode kind ∧ f.src = nodeAt bytes 1 ∧ f.dst = nodeAt bytes 3 ∧
        f.body = (bytes.drop 7).take length ∧ f.check = checkAt bytes (7 + length))) ∧
   (∀ (kind : FrameKind) (f : RxFrame),
     (let code : Nat :=
        match kind with
        | .beacon => 1 | .sightings => 2 | .claim => 3 | .grant => 4 | .refuse => 5 | .cancel => 6 | .served => 7
        | .policyList => 8 | .policyGet => 9 | .policyRecord => 10 | .headGet => 11 | .head => 12 | .fetch => 13
        | .chunk => 14
      let count := byteAt f.body 0
      let allowed : Prop :=
        match kind with
        | .beacon => f.body.length = 22
        | .sightings => 1 ≤ count ∧ count ≤ 24 ∧ f.body.length = 1 + 13 * count
        | .claim => f.body.length = 9
        | .grant => f.body.length = 19
        | .refuse => f.body.length = 8
        | .cancel => f.body.length = 7
        | .served => f.body.length = 13
        | .policyList => f.body.length = 388
        | .policyGet => count ≤ 97 ∧ f.body.length = 1 + count
        | .policyRecord => 1 ≤ count ∧ count ≤ 8 ∧ f.body.length = 1 + 18 * count
        | .headGet => f.body.length = 0
        | .head => f.body.length = 47
        | .fetch => f.body.length = 9
        | .chunk => f.body.length = 4105
      frameKindCode kind = code ∧
      (frameFormOk kind f = true ↔
        f.check = crc32 (be 1 code ++ be 2 f.src.toNat ++ be 2 f.dst.toNat ++ be 2 f.body.length ++ f.body) ∧ allowed ∧
        f.src ≠ 0x0000#16 ∧ f.src ≠ 0xFFFF#16 ∧
        (if kind = .beacon ∨ kind = .sightings ∨ kind = .served then f.dst = 0xFFFF#16
          else f.dst ≠ 0x0000#16 ∧ f.dst ≠ 0xFFFF#16)))))

/-- A beacon taken for an entry: the advertised values replace the entry's, the deadline is renewed from the mesh time
after the merge, the sixteenth beacon clears the bad-frame count, and the entry's link state moves as its state says.
However far the beacon steps mesh time, its own entry takes no miss; what else of the entry another deadline in the
step may change is the fail count, by a fetch from this peer or the halving, and the answered flag, by an own build. A
beacon whose step of mesh time passes the beacon-due deadline of another entry: that entry takes one miss for each
interval the step crosses. A HEARD entry, and a FAILING one at its sixth miss, with PEER-LOST, is gone; an ACTIVE one
at its second miss is FAILING, with PEER-FAILING. That a beacon's step does not expire the deadline of its own entry
is inferred (log entry 40); the order of the events that the step's expiries queue is the model's choice (log entry
41). From R26, R27, R28, R29, R30, R41, R44. -/
def Obligations.BeaconMovesLinkState : Prop :=
  (∀ (s : State) (link : NodeId) (f : RxFrame) (adv : Advertised) (i : Nat) (e : Entry), s.Settled →
     s.Dispatches .beacon f → f.src ≠ s.ownId → parseAdvertised f.body = some adv →
     s.findEntry f.src = some i → s.entry i = some e → e.sinceWindow ≤ 15 →
     ∃ t e', exec (.beacon link f) s = .next t ∧ t.entry i = some e' ∧
       e'.id = e.id ∧ e'.adv = adv ∧
       (s.mtb.synced = false ∨ (¬Crossed s.now t.now s.ims.halvingDeadline ∧
         ∀ k x, slotAt s.ims.fetches k = some x → x.peer = f.src → ¬Crossed s.now t.now x.deadline.expiry) →
         e'.fetchFails = e.fetchFails) ∧
       (s.mtb.synced = false ∨ ¬Crossed s.now t.now s.nbt.buildDeadline → e'.answered = e.answered) ∧
       e'.dueDeadline = t.now + 256 * 2 ^ s.cfg.beaconCode + 64 ∧
       (let bad := if e.sinceWindow = 15 then 0 else e.badFrames
        let since := if e.sinceWindow = 15 then 0 else e.sinceWindow + 1
        let bound := 4 * 2 ^ s.cfg.errorCode
        (e.link = .heard → bound ≤ bad → e'.link = .heard ∧ e'.joinCount = e.joinCount ∧ e'.badFrames = bad) ∧
        (e.link = .heard → bad < bound → e.joinCount + 1 < 3 →
          e'.link = .heard ∧ e'.joinCount = e.joinCount + 1 ∧ e'.badFrames = bad) ∧
        (e.link = .heard → bad < bound → 3 ≤ e.joinCount + 1 →
          e'.link = .active ∧ e'.joinCount = 3 ∧ e'.missCount = 0 ∧ e'.badFrames = bad) ∧
        (e.link = .active → e'.link = .active ∧ e'.missCount = 0 ∧ e'.goodRun = e.goodRun ∧ e'.badFrames = bad) ∧
        (e.link = .failing → bound ≤ bad →
          e'.link = .failing ∧ e'.goodRun = 0 ∧ e'.missCount = e.missCount ∧ e'.badFrames = bad) ∧
        (e.link = .failing → bad < bound → e.goodRun + 1 < 2 →
          e'.link = .failing ∧ e'.goodRun = e.goodRun + 1 ∧ e'.missCount = e.missCount ∧ e'.badFrames = bad) ∧
        (e.link = .failing → bad < bound → 2 ≤ e.goodRun + 1 →
          e'.link = .active ∧ e'.missCount = 0 ∧ e'.badFrames = 0 ∧ e'.goodRun = 0 ∧ e'.sinceWindow = 0) ∧
        (e'.link = .heard ∨ e.link ≠ .failing ∨ e'.link = .failing → e'.sinceWindow = since))) ∧
  (∀ (s : State) (link : NodeId) (f : RxFrame) (adv : Advertised) (i j : Nat) (e : Entry), s.Settled → s.Sound → s.wallNotices = [] →
     s.Dispatches .beacon f → f.src ≠ s.ownId → parseAdvertised f.body = some adv → s.mtb.synced = true →
     s.findEntry f.src = some i → s.entry j = some e → j ≠ i →
     (let now := min (s.now + min (fieldAt f.body 0 5 + 1 - s.now) 1024) (2 ^ 40 - 1)
      let interval := 256 * 2 ^ s.cfg.beaconCode
      let crossings := (now - e.dueDeadline) / interval + 1
      let misses := e.missCount + crossings
      let alone : Prop := ∀ k x, k ≠ i → k ≠ j → s.entry k = some x → ¬Crossed s.now now (some x.dueDeadline)
      s.now < e.dueDeadline → e.dueDeadline ≤ now →
      ∃ t, exec (.beacon link f) s = .next t ∧ t.now = now ∧
        (e.link = .heard ∨ (e.link = .failing ∧ 6 ≤ misses) → t.entry j = none) ∧
        (e.link = .failing → 6 ≤ misses → alone → s.evq.events.length < 31 →
          { kind := .peerLost, time := now % 2 ^ 32, subject := nodeSubject e.id, detail := 0 } ∈ t.evq.events) ∧
        (e.link = .active ∨ (e.link = .failing ∧ misses < 6) → ∃ e', t.entry j = some e' ∧
          e' = { e with
            link := e'.link, missCount := misses, goodRun := e'.goodRun, dueDeadline := e.dueDeadline + crossings * interval
            fetchFails := e'.fetchFails, listGuard := e'.listGuard, answered := e'.answered } ∧
          (e.link = .active → misses < 2 → e'.link = .active ∧ e'.goodRun = e.goodRun) ∧
          (e.link = .failing ∨ 2 ≤ misses → e'.link = .failing ∧ e'.goodRun = 0)) ∧
        (e.link = .active → 2 ≤ misses → alone → s.evq.events.length < 31 →
          { kind := .peerFailing, time := now % 2 ^ 32, subject := nodeSubject e.id, detail := 1 } ∈ t.evq.events)))

/-- A beacon from a node without an entry: the lowest free slot takes a HEARD entry at join count 1; at a full table
it is counted and has no other effect; with the node's own id it raises ID-CLASH, at most once in 65536 ticks; from a
node without an entry, one with a state code outside its codes leaves no trace. A malformed BEACON whose source holds
an entry is counted against that entry as a bad frame, by its source id and whatever its link: an ACTIVE entry whose
count reaches the threshold enters FAILING with PEER-FAILING (BAD-FRAMES). No advertised value, deadline or miss count
changes, mesh time stays, and the BCU counts no bad frame. From R22, R23, R24, R25, R26, R31. -/
def Obligations.BeaconWithoutEntry : Prop :=
  (∀ (s : State) (link : NodeId) (f : RxFrame), s.Settled → s.Dispatches .beacon f →
     (∀ adv i, f.src ≠ s.ownId → parseAdvertised f.body = some adv → s.findEntry f.src = none →
       firstFree s.nbt.entries = some i →
       ∃ t n, exec (.beacon link f) s = .next t ∧ t.entry i = some
         { id := f.src, link := .heard, joinCount := 1, missCount := 0, badFrames := 0, goodRun := 0,
           dueDeadline := t.now + 256 * 2 ^ s.cfg.beaconCode + 64, sinceWindow := 1, adv := adv, fetchFails := n,
           listGuard := none, answered := false } ∧
         ((∀ k x, slotAt s.ims.fetches k = some x → x.peer ≠ f.src) → n = 0)) ∧
     (∀ adv, f.src ≠ s.ownId → parseAdvertised f.body = some adv → s.findEntry f.src = none →
       firstFree s.nbt.entries = none →
       exec (.beacon link f) s = .next { s with nbt := { s.nbt with tableFull := min (s.nbt.tableFull + 1) 65535 } }) ∧
     (f.src = s.ownId → s.nbt.clashHoldoff.isSome → exec (.beacon link f) s = .next s) ∧
     (f.src = s.ownId → s.nbt.clashHoldoff = none → exec (.beacon link f) s = .next
       (State.queueEvent { s with nbt := { s.nbt with clashHoldoff := some (s.now + 65536) } } .idClash
         (nodeSubject s.ownId) 0).driveLines) ∧
     (f.src ≠ s.ownId → parseAdvertised f.body = none → s.findEntry f.src = none →
       exec (.beacon link f) s = .next s)) ∧
  (∀ (s : State) (link : NodeId) (f : RxFrame) (i : Nat) (e : Entry), s.Settled → s.Dispatches .beacon f →
     f.src ≠ s.ownId → parseAdvertised f.body = none → s.findEntry f.src = some i → s.entry i = some e →
     (let n := min (e.badFrames + 1) 255
      (e.link ≠ .active ∨ n < 4 * 2 ^ s.cfg.errorCode →
        exec (.beacon link f) s = .next (s.modEntry i fun e => { e with badFrames := n })) ∧
      (e.link = .active → 4 * 2 ^ s.cfg.errorCode ≤ n →
        exec (.beacon link f) s = .next ((s.modEntry i fun e =>
          { e with badFrames := n, link := .failing, goodRun := 0 }).queueEvent .peerFailing
            (nodeSubject e.id) 2).driveLines)))

/-- A beacon's time at a synced node: mesh time rises to the peer's time plus one, by at most 1024 ticks, and never
past 2^40 − 1; a rise of more than 64 ticks queues TIME-STEP with its size in units of 8 ticks. The first adoption:
mesh time becomes the larger of the node's own and the peer's plus one, the node is synced, TIME-STEP (ADOPTED) is
queued at the new mesh time, and every deadline and arrival time keeps its distance from the present, so that none
expires; a held fetch deadline keeps its remaining time; events already queued, the fault record and the policy slots
stay as they are. A beacon taken for an entry, which holds its values from then on, merges its time before it does
anything else, and takes the expiries of its step before it renews the entry: the renewal leaves mesh time, the wall
notices and every deadline as the step left them, but for those of the beacon's own entry, a fetch slot that was free,
and an install conflict. The expiries of a beacon's step at a synced node: every deadline above the mesh time before
the step and not above the one after it has been taken, but the beacon-due deadline of the beacon's own entry; where
none lies there the step moves mesh time and nothing more. The game credit is refilled once for each 64 ticks crossed.
That the merge takes a waiting wall-state notice first is inferred (log entry 46). The detail of a step cut short at
2^40 − 1 is the model's choice (log entry 31); that the step does not expire the due deadline of the beacon's own
entry is inferred (log entry 40), and the order of its expiries is the model's choice (log entry 41). From R17, R26,
R40, R41, R42, R44. -/
def Obligations.BeaconMovesMeshTime : Prop :=
  (∀ (s : State) (src : NodeId) (peer : Nat), s.mtb.synced = true → s.now ≤ 2 ^ 40 - 1 → s.wallNotices = [] →
     (let d := peer + 1 - s.now
      let t := s.mergeTime src peer
      t.mtb.synced = true ∧ t.now = min (s.now + min d 1024) (2 ^ 40 - 1) ∧ s.now ≤ t.now ∧ t.now ≤ s.now + 1024 ∧
      (d ≤ 64 → t.evq = s.evq) ∧
      (65 ≤ d → s.evq.events.length < 32 →
        t.evq.events = s.evq.events ++
          [{ kind := .timeStep, time := t.now % 2 ^ 32, subject := nodeSubject src, detail := min d 1024 / 8 }]) ∧
      t = { s with mtb := t.mtb, evq := t.evq, wallNotices := t.wallNotices })) ∧
  (∀ (s : State) (src : NodeId) (peer : Nat), s.mtb.synced = false → s.now ≤ 2 ^ 40 - 1 → s.wallNotices = [] →
     (let t := s.mergeTime src peer
      let n := t.now - s.now
      let on (d : Option Nat) : Option Nat := d.map (· + n)
      t.mtb.synced = true ∧ t.now = min (max s.now (peer + 1)) (2 ^ 40 - 1) ∧
      (s.evq.events.length < 32 → t.evq = { s.evq with events := s.evq.events ++
        [{ kind := .timeStep, time := t.now % 2 ^ 32, subject := nodeSubject src, detail := 0 }] }) ∧
      (32 ≤ s.evq.events.length → t.evq = { s.evq with drops := min (s.evq.drops + 1) 255 }) ∧
      (∀ i, t.entry i = (s.entry i).map fun e => { e with dueDeadline := e.dueDeadline + n, listGuard := on e.listGuard }) ∧
      (∀ i, t.record i = (s.record i).map fun r =>
        { r with
          admitPending := on r.admitPending, sightTime := on r.sightTime, claimHoldoff := on r.claimHoldoff,
          release := r.release.map fun c => { c with deadline := c.deadline + n }
          reports := r.reports.map fun p => { p with time := p.time + n }
          lastActivity := r.lastActivity + n, remoteDeadline := on r.remoteDeadline,
          removalDeadline := on r.removalDeadline }) ∧
      (∀ k, t.claimAt k = (s.claimAt k).map fun c => { c with deadline := c.deadline + n }) ∧
      (∀ k, slotAt t.ims.fetches k = (slotAt s.ims.fetches k).map fun x =>
        { x with deadline :=
            match x.deadline with
            | .running d => .running (d + n)
            | .held r => .held r }) ∧
      (t.pst.persist =
        match s.pst.persist with
        | .scheduled d => .scheduled (d + n)
        | .clean => .clean
        | .waiting => .waiting
        | .writing => .writing) ∧
      t = { s with
        mtb := t.mtb
        evq := t.evq
        wallNotices := t.wallNotices
        bcu := { s.bcu with
          refillDeadline := on s.bcu.refillDeadline
          airtime := s.bcu.airtime.map fun vs => vs.map fun v => { v with arrival := v.arrival + n } }
        nbt := { s.nbt with
          entries := t.nbt.entries, clashHoldoff := on s.nbt.clashHoldoff, buildDeadline := on s.nbt.buildDeadline }
        crg := { s.crg with records := t.crg.records, sightingsDeadline := on s.crg.sightingsDeadline }
        rse := { evaluationDeadline := on s.rse.evaluationDeadline }
        hoc := { s.hoc with contexts := t.hoc.contexts }
        pst := { s.pst with persist := t.pst.persist }
        ims := { s.ims with
          fetches := t.ims.fetches, patrolDeadline := on s.ims.patrolDeadline
          halvingDeadline := on s.ims.halvingDeadline }
        icu := { s.icu with
          retryHoldoff := on s.icu.retryHoldoff, drainDeadline := on s.icu.drainDeadline
          rewriteDeadline := on s.icu.rewriteDeadline }
        flp := { s.flp with operation := s.flp.operation.map fun o => { o with deadline := o.deadline + n } } })) ∧
  (∀ (s : State) (link : NodeId) (f : RxFrame) (adv : Advertised) (i : Nat), s.Settled → s.Dispatches .beacon f →
     f.src ≠ s.ownId → parseAdvertised f.body = some adv →
     (let told : State := { s with nbt := { s.nbt with
        entries :=
          if s.findEntry f.src = some i then s.nbt.entries.modify i (Option.map fun e => { e with adv := adv })
          else s.nbt.entries.set i (some (newEntry f.src adv)) } }
      let m := told.mergeTime f.src (fieldAt f.body 0 5)
      let x := told.stepTime i f.src (fieldAt f.body 0 5)
      s.findEntry f.src = some i ∨ (s.findEntry f.src = none ∧ firstFree s.nbt.entries = some i) →
      (s.mtb.synced = false → x = m) ∧ x.mtb = m.mtb ∧ x.wallNotices = m.wallNotices ∧
      m.evq.events <+: x.evq.events ∧
      ∃ t, exec (.beacon link f) s = .next t ∧ t.mtb = x.mtb ∧ t.wallNotices = x.wallNotices ∧
        x.evq.events <+: t.evq.events ∧ t.rse = x.rse ∧ t.hoc = x.hoc ∧ t.pst = x.pst ∧ t.flp = x.flp ∧ t.frc = x.frc ∧
        t.bcu.credit = x.bcu.credit ∧ t.bcu.refillDeadline = x.bcu.refillDeadline ∧ t.bcu.airtime = x.bcu.airtime ∧
        t.nbt.buildDeadline = x.nbt.buildDeadline ∧ t.nbt.clashHoldoff = x.nbt.clashHoldoff ∧
        (∀ j, j ≠ i → t.entry j = x.entry j) ∧ t.crg.sightingsDeadline = x.crg.sightingsDeadline ∧
        t.ims.halvingDeadline = x.ims.halvingDeadline ∧ t.ims.patrolDeadline = x.ims.patrolDeadline ∧
        (∀ k y, slotAt x.ims.fetches k = some y → slotAt t.ims.fetches k = some y) ∧
        (x.icu.install ≠ .intent → t.icu = x.icu) ∧ (s.mtb.synced = false → t.crg = m.crg))) ∧
  (∀ (s : State) (i : Nat) (src : NodeId) (time : Nat), s.Sound → s.run = .running → s.mtb.synced = true →
     (let m := s.mergeTime src time
      let x := s.stepTime i src time
      x.CrossesNothing s.now m.now i ∧ (m.CrossesNothing s.now m.now i → x = m) ∧
      (∀ d, s.bcu.refillDeadline = some d → Crossed s.now m.now (some d) →
        (let refills := (m.now - d) / 64 + 1
         let capacity := 64 * 2 ^ s.cfg.creditCode
         x.bcu.credit = min (s.bcu.credit + refills * (capacity / 16)) capacity ∧
         x.bcu.refillDeadline = some (d + 64 * refills)))))

/-- BEACON_DUE_EXPIRY, when due: a HEARD entry goes; an ACTIVE or FAILING one counts a miss and its deadline moves one
interval on from its own value; the second miss makes an ACTIVE entry FAILING with PEER-FAILING (MISSES). A FAILING
entry's sixth miss removes it, with PEER-LOST, and from then on nothing in the part names the peer: no entry, no
record REMOTE of it, no report from it, no claimant or release context with it, no fetch slot asking it. From R30,
R32, R94. -/
def Obligations.BeaconDueCountsMisses : Prop :=
  (∀ (s : State) (i : Nat) (e : Entry), s.Settled → s.entry i = some e → e.dueDeadline ≤ s.now →
     (let missed : Entry :=
        { e with missCount := e.missCount + 1, dueDeadline := e.dueDeadline + 256 * 2 ^ s.cfg.beaconCode }
      (e.link = .heard →
        exec (.beaconDueExpiry i) s = .next { s with nbt := { s.nbt with entries := s.nbt.entries.set i none } }) ∧
      (e.link = .active → e.missCount + 1 < 2 → exec (.beaconDueExpiry i) s = .next (s.modEntry i fun _ => missed)) ∧
      (e.link = .active → 2 ≤ e.missCount + 1 → exec (.beaconDueExpiry i) s = .next
        ((s.modEntry i fun _ => { missed with link := .failing, goodRun := 0 }).queueEvent .peerFailing
          (nodeSubject e.id) 1).driveLines) ∧
      (e.link = .failing → e.missCount + 1 < 6 →
        exec (.beaconDueExpiry i) s = .next (s.modEntry i fun _ => { missed with goodRun := 0 })))) ∧
  (∀ (s : State) (i : Nat) (e : Entry), s.Sound → s.entry i = some e → e.dueDeadline ≤ s.now → e.link = .failing →
     e.missCount = 5 →
     ∃ t, exec (.beaconDueExpiry i) s = .next t ∧ t.entry i = none ∧ t.findEntry e.id = none ∧
       (s.evq.events.length < 32 →
         { kind := .peerLost, time := s.now % 2 ^ 32, subject := nodeSubject e.id, detail := 0 } ∈ t.evq.events) ∧
       (∀ j r, t.record j = some r → r.serving ≠ .remote e.id ∧ (∀ p ∈ r.reports, p.peer ≠ e.id) ∧
         ∀ c, r.release = some c → c.claimant ≠ e.id) ∧
       (∀ k c, t.claimAt k = some c → c.server ≠ e.id) ∧
       (∀ k f, slotAt t.ims.fetches k = some f → f.peer ≠ e.id) ∧
       (∀ j, (t.record j).map ClientRecord.isServed = (s.record j).map ClientRecord.isServed))

/-- BEACON_BUILD_EXPIRY, when due, at a node whose ICU has nothing to do: one BEACON with the advertised state and a
zero time goes to the control queue, every answered flag is cleared, and the next build comes an interval and 0..63
ticks later. BEACON_BUILD_EXPIRY, when due, at any node: the ICU makes its check first, and the BEACON then carries
what the check left. What a beacon carries of the image: id and version 0 while the image state is EMPTY, else the
current head's; its segment flags are clear unless the image state is FETCHING or COMPLETE. The jitter is a free value
within its range (log entry 1). From R36, R37, R150. -/
def Obligations.BeaconBuild : Prop :=
  (∀ (s : State) (d : Nat), s.Settled → s.run = .running → s.nbt.buildDeadline = some d → d ≤ s.now →
     s.icu.install = .idle → s.intentConditions = false →
     (let beacon := buildFrame .beacon s.cfg.nodeId 0xFFFF#16 (beaconBytes 0
        { load := s.ownLoad, gameActive := decide (0 < s.gtm.servedGame), drainIntent := false,
          clockValid := s.wallMinute.isSome, install := .idle, image := s.ims.image,
          imageId := s.advertisedImage.1, imageVersion := s.advertisedImage.2, segments := s.ims.segmentMask,
          digest := s.pst.digest, servedCount := s.servedCount })
      exec .beaconBuildExpiry s = .next
        { s with
          bcu := s.bcu.placeControl beacon
          nbt := { s.nbt with
            entries := s.nbt.entries.map (Option.map fun e => { e with answered := false })
            buildDeadline := some (s.now + 256 * 2 ^ s.cfg.beaconCode + Config.draw s.draws % 64) }
          draws := s.draws + 1 })) ∧
  (∀ (s : State) (d : Nat), s.Settled → s.run = .running → s.nbt.buildDeadline = some d → d ≤ s.now →
     (let u := s.icuAtBuild
      let beacon := buildFrame .beacon s.cfg.nodeId 0xFFFF#16 (beaconBytes 0
        { load := u.ownLoad, gameActive := decide (0 < s.gtm.servedGame), drainIntent := decide (u.icu.install = .intent),
          clockValid := s.wallMinute.isSome, install := u.icu.install, image := s.ims.image,
          imageId := s.advertisedImage.1, imageVersion := s.advertisedImage.2, segments := s.ims.segmentMask,
          digest := s.pst.digest, servedCount := s.servedCount })
      exec .beaconBuildExpiry s = .next (State.driveLines
        { u with
          bcu := u.bcu.placeControl beacon
          nbt := { s.nbt with
            entries := s.nbt.entries.map (Option.map fun e => { e with answered := false })
            buildDeadline := some (s.now + 256 * 2 ^ s.cfg.beaconCode + Config.draw s.draws % 64) }
          draws := s.draws + 1 }))) ∧
  (∀ s : State,
     (s.ims.image = .empty → s.advertisedImage = (0, 0)) ∧
     (∀ h, s.ims.image ≠ .empty → s.ims.head = some h → s.advertisedImage = (h.imageId, h.version)) ∧
     (s.ims.image ≠ .fetching → s.ims.image ≠ .complete → s.ims.segmentMask = 0#32) ∧
     (∀ h g, s.ims.head = some h → s.ims.image = .fetching ∨ s.ims.image = .complete → g < 32 →
       (s.ims.segmentMask.getLsbD g = true ↔
         256 * g < h.chunkCount ∧ (s.ims.segmentCounts[g]?).getD 0 = min 256 (h.chunkCount - 256 * g))))

/-- The expiries of the hold-offs, guards and reservations, when due: each marks its own deadline lapsed and does
nothing else. A deadline that is not held, or that mesh time has not reached, does not expire: its command changes
nothing. That an expiry is taken at its own command is inferred (log entry 7). From R23, R35, R43, R57, R84, R152. -/
def Obligations.ExpiriesAtTheirTime : Prop :=
  (∀ (s : State) (i d : Nat), s.Settled → d ≤ s.now →
     (s.nbt.clashHoldoff = some d →
       exec .clashHoldoffExpiry s = .next { s with nbt := { s.nbt with clashHoldoff := none } }) ∧
     (∀ e, s.entry i = some e → e.listGuard = some d →
       exec (.policyListGuardExpiry i) s = .next (s.modEntry i fun e => { e with listGuard := none })) ∧
     (∀ r, s.record i = some r → r.admitPending = some d →
       exec (.admitPendingExpiry i) s = .next (s.modRecord i fun r => { r with admitPending := none })) ∧
     (∀ r, s.record i = some r → r.claimHoldoff = some d →
       exec (.claimHoldoffExpiry i) s = .next (s.modRecord i fun r => { r with claimHoldoff := none })) ∧
     (s.icu.retryHoldoff = some d →
       exec .retryHoldoffExpiry s = .next { s with icu := { s.icu with retryHoldoff := none } })) ∧
  (∀ (s : State) (i : Nat) (ahead : Option Nat → Prop), (∀ d, ahead d ↔ ∀ v, d = some v → s.now < v) →
     (ahead s.bcu.refillDeadline → exec .creditRefillExpiry s = .next s) ∧
     (ahead ((s.entry i).map Entry.dueDeadline) → exec (.beaconDueExpiry i) s = .next s) ∧
     (ahead s.nbt.buildDeadline → exec .beaconBuildExpiry s = .next s) ∧
     (ahead s.nbt.clashHoldoff → exec .clashHoldoffExpiry s = .next s) ∧
     (ahead ((s.entry i).bind Entry.listGuard) → exec (.policyListGuardExpiry i) s = .next s) ∧
     (ahead ((s.record i).bind ClientRecord.admitPending) → exec (.admitPendingExpiry i) s = .next s) ∧
     (ahead ((s.record i).bind ClientRecord.remoteDeadline) → exec (.remoteDeadlineExpiry i) s = .next s) ∧
     (ahead ((s.record i).bind ClientRecord.removalDeadline) → exec (.removalDeadlineExpiry i) s = .next s) ∧
     (ahead s.crg.sightingsDeadline → exec .sightingsBuildExpiry s = .next s) ∧
     (ahead s.rse.evaluationDeadline → exec .evaluationExpiry s = .next s) ∧
     (ahead ((s.record i).bind ClientRecord.claimHoldoff) → exec (.claimHoldoffExpiry i) s = .next s) ∧
     (ahead ((s.claimAt i).map ClaimContext.deadline) → exec (.claimantContextExpiry i) s = .next s) ∧
     (ahead (((s.record i).bind ClientRecord.release).map ReleaseContext.deadline) →
       exec (.releaseDeadlineExpiry i) s = .next s) ∧
     (ahead s.pst.persist.deadline → exec .persistDeadlineExpiry s = .next s) ∧
     (ahead ((slotAt s.ims.fetches i).bind fun f => f.deadline.expiry) → exec (.fetchDeadlineExpiry i) s = .next s) ∧
     (ahead s.ims.halvingDeadline → exec .halvingDeadlineExpiry s = .next s) ∧
     (ahead s.ims.patrolDeadline → exec .patrolDeadlineExpiry s = .next s) ∧
     (ahead s.icu.retryHoldoff → exec .retryHoldoffExpiry s = .next s) ∧
     (ahead s.icu.drainDeadline → exec .drainDeadlineExpiry s = .next s) ∧
     (ahead s.icu.rewriteDeadline → exec .rewriteDeadlineExpiry s = .next s) ∧
     (ahead (s.flp.operation.map FlashOperation.deadline) → exec .flashOperationDeadline s = .next s))

/-! ## Client register and radio links (chapter 4) -/

/-- ADMIT_QUERY, by the first case that applies: ALLOW for a SERVED record; REFUSE while the node drains or is staged;
ALLOW for a reservation that stands, its deadline untouched; ALLOW with a reservation of 2048 ticks for a REMOTE or
UNSEEN record, and for a new one where a record can be had; else REFUSE. From R55, R56, R57. -/
def Obligations.AdmitQueryAnswers : Prop :=
  ∀ (s : State) (radio : Nat) (a : ClientAddr), s.Settled → s.run = .running → radio < s.cfg.radioCount → a ≠ 0#48 →
    (let answer (t : State) (allow : Bool) : State := { t with sent := t.sent ++ [.admitAnswer radio a allow] }
     let renewed (r : ClientRecord) : ClientRecord :=
       { r with
         lastActivity := s.now
         removalDeadline := if r.serving = .unseen then some (s.now + 65536) else r.removalDeadline }
     let emptying := s.icu.install = .draining ∨ s.icu.install = .staged
     (∀ i r, s.findRecord a = some i → s.record i = some r →
       ((∃ q, r.serving = .served q) →
         exec (.admitQuery radio a) s = .next (answer (s.modRecord i fun r => { r with lastActivity := s.now }) true)) ∧
       ((∀ q, r.serving ≠ .served q) → emptying →
         exec (.admitQuery radio a) s = .next (answer (s.modRecord i renewed) false)) ∧
       ((∀ q, r.serving ≠ .served q) → ¬emptying → r.admitPending.isSome →
         exec (.admitQuery radio a) s = .next (answer (s.modRecord i renewed) true)) ∧
       ((∀ q, r.serving ≠ .served q) → ¬emptying → r.admitPending = none →
         exec (.admitQuery radio a) s = .next
           (answer (s.modRecord i fun r => { renewed r with admitPending := some (s.now + 2048) }) true))) ∧
     (s.findRecord a = none → emptying → exec (.admitQuery radio a) s = .next (answer s false)) ∧
     (s.findRecord a = none → ¬emptying → s.obtainForAdmission = none →
       exec (.admitQuery radio a) s = .next (answer s false)) ∧
     (∀ i, s.findRecord a = none → ¬emptying → s.obtainForAdmission = some i →
       exec (.admitQuery radio a) s = .next (answer
         { s with crg := { s.crg with
             records := s.crg.records.set i (some { s.newRecord a with admitPending := some (s.now + 2048) }) } }
         true)))

/-- The record obtained for a new client is the lowest-numbered free one; where none is free, of the UNSEEN records
that are neither reserved nor hold a context the one longest without activity; and, for an admission that finds no
such record, of the like REMOTE ones the one with the weakest local S, an absent one weaker than any, then the one
longest without activity; ties go to the lowest number. None can be had exactly where there is none of these. A new
record holds the values at creation. From R54, R58. -/
def Obligations.RecordsAreObtainedInOrder : Prop :=
  ∀ (s : State), s.crg.records.length = 64 →
    (let evictable (r : ClientRecord) : Prop :=
       r.admitPending = none ∧ r.release = none ∧ s.findClaim r.addr = none
     let full : Prop := ∀ j, j < 64 → (s.record j).isSome
     let unseen (j : Nat) (r : ClientRecord) : Prop := s.record j = some r ∧ r.serving = .unseen ∧ evictable r
     let remote (j : Nat) (r : ClientRecord) : Prop :=
       s.record j = some r ∧ (∃ p, r.serving = .remote p) ∧ evictable r
     let weaker (r x : ClientRecord) : Prop :=
       match r.localLevel, x.localLevel with
       | none, some _ => True
       | some a, some b => a < b
       | _, none => False
     let older (i : Nat) (r : ClientRecord) (j : Nat) (x : ClientRecord) : Prop :=
       r.lastActivity < x.lastActivity ∨ (r.lastActivity = x.lastActivity ∧ i < j)
     let lowestFree (i : Nat) : Prop := i < 64 ∧ s.record i = none ∧ ∀ j, j < i → (s.record j).isSome
     let oldestUnseen (i : Nat) : Prop := ∃ r, unseen i r ∧ ∀ j x, unseen j x → j ≠ i → older i r j x
     let weakestRemote (i : Nat) : Prop := ∃ r, remote i r ∧ ∀ j x, remote j x → j ≠ i →
       weaker r x ∨ (r.localLevel = x.localLevel ∧ older i r j x)
     (∀ i, s.obtainForSighting = some i ↔ lowestFree i ∨ (full ∧ oldestUnseen i)) ∧
     (s.obtainForSighting = none ↔ full ∧ ∀ j x, ¬unseen j x) ∧
     (∀ i, s.obtainForAdmission = some i ↔
       lowestFree i ∨ (full ∧ oldestUnseen i) ∨ (full ∧ (∀ j x, ¬unseen j x) ∧ weakestRemote i)) ∧
     (s.obtainForAdmission = none ↔ full ∧ (∀ j x, ¬unseen j x) ∧ ∀ j x, ¬remote j x) ∧
     (∀ a, ∃ d, s.newRecord a =
       { addr := a, serving := .unseen, admitPending := none, localLevel := none, sightTime := none, reports := [],
         epoch := 0, confirm := 0, claimHoldoff := none, release := none,
         group := ((s.effectiveDevice a).map DeviceRecord.group).getD 0,
         cls := ((s.effectiveDevice a).map DeviceRecord.cls).getD .auto, evidence := 0, gameActive := false,
         effective := .open, lastActivity := s.now, remoteDeadline := none, removalDeadline := some d,
         carriedPause := none, directed := .normal, enforced := .open, pendingControl := none,
         pendingEnforcement := none, pendingPriority := none } ∧ d = s.now + 65536))

/-- ASSOC of a client that is REMOTE or UNSEEN here, or whose record is made for it: the record is SERVED on the
radio, its epoch one higher, with no reservation and no served report; the SERVED notice goes out; a claimant context
for the client is closed with its own event, and else CLIENT-JOINED is queued. No other record changes. In CONFIG-HALT
the record and the event are the same, and no frame, directive or answer goes out. What an arrival issues while
running, for the radio that takes the client up. The SEU forms the effective state from OPEN, by the held wall state,
the pause and the group's state, and issues the directive of Table 8.2; the GTM directs GAME exactly for a game-active
client held OPEN, with a PRIORITY (NORMAL) mirror where a moved record held GAME; a moved record with a release
context has its STEER issued again. Nothing else is pending for it any more: what was unsent for the former radio is
gone, from that radio's waiting list too, and what is in flight there stays. ASSOC of a client already SERVED here: on
the same radio only its last activity is renewed; from another radio it moves, its epoch kept and no notice sent, with
CLIENT-JOINED. In CONFIG-HALT both are so too. While running, an ASSOC for which no record can be had is counted and
answered REFUSE. What follows an ASSOC in CONFIG-HALT is inferred (log entry 19); that a wall-state notice which waits
is taken before it is inferred (log entry 46); that its directives are sent at the end of the command is the model's
choice (log entry 43). From R53, R59, R61, R67, R83, R87, R91, R115, R119, R127, R128, R129. -/
def Obligations.AssocBeginsService : Prop :=
  (∀ (s : State) (radio : Nat) (a : ClientAddr) (i : Nat) (r : ClientRecord), s.Settled → s.Sound → s.wallNotices = [] →
     s.run = .running ∨ s.run = .configHalt →
     radio < s.cfg.radioCount → radio < 3 → a ≠ 0#48 → (∀ q, r.serving ≠ .served q) → r.addr = a →
     ((s.findRecord a = some i ∧ s.record i = some r) ∨
       (s.findRecord a = none ∧ s.obtainForAdmission = some i ∧ r = s.newRecord a)) →
     ∃ t r', exec (.assoc radio a) s = .next t ∧ t.record i = some r' ∧ r'.addr = a ∧ r'.serving = .served radio ∧
       r'.epoch = min (r.epoch + 1) (2 ^ 32 - 1) ∧ r'.admitPending = none ∧ r'.remoteDeadline = none ∧
       r'.removalDeadline = none ∧ r'.confirm = 0 ∧ r'.lastActivity = s.now ∧
       r'.reports = r.reports.map (fun p => { p with served := false }) ∧ r'.localLevel = r.localLevel ∧
       r'.evidence = r.evidence ∧ r'.gameActive = r.gameActive ∧ r'.group = r.group ∧ r'.cls = r.cls ∧
       (∀ j, j ≠ i → t.record j = s.record j) ∧ t.findClaim a = none ∧
       t.gtm.servedGame = s.gtm.servedGame + (if r.gameActive then 1 else 0) ∧
       (let notice := buildFrame .served s.cfg.nodeId 0xFFFF#16 (servedBytes a r'.epoch
          (if s.icu.install = .draining then -1600 else r.localLevel.getD (-1600)) r.gameActive)
        (s.run = .configHalt → t.bcu = s.bcu ∧ t.rli = s.rli ∧ t.sent = s.sent ∧ r'.effective = r.effective ∧
          r'.directed = r.directed ∧
          t.evq = (s.queueEvent (if (s.findClaim a).any fun k => (s.claimAt k).any fun c => decide (c.state = .admitting)
            then .handoffDone else .clientJoined) a radio).evq) ∧
        (s.run = .running → s.findClaim a = none →
          t.bcu = s.bcu.placeControl notice ∧ t.evq = (s.queueEvent .clientJoined a radio).evq) ∧
        (∀ k c, s.run = .running → s.findClaim a = some k → s.claimAt k = some c → c.state = .admitting →
          t.bcu = s.bcu.placeControl notice ∧ t.evq = (s.queueEvent .handoffDone a radio).evq) ∧
        (∀ k c, s.run = .running → s.findClaim a = some k → s.claimAt k = some c → c.state = .claiming →
          t.bcu = (s.bcu.placeControl notice).placeControl
            (buildFrame .cancel s.cfg.nodeId c.server (cancelBytes a c.seq)) ∧
          t.evq = (s.queueEvent .clientJoined a radio).evq))) ∧
  (∀ (s : State) (radio : Nat) (a : ClientAddr) (i : Nat) (r : ClientRecord), s.Settled → s.Sound → s.run = .running →
     s.wallNotices = [] →
     radio < s.cfg.radioCount → radio < 3 → a ≠ 0#48 → r.serving ≠ .served radio → r.addr = a →
     ((s.findRecord a = some i ∧ s.record i = some r) ∨
       (s.findRecord a = none ∧ s.obtainForAdmission = some i ∧ r = s.newRecord a)) →
     ∃ t r', exec (.assoc radio a) s = .next t ∧ t.record i = some r' ∧ r'.serving = .served radio ∧
       r'.release = r.release ∧
       r'.effective =
         (match s.seu.held with
         | none => .open
         | some m =>
           if m < s.pauseUntil r then .paused
           else
             match s.seu.groups[r.group]? with
             | some .blocked => .paused
             | some (.capped c) => .capped c
             | some .open => .open
             | none => .open) ∧
       r'.directed = (if r.gameActive = true ∧ r'.effective = .open then .game else .normal) ∧
       (let sent (d : Directive) : Prop := .directive radio d ∈ t.sent.drop s.sent.length
        let due : Option ControlDirective :=
          match r.serving with
          | .served _ => r.release.map fun c => .steer c.claimant
          | .remote _ => none
          | .unseen => none
        (∀ d, due = some d ↔ r'.pendingControl = some d ∨ sent (.control a d)) ∧
        (∀ d, enforcementFor .open r'.effective = some d ↔ r'.pendingEnforcement = some d ∨ sent (.enforcement a d)) ∧
        (∀ p, (p = .game ∧ r'.directed = .game) ↔ r'.pendingPriority = some p ∨ sent (.priority a p)) ∧
        (Output.mirror a .normal ∈ t.sent.drop s.sent.length ↔ r.directed = .game) ∧
        (Output.mirror a .game ∈ t.sent.drop s.sent.length ↔ sent (.priority a .game)) ∧
        (∀ q, q ≠ radio → (r.isServed = true → i ∉ forRadio t.rli.waiting q) ∧
          forRadio t.rli.inFlight q = forRadio s.rli.inFlight q) ∧
        ∃ later, forRadio t.rli.inFlight radio = forRadio s.rli.inFlight radio ++ later)) ∧
  (∀ (s : State) (radio : Nat) (a : ClientAddr), s.Settled → s.Sound → s.wallNotices = [] →
     s.run = .running ∨ s.run = .configHalt →
     radio < s.cfg.radioCount → radio < 3 → a ≠ 0#48 →
     (∀ i r, s.findRecord a = some i → s.record i = some r → r.serving = .served radio →
       exec (.assoc radio a) s = .next (s.modRecord i fun r => { r with lastActivity := s.now })) ∧
     (∀ i r q, s.findRecord a = some i → s.record i = some r → r.serving = .served q → q ≠ radio →
       ∃ t r', exec (.assoc radio a) s = .next t ∧ t.record i = some r' ∧ r'.serving = .served radio ∧
         r'.epoch = r.epoch ∧ r'.release = r.release ∧ r'.reports = r.reports ∧ r'.lastActivity = s.now ∧
         (∀ j, j ≠ i → t.record j = s.record j) ∧ t.bcu = s.bcu ∧ t.gtm.servedGame = s.gtm.servedGame ∧
         t.evq = (s.queueEvent .clientJoined a radio).evq) ∧
     (s.run = .running → s.findRecord a = none → s.obtainForAdmission = none →
       exec (.assoc radio a) s = .next
         { s with
           crg := { s.crg with refusedAssociations := min (s.crg.refusedAssociations + 1) 65535 }
           sent := s.sent ++ [.admitAnswer radio a false] }))

/-- DISASSOC from the radio that serves the client: the record becomes REMOTE of a release context's claimant with
CLIENT-TAKEN, or REMOTE of the first served report's peer, or UNSEEN, with CLIENT-LEFT; its pending directives,
effective state and game priority go, and nothing else of it. At a node that drains, the last such DISASSOC brings
STAGED with IMAGE-STAGED (EMPTIED) after it, and one that leaves others SERVED changes nothing there. Any other
DISASSOC is ignored, one for a client without a record too. All this holds in CONFIG-HALT as while running. What
follows a DISASSOC in CONFIG-HALT is inferred (log entry 19). From R53, R60, R67, R88, R119, R129, R154. -/
def Obligations.DisassocEndsService : Prop :=
  ∀ (s : State) (radio : Nat) (a : ClientAddr) (cause : RadioCause), s.Settled →
    s.run = .running ∨ s.run = .configHalt → radio < s.cfg.radioCount → a ≠ 0#48 → causeKnown cause = true →
    (s.findRecord a = none → exec (.disassoc radio a cause) s = .next s) ∧
    (∀ i r, s.findRecord a = some i → s.record i = some r → r.serving ≠ .served radio →
      exec (.disassoc radio a cause) s = .next s) ∧
    ∀ (i : Nat) (r : ClientRecord), s.findRecord a = some i → s.record i = some r →
    (let left : ClientRecord :=
       { r with
         effective := .open, lastActivity := s.now, release := none, confirm := 0, directed := .normal,
         enforced := .open, pendingControl := none, pendingEnforcement := none, pendingPriority := none }
     let result (r' : ClientRecord) (kind : EventKind) : Prop :=
       ∃ t, exec (.disassoc radio a cause) s = .next t ∧ t.record i = some r' ∧
         (∀ j, j ≠ i → t.record j = s.record j) ∧
         (let emptied := s.icu.install = .draining ∧ s.servedCount = 1
          t.icu = (if emptied then { s.icu with install := .staged, drainDeadline := none } else s.icu) ∧
          t.evq =
            (let told := s.queueEvent kind a (causeCode cause)
             if emptied then told.queueEvent .imageStaged (nodeSubject s.cfg.nodeId) 1 else told).evq) ∧
         t.sent = (if r.directed = .game then s.sent ++ [.mirror r.addr .normal] else s.sent) ∧
         t.gtm.servedGame = (if r.gameActive then s.gtm.servedGame - 1 else s.gtm.servedGame) ∧
         t.bcu = s.bcu ∧ t.rli.inFlight = s.rli.inFlight ∧ (∀ w ∈ t.rli.waiting, i ∉ w)
     (r.serving ≠ .served radio → exec (.disassoc radio a cause) s = .next s) ∧
     (∀ c, r.serving = .served radio → r.release = some c → result
       { left with
         serving := .remote c.claimant, reports := r.reports.map (fun p => { p with served := false }),
         remoteDeadline := some (s.now + 8192), removalDeadline := none } .clientTaken) ∧
     (∀ p, r.serving = .served radio → r.release = none → r.reports.find? PeerReport.served = some p → result
       { left with serving := .remote p.peer, remoteDeadline := some (s.now + 8192), removalDeadline := none }
       .clientLeft) ∧
     (r.serving = .served radio → r.release = none → r.reports.find? PeerReport.served = none → result
       { left with serving := .unseen, remoteDeadline := none, removalDeadline := some (s.now + 65536) } .clientLeft))

/-- SIGHT: the level, clamped to −100..−10 dBm, sets the record's S on its first sample and moves it by the shift of
the k code afterwards; sight time and last activity are the present. Without a record to be had it is counted. The
smoothing of a level within −1600..−160 stays between the level it had and the sixteenfold report, and so within that
range; at shift 0 it is the sixteenfold report. From R62, R68, R69. -/
def Obligations.SightSmoothsLevel : Prop :=
  (∀ (s : State) (radio : Nat) (a : ClientAddr) (level : Int), s.Settled → s.run = .running → radio < s.cfg.radioCount →
     a ≠ 0#48 →
     (let target := 16 * max (-100) (min level (-10))
      let offset : Int := if s.cfg.kCode = 0 then 0 else 2 ^ (s.cfg.kCode - 1)
      let after (r : ClientRecord) : ClientRecord :=
        { r with
          localLevel := some (match r.localLevel with
            | none => target
            | some l => l + Int.fdiv (target - l + offset) (2 ^ s.cfg.kCode))
          sightTime := some s.now
          lastActivity := s.now
          removalDeadline := if r.serving = .unseen then some (s.now + 65536) else r.removalDeadline }
      (∀ i r, s.findRecord a = some i → s.record i = some r →
        exec (.sight radio a level) s = .next (s.modRecord i after)) ∧
      (∀ i, s.findRecord a = none → s.obtainForSighting = some i → exec (.sight radio a level) s = .next
        { s with crg := { s.crg with records := s.crg.records.set i (some (after (s.newRecord a))) } }) ∧
      (s.findRecord a = none → s.obtainForSighting = none → exec (.sight radio a level) s = .next
        { s with crg := { s.crg with unplacedSightings := min (s.crg.unplacedSightings + 1) 65535 } }))) ∧
  (∀ (k : Nat) (old level : Int), k ≤ 3 → -1600 ≤ old → old ≤ -160 →
     (let target := 16 * clampLevel level;
      -1600 ≤ target ∧ target ≤ -160 ∧ smoothLevel k none level = target ∧ smoothLevel 0 (some old) level = target ∧
      min old target ≤ smoothLevel k (some old) level ∧ smoothLevel k (some old) level ≤ max old target))

/-- TAKEN removes the radio's oldest directive in flight; the RLI then sends what the room allows: nothing where no
record waits, and the next directive of the record at the head of the waiting list where one does, a PRIORITY (GAME)
with its mirror to the transceiver. Within one record the control directive goes first, then PRIORITY (NORMAL), then
the enforcement directive, then PRIORITY (GAME), each leaving the record as it is sent; an enforcement directive sent
is what the radio then applies. From R52. -/
def Obligations.DirectivesAreSentInOrder : Prop :=
  (∀ (s : State) (radio : Nat), s.Settled → s.Sound → s.run = .running → radio < s.cfg.radioCount → radio < 3 →
     (forRadio s.rli.waiting radio = [] → exec (.taken radio) s = .next
       { s with rli := { s.rli with inFlight := s.rli.inFlight.modify radio List.tail } }) ∧
     (∀ i rest r d r', forRadio s.rli.waiting radio = i :: rest → i ∉ rest → s.record i = some r →
       r.nextDirective = some (d, r') → 16 = (forRadio s.rli.inFlight radio).length →
       ∃ t, exec (.taken radio) s = .next t ∧ t.record i = some r' ∧
         forRadio t.rli.inFlight radio = (forRadio s.rli.inFlight radio).tail ++ [d] ∧
         forRadio t.rli.waiting radio = (if r'.hasPending then i :: rest else rest) ∧
         t.sent = s.sent ++ .directive radio d :: (match d with
           | .priority a .game => [.mirror a .game]
           | _ => []) ∧ (∀ j, j ≠ i → t.record j = s.record j))) ∧
  (∀ r : ClientRecord,
     (∀ d, r.pendingControl = some d →
       r.nextDirective = some (.control r.addr d, { r with pendingControl := none })) ∧
     (r.pendingControl = none → r.pendingPriority = some .normal →
       r.nextDirective = some (.priority r.addr .normal, { r with pendingPriority := none })) ∧
     (∀ d, r.pendingControl = none → r.pendingPriority ≠ some .normal → r.pendingEnforcement = some d →
       r.nextDirective = some (.enforcement r.addr d, { r with pendingEnforcement := none, enforced := d.applied })) ∧
     (r.pendingControl = none → r.pendingEnforcement = none → r.pendingPriority = some .game →
       r.nextDirective = some (.priority r.addr .game, { r with pendingPriority := none })) ∧
     (r.hasPending = false → r.nextDirective = none))

/-- What every event ends with: each radio's in-flight queue is full or its waiting list empty, the output lines agree
with the state, and only pending directives, the RLI's lists, the outputs sent and the lines have changed. From R52,
R156, R165, R166. -/
def Obligations.EventEndSettles : Prop :=
  ∀ s : State, s.rli.Sound →
    s.finish.Settled ∧ s.sent <+: s.finish.sent ∧
    (∀ i, (s.finish.record i).map ClientRecord.withoutPending = (s.record i).map ClientRecord.withoutPending) ∧
    s.finish = { s with
      crg := { s.crg with records := s.finish.crg.records }, rli := s.finish.rli, sent := s.finish.sent,
      lines := s.finish.lines }

/-- A valid SIGHTINGS entry for a client with a record, row by row of Table 4.4: what becomes of the record's serving
state, its epoch and the served flag of the peer's report, with the deadline a served entry renews. So for the one
entry of a frame, and for each entry of a longer frame on the state that the entries before it left. A SIGHTINGS entry
that meets no record, alone in its frame or among others: a clear served flag leaves no trace; a set one makes a
record REMOTE of the peer at the entry's epoch where one can be had, and is counted where none can. An invalid entry
is counted and nothing more. A served SIGHTINGS entry of a fresher epoch for a client SERVED here: beside its row of
Table 4.4, DISCONNECT is issued for the client, replacing an unsent control directive, and a release context ends,
with CLIENT-TAKEN where the peer is its claimant and HANDOFF-FAILED (OVERTAKEN) where it is another; without one no
event is queued. A peer's report written into a record's reports: they stay in order of S, the strongest first and of
equal ones the lower peer id, and at most three. It takes the place of the peer's own report, or a free place; with
three of other peers it takes the place of the weakest that is not the server's, where it is served or stronger, and
is else not kept. A SIGHTINGS frame is its entries in the order of the frame, each taken on the state that the ones
before it left, as one event; a body of up to 24 entries is read as those entries, in order. That a superseded record,
too, has a report's served flag cleared by a later entry at an equal or lower epoch is the model's choice (log entry
45); how a report of a record that becomes REMOTE is placed is inferred (log entries 29 and 30), and so is which of
two reports of equal S is the weakest (log entry 49). From R52, R61, R63, R64, R92. -/
def Obligations.SightingsEntryApplied : Prop :=
  (∀ (s : State) (src : NodeId) (e : SightingEntry) (i : Nat) (r : ClientRecord), s.Sound → e.valid = true →
     s.findRecord e.client = some i → s.record i = some r →
     (let row (serving : Serving) (epoch : Nat) (flag : Bool) : Prop :=
       (let left (t : State) : Prop := ∃ r', t.record i = some r' ∧ r'.serving = serving ∧ r'.epoch = epoch ∧ r'.lastActivity = s.now ∧
          (∀ p ∈ r'.reports, p.peer = src →
            p = { peer := src, level := e.level, served := flag, game := e.game, time := s.now }) ∧
          (r.reports.length < 3 ∨ (∃ p ∈ r.reports, p.peer = src) → ∃ p ∈ r'.reports, p.peer = src) ∧
          (e.served = true → serving = .remote src → r'.remoteDeadline = some (s.now + 8192)) ∧
          (r.epoch < e.epoch → e.served = true → (∀ q, r.serving ≠ .served q) →
            ∀ p ∈ r'.reports, p.served = true → p.peer = src) ∧
          (∀ j, j ≠ i → t.record j = s.record j)
        left (s.takeEntry src e) ∧ ∀ link f, s.Settled → s.Dispatches .sightings f → parseSightings f.body = [e] →
          f.src = src → ∃ t, exec (.sightings link f) s = .next t ∧ left t)
      (∀ q, r.serving = .served q → e.served = true → r.epoch < e.epoch → row r.serving e.epoch true) ∧
      (∀ q, r.serving = .served q → e.served = true → e.epoch ≤ r.epoch → row r.serving r.epoch false) ∧
      (∀ q, r.serving = .served q → e.served = false → row r.serving r.epoch false) ∧
      ((∀ q, r.serving ≠ .served q) → e.served = true → r.epoch < e.epoch → row (.remote src) e.epoch true) ∧
      (r.serving = .unseen → e.served = true → e.epoch = r.epoch → row (.remote src) r.epoch true) ∧
      (r.serving = .remote src → e.served = true → e.epoch = r.epoch → row r.serving r.epoch true) ∧
      (∀ q, r.serving = .remote q → q ≠ src → e.served = true → e.epoch = r.epoch → row r.serving r.epoch false) ∧
      ((∀ q, r.serving ≠ .served q) → e.served = true → e.epoch < r.epoch → row r.serving r.epoch false) ∧
      (r.serving = .remote src → e.served = false → r.epoch ≤ e.epoch → row .unseen r.epoch false) ∧
      (r.serving = .remote src → e.served = false → e.epoch < r.epoch → row r.serving r.epoch false) ∧
      (r.serving ≠ .remote src → (∀ q, r.serving ≠ .served q) → e.served = false → row r.serving r.epoch false))) ∧
  (∀ (s : State) (src : NodeId) (e : SightingEntry),
     (let gives (t : State) : Prop := s.takeEntry src e = t ∧ ∀ link f, s.Settled → s.Dispatches .sightings f →
        parseSightings f.body = [e] → f.src = src → exec (.sightings link f) s = .next t
      ((e.client = 0#48 ∨ e.level < -1600 ∨ -160 < e.level) → gives
        { s with crg := { s.crg with invalidEntries := min (s.crg.invalidEntries + 1) 65535 } }) ∧
      (e.valid = true → s.findRecord e.client = none → e.served = false → gives s) ∧
      (e.valid = true → s.findRecord e.client = none → e.served = true → s.obtainForSighting = none →
        gives
          { s with crg := { s.crg with unplacedSightings := min (s.crg.unplacedSightings + 1) 65535 } }) ∧
      (∀ i, e.valid = true → s.findRecord e.client = none → e.served = true → s.obtainForSighting = some i →
        gives
          { s with crg := { s.crg with records := s.crg.records.set i (some
              { s.newRecord e.client with
                serving := .remote src, epoch := e.epoch, remoteDeadline := some (s.now + 8192), removalDeadline := none,
                reports := [{ peer := src, level := e.level, served := true, game := e.game, time := s.now }] }) } }))) ∧
  (∀ (s : State) (src : NodeId) (e : SightingEntry) (i q : Nat) (r : ClientRecord), s.Sound → e.valid = true →
     s.findRecord e.client = some i → s.record i = some r → r.serving = .served q → q < 3 → e.served = true →
     r.epoch < e.epoch →
     (let left (t : State) (issued : ClientRecord → Prop) : Prop := ∃ r', t.record i = some r' ∧ issued r' ∧
        r'.serving = r.serving ∧ r'.epoch = e.epoch ∧ r'.release = none ∧ r'.effective = r.effective ∧
        (r.release = none → t.evq = s.evq) ∧
        (∀ c, r.release = some c → c.claimant = src → t.evq = (s.queueEvent .clientTaken e.client 5).evq) ∧
        (∀ c, r.release = some c → c.claimant ≠ src → t.evq = (s.queueEvent .handoffFailed e.client 8).evq) ∧
        t.hoc = s.hoc ∧ t.bcu = s.bcu
      left (s.takeEntry src e) (fun r' => r'.pendingControl = some .disconnect ∧
        (r.hasPending = false → i ∈ forRadio (s.takeEntry src e).rli.waiting q)) ∧
      ∀ link f, s.Settled → s.Dispatches .sightings f → parseSightings f.body = [e] → f.src = src →
        ∃ t, exec (.sightings link f) s = .next t ∧ left t (fun r' => r'.pendingControl = some .disconnect ∨
          (r'.pendingControl = none ∧ .directive q (.control e.client .disconnect) ∈ t.sent.drop s.sent.length)))) ∧
  (∀ (server : Option NodeId) (p : PeerReport) (reports : List PeerReport),
     (let before (x y : PeerReport) : Prop := y.level < x.level ∨ (x.level = y.level ∧ x.peer.toNat < y.peer.toNat)
      let after := writeReport server p reports
      reports.Pairwise before → (reports.map PeerReport.peer).Nodup → reports.length ≤ 3 →
      after.Pairwise before ∧ (after.map PeerReport.peer).Nodup ∧ after.length ≤ 3 ∧
      ((∃ x ∈ reports, x.peer = p.peer) ∨ reports.length < 3 →
        ∀ x, x ∈ after ↔ x = p ∨ (x ∈ reports ∧ x.peer ≠ p.peer)) ∧
      (∀ w, (∀ x ∈ reports, x.peer ≠ p.peer) → reports.length = 3 → w ∈ reports → some w.peer ≠ server →
        (∀ x ∈ reports, x ≠ w → some x.peer ≠ server → before x w) →
        (p.served = true ∨ w.level < p.level → ∀ x, x ∈ after ↔ x = p ∨ (x ∈ reports ∧ x ≠ w)) ∧
        (p.served = false → p.level ≤ w.level → after = reports)))) ∧
  ((∀ (s : State) (link : NodeId) (f : RxFrame), s.Dispatches .sightings f →
      exec (.sightings link f) s = .next ((parseSightings f.body).foldl (State.takeEntry f.src) s).finish) ∧
   (∀ (f : RxFrame), frameFormOk .sightings f = true →
      1 ≤ byteAt f.body 0 ∧ (parseSightings f.body).length = byteAt f.body 0) ∧
   (∀ es : List SightingEntry, es.length ≤ 24 → (∀ e ∈ es, -32768 ≤ e.level ∧ e.level ≤ 32767 ∧ e.epoch < 2 ^ 32) →
      parseSightings (sightingsBytes es) = es))

/-- REMOTE_DEADLINE_EXPIRY and REMOVAL_DEADLINE_EXPIRY, when due: a REMOTE record becomes UNSEEN and its server's
report loses the served flag; an UNSEEN record goes, unless it is reserved or holds a context, when it stays 65536
ticks more. SIGHTINGS_BUILD_EXPIRY, when due: the served records from the one after the cursor on, at most 24 and all
of them where there are no more, then the sighted ones, the strongest first and of equal ones the lowest number, go
out in one frame; the cursor moves to the last served one; no frame is built where no record qualifies. The stay of
65536 ticks is counted from the present mesh time (log entry 23). From R65, R66. -/
def Obligations.RecordsAgeAndAreSighted : Prop :=
  (∀ (s : State) (i d : Nat) (r : ClientRecord), s.Settled → s.record i = some r → d ≤ s.now →
     (∀ p, r.serving = .remote p → r.remoteDeadline = some d → exec (.remoteDeadlineExpiry i) s = .next
       (s.modRecord i fun r =>
         { r with
           serving := .unseen, confirm := 0, remoteDeadline := none,
           removalDeadline := some (r.lastActivity + 65536),
           reports := r.reports.map fun x => if x.peer = p then { x with served := false } else x })) ∧
     (r.removalDeadline = some d → r.admitPending = none → r.release = none → s.findClaim r.addr = none →
       exec (.removalDeadlineExpiry i) s =
         .next { s with crg := { s.crg with records := s.crg.records.set i none } }) ∧
     (r.removalDeadline = some d → r.admitPending.isSome ∨ r.release.isSome ∨ (s.findClaim r.addr).isSome →
       exec (.removalDeadlineExpiry i) s =
         .next (s.modRecord i fun r => { r with removalDeadline := some (s.now + 65536) }))) ∧
  (∀ (s : State) (d : Nat), s.Settled → s.run = .running → s.crg.sightingsDeadline = some d → d ≤ s.now →
     (let served := s.servedPart
      let chosen := served ++ s.sightedPart.take (24 - served.length)
      exec .sightingsBuildExpiry s = .next
        { s with
          crg := { s.crg with
            sightingsDeadline := some (s.now + 256), servedCursor := served.getLast?.getD s.crg.servedCursor }
          bcu := if chosen = [] then s.bcu else s.bcu.placeControl (buildFrame .sightings s.cfg.nodeId 0xFFFF#16
            (sightingsBytes ((chosen.filterMap s.record).map fun r =>
              { client := r.addr
                level := if r.isServed ∧ s.icu.install = .draining then -1600 else r.localLevel.getD (-1600)
                served := r.isServed, game := r.gameActive, epoch := r.epoch }))) } ∧
      served.length ≤ 24 ∧ chosen.length ≤ 24 ∧ chosen.Nodup ∧
      (∀ i ∈ served, ∃ r, s.record i = some r ∧ r.isServed = true) ∧
      (s.servedCount ≤ 24 → s.crg.records.length = 64 → ∀ i r, s.record i = some r → r.isServed = true → i ∈ served) ∧
      (s.crg.servedCursor ≤ 63 →
        (let after (i : Nat) := (i + 63 - s.crg.servedCursor) % 64
         served.Pairwise (fun i j => after i < after j) ∧
         ∀ i r, i < 64 → s.record i = some r → r.isServed = true → i ∉ served →
           served.length = 24 ∧ ∀ j ∈ served, after j < after i)) ∧
      s.sightedPart.Pairwise (fun i j => ∀ x y, s.record i = some x → s.record j = some y →
        (∀ b, y.localLevel = some b → ∃ a, x.localLevel = some a ∧ b ≤ a) ∧ (x.localLevel = y.localLevel → i < j)) ∧
      (∀ i, i ∈ s.sightedPart ↔ i < 64 ∧ ∃ r seen, s.record i = some r ∧ r.isServed = false ∧ r.sightTime = some seen ∧
        s.now - seen ≤ 1024)))

/-! ## Roam scoring and handoff (chapters 5 and 6) -/

/-- EVALUATION_EXPIRY, when due, takes every record that is REMOTE, in ascending record number, each on the state that
the ones before it left, and no other; the next evaluation comes 128 ticks later. A REMOTE record's confirm count
returns to 0 unless every precondition holds and the own score leads the peer's by the margin, rises otherwise, and at
N_conf opens a claim in the lowest free context with the next claim seq, a deadline of 256 ticks and a CLAIM to the
server. The preconditions of a claim, all seven: the server ACTIVE, a local S heard within 512 ticks, a served report
of it within 1024, no claim and no hold-off for the client, a node that does not drain, a free context, and fewer than
64 records committed. From R70, R71, R72, R73, R74, R75, R76, R81. -/
def Obligations.EvaluationClaims : Prop :=
  ((∀ (s : State) (d : Nat), s.Settled → s.run = .running → s.rse.evaluationDeadline = some d → d ≤ s.now →
      exec .evaluationExpiry s = .next
        { (List.range 64).foldl State.evaluateClaim s with rse := { evaluationDeadline := some (s.now + 128) } }) ∧
   (∀ (s : State) (i : Nat), (∀ r p, s.record i = some r → r.serving ≠ .remote p) → s.evaluateClaim i = s) ∧
   (∀ (s : State) (i : Nat) (r : ClientRecord) (p : NodeId), s.run = .running → s.record i = some r →
      r.serving = .remote p →
      (let gives (t : State) : Prop := s.evaluateClaim i = t ∧
         ∀ d, s.Settled → s.rse.evaluationDeadline = some d → d ≤ s.now → i < 64 →
           (∀ j x q, j ≠ i → s.record j = some x → x.serving ≠ .remote q) →
           exec .evaluationExpiry s = .next { t with rse := { evaluationDeadline := some (s.now + 128) } }
       let after (t : State) (confirm : Nat) : State := t.modRecord i fun r => { r with confirm := confirm }
       (s.claimReady r p = none → gives (after s 0)) ∧
       (∀ level rep e, s.claimReady r p = some (level, rep, e) →
         (let own := level - 4 * max 0 ((s.ownLoad : Int) - 60)
          let diff := own - (rep.level - 4 * max 0 ((e.adv.load : Int) - 60))
          let m : Int := if s.cfg.marginCode = 0 then 48 else if s.cfg.marginCode = 1 then 80
            else if s.cfg.marginCode = 2 then 128 else 192
          let margin := if rep.game = true ∧ e.adv.install ≠ .draining ∧ e.adv.install ≠ .staged ∧ -1280 ≤ rep.level
            then 2 * m else m;
          (diff < margin → gives (after s 0)) ∧
          (margin ≤ diff → r.confirm + 1 < s.cfg.nConf → gives (after s (r.confirm + 1))) ∧
          (∀ k, margin ≤ diff → s.cfg.nConf ≤ r.confirm + 1 → firstFree s.hoc.contexts = some k →
            (let seq := (s.hoc.seqCounter + 1) % 256
             gives (after
               { s with
                 hoc := { s.hoc with
                   seqCounter := seq
                   contexts := s.hoc.contexts.set k (some
                     { client := r.addr, server := p, seq := seq, state := .claiming, deadline := s.now + 256,
                       score := own }) }
                 bcu := s.bcu.placeControl (buildFrame .claim s.cfg.nodeId p (claimBytes r.addr seq own)) } 0)))))))) ∧
  (∀ (s : State) (r : ClientRecord) (p : NodeId) (level : Int) (rep : PeerReport) (e : Entry),
     s.claimReady r p = some (level, rep, e) ↔
       (s.entryOf p = some e ∧ e.link = .active ∧
        r.localLevel = some level ∧ (∃ seen, r.sightTime = some seen ∧ s.now - seen ≤ 512) ∧
        r.reports.find? (fun x => x.peer == p && x.served) = some rep ∧ s.now - rep.time ≤ 1024 ∧
        s.findClaim r.addr = none ∧ r.claimHoldoff = none ∧
        s.icu.install ≠ .draining ∧ s.icu.install ≠ .staged ∧
        (∃ k, k < s.hoc.contexts.length ∧ s.claimAt k = none) ∧
        countSlots s.crg.records (fun x =>
          x.isServed || x.admitPending.isSome || (s.findClaim x.addr).isSome) < 64))

/-- CLAIM for a client the node does not hold, or holds and refuses: a client address of 0 is malformed and counted;
no record, a record not SERVED or superseded is answered REFUSE (NOT-SERVED); a release context for another claimant
REFUSE (BUSY); a failed grant test REFUSE (WEAKER). Nothing else changes but the client's last activity. The grant
test: the claimed score, clamped to −1760..−160, must lead the server's own score by half the margin, the margin
doubled for a game-active client with an S of at least −1280; a record without S scores −1760. From R77, R78, R79,
R82. -/
def Obligations.ClaimRefused : Prop :=
  (∀ (s : State) (link : NodeId) (f : RxFrame), s.Settled → s.Dispatches .claim f →
     (let a := addrAt f.body 0
      let seq := byteAt f.body 6
      let refused (t : State) (cause : Nat) : State :=
        { t with bcu := t.bcu.placeControl (buildFrame .refuse s.cfg.nodeId f.src (refuseBytes a seq cause)) }
      (a = 0#48 → exec (.claim link f) s =
        .next { s with hoc := { s.hoc with malformed := min (s.hoc.malformed + 1) 65535 } }) ∧
      (a ≠ 0#48 → s.findRecord a = none → exec (.claim link f) s = .next (refused s 3)) ∧
      (∀ i r, a ≠ 0#48 → s.findRecord a = some i → s.record i = some r →
        ((∀ q, r.serving ≠ .served q) → exec (.claim link f) s = .next (refused (s.modRecord i fun r =>
          { r with
            lastActivity := s.now
            removalDeadline := if r.serving = .unseen then some (s.now + 65536) else r.removalDeadline }) 3)) ∧
        (∀ q, r.serving = .served q →
          (let active := s.modRecord i fun r => { r with lastActivity := s.now }
           ((∃ p ∈ r.reports, p.served = true) → exec (.claim link f) s = .next (refused active 3)) ∧
           ((∀ p ∈ r.reports, p.served = false) → ∀ c, r.release = some c → c.claimant ≠ f.src →
             exec (.claim link f) s = .next (refused active 2)) ∧
           ((∀ p ∈ r.reports, p.served = false) → r.release = none → s.icu.install ≠ .draining →
             s.icu.install ≠ .staged → s.grantTest r (signed16 (fieldAt f.body 7 2)) = false →
             exec (.claim link f) s = .next (refused active 1))))))) ∧
  (∀ (s : State) (r : ClientRecord) (claimed : Int),
     (let q := max (-1760) (min claimed (-160))
      let m : Int := if s.cfg.marginCode = 0 then 48 else if s.cfg.marginCode = 1 then 80
        else if s.cfg.marginCode = 2 then 128 else 192;
      (r.localLevel = none → (s.grantTest r claimed = true ↔ m / 2 ≤ q + 1760)) ∧
      (∀ level, r.localLevel = some level →
        (let own := level - 4 * max 0 ((s.ownLoad : Int) - 60);
         (s.grantTest r claimed = true ↔
           (if r.gameActive = true ∧ -1280 ≤ level then m else m / 2) ≤ q - own)))))

/-- CLAIM granted: a repeated claim of the claimant whose context stands takes over the context's seq, its deadline
and STEER untouched; a first one, at a draining or staged node or past the grant test, opens a release context of 2048
ticks and issues STEER toward the claimant. The GRANT carries the record's content either way. From R82, R83, R95. -/
def Obligations.ClaimGranted : Prop :=
  ∀ (s : State) (link : NodeId) (f : RxFrame) (i q : Nat) (r : ClientRecord), s.Settled → s.Sound →
    s.Dispatches .claim f → addrAt f.body 0 ≠ 0#48 → s.findRecord (addrAt f.body 0) = some i → s.record i = some r →
    r.serving = .served q → q < 3 → (∀ p ∈ r.reports, p.served = false) →
    (let seq := byteAt f.body 6
     let granted := s.bcu.placeControl (buildFrame .grant s.cfg.nodeId f.src (GrantBody.bytes
       { client := r.addr, seq := seq, epoch := r.epoch, group := r.group, clsCode := classCode r.cls,
         evidence := r.evidence, gameActive := r.gameActive, pauseUntil := s.pauseUntil r }))
     (∀ c, r.release = some c → c.claimant = f.src → exec (.claim link f) s = .next
       { s.modRecord i fun r => { r with lastActivity := s.now, release := some { c with seq := seq } } with
         bcu := granted }) ∧
     (r.release = none →
       (s.icu.install = .draining ∨ s.icu.install = .staged ∨
         s.grantTest r (signed16 (fieldAt f.body 7 2)) = true) →
       ∃ t r', exec (.claim link f) s = .next t ∧ t.bcu = granted ∧ t.record i = some r' ∧
         r'.release = some { claimant := f.src, seq := seq, deadline := s.now + 2048 } ∧ r'.serving = r.serving ∧
         r'.epoch = r.epoch ∧ r'.lastActivity = s.now ∧
         (r'.pendingControl = some (.steer f.src) ∨
           (r'.pendingControl = none ∧ .directive q (.control r.addr (.steer f.src)) ∈ t.sent ∧
             .control r.addr (.steer f.src) ∈ forRadio t.rli.inFlight q)) ∧
         (∀ j, j ≠ i → t.record j = s.record j) ∧ t.evq = s.evq))

/-- GRANT: one that matches a context in CLAIMING moves it to ADMITTING for 2048 ticks and loads the client's record,
whose group, class and pause come from the GRANT only where no device record holds the client; one that matches none
is answered CANCEL, whether or not the client has a record; a repeated one changes nothing but the last activity. A
malformed one is counted. From R79, R84, R85. -/
def Obligations.GrantIsTaken : Prop :=
  ∀ (s : State) (link : NodeId) (f : RxFrame), s.Settled → s.Dispatches .grant f →
    (let g := parseGrant f.body
     let active (i : Nat) : State := s.modRecord i (ClientRecord.renewed · s.now)
     let malformed := g.client = 0#48 ∨ 7 < g.group ∨ 2 < g.clsCode ∨ 15 < g.evidence
     (malformed → exec (.grant link f) s =
       .next { s with hoc := { s.hoc with malformed := min (s.hoc.malformed + 1) 65535 } }) ∧
     (∀ i, ¬malformed → s.findRecord g.client = some i →
       (∀ k c, s.findClaim g.client = some k → s.claimAt k = some c → ¬(c.server = f.src ∧ c.seq = g.seq)) →
       exec (.grant link f) s = .next { active i with
         bcu := s.bcu.placeControl (buildFrame .cancel s.cfg.nodeId f.src (cancelBytes g.client g.seq)) }) ∧
     (¬malformed → s.findRecord g.client = none →
       (∀ k c, s.findClaim g.client = some k → s.claimAt k = some c → ¬(c.server = f.src ∧ c.seq = g.seq)) →
       exec (.grant link f) s = .next { s with
         bcu := s.bcu.placeControl (buildFrame .cancel s.cfg.nodeId f.src (cancelBytes g.client g.seq)) }) ∧
     (∀ i k c, ¬malformed → s.findRecord g.client = some i → s.findClaim g.client = some k →
       s.claimAt k = some c → c.server = f.src → c.seq = g.seq → c.state = .admitting →
       exec (.grant link f) s = .next (active i)) ∧
     (∀ i k c cls, ¬malformed → s.findRecord g.client = some i → s.findClaim g.client = some k →
       s.claimAt k = some c → c.server = f.src → c.seq = g.seq → c.state = .claiming → classOf g.clsCode = some cls →
       (let loaded (r : ClientRecord) : ClientRecord :=
          { r with
            epoch := if r.epoch < g.epoch then g.epoch else r.epoch, evidence := g.evidence, gameActive := g.gameActive }
        let admitting (load : ClientRecord → ClientRecord) : State :=
          { (active i).modRecord i load with
            hoc := { s.hoc with
              contexts := s.hoc.contexts.set k (some { c with state := .admitting, deadline := s.now + 2048 }) } }
        (∀ device, s.effectiveDevice g.client = some device → exec (.grant link f) s = .next (admitting loaded)) ∧
        (s.effectiveDevice g.client = none → exec (.grant link f) s = .next (admitting fun r =>
          { loaded r with
            group := g.group, cls := cls,
            carriedPause := if g.pauseUntil = 0 then none else some g.pauseUntil })))))

/-- REFUSE that matches a context in CLAIMING frees it, holds the client off for 1024 ticks and queues HANDOFF-FAILED
with the cause; the cause NOT-SERVED makes the record UNSEEN; one that matches nothing renews the last activity alone,
and for a client without a record leaves no trace. One with client address 0 or another cause is only counted. CANCEL
acts only on a release context of its sender and its seq: the context is cleared, an unsent STEER toward the claimant
goes with it, the record stays SERVED and HANDOFF-FAILED (CANCELLED) is queued. Any other CANCEL renews the client's
last activity and nothing more, and leaves no trace where the client has no record. One with client address 0 is only
counted. The cause NOT-SERVED is taken to act on a record of any server (log entry 26). From R79, R84, R90. -/
def Obligations.RefuseAndCancelEndHandoffs : Prop :=
  (∀ (s : State) (link : NodeId) (f : RxFrame), s.Settled → s.Dispatches .refuse f →
     (let a := addrAt f.body 0
      let cause := byteAt f.body 7
      (a = 0#48 ∨ cause = 0 ∨ 3 < cause → exec (.refuse link f) s =
        .next { s with hoc := { s.hoc with malformed := min (s.hoc.malformed + 1) 65535 } }) ∧
      (a ≠ 0#48 → 1 ≤ cause → cause ≤ 3 →
      (s.findRecord a = none →
        (∀ k c, s.findClaim a = some k → s.claimAt k = some c →
          ¬(c.server = f.src ∧ c.seq = byteAt f.body 6) ∨ c.state = .admitting) → exec (.refuse link f) s = .next s) ∧
      ∀ (i : Nat) (r : ClientRecord), s.findRecord a = some i → s.record i = some r →
      (let active := s.modRecord i (ClientRecord.renewed · s.now)
       ((∀ k c, s.findClaim a = some k → s.claimAt k = some c →
           ¬(c.server = f.src ∧ c.seq = byteAt f.body 6) ∨ c.state = .admitting) →
         exec (.refuse link f) s = .next active) ∧
       (∀ k c, s.findClaim a = some k → s.claimAt k = some c → c.server = f.src → c.seq = byteAt f.body 6 →
         c.state = .claiming →
         (let freed (change : ClientRecord → ClientRecord) : State :=
            (State.queueEvent
              { active.modRecord i change with hoc := { s.hoc with contexts := s.hoc.contexts.set k none } }
              .handoffFailed a cause).driveLines
          (cause ≠ 3 →
            exec (.refuse link f) s = .next (freed fun r => { r with claimHoldoff := some (s.now + 1024) })) ∧
          (cause = 3 → (∀ q, r.serving ≠ .served q) →
            exec (.refuse link f) s = .next (freed fun r =>
              { r with
                claimHoldoff := some (s.now + 1024), serving := .unseen, confirm := 0, remoteDeadline := none,
                removalDeadline := some (s.now + 65536),
                reports := r.reports.map fun x => if x.peer = f.src then { x with served := false } else x })))))))) ∧
  (∀ (s : State) (link : NodeId) (f : RxFrame), s.Settled → s.Dispatches .cancel f →
     (let a := addrAt f.body 0
      (a = 0#48 → exec (.cancel link f) s =
        .next { s with hoc := { s.hoc with malformed := min (s.hoc.malformed + 1) 65535 } }) ∧
      (a ≠ 0#48 →
      (s.findRecord a = none → exec (.cancel link f) s = .next s) ∧
      ∀ (i : Nat) (r : ClientRecord), s.findRecord a = some i → s.record i = some r →
      (((∀ c, r.release = some c → ¬(c.claimant = f.src ∧ c.seq = byteAt f.body 6)) →
         exec (.cancel link f) s = .next (s.modRecord i (ClientRecord.renewed · s.now))) ∧
       (∀ c q, r.serving = .served q → r.release = some c → c.claimant = f.src → c.seq = byteAt f.body 6 →
         ∃ t, exec (.cancel link f) s = .next t ∧
           t.record i = some { r with
             lastActivity := s.now, release := none,
             pendingControl := if r.pendingControl = some (.steer f.src) then none else r.pendingControl } ∧
           t.evq = (s.queueEvent .handoffFailed a 7).evq ∧ (∀ j, j ≠ i → t.record j = s.record j) ∧
           t.rli.inFlight = s.rli.inFlight ∧ t.sent = s.sent ∧ t.bcu = s.bcu ∧ t.hoc = s.hoc)))))

/-- SERVED: a notice of a higher epoch for a client SERVED here makes it give way: the epoch is adopted, the peer's
report is served, DISCONNECT is issued and a release context ends, with CLIENT-TAKEN if the peer is its claimant; at
an equal epoch and without a served report, the node yields to a peer with the larger id and keeps the client
otherwise. SERVED, whatever reports the record holds: a malformed body is counted; a client without a record gets one
REMOTE of the sender where one can be had, and is counted where none can; a record SERVED, REMOTE or UNSEEN takes the
serving state, the epoch and the report's served flag of its row. A SERVED notice, or a served SIGHTINGS entry, that
makes a client's record REMOTE of its sender: a claimant context with another server is freed with HANDOFF-FAILED
(OVERTAKEN) and no frame; one with the sender stands, and so does every other context. How a report of a record that
becomes REMOTE is placed is inferred (log entries 29 and 30); that a repeated notice at the record's epoch clears the
served flag of a superseded record is the model's choice (log entry 45). From R64, R79, R91, R92, R93. -/
def Obligations.ServedNoticeApplied : Prop :=
  (∀ (s : State) (link : NodeId) (f : RxFrame) (i q : Nat) (r : ClientRecord), s.Settled → s.Sound →
     s.Dispatches .served f → (parseServed f.body).valid = true → s.findRecord (addrAt f.body 0) = some i →
     s.record i = some r → r.serving = .served q → q < 3 → r.reports = [] →
     (let e := parseServed f.body
      let report (flag : Bool) : PeerReport :=
        { peer := f.src, level := e.level, served := flag, game := e.game, time := s.now }
      let keeps := exec (.served link f) s =
        .next (s.modRecord i fun r => { r with lastActivity := s.now, reports := [report false] })
      let givesWay := ∃ t r', exec (.served link f) s = .next t ∧ t.record i = some r' ∧ r'.serving = r.serving ∧
        r'.epoch = e.epoch ∧ r'.reports = [report true] ∧ r'.release = none ∧ r'.lastActivity = s.now ∧
        (r'.pendingControl = some .disconnect ∨
          (r'.pendingControl = none ∧ .directive q (.control r.addr .disconnect) ∈ t.sent)) ∧
        (r.release = none → t.evq = s.evq) ∧
        (∀ c, r.release = some c → c.claimant = f.src → t.evq = (s.queueEvent .clientTaken r.addr 5).evq) ∧
        (∀ c, r.release = some c → c.claimant ≠ f.src → t.evq = (s.queueEvent .handoffFailed r.addr 8).evq) ∧
        (∀ j, j ≠ i → t.record j = s.record j)
      (r.epoch < e.epoch → givesWay) ∧
      (e.epoch = r.epoch → s.cfg.nodeId.toNat < f.src.toNat → givesWay) ∧
      (e.epoch = r.epoch → f.src.toNat < s.cfg.nodeId.toNat → keeps) ∧ (e.epoch < r.epoch → keeps))) ∧
  (∀ (s : State) (link : NodeId) (f : RxFrame), s.Settled → s.Sound → s.Dispatches .served f →
     (let e := parseServed f.body
      let valid := e.client ≠ 0#48 ∧ -1600 ≤ e.level ∧ e.level ≤ -160
      let report (flag : Bool) : PeerReport :=
        { peer := f.src, level := e.level, served := flag, game := e.game, time := s.now }
      (¬valid → exec (.served link f) s =
        .next { s with hoc := { s.hoc with malformed := min (s.hoc.malformed + 1) 65535 } }) ∧
      (valid → s.findRecord e.client = none → s.obtainForSighting = none → exec (.served link f) s =
        .next { s with crg := { s.crg with unplacedSightings := min (s.crg.unplacedSightings + 1) 65535 } }) ∧
      (∀ i, valid → s.findRecord e.client = none → s.obtainForSighting = some i → exec (.served link f) s = .next
        { s with crg := { s.crg with records := s.crg.records.set i (some
            { s.newRecord e.client with
              serving := .remote f.src, epoch := e.epoch, remoteDeadline := some (s.now + 8192), removalDeadline := none,
              reports := [report true] }) } }) ∧
      (∀ i r, valid → s.findRecord e.client = some i → s.record i = some r →
        (let row (serving : Serving) (epoch : Nat) (flag : Bool) : Prop :=
           ∃ t r', exec (.served link f) s = .next t ∧ t.record i = some r' ∧ r'.serving = serving ∧ r'.epoch = epoch ∧
             r'.lastActivity = s.now ∧ (∀ p ∈ r'.reports, p.peer = f.src → p = report flag) ∧
             (r.reports.length < 3 ∨ (∃ p ∈ r.reports, p.peer = f.src) → ∃ p ∈ r'.reports, p.peer = f.src) ∧
             (serving = .remote f.src → r'.remoteDeadline = some (s.now + 8192)) ∧
             (r.epoch < e.epoch → (∀ q, r.serving ≠ .served q) → ∀ p ∈ r'.reports, p.served = true → p.peer = f.src) ∧
             (∀ j, j ≠ i → t.record j = s.record j)
         let superseded := ∃ p ∈ r.reports, p.served = true
         (∀ q, r.serving = .served q → r.epoch < e.epoch → row r.serving e.epoch true) ∧
         (∀ q, r.serving = .served q → e.epoch = r.epoch → ¬superseded → s.cfg.nodeId.toNat < f.src.toNat →
           row r.serving e.epoch true) ∧
         (∀ q, r.serving = .served q → e.epoch = r.epoch → superseded ∨ f.src.toNat ≤ s.cfg.nodeId.toNat →
           row r.serving r.epoch false) ∧
         (∀ q, r.serving = .served q → e.epoch < r.epoch → row r.serving r.epoch false) ∧
         ((∀ q, r.serving ≠ .served q) → r.epoch < e.epoch → row (.remote f.src) e.epoch true) ∧
         (r.serving = .unseen → e.epoch = r.epoch → row (.remote f.src) r.epoch true) ∧
         (r.serving = .remote f.src → e.epoch = r.epoch → row r.serving r.epoch true) ∧
         (∀ q, r.serving = .remote q → q ≠ f.src → e.epoch = r.epoch → row r.serving r.epoch false) ∧
         ((∀ q, r.serving ≠ .served q) → e.epoch < r.epoch → row r.serving r.epoch false))))) ∧
  (∀ (s : State) (link : NodeId) (f : RxFrame) (c : Instr) (e : SightingEntry) (i : Nat) (r : ClientRecord), s.Settled →
     s.Sound →
     ((c = .served link f ∧ s.Dispatches .served f ∧ e = parseServed f.body) ∨
       (c = .sightings link f ∧ s.Dispatches .sightings f ∧ parseSightings f.body = [e] ∧ e.served = true)) →
     e.valid = true → s.findRecord e.client = some i → s.record i = some r → (∀ q, r.serving ≠ .served q) →
     r.serving ≠ .remote f.src → (r.epoch < e.epoch ∨ (r.serving = .unseen ∧ e.epoch = r.epoch)) →
     ∃ t, exec c s = .next t ∧ t.bcu = s.bcu ∧ t.rli = s.rli ∧ t.sent = s.sent ∧
       (s.findClaim e.client = none → t.hoc = s.hoc ∧ t.evq = s.evq) ∧
       (∀ k x, s.findClaim e.client = some k → s.claimAt k = some x →
         (x.server = f.src → t.hoc = s.hoc ∧ t.evq = s.evq) ∧
         (x.server ≠ f.src → t.hoc = { s.hoc with contexts := s.hoc.contexts.set k none } ∧
           t.evq = (s.queueEvent .handoffFailed e.client 8).evq)))

/-- CLAIMANT_CONTEXT_EXPIRY: the context is freed and the client's record held off for 1024 ticks; in CLAIMING with
HANDOFF-FAILED (CLAIM-TIMEOUT) and no frame, in ADMITTING with CANCEL to the server and HANDOFF-FAILED
(ADMIT-TIMEOUT); what a GRANT loaded and a reservation's deadline stay. RELEASE_DEADLINE_EXPIRY: the context is
cleared, its own STEER discarded if it is still pending, the record stays SERVED on its radio and HANDOFF-FAILED
(STEER-IGNORED) is queued; no frame is sent. From R86, R89. -/
def Obligations.HandoffDeadlinesExpire : Prop :=
  (∀ (s : State) (k i : Nat) (c : ClaimContext), s.Settled → s.run = .running → s.claimAt k = some c →
     c.deadline ≤ s.now → s.findRecord c.client = some i →
     (let freed : State :=
        { s.modRecord i fun r => { r with claimHoldoff := some (s.now + 1024) } with
          hoc := { s.hoc with contexts := s.hoc.contexts.set k none } }
      (c.state = .claiming →
        exec (.claimantContextExpiry k) s = .next (freed.queueEvent .handoffFailed c.client 4).driveLines) ∧
      (c.state = .admitting →
        exec (.claimantContextExpiry k) s = .next (State.queueEvent
          { freed with
            bcu := s.bcu.placeControl (buildFrame .cancel s.cfg.nodeId c.server (cancelBytes c.client c.seq)) }
          .handoffFailed c.client 5).driveLines))) ∧
  (∀ (s : State) (i q : Nat) (r : ClientRecord) (c : ReleaseContext), s.Settled → s.record i = some r →
     r.serving = .served q → r.release = some c → c.deadline ≤ s.now →
     ∃ t, exec (.releaseDeadlineExpiry i) s = .next t ∧
       t.record i = some { r with
         release := none
         pendingControl := if r.pendingControl = some (.steer c.claimant) then none else r.pendingControl } ∧
       t.evq = (s.queueEvent .handoffFailed r.addr 6).evq ∧ (∀ j, j ≠ i → t.record j = s.record j) ∧
       t = { s with crg := t.crg, rli := { s.rli with waiting := t.rli.waiting }, evq := t.evq, lines := t.lines })

/-- The epoch of a client's record never falls while the record lasts, whatever command but a reset is taken. A
SIGHTINGS frame of many entries can give a record up and obtain it anew for the same client, which starts again from
0; the premise that 24 record numbers are free rules that out for the two commands that carry such a frame. From R54,
R59, R64, R85, R92. -/
def Obligations.EpochNeverFalls : Prop :=
  ∀ (s t : State) (c : Instr) (i : Nat) (r r' : ClientRecord), s.Sound → isReset c = false → exec c s = .next t →
    (countSlots s.crg.records (fun _ => true) ≤ 40 ∨
      ((∀ link f, c ≠ .sightings link f) ∧ ∀ link bytes, c ≠ .badFrameReceived link bytes)) →
    s.record i = some r → t.record i = some r' → r'.addr = r.addr → r.epoch ≤ 2 ^ 32 - 1 → r.epoch ≤ r'.epoch

/-! ## Household policy store (chapter 7) -/

/-- POLICY_SUBMIT after the load: a field that fails its check is refused, a slot whose counter is exhausted is
refused, and neither changes a slot; an accepted one is a slot change, stamped with the counter plus one and the own
id, whatever the slot held, with POLICY-CHANGED (LOCAL). During the load the answer is BUSY. The checks of a
submission, field by field, and the content it gives, for the three kinds of record and for NONE. A slot change, with
no wall-state notice waiting: the slot takes its content and stamp, the digest is computed anew, the persistence unit
takes the change and POLICY-CHANGED is queued. A window slot then brings a full evaluation; a device slot has the
group, class and carried pause of the records it named and names read again, and each of them that is SERVED
evaluated; the clock slot brings CLOCK-SET and has the wall state computed. Nothing else changes. That a slot change
withdraws an unsent directive which would return the radio to what it applies is the model's choice (log entry 39).
That a client left without an effective device record reads group 0 and class AUTO is the model's inference (log entry
34), and so is that a wall-state notice which waits is taken before a slot changes (log entry 46). From R47, R48, R85,
R97, R98, R99, R100, R101, R102, R108, R115, R116, R117, R118. -/
def Obligations.PolicySubmitStampsSlot : Prop :=
  (∀ (s : State) (b : List Byte), s.Settled → s.Sound → s.Takes .policySubmit b →
     (let r := parseRecordAt b 0
      let answered (result : Result) : State :=
        { s with lpi := { s.lpi with response := some { kind := 3#8, result := result, body := [] } } }
      (s.pst.loading = true → exec (.policySubmit b) s = .next (answered .busy)) ∧
      (s.pst.loading = false → submittedContent s.now r = none →
        exec (.policySubmit b) s = .next (answered .refusedField)) ∧
      (∀ content, s.pst.loading = false → submittedContent s.now r = some content →
        (s.slot r.slot).stamp.counter = 65535 → exec (.policySubmit b) s = .next (answered .refusedFull)) ∧
      (∀ content, s.pst.loading = false → submittedContent s.now r = some content →
        (s.slot r.slot).stamp.counter ≠ 65535 →
        ∃ t, exec (.policySubmit b) s = .next t ∧
          t = State.finish
            { s.changeSlot r.slot
                { content := content
                  stamp := { counter := (s.slot r.slot).stamp.counter + 1, origin := s.cfg.nodeId } } 1 with
              lpi := { s.lpi with response := some { kind := 3#8, result := .ok, body := [] } } } ∧
          t.lpi.response = some { kind := 3#8, result := .ok, body := [] } ∧
          (t.slot r.slot).content = content ∧
          (t.slot r.slot).stamp = { counter := (s.slot r.slot).stamp.counter + 1, origin := s.cfg.nodeId } ∧
          (∀ n, n ≠ r.slot → t.slot n = s.slot n) ∧ t.pst.digest = digestOf t.pst.slots ∧
          t.pst.persist = (s.pst.takeChange s.now).persist ∧ t.pst.rewrite = (s.pst.takeChange s.now).rewrite ∧
          (s.wallNotices = [] → s.evq.events.length < 32 →
            { kind := .policyChanged, time := s.now % 2 ^ 32, subject := BitVec.ofNat 48 r.slot, detail := 1 } ∈
              t.evq.events) ∧
          t.bcu = s.bcu ∧ t.nbt = s.nbt ∧ t.ims = s.ims ∧ t.icu = s.icu ∧ t.flp = s.flp ∧ t.hoc = s.hoc))) ∧
  (∀ (now : Nat) (r : RawRecord), r.content.length = 12 →
     (96 < r.slot → submittedContent now r = none) ∧
     (r.condition ≠ 1 → r.condition ≠ 2 → submittedContent now r = none) ∧
     (r.slot ≤ 96 → r.condition = 2 → submittedContent now r = some .tombstone) ∧
     (r.slot < 32 → r.condition = 1 →
       (let action := byteAt r.content 0
        let groups := byteAt r.content 1
        let cap := byteAt r.content 7
        (∀ content, submittedContent now r = some content ↔
          (1 ≤ action ∧ action ≤ 3) ∧ (if action = 3 then groups = 0 else groups ≠ 0) ∧
          byteAt r.content 2 % 128 ≠ 0 ∧ fieldAt r.content 3 2 ≤ 1439 ∧ fieldAt r.content 5 2 ≤ 1439 ∧
          fieldAt r.content 5 2 ≠ fieldAt r.content 3 2 ∧ (if action = 2 then 1 ≤ cap ∧ cap ≤ 15 else cap = 0) ∧
          content = .window
            { action := if action = 1 then .block else if action = 2 then .limit else .install
              groups := BitVec.ofNat 8 groups, days := BitVec.ofNat 7 (byteAt r.content 2)
              startMinute := fieldAt r.content 3 2, stopMinute := fieldAt r.content 5 2, cap := cap }))) ∧
     (32 ≤ r.slot → r.slot ≤ 95 → r.condition = 1 →
       (∀ content, submittedContent now r = some content ↔
         addrAt r.content 0 ≠ 0#48 ∧ byteAt r.content 6 ≤ 7 ∧ byteAt r.content 7 ≤ 2 ∧
           fieldAt r.content 8 4 ≤ 71582788 ∧
           content = .device
             { addr := addrAt r.content 0, group := byteAt r.content 6
               cls := if byteAt r.content 7 = 0 then .auto else if byteAt r.content 7 = 1 then .game else .noGame
               pauseUntil := fieldAt r.content 8 4 })) ∧
     (r.slot = 96 → r.condition = 1 →
       submittedContent now r = (if fieldAt r.content 4 5 ≤ now then
         some (.clock { seconds := fieldAt r.content 0 4, meshTime := fieldAt r.content 4 5 }) else none))) ∧
  (∀ (s : State) (n : Nat) (new : Slot) (detail : Nat), s.Sound → s.wallNotices = [] → n ≤ 96 →
     (let t := s.changeSlot n new detail
      let old := (s.slot n).content
      let changed := s.queueEvent .policyChanged (BitVec.ofNat 48 n) detail
      let named (a : ClientAddr) : Prop :=
        (∃ d, old = .device d ∧ d.addr = a) ∨ ∃ d, new.content = .device d ∧ d.addr = a
      let formed (r : ClientRecord) : Effective :=
        match s.seu.held with
        | none => .open
        | some m =>
          if m < t.pauseUntil r then .paused
          else
            match t.seu.groups[r.group]? with
            | some .blocked => .paused
            | some (.capped c) => .capped c
            | some .open => .open
            | none => .open
      let evaluated (i : Nat) (r : ClientRecord) : Prop := ∃ r', t.record i = some r' ∧
        r' = { r with
          effective := formed r
          directed := if r.effective = formed r then r.directed
            else if r.gameActive = true ∧ formed r = .open then .game else .normal
          pendingEnforcement :=
            match enforcementFor r.effective (formed r) with
            | none => r.pendingEnforcement
            | some d => if r.pendingEnforcement.isSome ∧ d.applied = r.enforced then none else some d
          pendingPriority := if r.directed = r'.directed then r.pendingPriority else some r'.directed } ∧
        (Output.mirror r.addr .normal ∈ t.sent.drop s.sent.length ↔ r.directed = .game ∧ r'.directed = .normal) ∧
        ∀ q, r.serving = .served q → q < 3 → (i ∈ forRadio s.rli.waiting q ↔ r.hasPending = true) →
          (i ∈ forRadio t.rli.waiting q ↔ r'.hasPending = true)
      t.slot n = new ∧ (∀ m, m ≠ n → t.slot m = s.slot m) ∧ t.pst.digest = digestOf t.pst.slots ∧
      t.pst = { s.pst.takeChange s.now with slots := t.pst.slots, digest := t.pst.digest } ∧
      (n < 32 →
        (∀ g, g < 8 → t.seu.groups[g]? = some (groupStateAt t.pst.slots s.seu.held g)) ∧ t.seu.held = s.seu.held ∧
        changed.evq.events <+: t.evq.events ∧ (t.seu.groups = s.seu.groups → t.evq = changed.evq) ∧
        (∀ g x, s.evq.events.length + 9 ≤ 32 → s.seu.groups[g]? = some x →
          x ≠ groupStateAt t.pst.slots s.seu.held g →
          { kind := .groupState, time := s.now % 2 ^ 32, subject := BitVec.ofNat 48 g,
            detail := groupCode (groupStateAt t.pst.slots s.seu.held g) } ∈ t.evq.events) ∧
        (∀ i r, s.record i = some r → if r.isServed then evaluated i r else t.record i = some r) ∧
        t = { s with
          pst := t.pst, seu := t.seu, crg := { s.crg with records := t.crg.records }
          rli := { s.rli with waiting := t.rli.waiting }, evq := t.evq, sent := t.sent }) ∧
      (32 ≤ n → n ≤ 95 →
        (∀ i r, s.record i = some r →
          (¬named r.addr → t.record i = some r) ∧
          (named r.addr →
            (let read : ClientRecord :=
               { r with
                 group := ((t.effectiveDevice r.addr).map DeviceRecord.group).getD 0
                 cls := ((t.effectiveDevice r.addr).map DeviceRecord.cls).getD .auto
                 carriedPause := none }
             if r.isServed then evaluated i read else t.record i = some read))) ∧
        t = { s with
          pst := t.pst, crg := { s.crg with records := t.crg.records }
          rli := { s.rli with waiting := t.rli.waiting }, evq := changed.evq, sent := t.sent }) ∧
      (n = 96 → t = { s with
        pst := t.pst
        mtb := { s.mtb with lastNotified := t.wallMinute }
        wallNotices := if t.wallMinute = s.mtb.lastNotified then [] else [t.wallMinute]
        evq := (changed.queueEvent .clockSet (nodeSubject new.stamp.origin)
          (if t.wallMinute.isSome then 1 else 2)).evq })))

/-- A beacon's digest from an ACTIVE peer: nothing is sent where the digests are equal, the guard runs or the store is
loading; else the peer is sent the 97 stamps and its guard is set to two beacon intervals. A BEACON from an ACTIVE
peer brings that compare: at a synced node, for a beacon that steps no mesh time, advertises no image, and leaves no
fetch slot to be filled, the stamp list is all the control queue takes. POLICY-LIST: answered once in a beacon
interval, with the records of the slots where this node is ahead, in ascending order and up to eight to a frame, then
one POLICY-GET for those where it is behind; a further list is only counted, and none is answered during the load. The
records a peer is sent: frames of eight, in the order given and the last one with the remainder, each handed to the
control queue in turn; nothing else of the part changes. POLICY-GET: answered with the named slots that are not empty,
once each and in ascending order; one that names no slot or a slot above 96 is counted as malformed; none is answered
during the load. From R104, R105, R106, R110. -/
def Obligations.PolicyGossipIsAnswered : Prop :=
  (∀ (s : State) (i : Nat) (e : Entry), s.run = .running → s.entry i = some e →
     (s.pst.loading = true ∨ e.adv.digest = s.pst.digest ∨ e.listGuard.isSome → s.compareDigest i = s) ∧
     (s.pst.loading = false → e.adv.digest ≠ s.pst.digest → e.listGuard = none →
       s.compareDigest i =
         { s.modEntry i fun e => { e with listGuard := some (s.now + 2 * (256 * 2 ^ s.cfg.beaconCode)) } with
           bcu := s.bcu.placeControl (buildFrame .policyList s.cfg.nodeId e.id
             ((s.pst.slots.map fun x => be 2 x.stamp.counter ++ be 2 x.stamp.origin.toNat).flatten)) })) ∧
  (∀ (s : State) (link : NodeId) (f : RxFrame) (adv : Advertised) (i : Nat) (e : Entry), s.Settled → s.Sound →
     s.Dispatches .beacon f → f.src ≠ s.ownId → parseAdvertised f.body = some adv → adv.image = .empty →
     s.mtb.synced = true → fieldAt f.body 0 5 < s.now → s.ims.mayFetch = false → s.findEntry f.src = some i →
     s.entry i = some e → e.link = .active →
     ∃ t e', exec (.beacon link f) s = .next t ∧ t.entry i = some e' ∧
       (s.pst.loading = true ∨ adv.digest = s.pst.digest ∨ e.listGuard.isSome →
         t.bcu = s.bcu ∧ e'.listGuard = e.listGuard) ∧
       (s.pst.loading = false → adv.digest ≠ s.pst.digest → e.listGuard = none →
         e'.listGuard = some (s.now + 2 * (256 * 2 ^ s.cfg.beaconCode)) ∧
         t.bcu = s.bcu.placeControl (buildFrame .policyList s.cfg.nodeId f.src
           ((s.pst.slots.map fun x => be 2 x.stamp.counter ++ be 2 x.stamp.origin.toNat).flatten)))) ∧
  (∀ (s : State) (link : NodeId) (f : RxFrame) (i : Nat) (e : Entry), s.Settled → s.Dispatches .policyList f →
     s.findEntry f.src = some i → s.entry i = some e →
     (let own (n : Nat) := (s.slot n).stamp
      let theirs (n : Nat) := parseStamp f.body (4 * n)
      let ahead := (List.range 97).filter fun n => (own n).newerThan (theirs n)
      let behind := (List.range 97).filter fun n => (theirs n).newerThan (own n)
      let answered := (s.modEntry i fun e => { e with answered := true }).sendRecords f.src ahead
      (s.pst.loading = true → exec (.policyList link f) s = .next s) ∧
      (s.pst.loading = false → e.answered = true → exec (.policyList link f) s = .next
        { s with pst := { s.pst with excessLists := min (s.pst.excessLists + 1) 65535 } }) ∧
      (s.pst.loading = false → e.answered = false → behind = [] →
        exec (.policyList link f) s = .next answered) ∧
      (s.pst.loading = false → e.answered = false → behind ≠ [] → exec (.policyList link f) s = .next
        { answered with bcu := answered.bcu.placeControl (buildFrame .policyGet s.cfg.nodeId f.src
            (be 1 behind.length ++ (behind.map (be 1)).flatten)) }))) ∧
  (∀ (s : State) (peer : NodeId) (ns : List Nat), s.run = .running →
     (let frame (piece : List Nat) := buildFrame .policyRecord s.cfg.nodeId peer
        (be 1 piece.length ++ (piece.map fun n => policyRecordBytes n (s.slot n)).flatten)
      (ns = [] → s.sendRecords peer ns = s) ∧
      (ns ≠ [] → s.sendRecords peer ns =
        State.sendRecords { s with bcu := s.bcu.placeControl (frame (ns.take 8)) } peer (ns.drop 8)))) ∧
  (∀ (s : State) (link : NodeId) (f : RxFrame), s.Settled → s.Dispatches .policyGet f →
     (let named := (f.body.drop 1).map BitVec.toNat
      (s.pst.loading = true → exec (.policyGet link f) s = .next s) ∧
      (s.pst.loading = false → (named = [] ∨ ∃ n ∈ named, 96 < n) → exec (.policyGet link f) s = .next
        { s with pst := { s.pst with malformed := min (s.pst.malformed + 1) 65535 } }) ∧
      (s.pst.loading = false → named ≠ [] → (∀ n ∈ named, n ≤ 96) →
        ∃ ns, exec (.policyGet link f) s = .next (s.sendRecords f.src ns) ∧ ns.Pairwise (· < ·) ∧
          ∀ n, n ∈ ns ↔ n ∈ named ∧ (s.slot n).content ≠ .empty)))

/-- POLICY-RECORD: its records are applied one by one in the order of the frame, each on the state that the ones
before it left, as one event; during the load the frame is ignored. An invalid record is counted and dropped; a valid
one whose stamp is not newer than the slot's is ignored; a newer one takes the slot with its own stamp, queues
POLICY-CHANGED (MERGED) and is a change for the persistence unit. So for the one record of a frame, and for each of
several. The records of a frame are read 18 bytes apart; one gives a slot its stamp and its content, a tombstone or a
record that passes the checks of its bank but for M0, where its slot number, condition code and stamp are valid, and
none else. That a wall-state notice which waits is taken before a slot changes is inferred (log entry 46). That
directives which the records bring are sent at the end of the frame is the model's choice (log entry 43). From R98,
R102, R107, R108, R110. -/
def Obligations.PolicyRecordMergesNewer : Prop :=
  ((∀ (s : State) (link : NodeId) (f : RxFrame), s.Settled → s.Dispatches .policyRecord f →
      1 ≤ byteAt f.body 0 ∧ byteAt f.body 0 ≤ 8 ∧ (s.pst.loading = true → exec (.policyRecord link f) s = .next s) ∧
      (s.pst.loading = false → exec (.policyRecord link f) s = .next
        (((List.range (byteAt f.body 0)).map fun i => parseRecordAt f.body (1 + 18 * i)).foldl
          State.mergeRecord s).finish)) ∧
   (∀ (s : State) (r : RawRecord), s.Sound →
      (let only (f : RxFrame) : Prop := s.Settled ∧ s.Dispatches .policyRecord f ∧
         byteAt f.body 0 = 1 ∧ parseRecordAt f.body 1 = r ∧ s.pst.loading = false
       let gives (t : State) : Prop := s.mergeRecord r = t ∧
         ∀ link f, only f → exec (.policyRecord link f) s = .next t
       ((96 < r.slot ∨ r.stamp.counter = 0 ∨ r.stamp.origin = 0x0000#16 ∨ r.stamp.origin = 0xFFFF#16 ∨
           (r.condition ≠ 1 ∧ r.condition ≠ 2) ∨ (r.condition = 1 ∧ parseContent r.slot r.content = none)) →
         gives { s with pst := { s.pst with invalidRecords := min (s.pst.invalidRecords + 1) 65535 } }) ∧
       (∀ new, receivedSlot r = some new →
         (new.stamp.counter < (s.slot r.slot).stamp.counter ∨
           (new.stamp.counter = (s.slot r.slot).stamp.counter ∧
             new.stamp.origin.toNat ≤ (s.slot r.slot).stamp.origin.toNat)) → gives s) ∧
       (∀ new, receivedSlot r = some new →
         ((s.slot r.slot).stamp.counter < new.stamp.counter ∨
           (new.stamp.counter = (s.slot r.slot).stamp.counter ∧
             (s.slot r.slot).stamp.origin.toNat < new.stamp.origin.toNat)) →
         (let left (t : State) : Prop := t.slot r.slot = new ∧ new.stamp = r.stamp ∧
            (∀ n, n ≠ r.slot → t.slot n = s.slot n) ∧ t.pst.digest = digestOf t.pst.slots ∧
            t.pst.persist = (s.pst.takeChange s.now).persist ∧ t.pst.rewrite = (s.pst.takeChange s.now).rewrite ∧
            (s.wallNotices = [] → s.evq.events.length < 32 →
              { kind := .policyChanged, time := s.now % 2 ^ 32, subject := BitVec.ofNat 48 r.slot, detail := 2 } ∈
                t.evq.events) ∧ t.bcu = s.bcu ∧ t.nbt = s.nbt ∧ t.ims = s.ims ∧ t.icu = s.icu ∧ t.flp = s.flp
          s.mergeRecord r = s.changeSlot r.slot new 2 ∧ left (s.mergeRecord r) ∧
            ∀ link f, only f → ∃ t, exec (.policyRecord link f) s = .next t ∧ left t))))) ∧
  ((∀ (b : List Byte) (off : Nat), parseRecordAt b off =
     { slot := byteAt b off, condition := byteAt b (off + 1),
       stamp := { counter := fieldAt b (off + 2) 2, origin := nodeAt b (off + 4) },
       content := (b.drop (off + 6)).take 12 }) ∧
   (∀ (r : RawRecord) (x : Slot),
     (receivedSlot r = some x ↔
       r.slot ≤ 96 ∧ 1 ≤ r.stamp.counter ∧ r.stamp.origin ≠ 0x0000#16 ∧ r.stamp.origin ≠ 0xFFFF#16 ∧ x.stamp = r.stamp ∧
       ((r.condition = 2 ∧ x.content = .tombstone) ∨
         (r.condition = 1 ∧ parseContent r.slot r.content = some x.content)))) ∧
   (∀ (now : Nat) (r : RawRecord), r.condition = 1 →
     (r.slot < 96 → parseContent r.slot r.content = submittedContent now r) ∧
     (r.slot = 96 → parseContent r.slot r.content =
       some (.clock { seconds := fieldAt r.content 0 4, meshTime := fieldAt r.content 4 5 })) ∧
     (96 < r.slot → parseContent r.slot r.content = none)))

/-- The persistence unit: a slot change schedules a write 1024 ticks later from CLEAN, folds into one that is due, and
marks a rewrite while one runs; the persist deadline requests the write; its completion leaves CLEAN, or schedules the
rewrite. POLICY_IMAGE_READ_COMPLETE: a good image fills the 97 slots and the digest and gives the SEU a notice where
the wall state differs from the last notified; a bad one leaves the slots, records POLICY-IMAGE-BAD and schedules a
rewrite. The load is over either way. A policy image is good exactly where its CRC-32 matches and every slot, at 18
bytes from the one before, is empty with the empty stamp, or with a stamp counter of at least 1 a tombstone or a
record that passes the checks of its bank but for M0; it gives those 97 slots. That a load takes a waiting wall-state
notice first is inferred (log entry 46). From R108, R109, R110. -/
def Obligations.PolicyIsPersisted : Prop :=
  (∀ (s : State), s.Settled →
     (∀ p : Pst, (p.persist = .clean → p.takeChange s.now = { p with persist := .scheduled (s.now + 1024) }) ∧
       (∀ d, p.persist = .scheduled d → p.takeChange s.now = p) ∧ (p.persist = .waiting → p.takeChange s.now = p) ∧
       (p.persist = .writing → p.takeChange s.now = { p with rewrite := true })) ∧
     (∀ d, s.pst.persist = .scheduled d → d ≤ s.now → exec .persistDeadlineExpiry s = .next
       { s with
         pst := { s.pst with persist := .waiting }
         flp := { s.flp with waiting := s.flp.waiting ++ [{ kind := .policyWrite, discard := false }] } }) ∧
     (∀ o, s.flp.operation = some o → o.kind = .policyWrite → exec .policyWriteComplete s = .next
       { s with
         flp := { s.flp with operation := none }
         pst := { s.pst with
           rewrite := false, persist := if s.pst.rewrite then .scheduled (s.now + 1024) else .clean } })) ∧
  (∀ (s : State) (o : FlashOperation) (data : List Byte), s.Settled → s.flp.operation = some o → o.kind = .policyRead →
     (∀ slots wall, s.wallNotices = [] → parsePolicyImage data = some slots →
       wall = State.wallMinute { s with pst := { s.pst with slots := slots } } →
       exec (.policyImageReadComplete data) s = .next
         { s with
           flp := { s.flp with operation := none }
           pst := { s.pst with slots := slots, digest := digestOf slots, loading := false, persist := .clean }
           mtb := { s.mtb with lastNotified := wall }
           wallNotices := if wall = s.mtb.lastNotified then s.wallNotices else [wall] }) ∧
     (parsePolicyImage data = none → exec (.policyImageReadComplete data) s = .next
       (State.queueEvent
         { s with
           flp := { s.flp with operation := none }
           pst := { s.pst with loading := false, persist := .scheduled (s.now + 1024) }
           frc := s.frc.take s.now .policyImageBad 0 }
         .fault (nodeSubject s.cfg.nodeId) 4).driveLines)) ∧
  (∀ (b : List Byte) (slots : List Slot),
     parsePolicyImage b = some slots ↔
       crc32 (b.take 1746) = checkAt b 1746 ∧ slots.length = 97 ∧
       ∀ i x, slots[i]? = some x →
         (let condition := byteAt b (18 * i + 1)
          x.stamp = { counter := fieldAt b (18 * i + 2) 2, origin := nodeAt b (18 * i + 4) } ∧
          ((condition = 0 ∧ x.content = .empty ∧ x.stamp.counter = 0 ∧ x.stamp.origin = 0x0000#16) ∨
            (condition = 1 ∧ 1 ≤ x.stamp.counter ∧
              parseContent i ((b.drop (18 * i + 6)).take 12) = some x.content) ∨
            (condition = 2 ∧ 1 ≤ x.stamp.counter ∧ x.content = .tombstone))))

/-- Between full resets no policy slot's stamp becomes older: every command that is no reset keeps pace, but the load
of the policy image, which fills slots that a full reset has emptied. From R98, R101, R107. -/
def Obligations.StampsNeverAge : Prop :=
  ∀ (s t : State) (c : Instr), s.Sound → isReset c = false →
    (∀ o, s.flp.operation = some o → o.kind ≠ .policyRead) → exec c s = .next t →
    SlotsKeepPace s.pst.slots t.pst.slots

/-! ## Schedule enforcement (chapter 8) and game traffic (chapter 9) -/

/-- A window covers a minute of the week: on a day of its mask from its start to before its end; where the end lies
below the start, from the start to midnight and on the next day to before the end, Sunday's running into Monday. A
group's state: OPEN with wall time INVALID; else BLOCKED where a BLOCK window covers the minute for it, else CAPPED at
the smallest cap of the LIMIT windows that do, else OPEN. From R113, R114. -/
def Obligations.WindowsGiveGroupStates : Prop :=
  (∀ (w : WindowRecord) (day t : Nat), day < 7 → t < 1440 →
     (let yesterday := if day = 0 then 6 else day - 1
      (w.startMinute < w.stopMinute → (w.covers (1440 * day + t) = true ↔
        w.days.getLsbD day = true ∧ w.startMinute ≤ t ∧ t < w.stopMinute)) ∧
      (w.stopMinute < w.startMinute → (w.covers (1440 * day + t) = true ↔
        (w.days.getLsbD day = true ∧ w.startMinute ≤ t) ∨ (w.days.getLsbD yesterday = true ∧ t < w.stopMinute))))) ∧
  (∀ (slots : List Slot) (m g : Nat),
     (let applies (w : WindowRecord) : Prop :=
        (∃ x ∈ slots, x.content = .window w) ∧ w.covers (m % 10080) = true ∧ w.groups.getLsbD g = true
      groupStateAt slots none g = .open ∧
      (groupStateAt slots (some m) g = .blocked ↔ ∃ w, applies w ∧ w.action = .block) ∧
      (∀ c, groupStateAt slots (some m) g = .capped c ↔
        (∀ w, applies w → w.action ≠ .block) ∧ (∃ w, applies w ∧ w.action = .limit ∧ w.cap = c) ∧
          ∀ w, applies w → w.action = .limit → c ≤ w.cap) ∧
      (groupStateAt slots (some m) g = .open ↔ ∀ w, applies w → w.action = .install)))

/-- WALL_STATE_NOTICE: the SEU holds the oldest notice's wall state, the eight groups are as the windows give them at
it, with one GROUP-STATE event for each that changes, and every SERVED client's effective state follows. A record
whose state changes is issued the directive of Table 8.2, which the notice leaves unsent in the record or sends to its
radio; one that would return the radio to what it applies withdraws the unsent one instead; and its directed priority
is decided anew, a change being issued and a fall to NORMAL mirrored. No other record is issued one. Records that are
not SERVED, and everything outside the clients, the groups and the outputs, stay as they were. The notices that wait
are taken, the oldest first, each as WALL_STATE_NOTICE takes it, before a TICK, a beacon's merge, an ASSOC, a slot
change and the load of a good policy image; none waits then, and the last one's wall state is held. The directive for
each change of effective state, and none where it does not change (Table 8.2). The enforcement directive is issued to
the record: it replaces an unsent one, and joins the radio's waiting list with a record that held no pending
directive; one that would replace an unsent one and return the radio to what it already applies withdraws that one. A
record that is not SERVED is issued nothing. The effective device record of a client is the one of the lowest-numbered
slot whose device record carries its address, in whatever slot; the client has none where no slot does. The
pause-until of a record is that of the effective device record, else the carried one, else 0. When a waiting notice is
taken without its command is inferred (log entry 46). That the notices wait in order, and that a directive which
returns the radio to what it applies withdraws the unsent one, and that the radios are sent to at the end of the
command, are the model's choices (log entries 8, 39 and 43). From R52, R99, R112, R115, R116, R118, R120. -/
def Obligations.WallNoticeEvaluates : Prop :=
  (∀ (s : State) (w : Option Nat) (rest : List (Option Nat)), s.Settled → s.Sound → s.wallNotices = w :: rest →
     ∃ t, exec .wallStateNotice s = .next t ∧ t.wallNotices = rest ∧ t.seu.held = w ∧
       (∀ g, g < 8 → t.seu.groups[g]? = some (groupStateAt s.pst.slots w g)) ∧
       (t.seu.groups = s.seu.groups → t.evq = s.evq) ∧
       (∀ g x, s.evq.events.length + 8 ≤ 32 → s.seu.groups[g]? = some x → x ≠ groupStateAt s.pst.slots w g →
         { kind := .groupState, time := s.now % 2 ^ 32, subject := BitVec.ofNat 48 g,
           detail := groupCode (groupStateAt s.pst.slots w g) } ∈ t.evq.events) ∧
       (∀ i r', t.record i = some r' → r'.isServed = true →
         r'.effective =
           (match w with
           | none => .open
           | some m =>
             if m < s.pauseUntil r' then .paused
             else
               match groupStateAt s.pst.slots w r'.group with
               | .blocked => if r'.group < 8 then .paused else .open
               | .capped c => if r'.group < 8 then .capped c else .open
               | .open => .open)) ∧
       (∀ i r r' q, s.record i = some r → t.record i = some r' → r.serving = .served q →
         (∀ p, p ≠ q → i ∉ forRadio s.rli.waiting p) →
         (let sent (d : EnforcementDirective) : Prop := .directive q (.enforcement r.addr d) ∈ t.sent.drop s.sent.length
          (∀ d, enforcementFor r.effective r'.effective = some d →
            r.pendingEnforcement = none ∨ d.applied ≠ r.enforced → r'.pendingEnforcement = some d ∨ sent d) ∧
          (∀ d, enforcementFor r.effective r'.effective = some d → r.pendingEnforcement.isSome → d.applied = r.enforced →
            r'.pendingEnforcement = none ∧ r'.enforced = r.enforced) ∧
          (r.effective = r'.effective → ∀ d, r'.pendingEnforcement = some d ∨ sent d →
            r.pendingEnforcement = some d)) ∧
         r'.directed = (if r.effective = r'.effective then r.directed
           else if r.gameActive = true ∧ r'.effective = .open then .game else .normal) ∧
         (r.directed ≠ r'.directed → r'.pendingPriority = some r'.directed ∨
           .directive q (.priority r.addr r'.directed) ∈ t.sent.drop s.sent.length) ∧
         (Output.mirror r.addr .normal ∈ t.sent.drop s.sent.length ↔ r.directed = .game ∧ r'.directed = .normal)) ∧
       (∀ i r, s.record i = some r → r.isServed = false → t.record i = some r) ∧
       t = { s with
         wallNotices := t.wallNotices, seu := t.seu, crg := { s.crg with records := t.crg.records }, rli := t.rli,
         evq := t.evq, sent := t.sent, lines := t.lines }) ∧
  (∀ s : State,
     (s.wallNotices = [] → s.takeNotices = s) ∧
     (∀ w rest, s.wallNotices = w :: rest →
       ∃ t, exec .wallStateNotice s = .next t ∧ s.takeNotices = t.takeNotices ∧ t.wallNotices = rest) ∧
     (s.takeNotices.wallNotices = [] ∧
       s.takeNotices.seu.held = (if s.wallNotices = [] then s.seu.held else (s.wallNotices.getLast?).getD none)) ∧
     (s.run ≠ .resetHeld → exec .tick s = exec .tick s.takeNotices) ∧
     (∀ src time, s.mergeTime src time = s.takeNotices.mergeTime src time) ∧
     (∀ n new detail, s.changeSlot n new detail = s.takeNotices.changeSlot n new detail) ∧
     (∀ radio a, s.run = .running ∨ s.run = .configHalt → radio < s.cfg.radioCount → a ≠ 0#48 →
       exec (.assoc radio a) s = exec (.assoc radio a) s.takeNotices) ∧
     (∀ data, parsePolicyImage data ≠ none → s.loadPolicy data = s.takeNotices.loadPolicy data)) ∧
  (∀ (c c' : Nat),
     enforcementFor .open .paused = some .pause ∧ enforcementFor .open (.capped c) = some (.cap c) ∧
     enforcementFor .paused .open = some .resume ∧ enforcementFor .paused (.capped c) = some (.cap c) ∧
     enforcementFor (.capped c) .open = some (.cap 0) ∧
     (c ≠ c' → enforcementFor (.capped c) (.capped c') = some (.cap c')) ∧
     enforcementFor (.capped c) .paused = some .pause ∧ (∀ x, enforcementFor x x = none)) ∧
  (∀ (s : State) (i : Nat) (r : ClientRecord) (d : EnforcementDirective), s.record i = some r →
     (let put : State := s.modRecord i fun r => { r with pendingEnforcement := some d }
      EnforcementDirective.pause.applied = .paused ∧ EnforcementDirective.resume.applied = .open ∧
      (EnforcementDirective.cap 0).applied = .open ∧ (∀ c, c ≠ 0 → (EnforcementDirective.cap c).applied = .capped c) ∧
      (r.pendingEnforcement = none ∨ d.applied ≠ r.enforced →
        (r.isServed = false → s.issueEnforcement i d = s) ∧
        (∀ q, r.serving = .served q → r.hasPending = true → s.issueEnforcement i d = put) ∧
        (∀ q, r.serving = .served q → r.hasPending = false → s.issueEnforcement i d =
          { put with rli := { s.rli with waiting := s.rli.waiting.modify q (· ++ [i]) } })) ∧
      (r.pendingEnforcement.isSome → d.applied = r.enforced → s.issueEnforcement i d =
        { s.modRecord i fun r => { r with pendingEnforcement := none } with
          rli :=
            if r.pendingControl = none ∧ r.pendingPriority = none then
              { s.rli with waiting := s.rli.waiting.map fun w => w.filter fun j => decide (j ≠ i) }
            else s.rli }))) ∧
  (∀ (s : State) (a : ClientAddr),
     (let carries (n : Nat) (d : DeviceRecord) : Prop := (s.slot n).content = .device d ∧ d.addr = a
      (∀ d, s.effectiveDevice a = some d ↔ ∃ n, carries n d ∧ ∀ m x, m < n → ¬carries m x) ∧
      (s.effectiveDevice a = none ↔ ∀ n d, ¬carries n d) ∧
      ∀ r : ClientRecord, r.addr = a →
        (∀ d, s.effectiveDevice a = some d → s.pauseUntil r = d.pauseUntil) ∧
        (∀ m, s.effectiveDevice a = none → r.carriedPause = some m → s.pauseUntil r = m) ∧
        (s.effectiveDevice a = none → r.carriedPause = none → s.pauseUntil r = 0)))

/-- A second is game-like when both small-packet counts reach P_min and the bytes stay within B_max, with the values
the game threshold code selects. From R124. -/
def Obligations.GameLikeSecond : Prop :=
  ∀ (cfg : Configuration) (t : TrafficCounts),
    (cfg.gameCode = 0 → (gameLike cfg t = true ↔ 10 ≤ t.smallUp ∧ 10 ≤ t.smallDown ∧ t.bytes ≤ 125000)) ∧
    (cfg.gameCode = 1 → (gameLike cfg t = true ↔ 20 ≤ t.smallUp ∧ 20 ≤ t.smallDown ∧ t.bytes ≤ 250000)) ∧
    (cfg.gameCode = 2 → (gameLike cfg t = true ↔ 30 ≤ t.smallUp ∧ 30 ≤ t.smallDown ∧ t.bytes ≤ 375000)) ∧
    (cfg.gameCode = 3 → (gameLike cfg t = true ↔ 40 ≤ t.smallUp ∧ 40 ≤ t.smallDown ∧ t.bytes ≤ 500000))

/-- TRAFFIC: inconsistent counts and a client not SERVED on that radio are counted and discarded; else the second
moves the evidence, then the class rule the flag, and a change of the flag moves the served-game count and the
directed priority, which is GAME exactly for a flagged client held OPEN, and has the yield condition judged. A change
of the directed priority is issued as a PRIORITY, left pending or sent; a fall to NORMAL is mirrored at once, and GAME
with its PRIORITY. The priority decision of a record: GAME is its target while it is SERVED, flagged game-active and
held OPEN. A target that differs from the directed priority is written into it and, for a SERVED record, pends as its
PRIORITY in place of an unsent one; a fall to NORMAL is mirrored at once. A target that is the directed priority
changes nothing. The yield condition is judged anew as a count moves: where it begins or ends, one notice goes to the
BCU and one to the IMS; where it stays, none does. That an inconsistent report of an unmatched client is counted as
invalid alone is the model's choice (log entry 47). From R123, R125, R126, R127, R128, R130, R132. -/
def Obligations.TrafficMovesEvidence : Prop :=
  (∀ (s : State) (radio : Nat) (a : ClientAddr) (n : TrafficCounts), s.Settled → s.Sound → s.run = .running →
     radio < s.cfg.radioCount → radio < 3 → a ≠ 0#48 →
     (let bad := n.packetsUp < n.smallUp ∨ n.packetsDown < n.smallDown
      (bad → exec (.traffic radio a n) s = .next
        { s with gtm := { s.gtm with invalidTraffic := min (s.gtm.invalidTraffic + 1) 65535 } }) ∧
      (¬bad → (∀ i r, s.findRecord a = some i → s.record i = some r → r.serving ≠ .served radio) →
        exec (.traffic radio a n) s = .next
          { s with gtm := { s.gtm with unmatchedTraffic := min (s.gtm.unmatchedTraffic + 1) 65535 } }) ∧
      (∀ i r, ¬bad → s.findRecord a = some i → s.record i = some r → r.serving = .served radio →
        (let g := if gameLike s.cfg n then (if r.evidence < 15 then r.evidence + 1 else 15) else r.evidence - 2
         let flag :=
           match r.cls with
           | .auto => if 8 ≤ g then true else if g ≤ 2 then false else r.gameActive
           | .game => decide (1 ≤ n.packetsUp + n.packetsDown)
           | .noGame => false
         (flag = r.gameActive →
           exec (.traffic radio a n) s = .next (s.modRecord i fun r => { r with evidence := g })) ∧
         (flag ≠ r.gameActive →
           ∃ t r', exec (.traffic radio a n) s = .next t ∧ t.record i = some r' ∧ r'.evidence = g ∧
             r'.gameActive = flag ∧ r'.directed = (if flag ∧ r.effective = .open then .game else .normal) ∧
             (let later := t.sent.drop s.sent.length
              (r'.directed = r.directed → t.sent = s.sent ∧ t.rli = s.rli ∧ r'.pendingPriority = r.pendingPriority) ∧
              (r'.directed ≠ r.directed → r'.pendingPriority = some r'.directed ∨
                (r'.pendingPriority = none ∧ .directive radio (.priority a r'.directed) ∈ later)) ∧
              (Output.mirror a .normal ∈ later ↔ r.directed = .game ∧ r'.directed = .normal) ∧
              (Output.mirror a .game ∈ later ↔ .directive radio (.priority a .game) ∈ later)) ∧
             r'.serving = r.serving ∧ r'.effective = r.effective ∧
             t.gtm.servedGame = (if flag then s.gtm.servedGame + 1 else s.gtm.servedGame - 1) ∧
             t.gtm.peerGame = s.gtm.peerGame ∧
             (let holds := decide (0 < t.gtm.servedGame) || decide (0 < s.gtm.peerGame)
              let told : List Bool := if holds = s.gtm.yieldHolds then [] else [holds]
              t.gtm.yieldHolds = holds ∧ t.yieldNoticesBcu = s.yieldNoticesBcu ++ told ∧
                t.yieldNoticesIms = s.yieldNoticesIms ++ told) ∧
             (∀ j, j ≠ i → t.record j = s.record j) ∧ t.evq = s.evq ∧ t.bcu = s.bcu))))) ∧
  (∀ (s : State) (i : Nat) (r : ClientRecord), s.record i = some r →
     (let target : Priority := if r.isServed = true ∧ r.gameActive = true ∧ r.effective = .open then .game else .normal
      (target = r.directed → s.decidePriority i = s) ∧
      (target ≠ r.directed → s.decidePriority i =
        { s.modRecord i fun r =>
            { r with directed := target, pendingPriority := if r.isServed then some target else r.pendingPriority } with
          rli :=
            match r.serving with
            | .served q =>
              if r.hasPending then s.rli else { s.rli with waiting := s.rli.waiting.modify q (· ++ [i]) }
            | .remote _ => s.rli
            | .unseen => s.rli
          sent := if target = .normal then s.sent ++ [.mirror r.addr .normal] else s.sent }))) ∧
  (∀ s : State,
     (let holds := decide (0 < s.gtm.servedGame) || decide (0 < s.gtm.peerGame)
      (holds = s.gtm.yieldHolds → s.judgeYield = s) ∧
      (holds ≠ s.gtm.yieldHolds → s.judgeYield =
        { s with
          gtm := { s.gtm with yieldHolds := holds }
          yieldNoticesBcu := s.yieldNoticesBcu ++ [holds]
          yieldNoticesIms := s.yieldNoticesIms ++ [holds] })))

/-- No client is held at GAME priority by a node that does not serve it or that holds it PAUSED or CAPPED: every
command keeps it so. From R118, R119, R127, R129. -/
def Obligations.GamePriorityOnlyWhenOpen : Prop :=
  ∀ (s t : State) (c : Instr),
    (let fits (u : State) : Prop :=
       ∀ i r, u.record i = some r → r.directed = .game → r.isServed = true ∧ r.effective = .open
     s.Sound → fits s → exec c s = .next t → fits t)

/-! ## Image store and flash port (chapter 10) -/

/-- FLASH_OPERATION_BEGIN: with no operation running, the oldest request of the highest rank that has one begins, with
a deadline of 2048 ticks, and leaves the waiting list; the operation is given to the device. A policy write is then
WRITING, a buffer PROGRAMMING. With an operation running, or none waiting, nothing happens. The rank of each kind of
request. FLASH_OPERATION_DEADLINE, when reached: the operation is abandoned with FLASH-NO-RESPONSE, whose detail is
its rank, and the device is reset; the image enters FAULT, which frees the fetch slots and cancels the patrol, or for
the configuration read the part enters CONFIG-HALT. A recovery scan that runs ends, and the head it holds is then
accepted, or dropped and, a peer's, counted. A failed policy write is scheduled again; a failed policy read is a bad
image, POLICY-IMAGE-BAD beside it; a failed write of the installed marker is to be requested again 1024 ticks later.
That an operation begins at its own command is inferred (log entry 38), and so are which failed write is requested
again (log entry 32) and that a peer's held head which is dropped at the end of the scan is counted (log entry 24).
That the FLASH-NO-RESPONSE of a failed policy read comes before its POLICY-IMAGE-BAD, in the fault record and among
the events, is the model's choice (log entry 41), and so is the byte that a head block holds for a clear marker (log
entry 42). From R108, R109, R110, R138, R142, R145, R146, R147, R157, R159, R166. -/
def Obligations.FlashOperationsBeginAndFail : Prop :=
  (∀ (s : State) (r : FlashRequest) (before after : List FlashRequest), s.Settled →
     (s.flp.operation.isSome ∨ s.flp.waiting = [] → exec .flashOperationBegin s = .next s) ∧
     (s.flp.operation = none → s.flp.waiting = before ++ r :: after →
       (∀ x ∈ before, flashRank r.kind < flashRank x.kind) → (∀ x ∈ after, flashRank r.kind ≤ flashRank x.kind) →
       (let flp : Flp :=
          { waiting := before ++ after
            operation := some
              { kind := r.kind, discard := r.discard, deadline := s.now + 2048, marker := s.icu.marker } }
        (r.kind = .configRead → exec .flashOperationBegin s =
          .next { s with flp := flp, sent := s.sent ++ [.flashRead 0] }) ∧
        (r.kind = .policyRead → exec .flashOperationBegin s =
          .next { s with flp := flp, sent := s.sent ++ [.flashRead 1] }) ∧
        (r.kind = .policyWrite → exec .flashOperationBegin s = .next
          { s with
            flp := flp, pst := { s.pst with persist := .writing },
            sent := s.sent ++ [.flashWrite 1 (policyImageBytes s.pst.slots)] }) ∧
        (∀ h, r.kind = .headWrite → s.ims.head = some h → exec .flashOperationBegin s = .next
          { s with flp := flp, sent := s.sent ++ [.flashWrite 2 (headBlockBytes h s.icu.marker)] }) ∧
        (∀ b stage c bytes check discard, r.kind = .program b →
          s.ims.buffers[b]? = some (.held stage c bytes check discard) → exec .flashOperationBegin s = .next
          { s with
            flp := flp
            ims := { s.ims with buffers := s.ims.buffers.set b (.held .programming c bytes check discard) }
            sent := s.sent ++ [.flashWrite (chunkBlock c) bytes] }) ∧
        (∀ b stage c bytes check discard, r.kind = .verify b →
          s.ims.buffers[b]? = some (.held stage c bytes check discard) → exec .flashOperationBegin s =
          .next { s with flp := flp, sent := s.sent ++ [.flashRead (chunkBlock c)] }) ∧
        (r.kind = .headRead → exec .flashOperationBegin s =
          .next { s with flp := flp, sent := s.sent ++ [.flashRead 2] }) ∧
        (∀ k, (r.kind = .scanRead (.data k) ∨ r.kind = .patrolRead (.data k) ∨ ∃ p, r.kind = .serveRead p (.data k)) →
          exec .flashOperationBegin s = .next { s with flp := flp, sent := s.sent ++ [.flashRead (16 + k)] }) ∧
        (∀ k, (r.kind = .scanRead (.index k) ∨ r.kind = .patrolRead (.index k) ∨ ∃ p, r.kind = .serveRead p (.index k)) →
          exec .flashOperationBegin s = .next { s with flp := flp, sent := s.sent ++ [.flashRead (8 + k)] })))) ∧
  (flashRank .configRead = 1 ∧ flashRank .policyRead = 1 ∧ flashRank .policyWrite = 2 ∧ flashRank .headWrite = 2 ∧
   (∀ b, flashRank (.program b) = 3 ∧ flashRank (.verify b) = 4) ∧ flashRank .headRead = 5 ∧
   (∀ c, flashRank (.scanRead c) = 5 ∧ flashRank (.patrolRead c) = 5 ∧ ∀ p, flashRank (.serveRead p c) = 6)) ∧
  (∀ (s : State) (o : FlashOperation), s.Sound → s.flp.operation = some o → o.deadline ≤ s.now →
     ∃ t, exec .flashOperationDeadline s = .next t ∧ t.flp.operation = none ∧
       (s.evq.events.length < 32 → .mk .fault (s.now % 2 ^ 32) (nodeSubject s.cfg.nodeId) 3 ∈ t.evq.events) ∧
       (∃ tail, t.sent = s.sent ++ .flashReset :: tail) ∧
       (o.kind = .configRead →
         t.run = .configHalt ∧ t.frc = (s.frc.take s.now .flashNoResponse 1).take s.now .configBad 4 ∧ t.ims = s.ims) ∧
       (let faulted : Prop := t.ims.image = .fault ∧ t.ims.head = s.ims.head ∧ t.ims.presentData = s.ims.presentData ∧
          t.ims.presentIndex = s.ims.presentIndex ∧ t.ims.fetches = [none, none, none, none] ∧
          t.ims.patrolDeadline = none ∧ (∀ x ∈ t.bcu.bulkQueue, x.isFilled = true)
        o.kind ≠ .configRead → t.run = s.run ∧ t.ims.scan = .off ∧
          (s.ims.scan = .off ∨ s.ims.heldHead = none → faulted ∧ t.ims.heldHead = s.ims.heldHead) ∧
          (∀ y, s.ims.scan ≠ .off → s.ims.heldHead = some y → s.ims.image ≠ .complete → t.ims.heldHead = none ∧
            (let taken := y.head.valid = true ∧ y.head.chunkCount ≤ flashCapacity s.cfg ∧
               (∀ h, s.ims.head = some h → h.version < y.head.version ∨
                 (y.head.version = h.version ∧ h.imageId < y.head.imageId)) ∧ s.icu.install ≠ .staged
             (¬taken → faulted ∧ t.ims.refusedHeads =
               (if y.sender.isSome then min (s.ims.refusedHeads + 1) 65535 else s.ims.refusedHeads)) ∧
             (taken → t.ims.head = some y.head ∧ t.ims.image = .indexing ∧ t.ims.presentData = [] ∧
               t.ims.presentIndex = [] ∧ t.icu.marker = false ∧ t.icu.rewriteDeadline = none ∧
               (∃ r ∈ t.flp.waiting, r.kind = .headWrite) ∧ t.ims.refusedHeads = s.ims.refusedHeads)))) ∧
       (o.kind ≠ .configRead → o.kind ≠ .policyRead →
         t.frc = s.frc.take s.now .flashNoResponse (flashRank o.kind)) ∧
       (o.kind = .policyRead →
         t.frc = (s.frc.take s.now .flashNoResponse 1).take s.now .policyImageBad 0 ∧
         t.pst = { s.pst with loading := false, persist := .scheduled (s.now + 1024) } ∧
         (s.evq.events.length < 31 →
           .mk .fault (s.now % 2 ^ 32) (nodeSubject s.cfg.nodeId) 4 ∈ t.evq.events)) ∧
       (o.kind = .policyWrite → t.pst.persist = .scheduled (s.now + 1024) ∧ t.pst.rewrite = false) ∧
       (o.kind = .headWrite → o.marker = true → s.icu.marker = true → s.ims.scan = .off →
         t.icu.rewriteDeadline = some (s.now + 1024)))

/-- CHUNK_PROGRAM_COMPLETE, HEAD_BLOCK_WRITE_COMPLETE and VERIFY_READ_COMPLETE: after programming a buffer is
VERIFYING and its read requested; a head-block write leaves nothing to do; a verify read whose CRC-32 matches makes
the chunk present, an index chunk bringing the entries of the buffer's bytes and a data chunk moving its segment's
count: with every index flag set INDEXING becomes FETCHING, and with every flag set either becomes COMPLETE, with
IMAGE-COMPLETE (FETCHED); one that does not match leaves it missing and is counted, the third in a row putting the
image into FAULT with STORE-VERIFY. The buffer is FREE after either. A completion with no operation running is
ignored. That a completion acts as the running operation's, whatever its command, is inferred (log entry 12), and so
is that the check entries of an index chunk are read least significant byte first (log entry 17). From R134, R136,
R142, R145, R147, R167. -/
def Obligations.ProgramAndVerify : Prop :=
  ∀ (s : State) (o : FlashOperation) (data : List Byte), s.Settled → s.Sound →
    (s.flp.operation = none → exec .chunkProgramComplete s = .next s ∧ exec .headBlockWriteComplete s = .next s ∧
      exec (.verifyReadComplete data) s = .next s) ∧
    (s.flp.operation = some o → o.kind = .headWrite →
      exec .headBlockWriteComplete s = .next { s with flp := { s.flp with operation := none } }) ∧
    (∀ b stage c bytes check, s.flp.operation = some o → o.kind = .program b →
      s.ims.buffers[b]? = some (.held stage c bytes check false) → exec .chunkProgramComplete s = .next
      { s with
        flp := { waiting := s.flp.waiting ++ [{ kind := .verify b, discard := false }], operation := none }
        ims := { s.ims with buffers := s.ims.buffers.set b (.held .verifying c bytes check false) } }) ∧
    (∀ b stage c bytes check, s.flp.operation = some o → o.kind = .verify b →
      s.ims.buffers[b]? = some (.held stage c bytes check false) →
      ∃ t, exec (.verifyReadComplete data) s = .next t ∧ t.ims.buffers[b]? = some .free ∧ t.flp.operation = none ∧
        (crc32 data = check → t.ims.verifyFailures = 0 ∧ t.ims.isPresent c = true ∧
          (∀ d, d ≠ c → t.ims.isPresent d = s.ims.isPresent d) ∧
          (∀ n, n < 8 → c = .index n → s.ims.isPresent c = false →
            t.ims.indexTable = s.ims.indexTable.set n (some (parseIndexEntries bytes))) ∧
          (∀ n, c = .data n → s.ims.isPresent c = false →
            t.ims.segmentCounts = s.ims.segmentCounts.modify (n / 256) (· + 1)) ∧
          t.frc = s.frc ∧ t.icu = s.icu ∧ (s.ims.head = none → t.ims.image = s.ims.image ∧ t.evq = s.evq) ∧
          (∀ h, s.ims.head = some h →
            (let everyIndex := t.ims.presentIndex.length = h.indexCount
             let everyData := t.ims.presentData.length = h.chunkCount
             let moving := s.ims.image = .indexing ∨ s.ims.image = .fetching
             (moving → everyIndex → everyData → t.ims.image = .complete ∧
               t.evq = (s.queueEvent .imageComplete (nodeSubject s.cfg.nodeId) 1).evq) ∧
             (s.ims.image = .indexing → everyIndex → ¬everyData → t.ims.image = .fetching ∧ t.evq = s.evq) ∧
             (¬moving ∨ ¬everyIndex ∨ (s.ims.image = .fetching ∧ ¬everyData) →
               t.ims.image = s.ims.image ∧ t.evq = s.evq) ∧
             (t.ims.patrolDeadline =
               if s.ims.image = .indexing ∧ t.ims.image ≠ .indexing then some (s.now + 2048)
               else s.ims.patrolDeadline)))) ∧
        (crc32 data ≠ check → s.ims.scan = .off → (∀ d, t.ims.isPresent d = s.ims.isPresent d) ∧
          (s.ims.verifyFailures < 2 → t.ims.verifyFailures = s.ims.verifyFailures + 1 ∧ t.ims.image = s.ims.image ∧
            t.frc = s.frc) ∧
          (2 ≤ s.ims.verifyFailures → t.ims.verifyFailures = 3 ∧ t.ims.image = .fault ∧
            t.frc = s.frc.take s.now .storeVerify 3)))

/-- HEAD_BLOCK_READ_COMPLETE and SCAN_READ_COMPLETE of the recovery scan: a block without a valid head within the
capacity leaves the image EMPTY and ends the scan; a good one becomes the current head, hands the ICU its marker, and
index chunk 0 is read next; each chunk that matches its check becomes present and the scan reads on. At its end the
image is INDEXING, FETCHING or COMPLETE by what is present, COMPLETE with IMAGE-COMPLETE (SCANNED). The scan's next
read: the next index chunk, and after the last one the data chunks in ascending order whose index chunk is present;
none is left where no such chunk follows. A chunk that becomes present, or ceases to be: its flag alone is set or
cleared, with its segment's count for a data chunk, and with its 1024 check entries, least significant byte first, for
an index chunk. A flag that is so already changes nothing. That the check entries of an index chunk are read least
significant byte first is inferred from the byte order of a CRC-32 (log entry 17). That a held head is taken before
fetch slots are filled is the model's choice (log entry 48). From R134, R136, R144, R146, R158, R167. -/
def Obligations.RecoveryScanReads : Prop :=
  (∀ (s : State) (o : FlashOperation) (data : List Byte), s.Settled → s.flp.operation = some o → o.discard = false →
     (let h := parseHead data
      (o.kind = .headRead → s.ims.image = .empty → s.ims.patrolDeadline = none → s.ims.heldHead = none →
        (h.valid = false ∨ flashCapacity s.cfg < h.chunkCount) → exec (.headBlockReadComplete data) s = .next
        { s with flp := { s.flp with operation := none }, ims := { s.ims with scan := .off } }) ∧
      (o.kind = .headRead → h.valid = true → h.chunkCount ≤ flashCapacity s.cfg → s.icu.install ≠ .staged →
        exec (.headBlockReadComplete data) s = .next
        { s with
          flp := { waiting := s.flp.waiting ++ [{ kind := .scanRead (.index 0), discard := false }], operation := none }
          ims := { s.ims with head := some h, scan := .reading (.index 0) }
          icu := { s.icu with
            marker := decide (byteAt data 47 = 0xA5)
            install := if byteAt data 47 = 0xA5 then .done else s.icu.install } }) ∧
      (∀ c h next, o.kind = .scanRead c → s.ims.head = some h →
        (if s.ims.bytesMatch c data then s.ims.setPresent c data else s.ims).scanNext h c = some next →
        exec (.scanReadComplete data) s = .next
        { s with
          flp := { waiting := s.flp.waiting ++ [{ kind := .scanRead next, discard := false }], operation := none }
          ims := { (if s.ims.bytesMatch c data then s.ims.setPresent c data else s.ims) with scan := .reading next } }) ∧
      (∀ c h, o.kind = .scanRead c → s.ims.head = some h → s.ims.heldHead = none →
        (if s.ims.bytesMatch c data then s.ims.setPresent c data else s.ims).scanNext h c = none →
        ∃ t, exec (.scanReadComplete data) s = .next t ∧ t.ims.scan = .off ∧ t.ims.head = some h ∧
          (t.ims.image = .complete ↔
            t.ims.presentIndex.length = h.indexCount ∧ t.ims.presentData.length = h.chunkCount) ∧
          (t.ims.image = .indexing ↔ t.ims.presentIndex.length ≠ h.indexCount) ∧
          (t.ims.image = .complete ∨ t.ims.image = .indexing ∨ t.ims.image = .fetching) ∧
          (∀ d, t.ims.isPresent d = (s.ims.isPresent d || (decide (d = c) && s.ims.bytesMatch c data))) ∧
          (s.ims.image = .empty → t.icu = s.icu ∧
            t.evq = (if t.ims.image = .complete then s.queueEvent .imageComplete (nodeSubject s.cfg.nodeId) 2
              else s).evq ∧
            t.ims.patrolDeadline = (if t.ims.image = .indexing then none else some (s.now + 2048)))))) ∧
  (∀ (m : Ims) (h : Head),
     (let readable (k : Nat) : Prop := k < h.chunkCount ∧ k / 1024 ∈ m.presentIndex
      (∀ i, i + 1 < h.indexCount → m.scanNext h (.index i) = some (.index (i + 1))) ∧
      (∀ i, h.indexCount ≤ i + 1 →
        (∀ c, m.scanNext h (.index i) = some c ↔ ∃ k, c = .data k ∧ readable k ∧ ∀ j, j < k → ¬readable j) ∧
        (m.scanNext h (.index i) = none ↔ ∀ k, ¬readable k)) ∧
      (∀ k,
        (∀ c, m.scanNext h (.data k) = some c ↔
          ∃ n, c = .data n ∧ k < n ∧ readable n ∧ ∀ j, k < j → j < n → ¬readable j) ∧
        (m.scanNext h (.data k) = none ↔ ∀ n, k < n → ¬readable n)))) ∧
  (∀ (m : Ims) (bytes : List Byte),
     (∀ c, (m.isPresent c = true → m.setPresent c bytes = m) ∧ (m.isPresent c = false → m.clearPresent c = m) ∧
       (∀ d, (m.setPresent c bytes).isPresent d = (decide (d = c) || m.isPresent d) ∧
         (m.clearPresent c).isPresent d = (!decide (d = c) && m.isPresent d))) ∧
     (∀ k, (m.isPresent (.data k) = true ↔ k ∈ m.presentData) ∧
       (m.isPresent (.data k) = false → m.setPresent (.data k) bytes =
         { m with
           presentData := (m.setPresent (.data k) bytes).presentData
           segmentCounts := m.segmentCounts.modify (k / 256) (· + 1) }) ∧
       (m.isPresent (.data k) = true → m.clearPresent (.data k) =
         { m with
           presentData := (m.clearPresent (.data k)).presentData
           segmentCounts := m.segmentCounts.modify (k / 256) (· - 1) })) ∧
     (∀ i, (m.isPresent (.index i) = true ↔ i ∈ m.presentIndex) ∧
       (m.isPresent (.index i) = false → m.setPresent (.index i) bytes =
         { m with
           presentIndex := (m.setPresent (.index i) bytes).presentIndex
           indexTable := m.indexTable.set i (some (parseIndexEntries bytes)) }) ∧
       (m.isPresent (.index i) = true → m.clearPresent (.index i) =
         { m with
           presentIndex := (m.clearPresent (.index i)).presentIndex, indexTable := m.indexTable.set i none })) ∧
     (parseIndexEntries bytes).length = 1024 ∧
     (∀ j, j < 1024 → (parseIndexEntries bytes)[j]? =
       some (byteAt bytes (4 * j) + 256 * byteAt bytes (4 * j + 1) + 65536 * byteAt bytes (4 * j + 2) +
         16777216 * byteAt bytes (4 * j + 3))))

/-- SERVE_READ_COMPLETE and PATROL_READ_COMPLETE: a serve read that matches fills its reservation with the CHUNK for
the peer; a patrol read that matches, or whose chunk is no longer present, changes nothing; a mismatch clears the
chunk, with PATROL-BAD-CHUNK, withdraws the reservation of the serve read and of every waiting one that needs the
chunk, and a COMPLETE image is FETCHING again. A result to be discarded changes nothing. The check of a chunk: an
index chunk can always be checked, against the head's index check, and a data chunk while its index chunk is present,
against that chunk's entry; bytes match where their CRC-32 is that value. A CHUNK fills the first reservation made for
its peer and chunk, in its place; the BULK class then has work anew, and its full deferral, where that place is the
head. Without such a reservation nothing changes. That a waiting serve read which is withdrawn by a mismatch keeps its
place among the requests, its result to be discarded, is the model's choice (log entry 27). From R9, R15, R134, R136,
R141, R143, R144. -/
def Obligations.ServeAndPatrolReads : Prop :=
  (∀ (s : State) (o : FlashOperation) (data : List Byte), s.Settled → s.Sound → s.flp.operation = some o →
     (let ended : State := { s with flp := { s.flp with operation := none } }
      let cleared (c : ChunkRef) (own : List (NodeId × ChunkRef)) (t : State) : Prop :=
        (let depends (d : ChunkRef) : Bool := decide (d = c) ||
           (match d, c with
             | .data k, .index i => decide (k / 1024 = i)
             | _, _ => false)
         let voided : List (NodeId × ChunkRef) := s.flp.waiting.filterMap fun r =>
           match r.kind with
           | .serveRead p d => if depends d && !r.discard then some (p, d) else none
           | _ => none
         t.bcu.bulkQueue = (own ++ voided).foldl (fun q v => q.erase (.reserved v.1 v.2)) s.bcu.bulkQueue ∧
         t.flp.waiting = s.flp.waiting.map fun r =>
           match r.kind with
           | .serveRead _ d => if depends d then { r with discard := true } else r
           | _ => r) ∧
        t.ims.isPresent c = false ∧ (∀ d, d ≠ c → t.ims.isPresent d = s.ims.isPresent d) ∧
        (s.ims.image = .complete → t.ims.image = .fetching) ∧ (s.ims.image ≠ .complete → t.ims.image = s.ims.image) ∧
        t.frc = s.frc.take s.now .patrolBadChunk (match c with | .index _ => 0 | .data _ => 1)
      (∀ p c, o.kind = .serveRead p c → o.discard = true → exec (.serveReadComplete data) s = .next ended) ∧
      (∀ c, o.kind = .patrolRead c → o.discard = true → exec (.patrolReadComplete data) s = .next ended) ∧
      (∀ p c h, s.run = .running → o.kind = .serveRead p c → o.discard = false → s.ims.head = some h →
        s.ims.expectedCheck c = some (crc32 data) → exec (.serveReadComplete data) s = .next
        { ended with
          bcu := s.bcu.fillReservation p c (buildFrame .chunk s.cfg.nodeId p (chunkNameBytes h c ++ data)) }) ∧
      (∀ p c h, o.kind = .serveRead p c → o.discard = false → s.ims.head = some h →
        s.ims.expectedCheck c ≠ some (crc32 data) →
        ∃ t, exec (.serveReadComplete data) s = .next t ∧ cleared c [(p, c)] t) ∧
      (∀ c, o.kind = .patrolRead c → o.discard = false →
        s.ims.isPresent c = false ∨ s.ims.checkable c = false ∨ s.ims.expectedCheck c = some (crc32 data) →
        exec (.patrolReadComplete data) s = .next ended) ∧
      (∀ c, o.kind = .patrolRead c → o.discard = false → s.ims.isPresent c = true → s.ims.checkable c = true →
        s.ims.expectedCheck c ≠ some (crc32 data) →
        ∃ t, exec (.patrolReadComplete data) s = .next t ∧ cleared c [] t))) ∧
  (∀ (m : Ims),
     (∀ i, m.checkable (.index i) = true) ∧ (∀ k, m.checkable (.data k) = true ↔ k / 1024 ∈ m.presentIndex) ∧
     (∀ i v, m.expectedCheck (.index i) = some v ↔
       ∃ h, m.head = some h ∧ i < h.indexCount ∧ h.indexChecks[i]? = some v) ∧
     (∀ k v, m.expectedCheck (.data k) = some v ↔
       ∃ es, m.indexTable[k / 1024]? = some (some es) ∧ es[k % 1024]? = some v) ∧
     (∀ c bytes, m.bytesMatch c bytes = true ↔ m.expectedCheck c = some (crc32 bytes))) ∧
  (∀ (b : Bcu) (peer : NodeId) (c : ChunkRef) (f : TxFrame),
     (BulkPlace.reserved peer c ∉ b.bulkQueue → b.fillReservation peer c f = b) ∧
     (∀ before after, b.bulkQueue = before ++ .reserved peer c :: after → BulkPlace.reserved peer c ∉ before →
       b.fillReservation peer c f =
         { b with
           bulkQueue := before ++ .filled f :: after
           bulkState := if before = [] then { b.bulkState with deferral := 9 } else b.bulkState }))

/-- HEAD-GET is answered with the current head unless the image is EMPTY or being scanned, or no head is held. A HEAD
is counted as refused where it is invalid, too large, not newer, or the node is STAGED; else it becomes the current
head, with nothing present, every fetch that is outstanding a new one, the marker clear, a head-block write waiting,
the image INDEXING and IMAGE-HEAD queued; a drain is aborted first, with DRAIN-ABORT (HEAD), and an INTENT for a
COMPLETE image ends without an event. During the scan a HEAD newer than the one held is held in its place, and any
other is refused. The fields of a head and their ranges: a head of 47 bytes or more is valid where the CRC-32 of the
first 43 is the check that follows and each field lies within its range; the capacity is the one of the flash size
code; of two heads the newer has the higher version, or at equal versions the higher id. That a HEAD-GET is ignored in
FAULT without a head is the model's choice (log entry 21). That a peer's head which is not newer than the held one is
counted as refused during the scan is inferred (log entry 24), and so is that the checks within a head are sent least
significant byte first (log entry 17). From R134, R135, R137, R138, R139, R146, R151, R155, R157, R167. -/
def Obligations.HeadsAreExchanged : Prop :=
  (∀ (s : State) (link : NodeId) (f : RxFrame), s.Settled → s.Sound →
     (s.Dispatches .headGet f →
       (∀ h, s.ims.head = some h → s.ims.image ≠ .empty → s.ims.scan = .off → exec (.headGet link f) s = .next
         { s with bcu := s.bcu.placeControl (buildFrame .head s.cfg.nodeId f.src (headBytes h)) }) ∧
       (s.ims.image = .empty ∨ s.ims.scan ≠ .off ∨ s.ims.head = none → exec (.headGet link f) s = .next s)) ∧
     (s.Dispatches .head f → s.ims.scan ≠ .off →
       (let x := parseHead f.body
        let newer := ∀ y, s.ims.heldHead = some y →
          y.head.version < x.version ∨ (x.version = y.head.version ∧ y.head.imageId < x.imageId)
        (x.valid = false ∨ flashCapacity s.cfg < x.chunkCount ∨ ¬newer → exec (.head link f) s = .next
          { s with ims := { s.ims with refusedHeads := min (s.ims.refusedHeads + 1) 65535 } }) ∧
        (x.valid = true → x.chunkCount ≤ flashCapacity s.cfg → newer → exec (.head link f) s = .next
          { s with ims := { s.ims with heldHead := some { head := x, sender := some f.src } } }))) ∧
     (s.Dispatches .head f → s.ims.scan = .off →
       (let x := parseHead f.body
        let newer := ∀ h, s.ims.head = some h → h.version < x.version ∨ (x.version = h.version ∧ h.imageId < x.imageId)
        (x.valid = false ∨ flashCapacity s.cfg < x.chunkCount ∨ ¬newer ∨ s.icu.install = .staged →
          exec (.head link f) s = .next
            { s with ims := { s.ims with refusedHeads := min (s.ims.refusedHeads + 1) 65535 } }) ∧
        (x.valid = true → x.chunkCount ≤ flashCapacity s.cfg → newer → s.icu.install ≠ .staged →
          ∃ t, exec (.head link f) s = .next t ∧ t.ims.head = some x ∧ t.ims.image = .indexing ∧
            t.ims.presentData = [] ∧ t.ims.presentIndex = [] ∧ t.ims.segmentCounts = List.replicate 32 0 ∧
            (∀ k y, slotAt t.ims.fetches k = some y → y.deadline = .running (s.now + 4096)) ∧
            t.ims.verifyFailures = 0 ∧ t.ims.patrolCursor = none ∧ t.ims.patrolDeadline = none ∧
            (let u := { s.icu with marker := false, rewriteDeadline := none }
             t.icu =
               if s.icu.install = .draining ∨ (s.icu.install = .intent ∧ s.ims.image = .complete) then
                 { u with install := .idle, intentCount := 0, drainDeadline := none }
               else if s.icu.install = .done then { u with install := .idle }
               else u) ∧ (∃ r ∈ t.flp.waiting, r.kind = .headWrite) ∧
            (s.flp.operation = none → t.ims.buffers = [.free, .free]) ∧ (∀ y ∈ t.bcu.bulkQueue, y.isFilled = true) ∧
            t.evq = ((if s.icu.install = .draining then s.queueEvent .drainAbort (nodeSubject s.cfg.nodeId) 4 else s).queueEvent
              .imageHead (nodeSubject f.src) 0).evq)))) ∧
  ((∀ b : List Byte, 47 ≤ b.length →
     parseHead b =
       { imageId := fieldAt b 0 4, version := fieldAt b 4 2, chunkCount := fieldAt b 6 2, lastLength := fieldAt b 8 2,
         indexCount := byteAt b 10, indexChecks := (List.range 8).map fun i => checkAt b (11 + 4 * i),
         check := checkAt b 43 } ∧
     ((parseHead b).valid = true ↔
       crc32 (b.take 43) = checkAt b 43 ∧ fieldAt b 0 4 ≠ 0 ∧ fieldAt b 4 2 ≠ 0 ∧
       (1 ≤ fieldAt b 6 2 ∧ fieldAt b 6 2 ≤ 8192) ∧ (1 ≤ fieldAt b 8 2 ∧ fieldAt b 8 2 ≤ 4096) ∧
       byteAt b 10 = (fieldAt b 6 2 + 1023) / 1024)) ∧
   (∀ cfg : Configuration,
     (cfg.flashCode = 0 → flashCapacity cfg = 4080) ∧ (cfg.flashCode = 1 → flashCapacity cfg = 8176) ∧
     (cfg.flashCode = 2 → flashCapacity cfg = 8192)) ∧
   (∀ x y : Head, x.newerThan y = true ↔ y.version < x.version ∨ (x.version = y.version ∧ y.imageId < x.imageId)))

/-- FETCH: ignored and counted unless the chunk is present, can be checked, belongs to the current head and a bulk
place is free; else a place is reserved and a serve read requested. CHUNK: one that matches no outstanding fetch is
counted; a matched one frees its slot, goes to a free buffer where it matches its check, with its program request, and
free slots are then filled. The fetch slot that a CHUNK matches is the first that names its peer and chunk, where the
CHUNK has the current head's id and version; its chunk kind and number stand at bytes 6 to 8. The buffer taken is the
first that is FREE. From R15, R139, R140, R141, R143. -/
def Obligations.ChunksAreServedAndTaken : Prop :=
  (∀ (s : State) (link : NodeId) (f : RxFrame), s.Settled → s.Sound →
     (s.Dispatches .fetch f →
       (let ignored : State := { s with ims := { s.ims with ignoredFetches := min (s.ims.ignoredFetches + 1) 65535 } }
        ((s.ims.image = .empty ∨ s.ims.image = .fault ∨ s.ims.scan ≠ .off ∨ 2 ≤ s.bcu.bulkQueue.length) →
          exec (.fetch link f) s = .next ignored) ∧
        (∀ h, s.ims.head = some h → (fieldAt f.body 0 4 ≠ h.imageId ∨ fieldAt f.body 4 2 ≠ h.version) →
          exec (.fetch link f) s = .next ignored) ∧
        (parseChunkRef f.body = none → exec (.fetch link f) s = .next ignored) ∧
        (∀ c, parseChunkRef f.body = some c → s.ims.isPresent c = false ∨ s.ims.checkable c = false →
          exec (.fetch link f) s = .next ignored) ∧
        (∀ h c, s.ims.head = some h → parseChunkRef f.body = some c → s.ims.image ≠ .empty → s.ims.image ≠ .fault →
          s.ims.scan = .off → fieldAt f.body 0 4 = h.imageId → fieldAt f.body 4 2 = h.version →
          s.ims.isPresent c = true → s.ims.checkable c = true → s.bcu.bulkQueue.length < 2 →
          exec (.fetch link f) s = .next
            { s with
              bcu := { s.bcu with bulkQueue := s.bcu.bulkQueue ++ [.reserved f.src c] }
              flp := { s.flp with
                waiting := s.flp.waiting ++ [{ kind := .serveRead f.src c, discard := false }] } }))) ∧
     (s.Dispatches .chunk f →
       (s.matchFetch f.src f.body = none → exec (.chunk link f) s = .next
         { s with ims := { s.ims with unmatchedChunks := min (s.ims.unmatchedChunks + 1) 65535 } }) ∧
       (∀ i c, s.matchFetch f.src f.body = some (i, c) →
         (let freed : Ims := { s.ims with fetches := s.ims.fetches.set i none }
          (s.ims.checkable c = false → exec (.chunk link f) s = .next (State.fillFetches { s with ims := freed })) ∧
          (s.ims.checkable c = true → s.ims.freeBuffer = none → exec (.chunk link f) s = .next
            (State.fillFetches { s with ims := { freed with lostChunks := min (s.ims.lostChunks + 1) 65535 } })) ∧
          (∀ b k, s.ims.checkable c = true → s.ims.freeBuffer = some b →
            s.ims.expectedCheck c ≠ some (crc32 (f.body.drop 9)) → s.findEntry f.src = some k →
            exec (.chunk link f) s = .next (State.fillFetches
              { s.modEntry k fun e => { e with fetchFails := min (e.fetchFails + 1) 7 } with
                ims := { freed with checkFailures := min (s.ims.checkFailures + 1) 65535 } })) ∧
          (∀ b, s.ims.checkable c = true → s.ims.freeBuffer = some b →
            s.ims.expectedCheck c = some (crc32 (f.body.drop 9)) → exec (.chunk link f) s = .next (State.fillFetches
              { s with
                ims := { freed with
                  buffers := s.ims.buffers.set b (.held .filled c (f.body.drop 9) (crc32 (f.body.drop 9)) false) }
                flp := { s.flp with
                  waiting := s.flp.waiting ++ [{ kind := .program b, discard := false }] } })) ∧
          ∃ t, exec (.chunk link f) s = .next t ∧ (∀ d, t.ims.isPresent d = s.ims.isPresent d) ∧
            (s.ims.mayFetch = false → slotAt t.ims.fetches i = none) ∧
            (∀ x, slotAt t.ims.fetches i = some x → x.deadline = .running (s.now + 4096)) ∧
            (∀ k x, k ≠ i → slotAt s.ims.fetches k = some x → slotAt t.ims.fetches k = some x))))) ∧
  (∀ (s : State) (peer : NodeId) (b : List Byte),
     (∀ k, parseChunkRef b = some (.data k) ↔ byteAt b 6 = 0 ∧ fieldAt b 7 2 = k) ∧
     (∀ i, parseChunkRef b = some (.index i) ↔ byteAt b 6 = 1 ∧ fieldAt b 7 2 = i) ∧
     (let names (i : Nat) (c : ChunkRef) : Prop := ∃ f, slotAt s.ims.fetches i = some f ∧ f.peer = peer ∧ f.chunk = c
      let current : Prop := ∃ h, s.ims.head = some h ∧ fieldAt b 0 4 = h.imageId ∧ fieldAt b 4 2 = h.version
      (∀ i c, s.matchFetch peer b = some (i, c) ↔
        current ∧ parseChunkRef b = some c ∧ names i c ∧ ∀ j, j < i → ¬names j c) ∧
      (s.matchFetch peer b = none ↔ ∀ i c, current → parseChunkRef b = some c → ¬names i c)) ∧
     (∀ i, s.ims.freeBuffer = some i ↔ s.ims.buffers[i]? = some .free ∧ ∀ j : Nat, j < i → s.ims.buffers[j]? ≠ some Buffer.free) ∧
     (s.ims.freeBuffer = none ↔ ∀ i : Nat, s.ims.buffers[i]? ≠ some Buffer.free))

/-- The expiries and yield notices of the image store: a fetch deadline frees its slot and charges the peer; the
halving deadline halves every fail count and moves on 16384 ticks from its own value; a begin notice holds each fetch
deadline with its remaining time, which no mesh time expires, and an end notice lets it run that time from the
present; after each but the begin notice free slots are filled. The patrol reads the next chunk, or none while a read
is under way. The filling of fetch slots: only in INDEXING and FETCHING, with no scan and no yield condition, slots 0
to 3 in turn; a free slot takes the first chunk of the order that is wanted and has a source, with a FETCH to that
source and a deadline of 4096 ticks, and stays free where there is none. The source is ACTIVE, advertises the current
head, has a fail count below 4 and the chunk, and no other such peer has a lower fail count, then a lower load, then a
lower node id. The patrol's next chunk: of the present chunks that can be checked, the one soonest after the cursor in
the order of the index chunks and then the data chunks, wrapping; none where there is no such chunk. A patrol read is
under way while one waits or runs. That a due deadline is held with 0 ticks, and that a yield command without its
notice has no effect, are the model's choices (log entries 8 and 33). From R45, R139, R140, R144. -/
def Obligations.FetchDeadlinesAndPatrol : Prop :=
  (∀ (s : State), s.Settled →
     (∀ i d f, slotAt s.ims.fetches i = some f → f.deadline = .running d → d ≤ s.now →
       (let freed : State := { s with ims := { s.ims with fetches := s.ims.fetches.set i none } }
        (s.findEntry f.peer = none → exec (.fetchDeadlineExpiry i) s = .next freed.fillFetches) ∧
        (∀ k, s.findEntry f.peer = some k → exec (.fetchDeadlineExpiry i) s = .next
          (freed.modEntry k fun e =>
            { e with fetchFails := if e.fetchFails < 7 then e.fetchFails + 1 else 7 }).fillFetches))) ∧
     (∀ d, s.ims.halvingDeadline = some d → d ≤ s.now → exec .halvingDeadlineExpiry s = .next
       (State.fillFetches
         { s with
           nbt := { s.nbt with
             entries := s.nbt.entries.map (Option.map fun e => { e with fetchFails := e.fetchFails / 2 }) }
           ims := { s.ims with halvingDeadline := some (d + 16384) } })) ∧
     (∀ rest, s.yieldNoticesIms = false :: rest → exec .yieldEndIms s = .next
       (State.fillFetches
         { s with
           yieldNoticesIms := rest
           ims := { s.ims with
             yielding := false
             fetches := s.ims.fetches.map (Option.map fun f =>
               { f with deadline :=
                   match f.deadline with
                   | .held r => .running (s.now + r)
                   | .running d => .running d }) } })) ∧
     (∀ rest, s.yieldNoticesIms = true :: rest → exec .yieldBeginIms s = .next
       { s with
         yieldNoticesIms := rest
         ims := { s.ims with
           yielding := true
           fetches := s.ims.fetches.map (Option.map fun f =>
             { f with deadline :=
                 match f.deadline with
                 | .running d => .held (d - s.now)
                 | .held r => .held r }) } }) ∧
     (∀ i f r, slotAt s.ims.fetches i = some f → f.deadline = .held r →
       exec (.fetchDeadlineExpiry i) s = .next s) ∧
     (∀ d, s.ims.patrolDeadline = some d → d ≤ s.now →
       (s.flp.patrolBusy = true ∨ s.ims.patrolNext = none → exec .patrolDeadlineExpiry s = .next
         { s with ims := { s.ims with patrolDeadline := some (s.now + 2048) } }) ∧
       (∀ c, s.flp.patrolBusy = false → s.ims.patrolNext = some c →
         exec .patrolDeadlineExpiry s = .next
           { s with
             ims := { s.ims with patrolDeadline := some (s.now + 2048), patrolCursor := some c }
             flp := { s.flp with waiting := s.flp.waiting ++ [{ kind := .patrolRead c, discard := false }] } } ∧
         s.ims.isPresent c = true ∧ s.ims.checkable c = true))) ∧
  (∀ (s : State),
     (s.ims.mayFetch = true ↔
       (s.ims.image = .indexing ∨ s.ims.image = .fetching) ∧ s.ims.scan = .off ∧ s.ims.yielding = false) ∧
     (s.ims.mayFetch = false → s.fillFetches = s) ∧
     (s.ims.mayFetch = true → s.fillFetches = (((s.fillFetch 0).fillFetch 1).fillFetch 2).fillFetch 3) ∧
     (∀ i, (s.ims.head = none ∨ (slotAt s.ims.fetches i).isSome) → s.fillFetch i = s) ∧
     (∀ i h, s.run = .running → s.ims.head = some h → slotAt s.ims.fetches i = none →
       (s.nextFetch h = none → s.fillFetch i = s) ∧
       (∀ c e, s.nextFetch h = some (c, e) → s.fillFetch i =
         { s with
           ims := { s.ims with
             fetches := s.ims.fetches.set i (some { chunk := c, peer := e.id, deadline := .running (s.now + 4096) }) }
           bcu := s.bcu.placeControl (buildFrame .fetch s.cfg.nodeId e.id (chunkNameBytes h c)) })) ∧
     (∀ h,
       (let source (c : ChunkRef) (e : Entry) : Prop :=
          (∃ j, s.entry j = some e) ∧ e.link = .active ∧ e.adv.imageId = h.imageId ∧ e.adv.imageVersion = h.version ∧
          e.fetchFails < 4 ∧
          match c with
          | .index _ => e.adv.image = .fetching ∨ e.adv.image = .complete
          | .data k => e.adv.segments.getLsbD (k / 256) = true
        let wanted (c : ChunkRef) : Prop :=
          s.ims.isPresent c = false ∧ (∀ k x, slotAt s.ims.fetches k = some x → x.chunk ≠ c) ∧
          ∀ stage bytes check, Buffer.held stage c bytes check false ∉ s.ims.buffers
        s.ims.fetchOrder h = (List.range h.indexCount).map .index ++
          (if s.ims.image = .fetching then
            ((List.range h.chunkCount).filter fun k => decide (k / 1024 ∈ s.ims.presentIndex)).map .data else []) ∧
        (s.nextFetch h = none ↔ ∀ c ∈ s.ims.fetchOrder h, wanted c → ∀ e, ¬source c e) ∧
        (∀ c e, s.nextFetch h = some (c, e) → wanted c ∧ source c e ∧
          (∃ before after, s.ims.fetchOrder h = before ++ c :: after ∧
            ∀ x ∈ before, wanted x → ∀ y, ¬source x y) ∧
          (∀ y, source c y → e.fetchFails < y.fetchFails ∨ (e.fetchFails = y.fetchFails ∧
            (e.adv.load < y.adv.load ∨ (e.adv.load = y.adv.load ∧ e.id.toNat ≤ y.id.toNat)))))))) ∧
  (∀ (s : State),
     (s.ims.head = none → s.ims.patrolNext = none) ∧
     (∀ h, s.ims.head = some h →
       (let inImage (c : ChunkRef) : Prop := match c with | .index i => i < h.indexCount | .data k => k < h.chunkCount
        let total := h.indexCount + h.chunkCount
        let place (c : ChunkRef) : Nat := match c with | .index i => i | .data k => h.indexCount + k
        let after (c : ChunkRef) : Nat :=
          match s.ims.patrolCursor with
          | none => place c
          | some x => (place c + total - 1 - place x) % total
        let fit (c : ChunkRef) : Prop := inImage c ∧ s.ims.isPresent c = true ∧ s.ims.checkable c = true
        (∀ x, s.ims.patrolCursor = some x → inImage x) →
        (s.ims.patrolNext = none ↔ ∀ c, ¬fit c) ∧
        (∀ c, s.ims.patrolNext = some c ↔ fit c ∧ ∀ d, fit d → d ≠ c → after c < after d))) ∧
     (s.flp.patrolBusy = true ↔
       ∃ c, (∃ r ∈ s.flp.waiting, r.kind = .patrolRead c) ∨ ∃ o, s.flp.operation = some o ∧ o.kind = .patrolRead c))

/-! ## Install coordination (chapter 11) -/

/-- The ICU at an own build: from IDLE it enters INTENT with INSTALL-INTENT when all six conditions hold, else stays;
in INTENT it returns to IDLE where a condition fails, counts the second beacon, and at the third drains, with its
deadline and DRAIN-START, each claimant context freed with a CANCEL to its server and HANDOFF-FAILED (DRAIN), and
nothing else changed; where it serves nobody it is STAGED at once, with IMAGE-STAGED (EMPTIED); in DRAINING it aborts
where no INSTALL window covers the present minute. An install conflict: in INTENT the node gives way to a member that
advertises DRAINING or STAGED, or INTENT with a lower id, with a retry hold-off of 16 beacon intervals and DRAIN-ABORT
(CONFLICT), and to no other; a BEACON brings the test for its source's entry where that is ACTIVE or FAILING after it,
in the install state that its step's expiries leave. The end of a drain and of an install. The last SERVED client's
DISASSOC in DRAINING, or the drain deadline, which issues DISCONNECT for every client still SERVED, brings STAGED with
IMAGE-READY; IMAGE-INSTALLED in STAGED sets the marker, enters DONE, deasserts IMAGE-READY and requests the head-block
write, and is refused in any other state; a due rewrite deadline requests that write again. That the intent count is
kept in DRAINING, STAGED and DONE is inferred (log entry 25), and the order of a step's expiries, and of the contexts
a drain frees, is the model's choice (log entry 41). From R95, R150, R151, R152, R153, R154, R155, R156, R157. -/
def Obligations.InstallLifeCycle : Prop :=
  (∀ s : State,
     (let conflict := ∃ i e, s.entry i = some e ∧ e.link = .active ∧
        (e.adv.install = .intent ∨ e.adv.install = .draining ∨ e.adv.install = .staged)
      let conditions := s.ims.image = .complete ∧ s.icu.marker = false ∧
        (∃ m w x, s.wallMinute = some m ∧ x ∈ s.pst.slots ∧ x.content = .window w ∧ w.action = .install ∧
          w.covers (m % 10080) = true) ∧ s.gtm.servedGame = 0 ∧ s.gtm.peerGame = 0
      (s.icu.install = .idle → conditions → ¬conflict → s.icu.retryHoldoff = none →
        s.icuAtBuild = State.queueEvent { s with icu := { s.icu with install := .intent, intentCount := 1 } }
          .installIntent (nodeSubject s.cfg.nodeId) 0) ∧
      (s.icu.install = .idle → (¬conditions ∨ conflict ∨ s.icu.retryHoldoff.isSome) → s.icuAtBuild = s) ∧
      (s.icu.install = .intent → ¬conditions →
        s.icuAtBuild = { s with icu := { s.icu with install := .idle, intentCount := 0, drainDeadline := none } }) ∧
      (s.icu.install = .intent → conditions → s.icu.intentCount < 2 →
        s.icuAtBuild = { s with icu := { s.icu with intentCount := s.icu.intentCount + 1 } }) ∧
      (s.icu.install = .intent → conditions → 2 ≤ s.icu.intentCount → s.hoc.contexts.length = 4 →
        (let claims := s.hoc.contexts.filterMap id
         let own := nodeSubject s.cfg.nodeId
         let told := claims.foldl (fun u c => u.queueEvent .handoffFailed c.client 10)
           (s.queueEvent .drainStart own s.servedCount)
         s.icuAtBuild = { s with
           icu :=
             if s.servedCount = 0 then { s.icu with install := .staged, drainDeadline := none }
             else { s.icu with install := .draining, drainDeadline := some (s.now + 30720 * 2 ^ s.cfg.drainCode) }
           hoc := { s.hoc with contexts := [none, none, none, none] }
           bcu := (claims.foldl (fun u c =>
             u.sendFrame .cancel c.server (be 6 c.client.toNat ++ be 1 c.seq)) s).bcu
           evq := (if s.servedCount = 0 then told.queueEvent .imageStaged own 1 else told).evq })) ∧
      (s.icu.install = .draining → s.installWindow = true → s.icuAtBuild = s) ∧
      (s.icu.install = .draining → s.installWindow = false → s.icuAtBuild =
        State.queueEvent { s with icu := { s.icu with install := .idle, intentCount := 0, drainDeadline := none } }
          .drainAbort (nodeSubject s.cfg.nodeId) 2) ∧
      (s.icu.install = .staged ∨ s.icu.install = .done → s.icuAtBuild = s))) ∧
  (∀ (s : State),
     (∀ peer theirs,
       (let conflict := s.icu.install = .intent ∧
          (theirs = .draining ∨ theirs = .staged ∨ (theirs = .intent ∧ peer.toNat < s.cfg.nodeId.toNat))
        (¬conflict → s.icuConflict peer theirs = s) ∧
        (conflict → s.icuConflict peer theirs = State.queueEvent
          { s with icu := { s.icu with
              install := .idle, intentCount := 0, drainDeadline := none
              retryHoldoff := some (s.now + 16 * (256 * 2 ^ s.cfg.beaconCode)) } }
          .drainAbort (nodeSubject peer) 1))) ∧
     (∀ link f adv i e, s.Settled → s.Sound → s.Dispatches .beacon f → f.src ≠ s.ownId →
       parseAdvertised f.body = some adv → s.findEntry f.src = some i → s.entry i = some e →
       (let conflict := adv.install = .draining ∨ adv.install = .staged ∨
          (adv.install = .intent ∧ f.src.toNat < s.cfg.nodeId.toNat)
        let x := (s.modEntry i fun e => { e with adv := adv }).stepTime i f.src (fieldAt f.body 0 5)
        ∃ t e', exec (.beacon link f) s = .next t ∧ t.entry i = some e' ∧
          (e'.link = .heard ∨ ¬conflict ∨ x.icu.install ≠ .intent → t.icu = x.icu) ∧
          (e'.link ≠ .heard → conflict → x.icu.install = .intent →
            t.icu = { x.icu with
              install := .idle, intentCount := 0, drainDeadline := none
              retryHoldoff := some (t.now + 16 * (256 * 2 ^ s.cfg.beaconCode)) } ∧
            (x.evq.events.length < 31 →
              { kind := .drainAbort, time := t.now % 2 ^ 32, subject := nodeSubject f.src, detail := 1 } ∈
                t.evq.events))))) ∧
  (∀ s : State, s.Settled → s.Sound →
     (∀ d, s.icu.drainDeadline = some d → d ≤ s.now →
       ∃ t, exec .drainDeadlineExpiry s = .next t ∧ t.icu = { s.icu with install := .staged, drainDeadline := none } ∧
         t.lines.imageReady = true ∧
         t.evq = (s.queueEvent .imageStaged (nodeSubject s.cfg.nodeId) 2).evq ∧
         (∀ i r q, s.record i = some r → r.serving = .served q → q < 3 →
           ∃ r', t.record i = some r' ∧ r'.serving = .served q ∧ r'.release = r.release ∧
             (r'.pendingControl = some .disconnect ∨
               (r'.pendingControl = none ∧ .directive q (.control r.addr .disconnect) ∈ t.sent.drop s.sent.length))) ∧
         t.hoc = s.hoc ∧ t.bcu = s.bcu ∧
         (∀ i r, s.record i = some r → r.isServed = false → t.record i = some r)) ∧
     (∀ radio a cause i r, s.run = .running → radio < s.cfg.radioCount → a ≠ 0#48 → causeKnown cause = true →
       s.icu.install = .draining → s.findRecord a = some i → s.record i = some r → r.serving = .served radio →
       s.servedCount = 1 →
       ∃ t, exec (.disassoc radio a cause) s = .next t ∧
         t.icu = { s.icu with install := .staged, drainDeadline := none } ∧ t.lines.imageReady = true ∧
         t.servedCount = 0) ∧
     (∀ b, s.Takes .imageInstalled b →
       (s.icu.install = .staged → ∃ t, exec (.imageInstalled b) s = .next t ∧
         t.icu = { s.icu with marker := true, install := .done } ∧ t.lines.imageReady = false ∧
         (∃ r ∈ t.flp.waiting, r.kind = .headWrite) ∧
         t.lpi.response = some { kind := 9#8, result := .ok, body := [] } ∧
         t = { s with icu := t.icu, lines := t.lines, flp := { s.flp with waiting := t.flp.waiting }, lpi := t.lpi }) ∧
       (s.icu.install ≠ .staged → exec (.imageInstalled b) s = .next { s with lpi := { s.lpi with
         response := some { kind := 9#8, result := .refusedState, body := [] } } })) ∧
     (∀ d, s.icu.rewriteDeadline = some d → d ≤ s.now → (∀ r ∈ s.flp.waiting, r.kind ≠ .headWrite) →
       exec .rewriteDeadlineExpiry s = .next
         { s with
           icu := { s.icu with rewriteDeadline := none }
           flp := { s.flp with waiting := s.flp.waiting ++ [{ kind := .headWrite, discard := false }] } }))

/-- INTENT, DRAINING and STAGED are held only while the image is COMPLETE, and a drain deadline exactly while
DRAINING: once the start's reads of the configuration and head blocks are over, every command but a reset keeps it so.
From R149, R151, R153, R154, R155, R156. -/
def Obligations.StagedOnlyWhileComplete : Prop :=
  ∀ (s t : State) (c : Instr),
    (let started (u : State) : Prop :=
       (∀ r ∈ u.flp.waiting, r.kind ≠ .configRead ∧ r.kind ≠ .headRead) ∧
       (∀ o, u.flp.operation = some o → o.kind ≠ .configRead ∧ o.kind ≠ .headRead)
     let fits (u : State) : Prop :=
       (u.icu.install = .intent ∨ u.icu.install = .draining ∨ u.icu.install = .staged → u.ims.image = .complete) ∧
       (u.icu.drainDeadline.isSome ↔ u.icu.install = .draining)
     isReset c = false → started s → fits s → exec c s = .next t → started t ∧ fits t)

/-! ## Local port, events and faults (chapter 12) -/

/-- The reading requests of a running part, and in CONFIG-HALT STATUS, FAULT-READ and CLIENT-READ, are answered in the
response buffer, with the kind echoed, and change nothing else: STATUS, FAULT-READ, and by number POLICY-READ,
CLIENT-READ and NEIGHBOUR-READ, the last two EMPTY where the number is free and REFUSED-FIELD beyond the table. That a
CLIENT-READ selector other than 0 and 1 is refused is the model's choice (log entry 15). The response bodies, field by
field: each field stands at its byte of the body, most significant byte first; STATUS has 84 bytes, CLIENT-READ 103,
NEIGHBOUR-READ 37, FAULT-READ 9 and POLICY-READ 18. A deadline beyond the range of mesh time is sent as what Config
leaves free. HEAD_SUBMIT and CHUNK_SUBMIT: the answer of the first case that applies. Where it is a refusal, nothing
else changes, with one exception: a CHUNK_SUBMIT whose bytes fail their check also has free fetch slots filled, since
its buffer is freed; of that case the statement gives the answer, the buffers and the flash port alone. A head that is
taken is answered OK and becomes the current head, with IMAGE-HEAD (own id); during the scan a head newer than the one
held is held in its place, and any other is refused; a chunk that matches its check is answered OK, fills a free
buffer, asks for its program and frees a fetch slot for it. A deadline beyond the range of mesh time is a free value
(log entry 2); the bytes sent where no fault or release context is held are the model's choice (log entry 42). From
R103, R138, R141, R146, R160, R163, R164, R167. -/
def Obligations.PortRequestsAreAnswered : Prop :=
  (∀ (s : State) (b : List Byte), s.Settled →
     (let answered (kind : Byte) (result : Result) (body : List Byte) : Host.Outcome State Fault Refusal :=
        .next { s with lpi := { s.lpi with response := some { kind := kind, result := result, body := body } } }
      (s.Takes .status b → exec (.status b) s = answered 1#8 .ok s.statusBytes) ∧
      (s.Takes .faultRead b → exec (.faultRead b) s = answered 10#8 .ok (faultBytes s.frc)) ∧
      (s.Takes .policyRead b →
        (s.pst.loading = true → exec (.policyRead b) s = answered 4#8 .busy []) ∧
        (s.pst.loading = false → 96 < byteAt b 0 → exec (.policyRead b) s = answered 4#8 .refusedField []) ∧
        (s.pst.loading = false → byteAt b 0 ≤ 96 → exec (.policyRead b) s =
          answered 4#8 .ok (policyRecordBytes (byteAt b 0) (s.slot (byteAt b 0))))) ∧
      (s.Takes .clientRead b →
        (byteAt b 0 = 0 → 63 < byteAt b 1 → exec (.clientRead b) s = answered 5#8 .refusedField []) ∧
        (byteAt b 0 = 0 → byteAt b 1 ≤ 63 → s.record (byteAt b 1) = none →
          exec (.clientRead b) s = answered 5#8 .empty []) ∧
        (∀ r, byteAt b 0 = 0 → byteAt b 1 ≤ 63 → s.record (byteAt b 1) = some r →
          exec (.clientRead b) s =
            answered 5#8 .ok (clientBytes (byteAt b 1) r ((s.findClaim r.addr).bind s.claimAt))) ∧
        (byteAt b 0 = 1 → addrAt b 2 = 0#48 → exec (.clientRead b) s = answered 5#8 .refusedField []) ∧
        (byteAt b 0 = 1 → addrAt b 2 ≠ 0#48 → s.findRecord (addrAt b 2) = none →
          exec (.clientRead b) s = answered 5#8 .empty []) ∧
        (∀ i r, byteAt b 0 = 1 → addrAt b 2 ≠ 0#48 → s.findRecord (addrAt b 2) = some i → s.record i = some r →
          exec (.clientRead b) s = answered 5#8 .ok (clientBytes i r ((s.findClaim r.addr).bind s.claimAt))) ∧
        (1 < byteAt b 0 → exec (.clientRead b) s = answered 5#8 .refusedField [])) ∧
      (s.Takes .neighbourRead b →
        (7 < byteAt b 0 → exec (.neighbourRead b) s = answered 6#8 .refusedField []) ∧
        (byteAt b 0 ≤ 7 → s.entry (byteAt b 0) = none → exec (.neighbourRead b) s = answered 6#8 .empty []) ∧
        (∀ e, byteAt b 0 ≤ 7 → s.entry (byteAt b 0) = some e →
          exec (.neighbourRead b) s = answered 6#8 .ok (entryBytes (byteAt b 0) e))))) ∧
  (∀ (s : State),
     (let holds (body : List Byte) (length : Nat) (fields : List (Nat × Nat × Nat)) : Prop :=
        body.length = length ∧ ∀ f ∈ fields, fieldAt body f.1 f.2.1 = f.2.2 % 256 ^ f.2.1
      let bits (l : List Bool) : Nat := l.foldr (fun b n => b.toNat + 2 * n) 0
      let due (d : Option Nat) : Nat := match d with
        | some d => if d ≤ 2 ^ 40 - 1 then d else Config.lateDeadline d
        | none => 0
      let signed (x : Int) : Nat := (x % 65536).toNat
      let install (x : InstallState) : Nat :=
        match x with
        | .idle => 0 | .intent => 1 | .draining => 2 | .staged => 3 | .done => 4
      let image (x : ImageState) : Nat :=
        match x with
        | .empty => 0 | .indexing => 1 | .fetching => 2 | .complete => 3 | .fault => 4
      let group (g : Nat) : Nat :=
        match s.seu.groups[g]? with
        | some .blocked => 16
        | some (.capped c) => c
        | some .open => 0
        | none => 0
      (s.seu.groups.length = 8 → holds s.statusBytes 84
        [(0, 1, if s.run = .configHalt then 2 else 1), (1, 5, s.now),
         (6, 1, bits [s.mtb.synced, s.wallSeconds.isSome, decide (0 < s.gtm.servedGame) || decide (0 < s.gtm.peerGame),
           decide (0 < s.gtm.servedGame), decide (s.pst.persist ≠ .clean), s.flp.operation.isSome,
           s.icu.retryHoldoff.isSome]),
         (7, 4, s.wallSeconds.getD 0), (11, 1, image s.ims.image), (12, 1, install s.icu.install),
         (13, 1, s.gtm.servedGame), (14, 5, due s.icu.drainDeadline), (19, 1, group 0), (20, 1, group 1), (21, 1, group 2),
         (22, 1, group 3), (23, 1, group 4), (24, 1, group 5), (25, 1, group 6), (26, 1, group 7),
         (27, 1, (s.crg.records.filterMap id).countP ClientRecord.isServed), (28, 1, (s.hoc.contexts.filterMap id).length),
         (29, 1, s.flp.waiting.length), (30, 1, s.evq.drops), (31, 2, s.cfg.nodeId.toNat), (33, 1, s.cfg.radioCount),
         (34, 1, s.cfg.kCode), (35, 1, s.cfg.marginCode), (36, 1, s.cfg.nConf), (37, 1, s.cfg.beaconCode),
         (38, 1, s.cfg.errorCode), (39, 1, s.cfg.creditCode), (40, 1, s.cfg.gameCode), (41, 1, s.cfg.drainCode),
         (42, 1, s.cfg.flashCode), (43, 2, s.bcu.badFrames), (45, 2, s.bcu.nonMember), (47, 2, s.bcu.controlDrops),
         (49, 2, s.bcu.ownDrops), (51, 2, s.bcu.duplicateRequests), (53, 2, s.nbt.tableFull),
         (55, 2, s.crg.refusedAssociations), (57, 2, s.crg.unplacedSightings), (59, 2, s.crg.invalidEntries),
         (61, 2, s.hoc.malformed), (63, 2, s.pst.excessLists), (65, 2, s.pst.malformed), (67, 2, s.pst.invalidRecords),
         (69, 2, s.gtm.invalidTraffic), (71, 2, s.gtm.unmatchedTraffic), (73, 2, s.ims.refusedHeads),
         (75, 2, s.ims.unmatchedChunks), (77, 2, s.ims.lostChunks), (79, 2, s.ims.checkFailures),
         (81, 2, s.ims.ignoredFetches), (83, 1, s.ownLoad)]) ∧
      (∀ n (r : ClientRecord) (claim : Option ClaimContext), r.reports.length ≤ 3 →
        (let report (k : Nat) : List (Nat × Nat × Nat) :=
           match r.reports[k]? with
           | none => [(24 + 10 * k, 2, 0), (26 + 10 * k, 2, 0), (28 + 10 * k, 1, 0), (29 + 10 * k, 5, 0)]
           | some p =>
             [(24 + 10 * k, 2, p.peer.toNat), (26 + 10 * k, 2, signed p.level), (28 + 10 * k, 1, bits [p.served, p.game]),
              (29 + 10 * k, 5, p.time)]
         holds (clientBytes n r claim) 103
           ([(0, 1, n), (1, 6, r.addr.toNat),
             (7, 1, match r.serving with
               | .served _ => 1 | .remote _ => 2 | .unseen => 3),
             (8, 2, match r.serving with
               | .served radio => radio | .remote p => p.toNat | .unseen => 0),
             (10, 1, bits [r.admitPending.isSome, r.localLevel.isSome, r.sightTime.isSome, r.claimHoldoff.isSome,
               r.release.isSome, r.gameActive, r.remoteDeadline.isSome, r.carriedPause.isSome]),
             (11, 5, due r.admitPending), (16, 2, signed (r.localLevel.getD 0)), (18, 5, r.sightTime.getD 0),
             (23, 1, r.reports.length)] ++ report 0 ++ report 1 ++ report 2 ++
            [(54, 4, r.epoch), (58, 1, r.confirm), (59, 5, due r.claimHoldoff),
             (64, 2, (r.release.map fun c => c.claimant.toNat).getD 0), (66, 1, (r.release.map ReleaseContext.seq).getD 0),
             (67, 5, due (r.release.map ReleaseContext.deadline)), (72, 1, r.group),
             (73, 1, match r.cls with
               | .auto => 0 | .game => 1 | .noGame => 2),
             (74, 1, r.evidence),
             (75, 1, match r.effective with
               | .open => 0 | .paused => 16 | .capped c => c),
             (76, 5, r.lastActivity), (81, 5, due r.remoteDeadline), (86, 4, r.carriedPause.getD 0),
             (90, 1, match r.directed with
               | .normal => 0 | .game => 1),
             (91, 1, match claim.map ClaimContext.state with
               | none => 0 | some .claiming => 1 | some .admitting => 2),
             (92, 2, (claim.map fun c => c.server.toNat).getD 0), (94, 1, (claim.map ClaimContext.seq).getD 0),
             (95, 2, (claim.map fun c => signed c.score).getD 0),
             (97, 1, match r.pendingControl with
               | none => 0 | some (.steer _) => 1 | some .disconnect => 2),
             (98, 2, match r.pendingControl with
               | some (.steer p) => p.toNat | some .disconnect => 0 | none => 0),
             (100, 1, match r.pendingEnforcement with
               | none => 0 | some .pause => 1 | some .resume => 2 | some (.cap _) => 3),
             (101, 1, match r.pendingEnforcement with
               | some (.cap c) => c | some .pause => 0 | some .resume => 0 | none => 0),
             (102, 1, match r.pendingPriority with
               | none => 0 | some .normal => 1 | some .game => 2)]))) ∧
      (∀ n (e : Entry), holds (entryBytes n e) 37
        [(0, 1, n), (1, 2, e.id.toNat),
         (3, 1, match e.link with
           | .heard => 1 | .active => 2 | .failing => 3),
         (4, 1, e.joinCount), (5, 1, e.missCount), (6, 1, e.badFrames), (7, 1, e.goodRun), (8, 5, due (some e.dueDeadline)),
         (13, 1, e.sinceWindow), (14, 1, e.adv.load),
         (15, 1, bits [e.adv.gameActive, e.adv.drainIntent, e.adv.clockValid, e.answered, e.listGuard.isSome]),
         (16, 1, install e.adv.install), (17, 1, image e.adv.image), (18, 4, e.adv.imageId), (22, 2, e.adv.imageVersion),
         (24, 4, e.adv.segments.toNat), (28, 2, e.adv.digest), (30, 1, e.adv.servedCount), (31, 1, e.fetchFails),
         (32, 5, due e.listGuard)]) ∧
      (∀ f : Frc, holds (faultBytes f) 9
        [(0, 1, match f.first.map FaultRecord.kind with
           | none => 0 | some .configBad => 1 | some .storeVerify => 2 | some .flashNoResponse => 3
           | some .policyImageBad => 4 | some .patrolBadChunk => 5),
         (1, 1, match f.first.map FaultRecord.cls with
           | none => 0 | some .fatal => 1 | some .degraded => 2 | some .corrected => 3),
         (2, 5, (f.first.map FaultRecord.time).getD 0), (7, 1, (f.first.map FaultRecord.detail).getD 0),
         (8, 1, f.later.toNat)]) ∧
      (∀ n (x : Slot), holds (policyRecordBytes n x) 18
        ([(0, 1, n), (2, 2, x.stamp.counter), (4, 2, x.stamp.origin.toNat)] ++
         match x.content with
         | .empty => [(1, 1, 0), (6, 12, 0)]
         | .tombstone => [(1, 1, 2), (6, 12, 0)]
         | .window w =>
           [(1, 1, 1),
            (6, 1, match w.action with
              | .block => 1 | .limit => 2 | .install => 3),
            (7, 1, w.groups.toNat), (8, 1, w.days.toNat), (9, 2, w.startMinute), (11, 2, w.stopMinute), (13, 1, w.cap),
            (14, 4, 0)]
         | .device d =>
           [(1, 1, 1), (6, 6, d.addr.toNat), (12, 1, d.group),
            (13, 1, match d.cls with
              | .auto => 0 | .game => 1 | .noGame => 2),
            (14, 4, d.pauseUntil)]
         | .clock c => [(1, 1, 1), (6, 4, c.seconds), (10, 5, c.meshTime), (15, 3, 0)])))) ∧
  (∀ (s : State) (b : List Byte), s.Settled → s.Sound →
     (let answered (kind : Byte) (result : Result) : Host.Outcome State Fault Refusal :=
        .next { s with lpi := { s.lpi with response := some { kind := kind, result := result, body := [] } } }
      let h := parseHead b
      (s.Takes .headSubmit b →
        (h.valid = false → exec (.headSubmit b) s = answered 7#8 .refusedField) ∧
        (h.valid = true → flashCapacity s.cfg < h.chunkCount → exec (.headSubmit b) s = answered 7#8 .tooLarge) ∧
        (h.valid = true → h.chunkCount ≤ flashCapacity s.cfg → s.ims.scan = .off →
          (∃ x, s.ims.head = some x ∧ h.newerThan x = false) ∨ s.icu.install = .staged →
          exec (.headSubmit b) s = answered 7#8 .refusedState) ∧
        (∀ y, h.valid = true → h.chunkCount ≤ flashCapacity s.cfg → s.ims.scan ≠ .off → s.ims.heldHead = some y →
          h.newerThan y.head = false → exec (.headSubmit b) s = answered 7#8 .refusedState) ∧
        (h.valid = true → h.chunkCount ≤ flashCapacity s.cfg → s.ims.scan ≠ .off →
          (∀ y, s.ims.heldHead = some y → h.newerThan y.head = true) → exec (.headSubmit b) s = .next
            { s with
              ims := { s.ims with heldHead := some { head := h, sender := none } }
              lpi := { s.lpi with response := some { kind := 7#8, result := .ok, body := [] } } }) ∧
        (h.valid = true → h.chunkCount ≤ flashCapacity s.cfg → s.ims.scan = .off →
          (∀ x, s.ims.head = some x → h.newerThan x = true) → s.icu.install ≠ .staged →
          ∃ t, exec (.headSubmit b) s = .next t ∧ t.ims.head = some h ∧ t.ims.image = .indexing ∧
            t.evq = ((if s.icu.install = .draining then s.queueEvent .drainAbort (nodeSubject s.cfg.nodeId) 4 else s).queueEvent
              .imageHead (nodeSubject s.cfg.nodeId) 0).evq ∧
            t.lpi.response = some { kind := 7#8, result := .ok, body := [] })) ∧
      (∀ (x : Head) (c : ChunkRef), inImage x c = true ↔
        match c with
        | .data k => k < x.chunkCount
        | .index i => i < x.indexCount) ∧
      (∀ c, s.ims.submittable c = true ↔ s.ims.isPresent c = false ∧ s.ims.checkable c = true ∧
        ∀ stage bytes check, Buffer.held stage c bytes check false ∉ s.ims.buffers) ∧
      (s.Takes .chunkSubmit b →
        (s.ims.scan ≠ .off → exec (.chunkSubmit b) s = answered 8#8 .busy) ∧
        (s.ims.scan = .off → s.ims.image ≠ .indexing → s.ims.image ≠ .fetching →
          exec (.chunkSubmit b) s = answered 8#8 .refusedState) ∧
        (∀ x, s.ims.scan = .off → (s.ims.image = .indexing ∨ s.ims.image = .fetching) → s.ims.head = some x →
          (fieldAt b 0 4 ≠ x.imageId ∨ fieldAt b 4 2 ≠ x.version ∨ ∀ c, parseChunkRef b = some c → inImage x c = false) →
          exec (.chunkSubmit b) s = answered 8#8 .refusedField) ∧
        (∀ x c, s.ims.scan = .off → (s.ims.image = .indexing ∨ s.ims.image = .fetching) → s.ims.head = some x →
          fieldAt b 0 4 = x.imageId → fieldAt b 4 2 = x.version → parseChunkRef b = some c → inImage x c = true →
          (s.ims.submittable c = false → exec (.chunkSubmit b) s = answered 8#8 .refusedState) ∧
          (s.ims.submittable c = true → s.ims.freeBuffer = none → exec (.chunkSubmit b) s = answered 8#8 .busy) ∧
          (∀ k, s.ims.submittable c = true → s.ims.freeBuffer = some k →
            s.ims.expectedCheck c ≠ some (crc32 (b.drop 9)) →
            ∃ t, exec (.chunkSubmit b) s = .next t ∧
              t.lpi.response = some { kind := 8#8, result := .refusedField, body := [] } ∧
              t.ims.buffers = s.ims.buffers ∧ t.flp = s.flp) ∧
          (∀ k, s.ims.submittable c = true → s.ims.freeBuffer = some k →
            s.ims.expectedCheck c = some (crc32 (b.drop 9)) →
            ∃ t, exec (.chunkSubmit b) s = .next t ∧
              t.lpi.response = some { kind := 8#8, result := .ok, body := [] } ∧
              t.ims.buffers = s.ims.buffers.set k (.held .filled c (b.drop 9) (crc32 (b.drop 9)) false) ∧
              (∀ i y, slotAt t.ims.fetches i = some y → y.chunk ≠ c) ∧
              t.flp = { s.flp with waiting := s.flp.waiting ++ [{ kind := .program k, discard := false }] })))))

/-- The event queue: an event joins the tail with the low 32 bits of the mesh time, or at 32 records is dropped and
counted up to 255; EVENT_READ, taken while running and in CONFIG-HALT, answers with the head record and removes it, or
EMPTY; EVENT-PENDING is asserted exactly while a record waits. The fault record: a fault fills an empty first record;
one of a higher class takes its place and sets the flag of the fault it displaces; any other sets its own flag. Each
queues a FAULT event. FAULT is asserted exactly while the first record is FATAL or DEGRADED; FAULT_CLEAR empties the
record and the flags, and nothing else. RESPONSE_READ, and requests that no block answers: the read gives the host the
response and empties the buffer, and an empty buffer gives nothing; an unknown kind, and a known one with a body of
the wrong length, are answered REFUSED-FIELD with the kind echoed. That a read of an empty response buffer gives
nothing and changes nothing is the model's choice (log entry 50); that UNKNOWN_REQUEST takes a known kind as that
request is inferred (log entry 13). From R160, R163, R165, R166. -/
def Obligations.EventsFaultsAndResponses : Prop :=
  (∀ (s : State), s.Settled →
     (∀ kind subject detail,
       (s.evq.events.length < 32 → s.queueEvent kind subject detail =
         { s with evq := { s.evq with events := s.evq.events ++
             [{ kind := kind, time := s.now % 2 ^ 32, subject := subject, detail := detail }] } }) ∧
       (32 ≤ s.evq.events.length → s.queueEvent kind subject detail =
         { s with evq := { s.evq with drops := min (s.evq.drops + 1) 255 } })) ∧
     (∀ b e rest body, s.Takes .eventRead b → s.evq.events = e :: rest →
       body = be 1 (eventCode e.kind) ++ be 4 e.time ++ be 6 e.subject.toNat ++ be 1 e.detail →
       exec (.eventRead b) s = .next
       { s with
         evq := { s.evq with events := rest }
         lpi := { s.lpi with response := some { kind := 2#8, result := .ok, body := body } }
         lines := { s.lines with eventPending := !rest.isEmpty } }) ∧
     (∀ b, s.Takes .eventRead b → s.evq.events = [] → exec (.eventRead b) s = .next
       { s with lpi := { s.lpi with response := some { kind := 2#8, result := .empty, body := [] } } }) ∧
     (s.lines.eventPending = true ↔ s.evq.events ≠ [])) ∧
  (∀ (s : State) (kind : FaultKind) (detail : Nat), s.Settled →
     (let new : FaultRecord := { kind := kind, cls := faultClassOf kind, time := s.now, detail := detail }
      let told (frc : Frc) : State :=
        State.queueEvent { s with frc := frc } .fault (nodeSubject s.cfg.nodeId) (faultCode kind)
      (s.frc.first = none → s.recordFault kind detail = told { s.frc with first := some new }) ∧
      (∀ held, s.frc.first = some held → faultClassRank held.cls < faultClassRank (faultClassOf kind) →
        s.recordFault kind detail =
          told { first := some new, later := s.frc.later ||| (1#5 <<< (faultCode held.kind - 1)) }) ∧
      (∀ held, s.frc.first = some held → faultClassRank (faultClassOf kind) ≤ faultClassRank held.cls →
        s.recordFault kind detail = told { s.frc with later := s.frc.later ||| (1#5 <<< (faultCode kind - 1)) }) ∧
      (s.lines.fault = true ↔ ∃ held, s.frc.first = some held ∧ held.cls ≠ .corrected) ∧
      (∀ b, s.Takes .faultClear b → exec (.faultClear b) s = .next
        { s with
          frc := { first := none, later := 0#5 }
          lpi := { s.lpi with response := some { kind := 11#8, result := .ok, body := [] } }
          lines := { s.lines with fault := false } }))) ∧
  (∀ (s : State), s.Settled → s.run = .running →
     (∀ r, s.lpi.response = some r → exec .responseRead s = .next
       { s with lpi := { s.lpi with response := none }, sent := s.sent ++ [.response r] }) ∧
     (s.lpi.response = none → exec .responseRead s = .next s) ∧
     (∀ kind b, (kind = 0#8 ∨ 12 < kind.toNat) → exec (.unknownRequest kind b) s = .next
       { s with lpi := { s.lpi with response := some { kind := kind, result := .refusedField, body := [] } } }) ∧
     (∀ kind b, b.length ≠ requestLength kind →
       exec (requestCommand kind b) s = .next
         { s with lpi := { s.lpi with response := some (.mk (BitVec.ofNat 8 (requestCode kind)) .refusedField []) } } ∧
       exec (.unknownRequest (BitVec.ofNat 8 (requestCode kind)) b) s = exec (requestCommand kind b) s))

/-- RESTART and RESTART_NOTICE: the request gives every block its notice and queues RESTARTED; each block that takes
one sets its link-restart values, of which these are the outright ones: the notice of the MTB, PST but for its counts,
SEU, RLI, LPI, EVQ, FRC and FLP changes nothing; the neighbour table is empty, the claimant and release contexts are
gone, no record is REMOTE, reserved or holds a report, and every SERVED record stays. The BCU is as after a full reset
but for its credit, its refill deadline and its view of the yield condition; it answers each occupied request slot
that is not in flight with ACCESS-DROP and queries the medium. The notices of the BCU and of the IMS make every serve
read void: a waiting one goes, and the result of a running one will be discarded; the IMS frees its fetch slots and
reservations. The ICU leaves INTENT and DRAINING for IDLE, the latter with DRAIN-ABORT (RESTART), and its other
install states stay. What each notice does when the blocks take them apart, and that a notice not given has no effect,
are in part the model's choice (log entries 8 and 36); the first build's jitter is a free value within its range (log
entry 1). The order of what the BCU's notice sends is the model's choice (log entry 41). That the BCU and the IMS keep
their view of the yield condition is the model's choice (log entry 10). From R16, R21, R38, R49, R53, R67, R73, R96,
R133, R148, R158, R162. -/
def Obligations.RestartNotices : Prop :=
  ∀ (s : State), s.Settled → s.Sound →
    (∀ b, s.Takes .restart b → exec (.restart b) s = .next
      (State.queueEvent
        { s with
          restartNotices := s.restartNotices ++
            [.bcu, .nbt, .mtb, .crg, .rse, .hoc, .pst, .seu, .gtm, .ims, .icu, .rli, .lpi, .evq, .frc, .flp]
          lpi := { s.lpi with response := some { kind := 12#8, result := .ok, body := [] } } }
        .restarted (nodeSubject s.cfg.nodeId) 0).driveLines) ∧
    (∀ x, x ∉ s.restartNotices → exec (.restartNotice x) s = .next s) ∧
    (∀ x, x ∈ s.restartNotices →
      let withoutServes : Flp :=
        { waiting := s.flp.waiting.filter fun r =>
            match r.kind with
            | .serveRead _ _ => false
            | _ => true
          operation := s.flp.operation.map fun o =>
            match o.kind with
            | .serveRead _ _ => { o with discard := true }
            | _ => o }
      let dropped (c : AccessClass) (slot : Option Nat) : List Output :=
        if s.bcu.inFlight = some c then [] else slot.toList.map .accessDrop
      ∃ t, exec (.restartNotice x) s = .next t ∧ t.restartNotices = s.restartNotices.erase x ∧
        t.now = s.now ∧ t.frc = s.frc ∧ t.pst.slots = s.pst.slots ∧
        ((x = .mtb ∨ x = .seu ∨ x = .rli ∨ x = .lpi ∨ x = .evq ∨ x = .frc ∨ x = .flp) →
          t = { s with restartNotices := t.restartNotices }) ∧
        (x = .pst → t = { s with
          restartNotices := t.restartNotices
          pst := { s.pst with excessLists := 0, malformed := 0, invalidRecords := 0 } }) ∧
        (x = .nbt → (∀ i, t.entry i = none) ∧ t.nbt.clashHoldoff = none ∧ t.nbt.tableFull = 0 ∧ t.gtm.peerGame = 0 ∧
          t.nbt.buildDeadline = some (s.now + Config.draw s.draws % 256)) ∧
        (x = .crg → t.crg.sightingsDeadline = some (s.now + 256) ∧ t.crg.servedCursor = 63 ∧
          (∀ i r, s.record i = some r → r.isServed = true →
            t.record i = some { r with reports := [], admitPending := none, confirm := 0 }) ∧
          (∀ i r', t.record i = some r' → r'.reports = [] ∧ r'.admitPending = none ∧
            ∀ p, r'.serving ≠ .remote p)) ∧
        (x = .rse → t.rse.evaluationDeadline = some (s.now + 128) ∧ ∀ i r', t.record i = some r' → r'.confirm = 0) ∧
        (x = .hoc → (∀ k, t.claimAt k = none) ∧ t.hoc.seqCounter = s.hoc.seqCounter ∧ t.evq = s.evq ∧
          ∀ i r', t.record i = some r' → r'.release = none) ∧
        (x = .gtm → t = { s with
          restartNotices := t.restartNotices, gtm := { s.gtm with invalidTraffic := 0, unmatchedTraffic := 0 } }) ∧
        (x = .bcu → t.bcu.medium = .busy ∧ t.bcu.inFlight = none ∧ t.bcu.controlQueue = [] ∧ t.bcu.bulkQueue = [] ∧
          t.bcu.gameSlot = none ∧ t.bcu.normalSlot = none ∧ t.bcu.demoted = false ∧
          (∀ c, t.bcu.contention c =
            { window := (classParams c).windowMin, retry := 0, deferral := (classParams c).deferral, backoff := none }) ∧
          t.bcu.badFrames = 0 ∧ t.bcu.nonMember = 0 ∧ t.bcu.controlDrops = 0 ∧ t.bcu.ownDrops = 0 ∧
          t.bcu.duplicateRequests = 0 ∧ t.bcu.airtime = [[], [], []] ∧ t.bcu.credit = creditCapacity s.cfg ∧
          t.bcu.refillDeadline = some (s.now + 64) ∧ t.flp = withoutServes ∧
          t.sent = s.sent ++ dropped .game s.bcu.gameSlot ++ dropped .normal s.bcu.normalSlot ++ [.mediumQuery] ∧
          t = { s with restartNotices := t.restartNotices, bcu := t.bcu, flp := t.flp, sent := t.sent }) ∧
        (x = .ims → t.ims =
            { s.ims with
              fetches := [none, none, none, none], halvingDeadline := some (s.now + 16384), refusedHeads := 0
              unmatchedChunks := 0, lostChunks := 0, checkFailures := 0, ignoredFetches := 0 } ∧
          t.flp = withoutServes ∧ t.bcu.bulkQueue = s.bcu.bulkQueue.filter BulkPlace.isFilled ∧
          t = { s with restartNotices := t.restartNotices, ims := t.ims, flp := t.flp, bcu := { s.bcu with
            bulkQueue := t.bcu.bulkQueue, bulkState := t.bcu.bulkState } }) ∧
        (x = .icu →
          t.icu =
            (if s.icu.install = .intent ∨ s.icu.install = .draining then
              { s.icu with install := .idle, intentCount := 0, drainDeadline := none }
            else { s.icu with intentCount := 0 }) ∧
          t.evq = (if s.icu.install = .draining then s.queueEvent .drainAbort (nodeSubject s.cfg.nodeId) 5 else s).evq ∧
          t = { s with restartNotices := t.restartNotices, icu := t.icu, evq := t.evq, lines := t.lines }))

/-! ## The whole machine -/

/-- Every command keeps the part sound: table sizes, no client or peer held twice, each count and contention window
within its bound, the deadlines of each serving state, the digest over the stamps; and leaves the outputs settled.
Every step, whether it takes a command or makes a cycle of the reference, keeps the part sound and settled. From R22,
R39, R52, R54, R63, R80, R97, R104, R139, R141, R165, R166. -/
def Obligations.StepKeepsSettled : Prop :=
  (∀ (s t : State) (c : Instr), s.Sound → exec c s = .next t → t.Sound ∧ (s.Settled → t.Settled)) ∧
  (∀ s : State, s.Sound → s.Settled → ∃ t, step s = .next t ∧ t.Sound ∧ t.Settled)

/-- The state after a full reset is sound and settled. From R161. -/
def Obligations.ResetIsSound : Prop := State.reset.Sound ∧ State.reset.Settled

/-- Between full resets mesh time never decreases; it moves only at a tick, by at most one, and at a beacon, once the
node is synced by at most 1024; bytes given by BAD_FRAME_RECEIVED that hold a beacon are taken as one. CONFIG-HALT is
left only by a full reset. That BAD_FRAME_RECEIVED takes bytes that hold a good frame as that frame is inferred (log
entry 13). From R39, R40, R41, R42, R160, R161. -/
def Obligations.HaltAndTimeAreOneWay : Prop :=
  (∀ (s t : State) (c : Instr), s.Sound → isReset c = false → exec c s = .next t →
     s.now ≤ t.now ∧ t.now ≤ 2 ^ 40 - 1 ∧ (c = .tick → t.now ≤ s.now + 1) ∧ (s.mtb.synced = true → t.now ≤ s.now + 1024) ∧
     (c ≠ .tick → (∀ link f, c ≠ .beacon link f) → (∀ link bytes, c ≠ .badFrameReceived link bytes) → t.now = s.now)) ∧
  (∀ (s t : State) (c : Instr), s.run = .configHalt → s.flp.NoConfigRead → isReset c = false → exec c s = .next t →
     t.run = .configHalt ∧ t.flp.NoConfigRead ∧ t.cfg = s.cfg)
end

