-- ==== Sys2Proof/Laws/State.lean ====
section
/-! SUPPORT. One lemma per field per update of the state: what each update of one block leaves alone and what it writes. -/

set_option Elab.async false

namespace Sys2Proof.Machine

open Sys2Proof

variable (s : State)

/-! ## `modBcu` -/

@[simp] theorem State.modBcu_run (f : Bcu → Bcu) : (s.modBcu f).run = s.run := rfl
@[simp] theorem State.modBcu_cfg (f : Bcu → Bcu) : (s.modBcu f).cfg = s.cfg := rfl
@[simp] theorem State.modBcu_bcu (f : Bcu → Bcu) : (s.modBcu f).bcu = f s.bcu := rfl
@[simp] theorem State.modBcu_nbt (f : Bcu → Bcu) : (s.modBcu f).nbt = s.nbt := rfl
@[simp] theorem State.modBcu_mtb (f : Bcu → Bcu) : (s.modBcu f).mtb = s.mtb := rfl
@[simp] theorem State.modBcu_crg (f : Bcu → Bcu) : (s.modBcu f).crg = s.crg := rfl
@[simp] theorem State.modBcu_rli (f : Bcu → Bcu) : (s.modBcu f).rli = s.rli := rfl
@[simp] theorem State.modBcu_rse (f : Bcu → Bcu) : (s.modBcu f).rse = s.rse := rfl
@[simp] theorem State.modBcu_hoc (f : Bcu → Bcu) : (s.modBcu f).hoc = s.hoc := rfl
@[simp] theorem State.modBcu_pst (f : Bcu → Bcu) : (s.modBcu f).pst = s.pst := rfl
@[simp] theorem State.modBcu_seu (f : Bcu → Bcu) : (s.modBcu f).seu = s.seu := rfl
@[simp] theorem State.modBcu_gtm (f : Bcu → Bcu) : (s.modBcu f).gtm = s.gtm := rfl
@[simp] theorem State.modBcu_ims (f : Bcu → Bcu) : (s.modBcu f).ims = s.ims := rfl
@[simp] theorem State.modBcu_icu (f : Bcu → Bcu) : (s.modBcu f).icu = s.icu := rfl
@[simp] theorem State.modBcu_flp (f : Bcu → Bcu) : (s.modBcu f).flp = s.flp := rfl
@[simp] theorem State.modBcu_lpi (f : Bcu → Bcu) : (s.modBcu f).lpi = s.lpi := rfl
@[simp] theorem State.modBcu_evq (f : Bcu → Bcu) : (s.modBcu f).evq = s.evq := rfl
@[simp] theorem State.modBcu_frc (f : Bcu → Bcu) : (s.modBcu f).frc = s.frc := rfl
@[simp] theorem State.modBcu_lines (f : Bcu → Bcu) : (s.modBcu f).lines = s.lines := rfl
@[simp] theorem State.modBcu_wallNotices (f : Bcu → Bcu) : (s.modBcu f).wallNotices = s.wallNotices := rfl
@[simp] theorem State.modBcu_yieldNoticesBcu (f : Bcu → Bcu) : (s.modBcu f).yieldNoticesBcu = s.yieldNoticesBcu := rfl
@[simp] theorem State.modBcu_yieldNoticesIms (f : Bcu → Bcu) : (s.modBcu f).yieldNoticesIms = s.yieldNoticesIms := rfl
@[simp] theorem State.modBcu_restartNotices (f : Bcu → Bcu) : (s.modBcu f).restartNotices = s.restartNotices := rfl
@[simp] theorem State.modBcu_sent (f : Bcu → Bcu) : (s.modBcu f).sent = s.sent := rfl
@[simp] theorem State.modBcu_draws (f : Bcu → Bcu) : (s.modBcu f).draws = s.draws := rfl
@[simp] theorem State.modBcu_pending (f : Bcu → Bcu) : (s.modBcu f).pending = s.pending := rfl

/-! ## `modNbt` -/

@[simp] theorem State.modNbt_run (f : Nbt → Nbt) : (s.modNbt f).run = s.run := rfl
@[simp] theorem State.modNbt_cfg (f : Nbt → Nbt) : (s.modNbt f).cfg = s.cfg := rfl
@[simp] theorem State.modNbt_bcu (f : Nbt → Nbt) : (s.modNbt f).bcu = s.bcu := rfl
@[simp] theorem State.modNbt_nbt (f : Nbt → Nbt) : (s.modNbt f).nbt = f s.nbt := rfl
@[simp] theorem State.modNbt_mtb (f : Nbt → Nbt) : (s.modNbt f).mtb = s.mtb := rfl
@[simp] theorem State.modNbt_crg (f : Nbt → Nbt) : (s.modNbt f).crg = s.crg := rfl
@[simp] theorem State.modNbt_rli (f : Nbt → Nbt) : (s.modNbt f).rli = s.rli := rfl
@[simp] theorem State.modNbt_rse (f : Nbt → Nbt) : (s.modNbt f).rse = s.rse := rfl
@[simp] theorem State.modNbt_hoc (f : Nbt → Nbt) : (s.modNbt f).hoc = s.hoc := rfl
@[simp] theorem State.modNbt_pst (f : Nbt → Nbt) : (s.modNbt f).pst = s.pst := rfl
@[simp] theorem State.modNbt_seu (f : Nbt → Nbt) : (s.modNbt f).seu = s.seu := rfl
@[simp] theorem State.modNbt_gtm (f : Nbt → Nbt) : (s.modNbt f).gtm = s.gtm := rfl
@[simp] theorem State.modNbt_ims (f : Nbt → Nbt) : (s.modNbt f).ims = s.ims := rfl
@[simp] theorem State.modNbt_icu (f : Nbt → Nbt) : (s.modNbt f).icu = s.icu := rfl
@[simp] theorem State.modNbt_flp (f : Nbt → Nbt) : (s.modNbt f).flp = s.flp := rfl
@[simp] theorem State.modNbt_lpi (f : Nbt → Nbt) : (s.modNbt f).lpi = s.lpi := rfl
@[simp] theorem State.modNbt_evq (f : Nbt → Nbt) : (s.modNbt f).evq = s.evq := rfl
@[simp] theorem State.modNbt_frc (f : Nbt → Nbt) : (s.modNbt f).frc = s.frc := rfl
@[simp] theorem State.modNbt_lines (f : Nbt → Nbt) : (s.modNbt f).lines = s.lines := rfl
@[simp] theorem State.modNbt_wallNotices (f : Nbt → Nbt) : (s.modNbt f).wallNotices = s.wallNotices := rfl
@[simp] theorem State.modNbt_yieldNoticesBcu (f : Nbt → Nbt) : (s.modNbt f).yieldNoticesBcu = s.yieldNoticesBcu := rfl
@[simp] theorem State.modNbt_yieldNoticesIms (f : Nbt → Nbt) : (s.modNbt f).yieldNoticesIms = s.yieldNoticesIms := rfl
@[simp] theorem State.modNbt_restartNotices (f : Nbt → Nbt) : (s.modNbt f).restartNotices = s.restartNotices := rfl
@[simp] theorem State.modNbt_sent (f : Nbt → Nbt) : (s.modNbt f).sent = s.sent := rfl
@[simp] theorem State.modNbt_draws (f : Nbt → Nbt) : (s.modNbt f).draws = s.draws := rfl
@[simp] theorem State.modNbt_pending (f : Nbt → Nbt) : (s.modNbt f).pending = s.pending := rfl

/-! ## `modMtb` -/

@[simp] theorem State.modMtb_run (f : Mtb → Mtb) : (s.modMtb f).run = s.run := rfl
@[simp] theorem State.modMtb_cfg (f : Mtb → Mtb) : (s.modMtb f).cfg = s.cfg := rfl
@[simp] theorem State.modMtb_bcu (f : Mtb → Mtb) : (s.modMtb f).bcu = s.bcu := rfl
@[simp] theorem State.modMtb_nbt (f : Mtb → Mtb) : (s.modMtb f).nbt = s.nbt := rfl
@[simp] theorem State.modMtb_mtb (f : Mtb → Mtb) : (s.modMtb f).mtb = f s.mtb := rfl
@[simp] theorem State.modMtb_crg (f : Mtb → Mtb) : (s.modMtb f).crg = s.crg := rfl
@[simp] theorem State.modMtb_rli (f : Mtb → Mtb) : (s.modMtb f).rli = s.rli := rfl
@[simp] theorem State.modMtb_rse (f : Mtb → Mtb) : (s.modMtb f).rse = s.rse := rfl
@[simp] theorem State.modMtb_hoc (f : Mtb → Mtb) : (s.modMtb f).hoc = s.hoc := rfl
@[simp] theorem State.modMtb_pst (f : Mtb → Mtb) : (s.modMtb f).pst = s.pst := rfl
@[simp] theorem State.modMtb_seu (f : Mtb → Mtb) : (s.modMtb f).seu = s.seu := rfl
@[simp] theorem State.modMtb_gtm (f : Mtb → Mtb) : (s.modMtb f).gtm = s.gtm := rfl
@[simp] theorem State.modMtb_ims (f : Mtb → Mtb) : (s.modMtb f).ims = s.ims := rfl
@[simp] theorem State.modMtb_icu (f : Mtb → Mtb) : (s.modMtb f).icu = s.icu := rfl
@[simp] theorem State.modMtb_flp (f : Mtb → Mtb) : (s.modMtb f).flp = s.flp := rfl
@[simp] theorem State.modMtb_lpi (f : Mtb → Mtb) : (s.modMtb f).lpi = s.lpi := rfl
@[simp] theorem State.modMtb_evq (f : Mtb → Mtb) : (s.modMtb f).evq = s.evq := rfl
@[simp] theorem State.modMtb_frc (f : Mtb → Mtb) : (s.modMtb f).frc = s.frc := rfl
@[simp] theorem State.modMtb_lines (f : Mtb → Mtb) : (s.modMtb f).lines = s.lines := rfl
@[simp] theorem State.modMtb_wallNotices (f : Mtb → Mtb) : (s.modMtb f).wallNotices = s.wallNotices := rfl
@[simp] theorem State.modMtb_yieldNoticesBcu (f : Mtb → Mtb) : (s.modMtb f).yieldNoticesBcu = s.yieldNoticesBcu := rfl
@[simp] theorem State.modMtb_yieldNoticesIms (f : Mtb → Mtb) : (s.modMtb f).yieldNoticesIms = s.yieldNoticesIms := rfl
@[simp] theorem State.modMtb_restartNotices (f : Mtb → Mtb) : (s.modMtb f).restartNotices = s.restartNotices := rfl
@[simp] theorem State.modMtb_sent (f : Mtb → Mtb) : (s.modMtb f).sent = s.sent := rfl
@[simp] theorem State.modMtb_draws (f : Mtb → Mtb) : (s.modMtb f).draws = s.draws := rfl
@[simp] theorem State.modMtb_pending (f : Mtb → Mtb) : (s.modMtb f).pending = s.pending := rfl

/-! ## `modCrg` -/

@[simp] theorem State.modCrg_run (f : Crg → Crg) : (s.modCrg f).run = s.run := rfl
@[simp] theorem State.modCrg_cfg (f : Crg → Crg) : (s.modCrg f).cfg = s.cfg := rfl
@[simp] theorem State.modCrg_bcu (f : Crg → Crg) : (s.modCrg f).bcu = s.bcu := rfl
@[simp] theorem State.modCrg_nbt (f : Crg → Crg) : (s.modCrg f).nbt = s.nbt := rfl
@[simp] theorem State.modCrg_mtb (f : Crg → Crg) : (s.modCrg f).mtb = s.mtb := rfl
@[simp] theorem State.modCrg_crg (f : Crg → Crg) : (s.modCrg f).crg = f s.crg := rfl
@[simp] theorem State.modCrg_rli (f : Crg → Crg) : (s.modCrg f).rli = s.rli := rfl
@[simp] theorem State.modCrg_rse (f : Crg → Crg) : (s.modCrg f).rse = s.rse := rfl
@[simp] theorem State.modCrg_hoc (f : Crg → Crg) : (s.modCrg f).hoc = s.hoc := rfl
@[simp] theorem State.modCrg_pst (f : Crg → Crg) : (s.modCrg f).pst = s.pst := rfl
@[simp] theorem State.modCrg_seu (f : Crg → Crg) : (s.modCrg f).seu = s.seu := rfl
@[simp] theorem State.modCrg_gtm (f : Crg → Crg) : (s.modCrg f).gtm = s.gtm := rfl
@[simp] theorem State.modCrg_ims (f : Crg → Crg) : (s.modCrg f).ims = s.ims := rfl
@[simp] theorem State.modCrg_icu (f : Crg → Crg) : (s.modCrg f).icu = s.icu := rfl
@[simp] theorem State.modCrg_flp (f : Crg → Crg) : (s.modCrg f).flp = s.flp := rfl
@[simp] theorem State.modCrg_lpi (f : Crg → Crg) : (s.modCrg f).lpi = s.lpi := rfl
@[simp] theorem State.modCrg_evq (f : Crg → Crg) : (s.modCrg f).evq = s.evq := rfl
@[simp] theorem State.modCrg_frc (f : Crg → Crg) : (s.modCrg f).frc = s.frc := rfl
@[simp] theorem State.modCrg_lines (f : Crg → Crg) : (s.modCrg f).lines = s.lines := rfl
@[simp] theorem State.modCrg_wallNotices (f : Crg → Crg) : (s.modCrg f).wallNotices = s.wallNotices := rfl
@[simp] theorem State.modCrg_yieldNoticesBcu (f : Crg → Crg) : (s.modCrg f).yieldNoticesBcu = s.yieldNoticesBcu := rfl
@[simp] theorem State.modCrg_yieldNoticesIms (f : Crg → Crg) : (s.modCrg f).yieldNoticesIms = s.yieldNoticesIms := rfl
@[simp] theorem State.modCrg_restartNotices (f : Crg → Crg) : (s.modCrg f).restartNotices = s.restartNotices := rfl
@[simp] theorem State.modCrg_sent (f : Crg → Crg) : (s.modCrg f).sent = s.sent := rfl
@[simp] theorem State.modCrg_draws (f : Crg → Crg) : (s.modCrg f).draws = s.draws := rfl
@[simp] theorem State.modCrg_pending (f : Crg → Crg) : (s.modCrg f).pending = s.pending := rfl

/-! ## `modRli` -/

@[simp] theorem State.modRli_run (f : Rli → Rli) : (s.modRli f).run = s.run := rfl
@[simp] theorem State.modRli_cfg (f : Rli → Rli) : (s.modRli f).cfg = s.cfg := rfl
@[simp] theorem State.modRli_bcu (f : Rli → Rli) : (s.modRli f).bcu = s.bcu := rfl
@[simp] theorem State.modRli_nbt (f : Rli → Rli) : (s.modRli f).nbt = s.nbt := rfl
@[simp] theorem State.modRli_mtb (f : Rli → Rli) : (s.modRli f).mtb = s.mtb := rfl
@[simp] theorem State.modRli_crg (f : Rli → Rli) : (s.modRli f).crg = s.crg := rfl
@[simp] theorem State.modRli_rli (f : Rli → Rli) : (s.modRli f).rli = f s.rli := rfl
@[simp] theorem State.modRli_rse (f : Rli → Rli) : (s.modRli f).rse = s.rse := rfl
@[simp] theorem State.modRli_hoc (f : Rli → Rli) : (s.modRli f).hoc = s.hoc := rfl
@[simp] theorem State.modRli_pst (f : Rli → Rli) : (s.modRli f).pst = s.pst := rfl
@[simp] theorem State.modRli_seu (f : Rli → Rli) : (s.modRli f).seu = s.seu := rfl
@[simp] theorem State.modRli_gtm (f : Rli → Rli) : (s.modRli f).gtm = s.gtm := rfl
@[simp] theorem State.modRli_ims (f : Rli → Rli) : (s.modRli f).ims = s.ims := rfl
@[simp] theorem State.modRli_icu (f : Rli → Rli) : (s.modRli f).icu = s.icu := rfl
@[simp] theorem State.modRli_flp (f : Rli → Rli) : (s.modRli f).flp = s.flp := rfl
@[simp] theorem State.modRli_lpi (f : Rli → Rli) : (s.modRli f).lpi = s.lpi := rfl
@[simp] theorem State.modRli_evq (f : Rli → Rli) : (s.modRli f).evq = s.evq := rfl
@[simp] theorem State.modRli_frc (f : Rli → Rli) : (s.modRli f).frc = s.frc := rfl
@[simp] theorem State.modRli_lines (f : Rli → Rli) : (s.modRli f).lines = s.lines := rfl
@[simp] theorem State.modRli_wallNotices (f : Rli → Rli) : (s.modRli f).wallNotices = s.wallNotices := rfl
@[simp] theorem State.modRli_yieldNoticesBcu (f : Rli → Rli) : (s.modRli f).yieldNoticesBcu = s.yieldNoticesBcu := rfl
@[simp] theorem State.modRli_yieldNoticesIms (f : Rli → Rli) : (s.modRli f).yieldNoticesIms = s.yieldNoticesIms := rfl
@[simp] theorem State.modRli_restartNotices (f : Rli → Rli) : (s.modRli f).restartNotices = s.restartNotices := rfl
@[simp] theorem State.modRli_sent (f : Rli → Rli) : (s.modRli f).sent = s.sent := rfl
@[simp] theorem State.modRli_draws (f : Rli → Rli) : (s.modRli f).draws = s.draws := rfl
@[simp] theorem State.modRli_pending (f : Rli → Rli) : (s.modRli f).pending = s.pending := rfl

/-! ## `modRse` -/

@[simp] theorem State.modRse_run (f : Rse → Rse) : (s.modRse f).run = s.run := rfl
@[simp] theorem State.modRse_cfg (f : Rse → Rse) : (s.modRse f).cfg = s.cfg := rfl
@[simp] theorem State.modRse_bcu (f : Rse → Rse) : (s.modRse f).bcu = s.bcu := rfl
@[simp] theorem State.modRse_nbt (f : Rse → Rse) : (s.modRse f).nbt = s.nbt := rfl
@[simp] theorem State.modRse_mtb (f : Rse → Rse) : (s.modRse f).mtb = s.mtb := rfl
@[simp] theorem State.modRse_crg (f : Rse → Rse) : (s.modRse f).crg = s.crg := rfl
@[simp] theorem State.modRse_rli (f : Rse → Rse) : (s.modRse f).rli = s.rli := rfl
@[simp] theorem State.modRse_rse (f : Rse → Rse) : (s.modRse f).rse = f s.rse := rfl
@[simp] theorem State.modRse_hoc (f : Rse → Rse) : (s.modRse f).hoc = s.hoc := rfl
@[simp] theorem State.modRse_pst (f : Rse → Rse) : (s.modRse f).pst = s.pst := rfl
@[simp] theorem State.modRse_seu (f : Rse → Rse) : (s.modRse f).seu = s.seu := rfl
@[simp] theorem State.modRse_gtm (f : Rse → Rse) : (s.modRse f).gtm = s.gtm := rfl
@[simp] theorem State.modRse_ims (f : Rse → Rse) : (s.modRse f).ims = s.ims := rfl
@[simp] theorem State.modRse_icu (f : Rse → Rse) : (s.modRse f).icu = s.icu := rfl
@[simp] theorem State.modRse_flp (f : Rse → Rse) : (s.modRse f).flp = s.flp := rfl
@[simp] theorem State.modRse_lpi (f : Rse → Rse) : (s.modRse f).lpi = s.lpi := rfl
@[simp] theorem State.modRse_evq (f : Rse → Rse) : (s.modRse f).evq = s.evq := rfl
@[simp] theorem State.modRse_frc (f : Rse → Rse) : (s.modRse f).frc = s.frc := rfl
@[simp] theorem State.modRse_lines (f : Rse → Rse) : (s.modRse f).lines = s.lines := rfl
@[simp] theorem State.modRse_wallNotices (f : Rse → Rse) : (s.modRse f).wallNotices = s.wallNotices := rfl
@[simp] theorem State.modRse_yieldNoticesBcu (f : Rse → Rse) : (s.modRse f).yieldNoticesBcu = s.yieldNoticesBcu := rfl
@[simp] theorem State.modRse_yieldNoticesIms (f : Rse → Rse) : (s.modRse f).yieldNoticesIms = s.yieldNoticesIms := rfl
@[simp] theorem State.modRse_restartNotices (f : Rse → Rse) : (s.modRse f).restartNotices = s.restartNotices := rfl
@[simp] theorem State.modRse_sent (f : Rse → Rse) : (s.modRse f).sent = s.sent := rfl
@[simp] theorem State.modRse_draws (f : Rse → Rse) : (s.modRse f).draws = s.draws := rfl
@[simp] theorem State.modRse_pending (f : Rse → Rse) : (s.modRse f).pending = s.pending := rfl

/-! ## `modHoc` -/

@[simp] theorem State.modHoc_run (f : Hoc → Hoc) : (s.modHoc f).run = s.run := rfl
@[simp] theorem State.modHoc_cfg (f : Hoc → Hoc) : (s.modHoc f).cfg = s.cfg := rfl
@[simp] theorem State.modHoc_bcu (f : Hoc → Hoc) : (s.modHoc f).bcu = s.bcu := rfl
@[simp] theorem State.modHoc_nbt (f : Hoc → Hoc) : (s.modHoc f).nbt = s.nbt := rfl
@[simp] theorem State.modHoc_mtb (f : Hoc → Hoc) : (s.modHoc f).mtb = s.mtb := rfl
@[simp] theorem State.modHoc_crg (f : Hoc → Hoc) : (s.modHoc f).crg = s.crg := rfl
@[simp] theorem State.modHoc_rli (f : Hoc → Hoc) : (s.modHoc f).rli = s.rli := rfl
@[simp] theorem State.modHoc_rse (f : Hoc → Hoc) : (s.modHoc f).rse = s.rse := rfl
@[simp] theorem State.modHoc_hoc (f : Hoc → Hoc) : (s.modHoc f).hoc = f s.hoc := rfl
@[simp] theorem State.modHoc_pst (f : Hoc → Hoc) : (s.modHoc f).pst = s.pst := rfl
@[simp] theorem State.modHoc_seu (f : Hoc → Hoc) : (s.modHoc f).seu = s.seu := rfl
@[simp] theorem State.modHoc_gtm (f : Hoc → Hoc) : (s.modHoc f).gtm = s.gtm := rfl
@[simp] theorem State.modHoc_ims (f : Hoc → Hoc) : (s.modHoc f).ims = s.ims := rfl
@[simp] theorem State.modHoc_icu (f : Hoc → Hoc) : (s.modHoc f).icu = s.icu := rfl
@[simp] theorem State.modHoc_flp (f : Hoc → Hoc) : (s.modHoc f).flp = s.flp := rfl
@[simp] theorem State.modHoc_lpi (f : Hoc → Hoc) : (s.modHoc f).lpi = s.lpi := rfl
@[simp] theorem State.modHoc_evq (f : Hoc → Hoc) : (s.modHoc f).evq = s.evq := rfl
@[simp] theorem State.modHoc_frc (f : Hoc → Hoc) : (s.modHoc f).frc = s.frc := rfl
@[simp] theorem State.modHoc_lines (f : Hoc → Hoc) : (s.modHoc f).lines = s.lines := rfl
@[simp] theorem State.modHoc_wallNotices (f : Hoc → Hoc) : (s.modHoc f).wallNotices = s.wallNotices := rfl
@[simp] theorem State.modHoc_yieldNoticesBcu (f : Hoc → Hoc) : (s.modHoc f).yieldNoticesBcu = s.yieldNoticesBcu := rfl
@[simp] theorem State.modHoc_yieldNoticesIms (f : Hoc → Hoc) : (s.modHoc f).yieldNoticesIms = s.yieldNoticesIms := rfl
@[simp] theorem State.modHoc_restartNotices (f : Hoc → Hoc) : (s.modHoc f).restartNotices = s.restartNotices := rfl
@[simp] theorem State.modHoc_sent (f : Hoc → Hoc) : (s.modHoc f).sent = s.sent := rfl
@[simp] theorem State.modHoc_draws (f : Hoc → Hoc) : (s.modHoc f).draws = s.draws := rfl
@[simp] theorem State.modHoc_pending (f : Hoc → Hoc) : (s.modHoc f).pending = s.pending := rfl

/-! ## `modPst` -/

@[simp] theorem State.modPst_run (f : Pst → Pst) : (s.modPst f).run = s.run := rfl
@[simp] theorem State.modPst_cfg (f : Pst → Pst) : (s.modPst f).cfg = s.cfg := rfl
@[simp] theorem State.modPst_bcu (f : Pst → Pst) : (s.modPst f).bcu = s.bcu := rfl
@[simp] theorem State.modPst_nbt (f : Pst → Pst) : (s.modPst f).nbt = s.nbt := rfl
@[simp] theorem State.modPst_mtb (f : Pst → Pst) : (s.modPst f).mtb = s.mtb := rfl
@[simp] theorem State.modPst_crg (f : Pst → Pst) : (s.modPst f).crg = s.crg := rfl
@[simp] theorem State.modPst_rli (f : Pst → Pst) : (s.modPst f).rli = s.rli := rfl
@[simp] theorem State.modPst_rse (f : Pst → Pst) : (s.modPst f).rse = s.rse := rfl
@[simp] theorem State.modPst_hoc (f : Pst → Pst) : (s.modPst f).hoc = s.hoc := rfl
@[simp] theorem State.modPst_pst (f : Pst → Pst) : (s.modPst f).pst = f s.pst := rfl
@[simp] theorem State.modPst_seu (f : Pst → Pst) : (s.modPst f).seu = s.seu := rfl
@[simp] theorem State.modPst_gtm (f : Pst → Pst) : (s.modPst f).gtm = s.gtm := rfl
@[simp] theorem State.modPst_ims (f : Pst → Pst) : (s.modPst f).ims = s.ims := rfl
@[simp] theorem State.modPst_icu (f : Pst → Pst) : (s.modPst f).icu = s.icu := rfl
@[simp] theorem State.modPst_flp (f : Pst → Pst) : (s.modPst f).flp = s.flp := rfl
@[simp] theorem State.modPst_lpi (f : Pst → Pst) : (s.modPst f).lpi = s.lpi := rfl
@[simp] theorem State.modPst_evq (f : Pst → Pst) : (s.modPst f).evq = s.evq := rfl
@[simp] theorem State.modPst_frc (f : Pst → Pst) : (s.modPst f).frc = s.frc := rfl
@[simp] theorem State.modPst_lines (f : Pst → Pst) : (s.modPst f).lines = s.lines := rfl
@[simp] theorem State.modPst_wallNotices (f : Pst → Pst) : (s.modPst f).wallNotices = s.wallNotices := rfl
@[simp] theorem State.modPst_yieldNoticesBcu (f : Pst → Pst) : (s.modPst f).yieldNoticesBcu = s.yieldNoticesBcu := rfl
@[simp] theorem State.modPst_yieldNoticesIms (f : Pst → Pst) : (s.modPst f).yieldNoticesIms = s.yieldNoticesIms := rfl
@[simp] theorem State.modPst_restartNotices (f : Pst → Pst) : (s.modPst f).restartNotices = s.restartNotices := rfl
@[simp] theorem State.modPst_sent (f : Pst → Pst) : (s.modPst f).sent = s.sent := rfl
@[simp] theorem State.modPst_draws (f : Pst → Pst) : (s.modPst f).draws = s.draws := rfl
@[simp] theorem State.modPst_pending (f : Pst → Pst) : (s.modPst f).pending = s.pending := rfl

/-! ## `modSeu` -/

@[simp] theorem State.modSeu_run (f : Seu → Seu) : (s.modSeu f).run = s.run := rfl
@[simp] theorem State.modSeu_cfg (f : Seu → Seu) : (s.modSeu f).cfg = s.cfg := rfl
@[simp] theorem State.modSeu_bcu (f : Seu → Seu) : (s.modSeu f).bcu = s.bcu := rfl
@[simp] theorem State.modSeu_nbt (f : Seu → Seu) : (s.modSeu f).nbt = s.nbt := rfl
@[simp] theorem State.modSeu_mtb (f : Seu → Seu) : (s.modSeu f).mtb = s.mtb := rfl
@[simp] theorem State.modSeu_crg (f : Seu → Seu) : (s.modSeu f).crg = s.crg := rfl
@[simp] theorem State.modSeu_rli (f : Seu → Seu) : (s.modSeu f).rli = s.rli := rfl
@[simp] theorem State.modSeu_rse (f : Seu → Seu) : (s.modSeu f).rse = s.rse := rfl
@[simp] theorem State.modSeu_hoc (f : Seu → Seu) : (s.modSeu f).hoc = s.hoc := rfl
@[simp] theorem State.modSeu_pst (f : Seu → Seu) : (s.modSeu f).pst = s.pst := rfl
@[simp] theorem State.modSeu_seu (f : Seu → Seu) : (s.modSeu f).seu = f s.seu := rfl
@[simp] theorem State.modSeu_gtm (f : Seu → Seu) : (s.modSeu f).gtm = s.gtm := rfl
@[simp] theorem State.modSeu_ims (f : Seu → Seu) : (s.modSeu f).ims = s.ims := rfl
@[simp] theorem State.modSeu_icu (f : Seu → Seu) : (s.modSeu f).icu = s.icu := rfl
@[simp] theorem State.modSeu_flp (f : Seu → Seu) : (s.modSeu f).flp = s.flp := rfl
@[simp] theorem State.modSeu_lpi (f : Seu → Seu) : (s.modSeu f).lpi = s.lpi := rfl
@[simp] theorem State.modSeu_evq (f : Seu → Seu) : (s.modSeu f).evq = s.evq := rfl
@[simp] theorem State.modSeu_frc (f : Seu → Seu) : (s.modSeu f).frc = s.frc := rfl
@[simp] theorem State.modSeu_lines (f : Seu → Seu) : (s.modSeu f).lines = s.lines := rfl
@[simp] theorem State.modSeu_wallNotices (f : Seu → Seu) : (s.modSeu f).wallNotices = s.wallNotices := rfl
@[simp] theorem State.modSeu_yieldNoticesBcu (f : Seu → Seu) : (s.modSeu f).yieldNoticesBcu = s.yieldNoticesBcu := rfl
@[simp] theorem State.modSeu_yieldNoticesIms (f : Seu → Seu) : (s.modSeu f).yieldNoticesIms = s.yieldNoticesIms := rfl
@[simp] theorem State.modSeu_restartNotices (f : Seu → Seu) : (s.modSeu f).restartNotices = s.restartNotices := rfl
@[simp] theorem State.modSeu_sent (f : Seu → Seu) : (s.modSeu f).sent = s.sent := rfl
@[simp] theorem State.modSeu_draws (f : Seu → Seu) : (s.modSeu f).draws = s.draws := rfl
@[simp] theorem State.modSeu_pending (f : Seu → Seu) : (s.modSeu f).pending = s.pending := rfl

/-! ## `modGtm` -/

@[simp] theorem State.modGtm_run (f : Gtm → Gtm) : (s.modGtm f).run = s.run := rfl
@[simp] theorem State.modGtm_cfg (f : Gtm → Gtm) : (s.modGtm f).cfg = s.cfg := rfl
@[simp] theorem State.modGtm_bcu (f : Gtm → Gtm) : (s.modGtm f).bcu = s.bcu := rfl
@[simp] theorem State.modGtm_nbt (f : Gtm → Gtm) : (s.modGtm f).nbt = s.nbt := rfl
@[simp] theorem State.modGtm_mtb (f : Gtm → Gtm) : (s.modGtm f).mtb = s.mtb := rfl
@[simp] theorem State.modGtm_crg (f : Gtm → Gtm) : (s.modGtm f).crg = s.crg := rfl
@[simp] theorem State.modGtm_rli (f : Gtm → Gtm) : (s.modGtm f).rli = s.rli := rfl
@[simp] theorem State.modGtm_rse (f : Gtm → Gtm) : (s.modGtm f).rse = s.rse := rfl
@[simp] theorem State.modGtm_hoc (f : Gtm → Gtm) : (s.modGtm f).hoc = s.hoc := rfl
@[simp] theorem State.modGtm_pst (f : Gtm → Gtm) : (s.modGtm f).pst = s.pst := rfl
@[simp] theorem State.modGtm_seu (f : Gtm → Gtm) : (s.modGtm f).seu = s.seu := rfl
@[simp] theorem State.modGtm_gtm (f : Gtm → Gtm) : (s.modGtm f).gtm = f s.gtm := rfl
@[simp] theorem State.modGtm_ims (f : Gtm → Gtm) : (s.modGtm f).ims = s.ims := rfl
@[simp] theorem State.modGtm_icu (f : Gtm → Gtm) : (s.modGtm f).icu = s.icu := rfl
@[simp] theorem State.modGtm_flp (f : Gtm → Gtm) : (s.modGtm f).flp = s.flp := rfl
@[simp] theorem State.modGtm_lpi (f : Gtm → Gtm) : (s.modGtm f).lpi = s.lpi := rfl
@[simp] theorem State.modGtm_evq (f : Gtm → Gtm) : (s.modGtm f).evq = s.evq := rfl
@[simp] theorem State.modGtm_frc (f : Gtm → Gtm) : (s.modGtm f).frc = s.frc := rfl
@[simp] theorem State.modGtm_lines (f : Gtm → Gtm) : (s.modGtm f).lines = s.lines := rfl
@[simp] theorem State.modGtm_wallNotices (f : Gtm → Gtm) : (s.modGtm f).wallNotices = s.wallNotices := rfl
@[simp] theorem State.modGtm_yieldNoticesBcu (f : Gtm → Gtm) : (s.modGtm f).yieldNoticesBcu = s.yieldNoticesBcu := rfl
@[simp] theorem State.modGtm_yieldNoticesIms (f : Gtm → Gtm) : (s.modGtm f).yieldNoticesIms = s.yieldNoticesIms := rfl
@[simp] theorem State.modGtm_restartNotices (f : Gtm → Gtm) : (s.modGtm f).restartNotices = s.restartNotices := rfl
@[simp] theorem State.modGtm_sent (f : Gtm → Gtm) : (s.modGtm f).sent = s.sent := rfl
@[simp] theorem State.modGtm_draws (f : Gtm → Gtm) : (s.modGtm f).draws = s.draws := rfl
@[simp] theorem State.modGtm_pending (f : Gtm → Gtm) : (s.modGtm f).pending = s.pending := rfl

/-! ## `modIms` -/

@[simp] theorem State.modIms_run (f : Ims → Ims) : (s.modIms f).run = s.run := rfl
@[simp] theorem State.modIms_cfg (f : Ims → Ims) : (s.modIms f).cfg = s.cfg := rfl
@[simp] theorem State.modIms_bcu (f : Ims → Ims) : (s.modIms f).bcu = s.bcu := rfl
@[simp] theorem State.modIms_nbt (f : Ims → Ims) : (s.modIms f).nbt = s.nbt := rfl
@[simp] theorem State.modIms_mtb (f : Ims → Ims) : (s.modIms f).mtb = s.mtb := rfl
@[simp] theorem State.modIms_crg (f : Ims → Ims) : (s.modIms f).crg = s.crg := rfl
@[simp] theorem State.modIms_rli (f : Ims → Ims) : (s.modIms f).rli = s.rli := rfl
@[simp] theorem State.modIms_rse (f : Ims → Ims) : (s.modIms f).rse = s.rse := rfl
@[simp] theorem State.modIms_hoc (f : Ims → Ims) : (s.modIms f).hoc = s.hoc := rfl
@[simp] theorem State.modIms_pst (f : Ims → Ims) : (s.modIms f).pst = s.pst := rfl
@[simp] theorem State.modIms_seu (f : Ims → Ims) : (s.modIms f).seu = s.seu := rfl
@[simp] theorem State.modIms_gtm (f : Ims → Ims) : (s.modIms f).gtm = s.gtm := rfl
@[simp] theorem State.modIms_ims (f : Ims → Ims) : (s.modIms f).ims = f s.ims := rfl
@[simp] theorem State.modIms_icu (f : Ims → Ims) : (s.modIms f).icu = s.icu := rfl
@[simp] theorem State.modIms_flp (f : Ims → Ims) : (s.modIms f).flp = s.flp := rfl
@[simp] theorem State.modIms_lpi (f : Ims → Ims) : (s.modIms f).lpi = s.lpi := rfl
@[simp] theorem State.modIms_evq (f : Ims → Ims) : (s.modIms f).evq = s.evq := rfl
@[simp] theorem State.modIms_frc (f : Ims → Ims) : (s.modIms f).frc = s.frc := rfl
@[simp] theorem State.modIms_lines (f : Ims → Ims) : (s.modIms f).lines = s.lines := rfl
@[simp] theorem State.modIms_wallNotices (f : Ims → Ims) : (s.modIms f).wallNotices = s.wallNotices := rfl
@[simp] theorem State.modIms_yieldNoticesBcu (f : Ims → Ims) : (s.modIms f).yieldNoticesBcu = s.yieldNoticesBcu := rfl
@[simp] theorem State.modIms_yieldNoticesIms (f : Ims → Ims) : (s.modIms f).yieldNoticesIms = s.yieldNoticesIms := rfl
@[simp] theorem State.modIms_restartNotices (f : Ims → Ims) : (s.modIms f).restartNotices = s.restartNotices := rfl
@[simp] theorem State.modIms_sent (f : Ims → Ims) : (s.modIms f).sent = s.sent := rfl
@[simp] theorem State.modIms_draws (f : Ims → Ims) : (s.modIms f).draws = s.draws := rfl
@[simp] theorem State.modIms_pending (f : Ims → Ims) : (s.modIms f).pending = s.pending := rfl

/-! ## `modIcu` -/

@[simp] theorem State.modIcu_run (f : Icu → Icu) : (s.modIcu f).run = s.run := rfl
@[simp] theorem State.modIcu_cfg (f : Icu → Icu) : (s.modIcu f).cfg = s.cfg := rfl
@[simp] theorem State.modIcu_bcu (f : Icu → Icu) : (s.modIcu f).bcu = s.bcu := rfl
@[simp] theorem State.modIcu_nbt (f : Icu → Icu) : (s.modIcu f).nbt = s.nbt := rfl
@[simp] theorem State.modIcu_mtb (f : Icu → Icu) : (s.modIcu f).mtb = s.mtb := rfl
@[simp] theorem State.modIcu_crg (f : Icu → Icu) : (s.modIcu f).crg = s.crg := rfl
@[simp] theorem State.modIcu_rli (f : Icu → Icu) : (s.modIcu f).rli = s.rli := rfl
@[simp] theorem State.modIcu_rse (f : Icu → Icu) : (s.modIcu f).rse = s.rse := rfl
@[simp] theorem State.modIcu_hoc (f : Icu → Icu) : (s.modIcu f).hoc = s.hoc := rfl
@[simp] theorem State.modIcu_pst (f : Icu → Icu) : (s.modIcu f).pst = s.pst := rfl
@[simp] theorem State.modIcu_seu (f : Icu → Icu) : (s.modIcu f).seu = s.seu := rfl
@[simp] theorem State.modIcu_gtm (f : Icu → Icu) : (s.modIcu f).gtm = s.gtm := rfl
@[simp] theorem State.modIcu_ims (f : Icu → Icu) : (s.modIcu f).ims = s.ims := rfl
@[simp] theorem State.modIcu_icu (f : Icu → Icu) : (s.modIcu f).icu = f s.icu := rfl
@[simp] theorem State.modIcu_flp (f : Icu → Icu) : (s.modIcu f).flp = s.flp := rfl
@[simp] theorem State.modIcu_lpi (f : Icu → Icu) : (s.modIcu f).lpi = s.lpi := rfl
@[simp] theorem State.modIcu_evq (f : Icu → Icu) : (s.modIcu f).evq = s.evq := rfl
@[simp] theorem State.modIcu_frc (f : Icu → Icu) : (s.modIcu f).frc = s.frc := rfl
@[simp] theorem State.modIcu_lines (f : Icu → Icu) : (s.modIcu f).lines = s.lines := rfl
@[simp] theorem State.modIcu_wallNotices (f : Icu → Icu) : (s.modIcu f).wallNotices = s.wallNotices := rfl
@[simp] theorem State.modIcu_yieldNoticesBcu (f : Icu → Icu) : (s.modIcu f).yieldNoticesBcu = s.yieldNoticesBcu := rfl
@[simp] theorem State.modIcu_yieldNoticesIms (f : Icu → Icu) : (s.modIcu f).yieldNoticesIms = s.yieldNoticesIms := rfl
@[simp] theorem State.modIcu_restartNotices (f : Icu → Icu) : (s.modIcu f).restartNotices = s.restartNotices := rfl
@[simp] theorem State.modIcu_sent (f : Icu → Icu) : (s.modIcu f).sent = s.sent := rfl
@[simp] theorem State.modIcu_draws (f : Icu → Icu) : (s.modIcu f).draws = s.draws := rfl
@[simp] theorem State.modIcu_pending (f : Icu → Icu) : (s.modIcu f).pending = s.pending := rfl

/-! ## `modFlp` -/

@[simp] theorem State.modFlp_run (f : Flp → Flp) : (s.modFlp f).run = s.run := rfl
@[simp] theorem State.modFlp_cfg (f : Flp → Flp) : (s.modFlp f).cfg = s.cfg := rfl
@[simp] theorem State.modFlp_bcu (f : Flp → Flp) : (s.modFlp f).bcu = s.bcu := rfl
@[simp] theorem State.modFlp_nbt (f : Flp → Flp) : (s.modFlp f).nbt = s.nbt := rfl
@[simp] theorem State.modFlp_mtb (f : Flp → Flp) : (s.modFlp f).mtb = s.mtb := rfl
@[simp] theorem State.modFlp_crg (f : Flp → Flp) : (s.modFlp f).crg = s.crg := rfl
@[simp] theorem State.modFlp_rli (f : Flp → Flp) : (s.modFlp f).rli = s.rli := rfl
@[simp] theorem State.modFlp_rse (f : Flp → Flp) : (s.modFlp f).rse = s.rse := rfl
@[simp] theorem State.modFlp_hoc (f : Flp → Flp) : (s.modFlp f).hoc = s.hoc := rfl
@[simp] theorem State.modFlp_pst (f : Flp → Flp) : (s.modFlp f).pst = s.pst := rfl
@[simp] theorem State.modFlp_seu (f : Flp → Flp) : (s.modFlp f).seu = s.seu := rfl
@[simp] theorem State.modFlp_gtm (f : Flp → Flp) : (s.modFlp f).gtm = s.gtm := rfl
@[simp] theorem State.modFlp_ims (f : Flp → Flp) : (s.modFlp f).ims = s.ims := rfl
@[simp] theorem State.modFlp_icu (f : Flp → Flp) : (s.modFlp f).icu = s.icu := rfl
@[simp] theorem State.modFlp_flp (f : Flp → Flp) : (s.modFlp f).flp = f s.flp := rfl
@[simp] theorem State.modFlp_lpi (f : Flp → Flp) : (s.modFlp f).lpi = s.lpi := rfl
@[simp] theorem State.modFlp_evq (f : Flp → Flp) : (s.modFlp f).evq = s.evq := rfl
@[simp] theorem State.modFlp_frc (f : Flp → Flp) : (s.modFlp f).frc = s.frc := rfl
@[simp] theorem State.modFlp_lines (f : Flp → Flp) : (s.modFlp f).lines = s.lines := rfl
@[simp] theorem State.modFlp_wallNotices (f : Flp → Flp) : (s.modFlp f).wallNotices = s.wallNotices := rfl
@[simp] theorem State.modFlp_yieldNoticesBcu (f : Flp → Flp) : (s.modFlp f).yieldNoticesBcu = s.yieldNoticesBcu := rfl
@[simp] theorem State.modFlp_yieldNoticesIms (f : Flp → Flp) : (s.modFlp f).yieldNoticesIms = s.yieldNoticesIms := rfl
@[simp] theorem State.modFlp_restartNotices (f : Flp → Flp) : (s.modFlp f).restartNotices = s.restartNotices := rfl
@[simp] theorem State.modFlp_sent (f : Flp → Flp) : (s.modFlp f).sent = s.sent := rfl
@[simp] theorem State.modFlp_draws (f : Flp → Flp) : (s.modFlp f).draws = s.draws := rfl
@[simp] theorem State.modFlp_pending (f : Flp → Flp) : (s.modFlp f).pending = s.pending := rfl

/-! ## `modLpi` -/

@[simp] theorem State.modLpi_run (f : Lpi → Lpi) : (s.modLpi f).run = s.run := rfl
@[simp] theorem State.modLpi_cfg (f : Lpi → Lpi) : (s.modLpi f).cfg = s.cfg := rfl
@[simp] theorem State.modLpi_bcu (f : Lpi → Lpi) : (s.modLpi f).bcu = s.bcu := rfl
@[simp] theorem State.modLpi_nbt (f : Lpi → Lpi) : (s.modLpi f).nbt = s.nbt := rfl
@[simp] theorem State.modLpi_mtb (f : Lpi → Lpi) : (s.modLpi f).mtb = s.mtb := rfl
@[simp] theorem State.modLpi_crg (f : Lpi → Lpi) : (s.modLpi f).crg = s.crg := rfl
@[simp] theorem State.modLpi_rli (f : Lpi → Lpi) : (s.modLpi f).rli = s.rli := rfl
@[simp] theorem State.modLpi_rse (f : Lpi → Lpi) : (s.modLpi f).rse = s.rse := rfl
@[simp] theorem State.modLpi_hoc (f : Lpi → Lpi) : (s.modLpi f).hoc = s.hoc := rfl
@[simp] theorem State.modLpi_pst (f : Lpi → Lpi) : (s.modLpi f).pst = s.pst := rfl
@[simp] theorem State.modLpi_seu (f : Lpi → Lpi) : (s.modLpi f).seu = s.seu := rfl
@[simp] theorem State.modLpi_gtm (f : Lpi → Lpi) : (s.modLpi f).gtm = s.gtm := rfl
@[simp] theorem State.modLpi_ims (f : Lpi → Lpi) : (s.modLpi f).ims = s.ims := rfl
@[simp] theorem State.modLpi_icu (f : Lpi → Lpi) : (s.modLpi f).icu = s.icu := rfl
@[simp] theorem State.modLpi_flp (f : Lpi → Lpi) : (s.modLpi f).flp = s.flp := rfl
@[simp] theorem State.modLpi_lpi (f : Lpi → Lpi) : (s.modLpi f).lpi = f s.lpi := rfl
@[simp] theorem State.modLpi_evq (f : Lpi → Lpi) : (s.modLpi f).evq = s.evq := rfl
@[simp] theorem State.modLpi_frc (f : Lpi → Lpi) : (s.modLpi f).frc = s.frc := rfl
@[simp] theorem State.modLpi_lines (f : Lpi → Lpi) : (s.modLpi f).lines = s.lines := rfl
@[simp] theorem State.modLpi_wallNotices (f : Lpi → Lpi) : (s.modLpi f).wallNotices = s.wallNotices := rfl
@[simp] theorem State.modLpi_yieldNoticesBcu (f : Lpi → Lpi) : (s.modLpi f).yieldNoticesBcu = s.yieldNoticesBcu := rfl
@[simp] theorem State.modLpi_yieldNoticesIms (f : Lpi → Lpi) : (s.modLpi f).yieldNoticesIms = s.yieldNoticesIms := rfl
@[simp] theorem State.modLpi_restartNotices (f : Lpi → Lpi) : (s.modLpi f).restartNotices = s.restartNotices := rfl
@[simp] theorem State.modLpi_sent (f : Lpi → Lpi) : (s.modLpi f).sent = s.sent := rfl
@[simp] theorem State.modLpi_draws (f : Lpi → Lpi) : (s.modLpi f).draws = s.draws := rfl
@[simp] theorem State.modLpi_pending (f : Lpi → Lpi) : (s.modLpi f).pending = s.pending := rfl

/-! ## `modEvq` -/

@[simp] theorem State.modEvq_run (f : Evq → Evq) : (s.modEvq f).run = s.run := rfl
@[simp] theorem State.modEvq_cfg (f : Evq → Evq) : (s.modEvq f).cfg = s.cfg := rfl
@[simp] theorem State.modEvq_bcu (f : Evq → Evq) : (s.modEvq f).bcu = s.bcu := rfl
@[simp] theorem State.modEvq_nbt (f : Evq → Evq) : (s.modEvq f).nbt = s.nbt := rfl
@[simp] theorem State.modEvq_mtb (f : Evq → Evq) : (s.modEvq f).mtb = s.mtb := rfl
@[simp] theorem State.modEvq_crg (f : Evq → Evq) : (s.modEvq f).crg = s.crg := rfl
@[simp] theorem State.modEvq_rli (f : Evq → Evq) : (s.modEvq f).rli = s.rli := rfl
@[simp] theorem State.modEvq_rse (f : Evq → Evq) : (s.modEvq f).rse = s.rse := rfl
@[simp] theorem State.modEvq_hoc (f : Evq → Evq) : (s.modEvq f).hoc = s.hoc := rfl
@[simp] theorem State.modEvq_pst (f : Evq → Evq) : (s.modEvq f).pst = s.pst := rfl
@[simp] theorem State.modEvq_seu (f : Evq → Evq) : (s.modEvq f).seu = s.seu := rfl
@[simp] theorem State.modEvq_gtm (f : Evq → Evq) : (s.modEvq f).gtm = s.gtm := rfl
@[simp] theorem State.modEvq_ims (f : Evq → Evq) : (s.modEvq f).ims = s.ims := rfl
@[simp] theorem State.modEvq_icu (f : Evq → Evq) : (s.modEvq f).icu = s.icu := rfl
@[simp] theorem State.modEvq_flp (f : Evq → Evq) : (s.modEvq f).flp = s.flp := rfl
@[simp] theorem State.modEvq_lpi (f : Evq → Evq) : (s.modEvq f).lpi = s.lpi := rfl
@[simp] theorem State.modEvq_evq (f : Evq → Evq) : (s.modEvq f).evq = f s.evq := rfl
@[simp] theorem State.modEvq_frc (f : Evq → Evq) : (s.modEvq f).frc = s.frc := rfl
@[simp] theorem State.modEvq_lines (f : Evq → Evq) : (s.modEvq f).lines = s.lines := rfl
@[simp] theorem State.modEvq_wallNotices (f : Evq → Evq) : (s.modEvq f).wallNotices = s.wallNotices := rfl
@[simp] theorem State.modEvq_yieldNoticesBcu (f : Evq → Evq) : (s.modEvq f).yieldNoticesBcu = s.yieldNoticesBcu := rfl
@[simp] theorem State.modEvq_yieldNoticesIms (f : Evq → Evq) : (s.modEvq f).yieldNoticesIms = s.yieldNoticesIms := rfl
@[simp] theorem State.modEvq_restartNotices (f : Evq → Evq) : (s.modEvq f).restartNotices = s.restartNotices := rfl
@[simp] theorem State.modEvq_sent (f : Evq → Evq) : (s.modEvq f).sent = s.sent := rfl
@[simp] theorem State.modEvq_draws (f : Evq → Evq) : (s.modEvq f).draws = s.draws := rfl
@[simp] theorem State.modEvq_pending (f : Evq → Evq) : (s.modEvq f).pending = s.pending := rfl

/-! ## `modFrc` -/

@[simp] theorem State.modFrc_run (f : Frc → Frc) : (s.modFrc f).run = s.run := rfl
@[simp] theorem State.modFrc_cfg (f : Frc → Frc) : (s.modFrc f).cfg = s.cfg := rfl
@[simp] theorem State.modFrc_bcu (f : Frc → Frc) : (s.modFrc f).bcu = s.bcu := rfl
@[simp] theorem State.modFrc_nbt (f : Frc → Frc) : (s.modFrc f).nbt = s.nbt := rfl
@[simp] theorem State.modFrc_mtb (f : Frc → Frc) : (s.modFrc f).mtb = s.mtb := rfl
@[simp] theorem State.modFrc_crg (f : Frc → Frc) : (s.modFrc f).crg = s.crg := rfl
@[simp] theorem State.modFrc_rli (f : Frc → Frc) : (s.modFrc f).rli = s.rli := rfl
@[simp] theorem State.modFrc_rse (f : Frc → Frc) : (s.modFrc f).rse = s.rse := rfl
@[simp] theorem State.modFrc_hoc (f : Frc → Frc) : (s.modFrc f).hoc = s.hoc := rfl
@[simp] theorem State.modFrc_pst (f : Frc → Frc) : (s.modFrc f).pst = s.pst := rfl
@[simp] theorem State.modFrc_seu (f : Frc → Frc) : (s.modFrc f).seu = s.seu := rfl
@[simp] theorem State.modFrc_gtm (f : Frc → Frc) : (s.modFrc f).gtm = s.gtm := rfl
@[simp] theorem State.modFrc_ims (f : Frc → Frc) : (s.modFrc f).ims = s.ims := rfl
@[simp] theorem State.modFrc_icu (f : Frc → Frc) : (s.modFrc f).icu = s.icu := rfl
@[simp] theorem State.modFrc_flp (f : Frc → Frc) : (s.modFrc f).flp = s.flp := rfl
@[simp] theorem State.modFrc_lpi (f : Frc → Frc) : (s.modFrc f).lpi = s.lpi := rfl
@[simp] theorem State.modFrc_evq (f : Frc → Frc) : (s.modFrc f).evq = s.evq := rfl
@[simp] theorem State.modFrc_frc (f : Frc → Frc) : (s.modFrc f).frc = f s.frc := rfl
@[simp] theorem State.modFrc_lines (f : Frc → Frc) : (s.modFrc f).lines = s.lines := rfl
@[simp] theorem State.modFrc_wallNotices (f : Frc → Frc) : (s.modFrc f).wallNotices = s.wallNotices := rfl
@[simp] theorem State.modFrc_yieldNoticesBcu (f : Frc → Frc) : (s.modFrc f).yieldNoticesBcu = s.yieldNoticesBcu := rfl
@[simp] theorem State.modFrc_yieldNoticesIms (f : Frc → Frc) : (s.modFrc f).yieldNoticesIms = s.yieldNoticesIms := rfl
@[simp] theorem State.modFrc_restartNotices (f : Frc → Frc) : (s.modFrc f).restartNotices = s.restartNotices := rfl
@[simp] theorem State.modFrc_sent (f : Frc → Frc) : (s.modFrc f).sent = s.sent := rfl
@[simp] theorem State.modFrc_draws (f : Frc → Frc) : (s.modFrc f).draws = s.draws := rfl
@[simp] theorem State.modFrc_pending (f : Frc → Frc) : (s.modFrc f).pending = s.pending := rfl

/-! ## `emit` and `driveLines` -/

@[simp] theorem State.emit_run (o : Output) : (s.emit o).run = s.run := rfl
@[simp] theorem State.emit_cfg (o : Output) : (s.emit o).cfg = s.cfg := rfl
@[simp] theorem State.emit_bcu (o : Output) : (s.emit o).bcu = s.bcu := rfl
@[simp] theorem State.emit_nbt (o : Output) : (s.emit o).nbt = s.nbt := rfl
@[simp] theorem State.emit_mtb (o : Output) : (s.emit o).mtb = s.mtb := rfl
@[simp] theorem State.emit_crg (o : Output) : (s.emit o).crg = s.crg := rfl
@[simp] theorem State.emit_rli (o : Output) : (s.emit o).rli = s.rli := rfl
@[simp] theorem State.emit_rse (o : Output) : (s.emit o).rse = s.rse := rfl
@[simp] theorem State.emit_hoc (o : Output) : (s.emit o).hoc = s.hoc := rfl
@[simp] theorem State.emit_pst (o : Output) : (s.emit o).pst = s.pst := rfl
@[simp] theorem State.emit_seu (o : Output) : (s.emit o).seu = s.seu := rfl
@[simp] theorem State.emit_gtm (o : Output) : (s.emit o).gtm = s.gtm := rfl
@[simp] theorem State.emit_ims (o : Output) : (s.emit o).ims = s.ims := rfl
@[simp] theorem State.emit_icu (o : Output) : (s.emit o).icu = s.icu := rfl
@[simp] theorem State.emit_flp (o : Output) : (s.emit o).flp = s.flp := rfl
@[simp] theorem State.emit_lpi (o : Output) : (s.emit o).lpi = s.lpi := rfl
@[simp] theorem State.emit_evq (o : Output) : (s.emit o).evq = s.evq := rfl
@[simp] theorem State.emit_frc (o : Output) : (s.emit o).frc = s.frc := rfl
@[simp] theorem State.emit_lines (o : Output) : (s.emit o).lines = s.lines := rfl
@[simp] theorem State.emit_wallNotices (o : Output) : (s.emit o).wallNotices = s.wallNotices := rfl
@[simp] theorem State.emit_yieldNoticesBcu (o : Output) : (s.emit o).yieldNoticesBcu = s.yieldNoticesBcu := rfl
@[simp] theorem State.emit_yieldNoticesIms (o : Output) : (s.emit o).yieldNoticesIms = s.yieldNoticesIms := rfl
@[simp] theorem State.emit_restartNotices (o : Output) : (s.emit o).restartNotices = s.restartNotices := rfl
@[simp] theorem State.emit_sent (o : Output) : (s.emit o).sent = s.sent ++ [o] := rfl
@[simp] theorem State.emit_draws (o : Output) : (s.emit o).draws = s.draws := rfl
@[simp] theorem State.emit_pending (o : Output) : (s.emit o).pending = s.pending := rfl

@[simp] theorem State.driveLines_run : s.driveLines.run = s.run := rfl
@[simp] theorem State.driveLines_cfg : s.driveLines.cfg = s.cfg := rfl
@[simp] theorem State.driveLines_bcu : s.driveLines.bcu = s.bcu := rfl
@[simp] theorem State.driveLines_nbt : s.driveLines.nbt = s.nbt := rfl
@[simp] theorem State.driveLines_mtb : s.driveLines.mtb = s.mtb := rfl
@[simp] theorem State.driveLines_crg : s.driveLines.crg = s.crg := rfl
@[simp] theorem State.driveLines_rli : s.driveLines.rli = s.rli := rfl
@[simp] theorem State.driveLines_rse : s.driveLines.rse = s.rse := rfl
@[simp] theorem State.driveLines_hoc : s.driveLines.hoc = s.hoc := rfl
@[simp] theorem State.driveLines_pst : s.driveLines.pst = s.pst := rfl
@[simp] theorem State.driveLines_seu : s.driveLines.seu = s.seu := rfl
@[simp] theorem State.driveLines_gtm : s.driveLines.gtm = s.gtm := rfl
@[simp] theorem State.driveLines_ims : s.driveLines.ims = s.ims := rfl
@[simp] theorem State.driveLines_icu : s.driveLines.icu = s.icu := rfl
@[simp] theorem State.driveLines_flp : s.driveLines.flp = s.flp := rfl
@[simp] theorem State.driveLines_lpi : s.driveLines.lpi = s.lpi := rfl
@[simp] theorem State.driveLines_evq : s.driveLines.evq = s.evq := rfl
@[simp] theorem State.driveLines_frc : s.driveLines.frc = s.frc := rfl
@[simp] theorem State.driveLines_lines : s.driveLines.lines = linesOf s := rfl
@[simp] theorem State.driveLines_wallNotices : s.driveLines.wallNotices = s.wallNotices := rfl
@[simp] theorem State.driveLines_yieldNoticesBcu : s.driveLines.yieldNoticesBcu = s.yieldNoticesBcu := rfl
@[simp] theorem State.driveLines_yieldNoticesIms : s.driveLines.yieldNoticesIms = s.yieldNoticesIms := rfl
@[simp] theorem State.driveLines_restartNotices : s.driveLines.restartNotices = s.restartNotices := rfl
@[simp] theorem State.driveLines_sent : s.driveLines.sent = s.sent := rfl
@[simp] theorem State.driveLines_draws : s.driveLines.draws = s.draws := rfl
@[simp] theorem State.driveLines_pending : s.driveLines.pending = s.pending := rfl

/-! ## What is read off the state -/

@[simp] theorem State.now_eq : s.now = s.mtb.meshTime := rfl

end Sys2Proof.Machine
end

