-- ==== Sys2Proof/Laws/Moves.lean ====
section
/-! SUPPORT. What an operation can do, said once: it reaches its result by moves of named kinds, each a change of one
block that keeps the block sound (`Move`, `Moves`). An operation's list of kinds is its footprint: every other block is
as it was (`Moves.bcu` and its companions), and whatever every move of those kinds keeps, the operation keeps
(`Moves.keeps`). -/

set_option Elab.async false

namespace Sys2Proof.Machine

open Sys2Proof

/-- The kinds of change. `load` fills the policy slots from flash and `pst` is any other change of the policy store;
`shift` is the forward move of every kept time (R42). -/
inductive Touch where
  | bcu | nbt | mtb | crg | rli | rse | hoc | pst | load | seu | gtm | ims | icu | flp | lpi | event | pop | fault
  | clear | lines | wall | yields | restart | sent | draw | halt | start | config | shift
deriving DecidableEq, Repr

/-- One change of one kind. -/
inductive Move : Touch → State → State → Prop where
  | bcu (s : State) (f : Bcu → Bcu) (h : s.bcu.Sound → (f s.bcu).Sound) : Move .bcu s (s.modBcu f)
  | nbt (s : State) (f : Nbt → Nbt) (h : s.nbt.Sound → (f s.nbt).Sound) : Move .nbt s (s.modNbt f)
  | mtb (s : State) (f : Mtb → Mtb) (h : s.mtb.Sound → (f s.mtb).Sound)
      (le : s.mtb.Sound → s.mtb.meshTime ≤ (f s.mtb).meshTime) : Move .mtb s (s.modMtb f)
  | crg (s : State) (f : Crg → Crg) (h : s.crg.Sound → (f s.crg).Sound) : Move .crg s (s.modCrg f)
  | rli (s : State) (f : Rli → Rli) (h : s.rli.Sound → (f s.rli).Sound) : Move .rli s (s.modRli f)
  | rse (s : State) (x : Rse) : Move .rse s { s with rse := x }
  | hoc (s : State) (f : Hoc → Hoc) (h : s.hoc.Sound → (f s.hoc).Sound) : Move .hoc s (s.modHoc f)
  | pst (s : State) (f : Pst → Pst) (h : s.pst.Sound → (f s.pst).Sound) (pace : SlotsKeepPace s.pst.slots (f s.pst).slots) :
      Move .pst s (s.modPst f)
  | load (s : State) (f : Pst → Pst) (h : s.pst.Sound → (f s.pst).Sound) : Move .load s (s.modPst f)
  | seu (s : State) (f : Seu → Seu) (h : s.seu.Sound → (f s.seu).Sound) : Move .seu s (s.modSeu f)
  | gtm (s : State) (f : Gtm → Gtm) (h : s.gtm.Sound → (f s.gtm).Sound) : Move .gtm s (s.modGtm f)
  | ims (s : State) (f : Ims → Ims) (h : s.ims.Sound → (f s.ims).Sound) : Move .ims s (s.modIms f)
  | icu (s : State) (f : Icu → Icu) (h : s.icu.Sound → (f s.icu).Sound) : Move .icu s (s.modIcu f)
  | flp (s : State) (f : Flp → Flp) (h : s.flp.NoConfigRead → (f s.flp).NoConfigRead) : Move .flp s (s.modFlp f)
  | lpi (s : State) (f : Lpi → Lpi) : Move .lpi s (s.modLpi f)
  | event (s : State) (kind : EventKind) (subject : ClientAddr) (detail : Nat) :
      Move .event s (s.queueEvent kind subject detail)
  | pop (s : State) : Move .pop s (s.modEvq fun q => { q with events := q.events.drop 1 })
  | fault (s : State) (kind : FaultKind) (detail : Nat) : Move .fault s (s.modFrc fun f => f.take s.now kind detail)
  | clear (s : State) : Move .clear s { s with frc := { first := none, later := 0#5 } }
  | lines (s : State) : Move .lines s s.driveLines
  | wall (s : State) (x : List (Option Nat)) : Move .wall s { s with wallNotices := x }
  | yields (s : State) (x y : List Bool) : Move .yields s { s with yieldNoticesBcu := x, yieldNoticesIms := y }
  | restart (s : State) (x : List Block) : Move .restart s { s with restartNotices := x }
  | sent (s : State) (o : Output) : Move .sent s (s.emit o)
  | draw (s : State) : Move .draw s { s with draws := s.draws + 1 }
  | halt (s : State) : Move .halt s { s with run := .configHalt }
  | start (s : State) : Move .start s { s with run := .running }
  | config (s : State) (x : Configuration) : Move .config s { s with cfg := x }
  | shift (s : State) (n : Nat) : Move .shift s (s.shiftTimes n)

/-- A sequence of changes whose kinds are all in `C`. -/
inductive Moves (C : List Touch) : State → State → Prop where
  | refl (s : State) : Moves C s s
  | step {s t u : State} {k : Touch} (h : Moves C s t) (mem : k ∈ C) (m : Move k t u) : Moves C s u

/-- Whether every kind of one list is in another. -/
def covers (C L : List Touch) : Bool := L.all fun k => C.contains k

theorem covers_mem {C L : List Touch} (h : covers C L = true) {k : Touch} (hk : k ∈ L) : k ∈ C := by
  simpa using (List.all_eq_true.mp h) k hk

/-- A sequence followed by one of fewer kinds. -/
theorem Moves.then {C L : List Touch} {s t u : State} (h : Moves C s t) (g : Moves L t u) (hc : covers C L = true) :
    Moves C s u := by
  induction g with
  | refl => exact h
  | step _ mem m ih => exact ih.step (covers_mem hc mem) m

/-- A sequence is one of more kinds. -/
theorem Moves.mono {C L : List Touch} {s t : State} (g : Moves L s t) (hc : covers C L = true) : Moves C s t :=
  (Moves.refl s).then g hc

theorem Move.moves {k : Touch} {s t : State} (m : Move k s t) : Moves [k] s t := (Moves.refl s).step (by simp) m

/-- What every move of the kinds in `C` keeps, a sequence keeps. -/
theorem Moves.keeps {C : List Touch} {s t : State} (P : State → Prop) (h : Moves C s t)
    (hP : ∀ k ∈ C, ∀ u v, Move k u v → P u → P v) (hs : P s) : P t := by
  induction h with
  | refl => exact hs
  | step _ mem m ih => exact hP _ mem _ _ m ih

/-- A fold whose every round is a sequence of kinds in `C`. -/
theorem Moves.foldl {α : Type} {C : List Touch} {f : State → α → State} (hf : ∀ t x, Moves C t (f t x)) (l : List α)
    (s : State) : Moves C s (l.foldl f s) := by
  induction l generalizing s with
  | nil => exact .refl s
  | cons x xs ih => exact (hf s x).then (ih (f s x)) (by simp [covers])

/-! ## Appending one change -/

section

variable {C : List Touch} {s t : State} (h : Moves C s t)
include h

theorem Moves.onBcu (f : Bcu → Bcu) (hf : t.bcu.Sound → (f t.bcu).Sound) (mem : Touch.bcu ∈ C := by decide) :
    Moves C s (t.modBcu f) := h.step mem (.bcu t f hf)

theorem Moves.onNbt (f : Nbt → Nbt) (hf : t.nbt.Sound → (f t.nbt).Sound) (mem : Touch.nbt ∈ C := by decide) :
    Moves C s (t.modNbt f) := h.step mem (.nbt t f hf)

theorem Moves.onCrg (f : Crg → Crg) (hf : t.crg.Sound → (f t.crg).Sound) (mem : Touch.crg ∈ C := by decide) :
    Moves C s (t.modCrg f) := h.step mem (.crg t f hf)

theorem Moves.onRli (f : Rli → Rli) (hf : t.rli.Sound → (f t.rli).Sound) (mem : Touch.rli ∈ C := by decide) :
    Moves C s (t.modRli f) := h.step mem (.rli t f hf)

theorem Moves.onHoc (f : Hoc → Hoc) (hf : t.hoc.Sound → (f t.hoc).Sound) (mem : Touch.hoc ∈ C := by decide) :
    Moves C s (t.modHoc f) := h.step mem (.hoc t f hf)

theorem Moves.onSeu (f : Seu → Seu) (hf : t.seu.Sound → (f t.seu).Sound) (mem : Touch.seu ∈ C := by decide) :
    Moves C s (t.modSeu f) := h.step mem (.seu t f hf)

theorem Moves.onGtm (f : Gtm → Gtm) (hf : t.gtm.Sound → (f t.gtm).Sound) (mem : Touch.gtm ∈ C := by decide) :
    Moves C s (t.modGtm f) := h.step mem (.gtm t f hf)

theorem Moves.onIms (f : Ims → Ims) (hf : t.ims.Sound → (f t.ims).Sound) (mem : Touch.ims ∈ C := by decide) :
    Moves C s (t.modIms f) := h.step mem (.ims t f hf)

theorem Moves.onIcu (f : Icu → Icu) (hf : t.icu.Sound → (f t.icu).Sound) (mem : Touch.icu ∈ C := by decide) :
    Moves C s (t.modIcu f) := h.step mem (.icu t f hf)

theorem Moves.onFlp (f : Flp → Flp) (hf : t.flp.NoConfigRead → (f t.flp).NoConfigRead)
    (mem : Touch.flp ∈ C := by decide) : Moves C s (t.modFlp f) := h.step mem (.flp t f hf)

theorem Moves.onMtb (f : Mtb → Mtb) (hf : t.mtb.Sound → (f t.mtb).Sound)
    (le : t.mtb.Sound → t.mtb.meshTime ≤ (f t.mtb).meshTime) (mem : Touch.mtb ∈ C := by decide) :
    Moves C s (t.modMtb f) := h.step mem (.mtb t f hf le)

theorem Moves.onPst (f : Pst → Pst) (hf : t.pst.Sound → (f t.pst).Sound)
    (pace : SlotsKeepPace t.pst.slots (f t.pst).slots) (mem : Touch.pst ∈ C := by decide) : Moves C s (t.modPst f) :=
  h.step mem (.pst t f hf pace)

theorem Moves.onLpi (f : Lpi → Lpi) (mem : Touch.lpi ∈ C := by decide) : Moves C s (t.modLpi f) :=
  h.step mem (.lpi t f)

theorem Moves.onRse (x : Rse) (mem : Touch.rse ∈ C := by decide) : Moves C s { t with rse := x } :=
  h.step mem (.rse t x)

theorem Moves.event (k : EventKind) (a : ClientAddr) (d : Nat) (mem : Touch.event ∈ C := by decide) :
    Moves C s (t.queueEvent k a d) := h.step mem (.event t k a d)

theorem Moves.emit (o : Output) (mem : Touch.sent ∈ C := by decide) : Moves C s (t.emit o) := h.step mem (.sent t o)

theorem Moves.draw (mem : Touch.draw ∈ C := by decide) : Moves C s { t with draws := t.draws + 1 } :=
  h.step mem (.draw t)

end

/-! ## Footprints: what no kind of change names is as it was -/

/-- A field is as it was if no kind in `C` can change it. -/
theorem Moves.same {α : Type} {C : List Touch} {s t : State} (field : State → α) (h : Moves C s t)
    (hf : ∀ k ∈ C, ∀ u v, Move k u v → field v = field u) : field t = field s :=
  h.keeps (fun u => field u = field s) (fun k hk u v m hu => (hf k hk u v m).trans hu) rfl

@[simp] theorem State.queueEvent_evq (s : State) (k : EventKind) (a : ClientAddr) (d : Nat) :
    (s.queueEvent k a d).evq =
      if s.evq.events.length < 32 then
        { s.evq with events := s.evq.events ++ [{ kind := k, time := s.now % 2 ^ 32, subject := a, detail := d }] }
      else { s.evq with drops := satSucc 255 s.evq.drops } := rfl

theorem Moves.run {C : List Touch} {s t : State} (h : Moves C s t)
    (hc : C.all (fun k => !([.halt, .start] : List Touch).contains k) = true := by decide) : t.run = s.run :=
  h.same State.run fun k hk u v m => by
    have := List.all_eq_true.mp hc k hk
    cases m <;> first | rfl | simp at this

theorem Moves.cfg {C : List Touch} {s t : State} (h : Moves C s t)
    (hc : C.all (fun k => !([.config] : List Touch).contains k) = true := by decide) : t.cfg = s.cfg :=
  h.same State.cfg fun k hk u v m => by
    have := List.all_eq_true.mp hc k hk
    cases m <;> first | rfl | simp at this

theorem Moves.bcu {C : List Touch} {s t : State} (h : Moves C s t)
    (hc : C.all (fun k => !([.bcu, .shift] : List Touch).contains k) = true := by decide) : t.bcu = s.bcu :=
  h.same State.bcu fun k hk u v m => by
    have := List.all_eq_true.mp hc k hk
    cases m <;> first | rfl | simp at this

theorem Moves.nbt {C : List Touch} {s t : State} (h : Moves C s t)
    (hc : C.all (fun k => !([.nbt, .shift] : List Touch).contains k) = true := by decide) : t.nbt = s.nbt :=
  h.same State.nbt fun k hk u v m => by
    have := List.all_eq_true.mp hc k hk
    cases m <;> first | rfl | simp at this

theorem Moves.mtb {C : List Touch} {s t : State} (h : Moves C s t)
    (hc : C.all (fun k => !([.mtb] : List Touch).contains k) = true := by decide) : t.mtb = s.mtb :=
  h.same State.mtb fun k hk u v m => by
    have := List.all_eq_true.mp hc k hk
    cases m <;> first | rfl | simp at this

theorem Moves.crg {C : List Touch} {s t : State} (h : Moves C s t)
    (hc : C.all (fun k => !([.crg, .shift] : List Touch).contains k) = true := by decide) : t.crg = s.crg :=
  h.same State.crg fun k hk u v m => by
    have := List.all_eq_true.mp hc k hk
    cases m <;> first | rfl | simp at this

theorem Moves.rli {C : List Touch} {s t : State} (h : Moves C s t)
    (hc : C.all (fun k => !([.rli] : List Touch).contains k) = true := by decide) : t.rli = s.rli :=
  h.same State.rli fun k hk u v m => by
    have := List.all_eq_true.mp hc k hk
    cases m <;> first | rfl | simp at this

theorem Moves.rse {C : List Touch} {s t : State} (h : Moves C s t)
    (hc : C.all (fun k => !([.rse, .shift] : List Touch).contains k) = true := by decide) : t.rse = s.rse :=
  h.same State.rse fun k hk u v m => by
    have := List.all_eq_true.mp hc k hk
    cases m <;> first | rfl | simp at this

theorem Moves.hoc {C : List Touch} {s t : State} (h : Moves C s t)
    (hc : C.all (fun k => !([.hoc, .shift] : List Touch).contains k) = true := by decide) : t.hoc = s.hoc :=
  h.same State.hoc fun k hk u v m => by
    have := List.all_eq_true.mp hc k hk
    cases m <;> first | rfl | simp at this

theorem Moves.pst {C : List Touch} {s t : State} (h : Moves C s t)
    (hc : C.all (fun k => !([.pst, .load, .shift] : List Touch).contains k) = true := by decide) : t.pst = s.pst :=
  h.same State.pst fun k hk u v m => by
    have := List.all_eq_true.mp hc k hk
    cases m <;> first | rfl | simp at this

theorem Moves.seu {C : List Touch} {s t : State} (h : Moves C s t)
    (hc : C.all (fun k => !([.seu] : List Touch).contains k) = true := by decide) : t.seu = s.seu :=
  h.same State.seu fun k hk u v m => by
    have := List.all_eq_true.mp hc k hk
    cases m <;> first | rfl | simp at this

theorem Moves.gtm {C : List Touch} {s t : State} (h : Moves C s t)
    (hc : C.all (fun k => !([.gtm] : List Touch).contains k) = true := by decide) : t.gtm = s.gtm :=
  h.same State.gtm fun k hk u v m => by
    have := List.all_eq_true.mp hc k hk
    cases m <;> first | rfl | simp at this

theorem Moves.ims {C : List Touch} {s t : State} (h : Moves C s t)
    (hc : C.all (fun k => !([.ims, .shift] : List Touch).contains k) = true := by decide) : t.ims = s.ims :=
  h.same State.ims fun k hk u v m => by
    have := List.all_eq_true.mp hc k hk
    cases m <;> first | rfl | simp at this

theorem Moves.icu {C : List Touch} {s t : State} (h : Moves C s t)
    (hc : C.all (fun k => !([.icu, .shift] : List Touch).contains k) = true := by decide) : t.icu = s.icu :=
  h.same State.icu fun k hk u v m => by
    have := List.all_eq_true.mp hc k hk
    cases m <;> first | rfl | simp at this

theorem Moves.flp {C : List Touch} {s t : State} (h : Moves C s t)
    (hc : C.all (fun k => !([.flp, .shift] : List Touch).contains k) = true := by decide) : t.flp = s.flp :=
  h.same State.flp fun k hk u v m => by
    have := List.all_eq_true.mp hc k hk
    cases m <;> first | rfl | simp at this

theorem Moves.lpi {C : List Touch} {s t : State} (h : Moves C s t)
    (hc : C.all (fun k => !([.lpi] : List Touch).contains k) = true := by decide) : t.lpi = s.lpi :=
  h.same State.lpi fun k hk u v m => by
    have := List.all_eq_true.mp hc k hk
    cases m <;> first | rfl | simp at this

theorem Moves.evq {C : List Touch} {s t : State} (h : Moves C s t)
    (hc : C.all (fun k => !([.event, .pop] : List Touch).contains k) = true := by decide) : t.evq = s.evq :=
  h.same State.evq fun k hk u v m => by
    have := List.all_eq_true.mp hc k hk
    cases m <;> first | rfl | simp at this

theorem Moves.frc {C : List Touch} {s t : State} (h : Moves C s t)
    (hc : C.all (fun k => !([.fault, .clear] : List Touch).contains k) = true := by decide) : t.frc = s.frc :=
  h.same State.frc fun k hk u v m => by
    have := List.all_eq_true.mp hc k hk
    cases m <;> first | rfl | simp at this

theorem Moves.lines {C : List Touch} {s t : State} (h : Moves C s t)
    (hc : C.all (fun k => !([.lines] : List Touch).contains k) = true := by decide) : t.lines = s.lines :=
  h.same State.lines fun k hk u v m => by
    have := List.all_eq_true.mp hc k hk
    cases m <;> first | rfl | simp at this

theorem Moves.wallNotices {C : List Touch} {s t : State} (h : Moves C s t)
    (hc : C.all (fun k => !([.wall] : List Touch).contains k) = true := by decide) : t.wallNotices = s.wallNotices :=
  h.same State.wallNotices fun k hk u v m => by
    have := List.all_eq_true.mp hc k hk
    cases m <;> first | rfl | simp at this

theorem Moves.yieldNoticesBcu {C : List Touch} {s t : State} (h : Moves C s t)
    (hc : C.all (fun k => !([.yields] : List Touch).contains k) = true := by decide) : t.yieldNoticesBcu = s.yieldNoticesBcu :=
  h.same State.yieldNoticesBcu fun k hk u v m => by
    have := List.all_eq_true.mp hc k hk
    cases m <;> first | rfl | simp at this

theorem Moves.yieldNoticesIms {C : List Touch} {s t : State} (h : Moves C s t)
    (hc : C.all (fun k => !([.yields] : List Touch).contains k) = true := by decide) : t.yieldNoticesIms = s.yieldNoticesIms :=
  h.same State.yieldNoticesIms fun k hk u v m => by
    have := List.all_eq_true.mp hc k hk
    cases m <;> first | rfl | simp at this

theorem Moves.restartNotices {C : List Touch} {s t : State} (h : Moves C s t)
    (hc : C.all (fun k => !([.restart] : List Touch).contains k) = true := by decide) : t.restartNotices = s.restartNotices :=
  h.same State.restartNotices fun k hk u v m => by
    have := List.all_eq_true.mp hc k hk
    cases m <;> first | rfl | simp at this

theorem Moves.sent {C : List Touch} {s t : State} (h : Moves C s t)
    (hc : C.all (fun k => !([.sent] : List Touch).contains k) = true := by decide) : t.sent = s.sent :=
  h.same State.sent fun k hk u v m => by
    have := List.all_eq_true.mp hc k hk
    cases m <;> first | rfl | simp at this

theorem Moves.draws {C : List Touch} {s t : State} (h : Moves C s t)
    (hc : C.all (fun k => !([.draw] : List Touch).contains k) = true := by decide) : t.draws = s.draws :=
  h.same State.draws fun k hk u v m => by
    have := List.all_eq_true.mp hc k hk
    cases m <;> first | rfl | simp at this

theorem Moves.pending {C : List Touch} {s t : State} (h : Moves C s t) : t.pending = s.pending :=
  h.same State.pending fun k _ u v m => by cases m <;> rfl

end Sys2Proof.Machine
end

