-- ==== Sys2Proof/Laws/Channel.lean ====
section
/-! SUPPORT. The Backhaul Channel Unit: each of its operations keeps the BCU sound, and what each touches. -/

set_option Elab.async false

namespace Sys2Proof.Machine

open Sys2Proof

/-! ## Counts -/

theorem satSucc_le {top n : Nat} : satSucc top n ≤ top := Nat.min_le_right _ _

theorem count16_le (n : Nat) : count16 n ≤ 65535 := satSucc_le

/-! ## Contention states -/

@[simp] theorem Bcu.modContention_params (b : Bcu) (c d : AccessClass) (f : Contention → Contention) :
    (b.modContention c f).params d = b.params d := by cases c <;> rfl

theorem Bcu.modContention_contention (b : Bcu) (c d : AccessClass) (f : Contention → Contention) :
    (b.modContention c f).contention d = if d = c then f (b.contention c) else b.contention d := by
  cases c <;> cases d <;> rfl

/-- A change of one class's contention state keeps the BCU sound if the new state is within the class's parameters. -/
theorem Bcu.Sound.modContention {b : Bcu} (h : b.Sound) (c : AccessClass) (f : Contention → Contention)
    (hf : (f (b.contention c)).Within (b.params c)) : (b.modContention c f).Sound := by
  have hw : ∀ d, ((b.modContention c f).contention d).Within ((b.modContention c f).params d) := by
    intro d
    rw [Bcu.modContention_contention, Bcu.modContention_params]
    split
    · next e => subst e; exact hf
    · exact h.within d
  cases c <;>
    exact ⟨h.badFrames, h.nonMember, h.controlDrops, h.ownDrops, h.duplicateRequests, h.control, h.bulk, h.radios,
      h.airtime, hw⟩

/-- A class set back to its full deferral. -/
theorem Bcu.Sound.fullDeferral {b : Bcu} (h : b.Sound) (c : AccessClass) : (b.fullDeferral c).Sound :=
  h.modContention c _ ⟨le_refl _, (h.within c).2⟩

/-- A change that leaves the contention states and the demotion alone keeps the BCU sound if it keeps the rest in
bounds. -/
theorem Bcu.Sound.change {b : Bcu} (h : b.Sound) {b' : Bcu} (bad : b'.badFrames ≤ 65535)
    (non : b'.nonMember ≤ 65535) (drops : b'.controlDrops ≤ 65535) (own : b'.ownDrops ≤ 65535)
    (dup : b'.duplicateRequests ≤ 65535) (control : b'.controlQueue.length ≤ 8) (bulk : b'.bulkQueue.length ≤ 2)
    (air : b'.airtime = b.airtime) (cont : ∀ c, b'.contention c = b.contention c)
    (dem : b'.demoted = b.demoted) : b'.Sound :=
  ⟨bad, non, drops, own, dup, control, bulk, air ▸ h.radios, air ▸ h.airtime, fun c => by
    have : b'.params c = b.params c := by simp only [Bcu.params, dem]
    rw [cont c, this]; exact h.within c⟩

theorem Bcu.Sound.becomeBusy {b : Bcu} (h : b.Sound) : b.becomeBusy.Sound := by
  have h' : ({ b with medium := .busy } : Bcu).Sound :=
    h.change h.badFrames h.nonMember h.controlDrops h.ownDrops h.duplicateRequests h.control h.bulk rfl
      (fun c => by cases c <;> rfl) rfl
  show (classRanks.foldl Bcu.fullDeferral _).Sound
  exact (((h'.fullDeferral .control).fullDeferral .game).fullDeferral .normal).fullDeferral .bulk

theorem Bcu.Sound.gaining {old new : Bcu} (h : new.Sound) (c : AccessClass) : (Bcu.gaining c old new).Sound := by
  simp only [Bcu.gaining]; split
  · exact h.fullDeferral c
  · exact h

/-! ## Queues -/

theorem replaceBeacon_length (f : TxFrame) (l : List TxFrame) : (replaceBeacon f l).length ≤ l.length := by
  induction l with
  | nil => simp [replaceBeacon]
  | cons x xs ih =>
    simp only [replaceBeacon]; split
    · simpa using List.length_filter_le _ xs
    · simpa using ih

theorem Bcu.splitControl_length (b : Bcu) :
    b.splitControl.1.length + b.splitControl.2.length = b.controlQueue.length := by
  simp only [Bcu.splitControl]; split
  · simp; omega
  · simp

theorem Bcu.Sound.placeControl {b : Bcu} (h : b.Sound) (f : TxFrame) : (b.placeControl f).Sound := by
  simp only [Bcu.placeControl]; split
  · have := replaceBeacon_length f b.splitControl.2
    have := b.splitControl_length
    have := h.control
    exact h.change h.badFrames h.nonMember h.controlDrops h.ownDrops h.duplicateRequests
      (by simp only [List.length_append]; omega) h.bulk rfl (fun c => by cases c <;> rfl) rfl
  · split
    · refine Bcu.Sound.gaining ?_ .control
      exact h.change h.badFrames h.nonMember h.controlDrops h.ownDrops h.duplicateRequests
        (by simp only [List.length_append, List.length_singleton]; omega) h.bulk rfl (fun c => by cases c <;> rfl) rfl
    · exact h.change h.badFrames h.nonMember (count16_le _) h.ownDrops h.duplicateRequests h.control h.bulk rfl
        (fun c => by cases c <;> rfl) rfl

/-- A change of the bulk queue alone to one of at most two places. -/
theorem Bcu.Sound.bulkTo {b : Bcu} (h : b.Sound) {q : List BulkPlace} (hq : q.length ≤ 2) :
    ({ b with bulkQueue := q } : Bcu).Sound :=
  h.change h.badFrames h.nonMember h.controlDrops h.ownDrops h.duplicateRequests h.control hq rfl
    (fun c => by cases c <;> rfl) rfl

theorem fillPlace_length (p : NodeId) (c : ChunkRef) (f : TxFrame) (l : List BulkPlace) :
    (fillPlace p c f l).length = l.length := by
  induction l with
  | nil => rfl
  | cons x xs ih => simp only [fillPlace]; split <;> simp [ih]

theorem Bcu.Sound.reserve {b b' : Bcu} (h : b.Sound) {p : NodeId} {c : ChunkRef} (e : b.reserve p c = some b') :
    b'.Sound := by
  simp only [Bcu.reserve] at e; split at e
  · cases e; exact h.bulkTo (by simp only [List.length_append, List.length_singleton]; omega)
  · cases e

theorem Bcu.Sound.fillReservation {b : Bcu} (h : b.Sound) (p : NodeId) (c : ChunkRef) (f : TxFrame) :
    (b.fillReservation p c f).Sound :=
  (h.bulkTo (by rw [fillPlace_length]; exact h.bulk)).gaining .bulk

theorem Bcu.Sound.withdrawReservation {b : Bcu} (h : b.Sound) (p : NodeId) (c : ChunkRef) :
    (b.withdrawReservation p c).Sound :=
  (h.bulkTo (le_trans List.length_erase_le h.bulk)).gaining .bulk

theorem Bcu.Sound.withdrawAll {b : Bcu} (h : b.Sound) : b.withdrawAll.Sound :=
  (h.bulkTo (le_trans (List.length_filter_le _ _) h.bulk)).gaining .bulk

/-! ## Sending and receiving -/

theorem State.queueEvent_moves (s : State) (k : EventKind) (a : ClientAddr) (d : Nat) :
    Moves [.event] s (s.queueEvent k a d) := (Move.event s k a d).moves

theorem State.emit_moves (s : State) (o : Output) : Moves [.sent] s (s.emit o) := (Move.sent s o).moves

/-- A fault handed to the FRC: its record and a FAULT event. -/
theorem State.recordFault_moves (s : State) (k : FaultKind) (d : Nat) :
    Moves [.fault, .event] s (s.recordFault k d) :=
  (Moves.mono (Move.fault s k d).moves rfl).then (State.queueEvent_moves _ _ _ _) rfl

/-- A frame handed to the BCU can only change the BCU. -/
theorem State.sendFrame_moves (s : State) (k : FrameKind) (dst : NodeId) (body : List Byte) :
    Moves [.bcu] s (s.sendFrame k dst body) := by
  simp only [State.sendFrame]; split
  · exact (Move.bcu s _ fun h => h.placeControl _).moves
  · exact .refl s

theorem State.sendChunk_moves (s : State) (p : NodeId) (c : ChunkRef) (body : List Byte) :
    Moves [.bcu] s (s.sendChunk p c body) := by
  simp only [State.sendChunk]; split
  · exact (Move.bcu s _ fun h => h.fillReservation _ _ _).moves
  · exact .refl s

/-! ## Contention -/

theorem State.drawBackoff_moves (s : State) (c : AccessClass) : Moves [.draw, .bcu] s (s.drawBackoff c) := by
  simp only [State.drawBackoff, State.drawUpTo]
  refine Moves.onBcu (Moves.draw (.refl s)) _ fun h => ?_
  refine h.modContention c _ ⟨(h.within c).1, (h.within c).2.1, (h.within c).2.2.1, ?_⟩
  intro n hn
  simp only [Option.some.injEq] at hn
  subst hn
  exact Nat.le_of_lt_succ (Nat.mod_lt _ (Nat.succ_pos _))

/-- A class's deferral count lowered. -/
theorem Bcu.Sound.lowerDeferral {b : Bcu} (h : b.Sound) (c : AccessClass) (d : Contention → Nat)
    (hd : ∀ k, d k ≤ k.deferral) : (b.modContention c fun k => { k with deferral := d k }).Sound :=
  h.modContention c _ ⟨le_trans (hd _) (h.within c).1, (h.within c).2⟩

/-- A class's backoff count discarded. -/
theorem Bcu.Sound.dropBackoff {b : Bcu} (h : b.Sound) (c : AccessClass) :
    (b.modContention c fun k => { k with backoff := none }).Sound :=
  h.modContention c _ ⟨(h.within c).1, (h.within c).2.1, (h.within c).2.2.1, fun _ hn => by cases hn⟩

theorem State.countSlot_moves (s : State) (c : AccessClass) : Moves [.draw, .bcu] s (s.countSlot c).1 := by
  simp only [State.countSlot]
  split
  · exact .refl s
  · split
    · dsimp only
      exact Moves.onBcu (.refl s) _ fun h => h.lowerDeferral c (fun k => k.deferral - 1) fun _ => Nat.sub_le _ _
    · dsimp only
      refine Moves.onBcu ?_ _ fun h => h.lowerDeferral c _ fun _ => Nat.zero_le _
      split
      · exact s.drawBackoff_moves c
      · next n hn =>
        split
        · refine Moves.onBcu (.refl s) _ fun h => ?_
          refine h.modContention c _ ⟨(h.within c).1, (h.within c).2.1, (h.within c).2.2.1, ?_⟩
          intro m hm
          simp only [Option.some.injEq] at hm
          have := (h.within c).2.2.2 n hn
          simp only
          omega
        · exact .refl s

theorem State.countAll_moves (cs : List AccessClass) (s : State) : Moves [.draw, .bcu] s (State.countAll cs s).1 := by
  induction cs generalizing s with
  | nil => exact .refl s
  | cons c cs ih => exact (s.countSlot_moves c).then (ih _) rfl

/-- A demoted GAME request takes NORMAL's parameters, which are wider. -/
theorem Bcu.Sound.demote {b : Bcu} (h : b.Sound) (hd : b.demoted = false) :
    ({ b with demoted := true, gameState := { b.gameState with window := 15 } } : Bcu).Sound := by
  refine ⟨h.badFrames, h.nonMember, h.controlDrops, h.ownDrops, h.duplicateRequests, h.control, h.bulk, h.radios,
    h.airtime, fun c => ?_⟩
  have hc := h.within c
  cases c with
  | game =>
    obtain ⟨hf, hw, hr, hb⟩ := hc
    simp only [Bcu.params, hd, Bcu.contention, classParams, Contention.Within] at *
    refine ⟨?_, ?_, ?_, fun n hn => ?_⟩ <;> simp at *
    · omega
    · omega
    · exact le_trans (hb n hn) hw
  | control => simpa [Bcu.params, Bcu.contention] using hc
  | normal => simpa [Bcu.params, Bcu.contention] using hc
  | bulk => simpa [Bcu.params, Bcu.contention] using hc

theorem State.demote_moves (s : State) (hd : s.bcu.demoted = false) : Moves [.draw, .bcu] s s.demote :=
  Moves.then (Moves.onBcu (.refl s) _ fun h => h.demote hd) (State.drawBackoff_moves _ _) rfl

theorem State.arbitrate_moves (cs : List AccessClass) (s : State) : Moves [.draw, .bcu] s (State.arbitrate cs s).1 := by
  induction cs generalizing s with
  | nil => exact .refl s
  | cons c cs ih =>
    simp only [State.arbitrate]; split
    · next hc => exact (s.demote_moves hc.2.1).then (ih _) rfl
    · exact .refl s

theorem Bcu.Sound.stampHead {b : Bcu} (h : b.Sound) (now : Nat) : (b.stampHead now).Sound :=
  h.change h.badFrames h.nonMember h.controlDrops h.ownDrops h.duplicateRequests
    (by simp only [Bcu.stampHead, List.length_modifyHead]; exact h.control) h.bulk rfl (fun c => by cases c <;> rfl) rfl

/-- A change of credit, refill, medium, flight or yield state alone. -/
theorem Bcu.Sound.side {b : Bcu} (h : b.Sound) (m : Medium) (i : Option AccessClass) (n : Nat) (d : Option Nat)
    (y : Bool) :
    ({ b with medium := m, inFlight := i, credit := n, refillDeadline := d, yielding := y } : Bcu).Sound :=
  h.change h.badFrames h.nonMember h.controlDrops h.ownDrops h.duplicateRequests h.control h.bulk rfl
    (fun c => by cases c <;> rfl) rfl

theorem State.startTransmission_moves (s : State) (c : AccessClass) :
    Moves [.bcu, .sent] s (s.startTransmission c) := by
  have stamp : ∀ s : State, Moves [.bcu, .sent] s (if c = .control then s.modBcu (·.stampHead s.now) else s) := by
    intro s; split
    · exact Moves.onBcu (.refl s) _ fun h => h.stampHead _
    · exact .refl s
  have start : ∀ b : Bcu, b.Sound →
      ({ (if c = .game ∧ (b.modContention c fun k => { k with backoff := none }).demoted = false then
            { b.modContention c (fun k => { k with backoff := none }) with
              credit := (b.modContention c fun k => { k with backoff := none }).credit - 1 }
          else b.modContention c fun k => { k with backoff := none }) with inFlight := some c } : Bcu).becomeBusy.Sound := by
    intro b h
    have h' := h.dropBackoff c
    split
    · exact Bcu.Sound.becomeBusy (h'.side _ _ _ _ _)
    · exact Bcu.Sound.becomeBusy (h'.side _ _ _ _ _)
  simp only [State.startTransmission]
  split
  · exact Moves.onBcu (stamp s) _ (start _)
  · exact Moves.emit (Moves.onBcu (stamp s) _ (start _)) _

theorem State.takeIdleSlot_moves (s : State) : Moves [.draw, .bcu, .sent] s s.takeIdleSlot := by
  have h1 : Moves [.draw, .bcu, .sent] s (State.countAll classRanks s).1 := (State.countAll_moves _ s).mono rfl
  have h2 := h1.then (State.arbitrate_moves (State.countAll classRanks s).2 _) rfl
  simp only [State.takeIdleSlot]
  split
  · next e => rw [e] at h2; exact h2
  · next e =>
    rw [e] at h2
    exact (h2.then (Moves.foldl (fun t x => t.drawBackoff_moves x) _ _) rfl).then (State.startTransmission_moves _ _) rfl

/-! ## Outcomes -/

/-- An item taken off its class, with what it leaves behind. -/
theorem Bcu.Sound.finishItem {b : Bcu} (h : b.Sound) (c : AccessClass) : (b.finishItem c).Sound := by
  have hc := h.within .control
  have hg := h.within .game
  have hn := h.within .normal
  have hb := h.within .bulk
  have drop : ∀ {α : Type} (l : List α) (n : Nat), l.length ≤ n → l.length - 1 ≤ n := fun _ _ hl => by omega
  have rest : ∀ p : ClassParams, p.windowMin ≤ p.windowMax →
      Contention.Within { window := p.windowMin, retry := 0, deferral := p.deferral, backoff := none } p :=
    fun p hp => ⟨le_refl _, hp, Nat.zero_le _, fun _ hn => by cases hn⟩
  cases c <;>
    refine ⟨h.badFrames, h.nonMember, h.controlDrops, h.ownDrops, h.duplicateRequests, ?_, ?_, h.radios, h.airtime, ?_⟩
  case control.refine_1 => simpa [Bcu.finishItem, Bcu.fullDeferral, Bcu.modContention] using drop _ _ h.control
  case bulk.refine_2 => simpa [Bcu.finishItem, Bcu.fullDeferral, Bcu.modContention] using drop _ _ h.bulk
  case control.refine_3 => intro d; cases d <;> [exact rest (classParams .control) (by decide); exact hg; exact hn; exact hb]
  case game.refine_3 => intro d; cases d <;> [exact hc; exact rest (classParams .game) (by decide); exact hn; exact hb]
  case normal.refine_3 => intro d; cases d <;> [exact hc; exact hg; exact rest (classParams .normal) (by decide); exact hb]
  case bulk.refine_3 => intro d; cases d <;> [exact hc; exact hg; exact hn; exact rest (classParams .bulk) (by decide)]
  all_goals first | exact h.control | exact h.bulk

theorem Bcu.Sound.countOwnDrop {b : Bcu} (h : b.Sound) : ({ b with ownDrops := count16 b.ownDrops } : Bcu).Sound :=
  h.change h.badFrames h.nonMember h.controlDrops (count16_le _) h.duplicateRequests h.control h.bulk rfl
    (fun c => by cases c <;> rfl) rfl

theorem State.dropItem_moves (s : State) (c : AccessClass) : Moves [.bcu, .sent] s (s.dropItem c) := by
  have drop : Moves [.bcu, .sent] s (s.modBcu fun b =>
      (if c = .control ∨ c = .bulk then { b with ownDrops := count16 b.ownDrops } else b).finishItem c) := by
    refine Moves.onBcu (.refl s) _ fun h => Bcu.Sound.finishItem ?_ c
    split
    · exact h.countOwnDrop
    · exact h
  simp only [State.dropItem]
  split
  · exact drop
  · exact Moves.emit drop _

theorem State.takeCollision_moves (s : State) (c : AccessClass) : Moves [.bcu, .sent] s (s.takeCollision c) := by
  simp only [State.takeCollision]
  split
  · next hr =>
    refine Moves.onBcu (.refl s) _ fun h => ?_
    obtain ⟨hd, hw, _, hb⟩ := h.within c
    refine (h.modContention c _ ⟨hd, Nat.min_le_right _ _, hr, fun n hn => ?_⟩).side _ _ _ _ _
    have := hb n hn
    simp only [le_min_iff]
    omega
  · exact s.dropItem_moves c

/-! ## Requests, load, credit, yield -/

theorem Bcu.Sound.slots {b : Bcu} (h : b.Sound) (g n : Option Nat) :
    ({ b with gameSlot := g, normalSlot := n } : Bcu).Sound :=
  h.change h.badFrames h.nonMember h.controlDrops h.ownDrops h.duplicateRequests h.control h.bulk rfl
    (fun c => by cases c <;> rfl) rfl

theorem Bcu.Sound.fillRequest {b : Bcu} (h : b.Sound) (c : BurstClass) (n : Nat) : (b.fillRequest c n).Sound := by
  cases c
  · exact (h.slots (some n) b.normalSlot).gaining .game
  · exact (h.slots b.gameSlot (some n)).gaining .normal

theorem Bcu.Sound.keepAirtime {b : Bcu} (h : b.Sound) (r p now : Nat) : (b.keepAirtime r p now).Sound := by
  refine ⟨h.badFrames, h.nonMember, h.controlDrops, h.ownDrops, h.duplicateRequests, h.control, h.bulk, ?_, ?_,
    h.within⟩
  · simp only [Bcu.keepAirtime, List.length_modify]; exact h.radios
  · intro vs hvs
    simp only [Bcu.keepAirtime] at hvs
    rw [List.mem_iff_getElem?] at hvs
    obtain ⟨i, hi⟩ := hvs
    rw [List.getElem?_modify] at hi
    cases e : b.airtime[i]? with
    | none => simp [e] at hi
    | some ws =>
      simp only [e, Option.map_eq_map, Option.map_some, Option.some.injEq] at hi
      have := h.airtime ws (List.mem_of_getElem? e)
      subst hi
      split
      · simp only [List.length_drop]; omega
      · exact this

theorem Bcu.Sound.takeYield {b : Bcu} (h : b.Sound) (y : Bool) : (b.takeYield y).Sound :=
  (h.side b.medium b.inFlight b.credit b.refillDeadline y).fullDeferral .bulk

theorem Bcu.Sound.countDuplicate {b : Bcu} (h : b.Sound) :
    ({ b with duplicateRequests := count16 b.duplicateRequests } : Bcu).Sound :=
  h.change h.badFrames h.nonMember h.controlDrops h.ownDrops (count16_le _) h.control h.bulk rfl
    (fun c => by cases c <;> rfl) rfl

theorem Bcu.Sound.countNonMember {b : Bcu} (h : b.Sound) :
    ({ b with nonMember := count16 b.nonMember } : Bcu).Sound :=
  h.change h.badFrames (count16_le _) h.controlDrops h.ownDrops h.duplicateRequests h.control h.bulk rfl
    (fun c => by cases c <;> rfl) rfl

theorem Bcu.Sound.countBad {b : Bcu} (h : b.Sound) : ({ b with badFrames := count16 b.badFrames } : Bcu).Sound :=
  h.change (count16_le _) h.nonMember h.controlDrops h.ownDrops h.duplicateRequests h.control h.bulk rfl
    (fun c => by cases c <;> rfl) rfl

theorem Bcu.reset_sound : Bcu.reset.Sound := by
  refine ⟨by decide, by decide, by decide, by decide, by decide, by decide, by decide, by decide, by decide, fun c => ?_⟩
  cases c <;> exact ⟨by decide, by decide, by decide, fun _ hn => by cases hn⟩

/-! ## The restart notice and the flash port -/

theorem Flp.NoConfigRead.voidServeReads {f : Flp} (h : f.NoConfigRead) : f.voidServeReads.NoConfigRead := by
  refine ⟨fun r hr => h.1 r (List.mem_of_mem_filter hr), fun o ho => ?_⟩
  simp only [Flp.voidServeReads] at ho
  cases e : f.operation with
  | none => simp [e] at ho
  | some o' =>
    have := h.2 o' e
    simp only [e, Option.map_some, Option.some.injEq] at ho
    subst ho
    split <;> exact this

theorem State.restartBcu_moves (s : State) : Moves [.bcu, .flp, .sent] s s.restartBcu := by
  simp only [State.restartBcu]
  refine Moves.emit (Moves.then ?_ (Moves.foldl (fun t x => t.emit_moves _) _ _) rfl) _
  refine Moves.onFlp (Moves.onBcu (.refl s) _ fun h => ?_) _ fun h => h.voidServeReads
  exact Bcu.reset_sound.side _ _ _ _ _

end Sys2Proof.Machine
end

