-- ==== Sys2Proof/Laws/Tables.lean ====
section
/-! SUPPORT. Tables with slots: what reading a slot gives after each change of a table, what a search of a table finds,
and which changes keep its occupants distinct; then the neighbour table and the client register. -/

set_option Elab.async false

namespace Sys2Proof.Machine

open Sys2Proof

variable {α β : Type}

/-! ## Reading a slot -/

theorem slotAt_eq_some {l : List (Option α)} {i : Nat} {x : α} : slotAt l i = some x ↔ l[i]? = some (some x) := by
  simp only [slotAt, Option.join_eq_some_iff]

theorem slotAt_lt {l : List (Option α)} {i : Nat} {x : α} (h : slotAt l i = some x) : i < l.length :=
  (List.getElem?_eq_some_iff.mp (slotAt_eq_some.mp h)).1

/-- A slot read after another, or the same, slot is set. -/
theorem slotAt_set (l : List (Option α)) (i j : Nat) (o : Option α) :
    slotAt (l.set i o) j = if i = j ∧ i < l.length then o else slotAt l j := by
  simp only [slotAt, List.getElem?_set]
  split
  · next h =>
    subst h
    by_cases hl : i < l.length
    · simp [hl]
    · simp [hl]
  · next h => simp [h]

/-- A slot read after a slot's content is changed. -/
theorem slotAt_updateSlot (l : List (Option α)) (i j : Nat) (f : α → α) :
    slotAt (updateSlot l i f) j = if i = j then (slotAt l j).map f else slotAt l j := by
  simp only [slotAt, updateSlot, List.getElem?_modify]
  cases l[j]? with
  | none => simp
  | some o => by_cases h : i = j <;> cases o <;> simp [h]

@[simp] theorem slotAt_map (l : List (Option α)) (i : Nat) (f : α → β) :
    slotAt (l.map (Option.map f)) i = (slotAt l i).map f := by
  simp only [slotAt, List.getElem?_map]
  cases l[i]? with
  | none => rfl
  | some o => cases o <;> rfl

@[simp] theorem slotAt_filter (l : List (Option α)) (i : Nat) (p : α → Bool) :
    slotAt (l.map fun o => o.filter p) i = (slotAt l i).filter p := by
  simp only [slotAt, List.getElem?_map]
  cases l[i]? with
  | none => rfl
  | some o => rfl

@[simp] theorem slotAt_replicate (n i : Nat) : slotAt (List.replicate n (none : Option α)) i = none := by
  simp only [slotAt, List.getElem?_replicate]; split <;> rfl

@[simp] theorem updateSlot_length (l : List (Option α)) (i : Nat) (f : α → α) : (updateSlot l i f).length = l.length :=
  List.length_modify _ _ _

/-! ## Searching a table -/

theorem findSlot_some {l : List (Option α)} {p : α → Bool} {i : Nat} (h : findSlot l p = some i) :
    ∃ x, slotAt l i = some x ∧ p x = true := by
  obtain ⟨hi, hp, _⟩ := List.findIdx?_eq_some_iff_getElem.mp h
  cases e : l[i] with
  | none => simp [e] at hp
  | some x => exact ⟨x, by rw [slotAt_eq_some, List.getElem?_eq_getElem hi, e], by simpa [e] using hp⟩

theorem findSlot_none {l : List (Option α)} {p : α → Bool} (h : findSlot l p = none) {i : Nat} {x : α}
    (hx : slotAt l i = some x) : p x = false := by
  have := List.findIdx?_eq_none_iff.mp h (some x) (List.mem_of_getElem? (slotAt_eq_some.mp hx))
  simpa using this

theorem firstFree_some {l : List (Option α)} {i : Nat} (h : firstFree l = some i) :
    i < l.length ∧ slotAt l i = none := by
  obtain ⟨hi, hp, _⟩ := List.findIdx?_eq_some_iff_getElem.mp h
  refine ⟨hi, ?_⟩
  simp only [Option.isNone_iff_eq_none] at hp
  simp [slotAt, List.getElem?_eq_getElem hi, hp]

/-! ## Distinct occupants -/

theorem DistinctBy.updateSlot {key : α → β} {l : List (Option α)} (h : DistinctBy key l) (i : Nat) {f : α → α}
    (hf : ∀ x, slotAt l i = some x → key (f x) = key x) : DistinctBy key (updateSlot l i f) := by
  have read : ∀ j y, slotAt (Machine.updateSlot l i f) j = some y → ∃ x, slotAt l j = some x ∧ key y = key x := by
    intro j y hy
    rw [slotAt_updateSlot] at hy
    split at hy
    · next e =>
      subst e
      cases hx : slotAt l i with
      | none => simp [hx] at hy
      | some x => rw [hx] at hy; cases hy; exact ⟨x, rfl, hf x hx⟩
    · exact ⟨y, hy, rfl⟩
  intro j k x y hx hy e
  obtain ⟨x', hx', ex⟩ := read j x hx
  obtain ⟨y', hy', ey⟩ := read k y hy
  exact h j k x' y' hx' hy' (ex ▸ ey ▸ e)

theorem DistinctBy.map {key : α → β} {l : List (Option α)} (h : DistinctBy key l) {f : α → α}
    (hf : ∀ x, key (f x) = key x) : DistinctBy key (l.map (Option.map f)) := by
  intro i j x y hx hy e
  rw [slotAt_map, Option.map_eq_some_iff] at hx hy
  obtain ⟨x', hx', rfl⟩ := hx
  obtain ⟨y', hy', rfl⟩ := hy
  exact h i j x' y' hx' hy' (by rwa [hf, hf] at e)

theorem DistinctBy.clear {key : α → β} {l : List (Option α)} (h : DistinctBy key l) (i : Nat) :
    DistinctBy key (l.set i none) := by
  have read : ∀ j y, slotAt (l.set i none) j = some y → slotAt l j = some y := by
    intro j y hy
    rw [slotAt_set] at hy
    split at hy
    · cases hy
    · exact hy
  exact fun j k x y hx hy e => h j k x y (read j x hx) (read k y hy) e

/-- A new occupant that no other slot's agrees with, in a slot of its own. -/
theorem DistinctBy.put {key : α → β} {l : List (Option α)} (h : DistinctBy key l) (i : Nat) (z : α)
    (hz : ∀ j x, j ≠ i → slotAt l j = some x → key x ≠ key z) : DistinctBy key (l.set i (some z)) := by
  intro j k x y hx hy e
  rw [slotAt_set] at hx hy
  split at hx <;> split at hy
  · next a b => exact a.1.symm.trans b.1
  · next a b =>
    cases hx
    by_cases hk : k = i
    · exact a.1.symm.trans hk.symm
    · exact absurd e.symm (hz k y hk hy)
  · next a b =>
    cases hy
    by_cases hj : j = i
    · exact hj.trans b.1
    · exact absurd e (hz j x hj hx)
  · exact h j k x y hx hy e

theorem DistinctBy.replicate (key : α → β) (n : Nat) : DistinctBy key (List.replicate n none) := by
  intro i j x y hx
  simp at hx

theorem EverySlot.updateSlot {p : α → Prop} {l : List (Option α)} (h : EverySlot p l) (i : Nat) {f : α → α}
    (hf : ∀ x, slotAt l i = some x → p x → p (f x)) : EverySlot p (updateSlot l i f) := by
  intro j y hy
  rw [slotAt_updateSlot] at hy
  split at hy
  · next e =>
    subst e
    obtain ⟨x, hx, rfl⟩ := Option.map_eq_some_iff.mp hy
    exact hf x hx (h i x hx)
  · exact h j y hy

theorem EverySlot.map {p : α → Prop} {l : List (Option α)} (h : EverySlot p l) {f : α → α}
    (hf : ∀ x, p x → p (f x)) : EverySlot p (l.map (Option.map f)) := by
  intro i y hy
  rw [slotAt_map, Option.map_eq_some_iff] at hy
  obtain ⟨x, hx, rfl⟩ := hy
  exact hf x (h i x hx)

theorem EverySlot.set {p : α → Prop} {l : List (Option α)} (h : EverySlot p l) (i : Nat) {o : Option α}
    (ho : ∀ x, o = some x → p x) : EverySlot p (l.set i o) := by
  intro j y hy
  rw [slotAt_set] at hy
  split at hy
  · exact ho y hy
  · exact h j y hy

theorem EverySlot.replicate (p : α → Prop) (n : Nat) : EverySlot p (List.replicate n none) := by
  intro i x hx
  simp at hx

/-! ## The neighbour table -/

theorem State.findEntry_some {s : State} {id : NodeId} {i : Nat} (h : s.findEntry id = some i) :
    ∃ e, s.entry i = some e ∧ e.id = id := by
  obtain ⟨e, he, hid⟩ := findSlot_some h
  exact ⟨e, he, by simpa using hid⟩

/-- A change of entry `i` that keeps its node and its bounds. -/
theorem State.modEntry_moves (s : State) (i : Nat) (f : Entry → Entry)
    (hf : ∀ e, s.entry i = some e → e.Sound → (f e).Sound ∧ (f e).id = e.id) : Moves [.nbt] s (s.modEntry i f) :=
  Moves.onNbt (.refl s) _ fun h =>
    ⟨by simpa using h.size,
      h.distinct.updateSlot i fun e he => (hf e he (h.entries i e he)).2,
      h.entries.updateSlot i fun e he hs => (hf e he hs).1, h.tableFull⟩

/-- Every entry changed alike, its node kept. -/
theorem Nbt.Sound.mapEntries {n : Nbt} (h : n.Sound) {f : Entry → Entry}
    (hf : ∀ e, e.Sound → (f e).Sound) (hid : ∀ e, (f e).id = e.id) :
    ({ n with entries := n.entries.map (Option.map f) } : Nbt).Sound :=
  ⟨by simpa using h.size, h.distinct.map hid, h.entries.map hf, h.tableFull⟩

/-- An entry removed. -/
theorem Nbt.Sound.remove {n : Nbt} (h : n.Sound) (i : Nat) : ({ n with entries := n.entries.set i none } : Nbt).Sound :=
  ⟨by simpa using h.size, h.distinct.clear i, h.entries.set i (fun _ hx => by cases hx), h.tableFull⟩

/-- A change of the node's own deadlines alone. -/
theorem Nbt.Sound.timers {n : Nbt} (h : n.Sound) (c b : Option Nat) :
    ({ n with clashHoldoff := c, buildDeadline := b } : Nbt).Sound := ⟨h.size, h.distinct, h.entries, h.tableFull⟩

theorem State.countFetchFail_moves (s : State) (peer : NodeId) : Moves [.nbt] s (s.countFetchFail peer) := by
  simp only [State.countFetchFail]
  split
  · exact .refl s
  · exact s.modEntry_moves _ _ fun e _ h =>
      ⟨⟨h.joins, h.misses, h.badFrames, h.goodRun, h.sinceWindow, h.load, h.served, satSucc_le⟩, rfl⟩

/-! ## The client register -/

theorem State.findRecord_some {s : State} {a : ClientAddr} {i : Nat} (h : s.findRecord a = some i) :
    ∃ r, s.record i = some r ∧ r.addr = a := by
  obtain ⟨r, hr, ha⟩ := findSlot_some h
  exact ⟨r, hr, by simpa using ha⟩

/-- A change of record `i` that keeps its client and its bounds. -/
theorem State.modRecord_moves (s : State) (i : Nat) (f : ClientRecord → ClientRecord)
    (hf : ∀ r, s.record i = some r → r.Sound → (f r).Sound ∧ (f r).addr = r.addr) : Moves [.crg] s (s.modRecord i f) :=
  Moves.onCrg (.refl s) _ fun h =>
    ⟨by simpa using h.size,
      h.distinct.updateSlot i fun r hr => (hf r hr (h.records i r hr)).2,
      h.records.updateSlot i fun r hr hs => (hf r hr hs).1,
      h.refusedAssociations, h.unplacedSightings, h.invalidEntries⟩

@[simp] theorem State.modRecord_record (s : State) (i j : Nat) (f : ClientRecord → ClientRecord) :
    (s.modRecord i f).record j = if i = j then (s.record j).map f else s.record j := slotAt_updateSlot _ _ _ _

/-- Every record changed alike, its client kept. -/
theorem Crg.Sound.mapRecords {c : Crg} (h : c.Sound) {f : ClientRecord → ClientRecord}
    (hf : ∀ r, r.Sound → (f r).Sound) (ha : ∀ r, (f r).addr = r.addr) :
    ({ c with records := c.records.map (Option.map f) } : Crg).Sound :=
  ⟨by simpa using h.size, h.distinct.map ha, h.records.map hf, h.refusedAssociations, h.unplacedSightings,
    h.invalidEntries⟩

/-- A record freed. -/
theorem Crg.Sound.remove {c : Crg} (h : c.Sound) (i : Nat) : ({ c with records := c.records.set i none } : Crg).Sound :=
  ⟨by simpa using h.size, h.distinct.clear i, h.records.set i (fun _ hx => by cases hx), h.refusedAssociations,
    h.unplacedSightings, h.invalidEntries⟩

/-- A record that keeps its serving state, deadlines and reports is sound while it keeps its evidence in bounds and
gains neither a context nor a directive, or gains them while SERVED. -/
theorem ClientRecord.Sound.change {r r' : ClientRecord} (h : r.Sound) (serving : r'.serving = r.serving)
    (reports : r'.reports = r.reports) (evidence : r'.evidence ≤ 15) (pend : r'.admitPending = r.admitPending)
    (remote : r'.remoteDeadline = r.remoteDeadline) (removal : r'.removalDeadline = r.removalDeadline)
    (release : r'.release.isSome → r.release.isSome ∨ r.isServed) (pending : r'.hasPending → r.hasPending ∨ r.isServed) :
    r'.Sound := by
  have hs : r'.isServed = r.isServed := by simp only [ClientRecord.isServed, ClientRecord.servedOn, serving]
  refine ⟨reports ▸ h.reports, reports ▸ h.reporters, evidence, ?_, fun hr => ?_, fun hp => ?_⟩
  · have := h.deadlines
    simp only [ClientRecord.DeadlinesFit, serving, pend, remote, removal] at this ⊢
    exact this
  · rw [hs]; exact (release hr).elim h.release id
  · rw [hs]; exact (pending hp).elim h.directives id

/-! ## Bad frames and membership -/

theorem State.chargeBadFrame_moves (s : State) (i : Nat) : Moves [.nbt, .event] s (s.chargeBadFrame i) := by
  simp only [State.chargeBadFrame]
  split
  · exact .refl s
  · next e he =>
    split
    · next hc =>
      refine Moves.event ?_ _ _ _
      refine Moves.mono (s.modEntry_moves i _ fun e' he' h => ⟨?_, rfl⟩) rfl
      obtain rfl : e' = e := by simpa [State.entry, he] using he'.symm.trans he
      have := h.misses
      rw [hc.1] at this
      exact ⟨h.joins, le_trans this (show 1 ≤ 5 by decide), satSucc_le, Nat.zero_le _, h.sinceWindow, h.load, h.served,
        h.fetchFails⟩
    · refine Moves.mono (s.modEntry_moves i _ fun e' _ h => ?_) rfl
      exact ⟨⟨h.joins, h.misses, satSucc_le, h.goodRun, h.sinceWindow, h.load, h.served, h.fetchFails⟩, rfl⟩

theorem State.chargeBadFrameTo_moves (s : State) (id : NodeId) : Moves [.nbt, .event] s (s.chargeBadFrameTo id) := by
  simp only [State.chargeBadFrameTo]
  split
  · exact .refl s
  · exact s.chargeBadFrame_moves _

theorem State.dropBadFrame_moves (s : State) (link : NodeId) : Moves [.bcu, .nbt, .event] s (s.dropBadFrame link) := by
  simp only [State.dropBadFrame]
  exact Moves.then (Moves.onBcu (.refl s) _ fun h => h.countBad) (State.chargeBadFrameTo_moves _ _) rfl

/-- Where a received frame goes: it is dropped with its count or without, or its owning block takes it. -/
theorem State.receive_moves {L C : List Touch} (s : State) (k : FrameKind) (link : NodeId) (f : RxFrame)
    (take : NodeId → List Byte → State → State) (ht : ∀ peer b (t : State), Moves L t (take peer b t))
    (hc : covers C L = true) (hd : covers C [.bcu, .nbt, .event] = true) : Moves C s (s.receive k link f take) := by
  simp only [State.receive]
  split
  · exact .refl s
  · split
    · exact (s.dropBadFrame_moves link).mono hd
    · split
      · exact .refl s
      · split
        · exact Moves.onBcu (.refl s) _ (fun h => h.countNonMember) (covers_mem hd (by decide))
        · exact (ht _ _ s).mono hc

end Sys2Proof.Machine
end

