-- ==== Sys2Proof/Laws/Radio.lean ====
section
/-! SUPPORT. The Radio Link Interface: what issuing, discarding and sending directives touches, and that after the RLI
has sent what it can every radio is full or has nothing waiting. -/

set_option Elab.async false

namespace Sys2Proof.Machine

open Sys2Proof

/-! ## The lists of the three radios -/

theorem forRadio_modRadio {α : Type} (l : List (List α)) (r q : Nat) (f : List α → List α) :
    forRadio (modRadio l r f) q = if r = q ∧ q < l.length then f (forRadio l q) else forRadio l q := by
  simp only [forRadio, modRadio, List.getElem?_modify]
  by_cases hq : q < l.length
  · by_cases h : r = q <;> simp [h, hq]
  · simp [hq]

@[simp] theorem modRadio_length {α : Type} (l : List (List α)) (r : Nat) (f : List α → List α) :
    (modRadio l r f).length = l.length := List.length_modify _ _ _

theorem mem_modRadio {α : Type} {l : List (List α)} {r : Nat} {f : List α → List α} {q : List α}
    (h : q ∈ modRadio l r f) : q ∈ l ∨ ∃ p, l[r]? = some p ∧ q = f p := by
  rw [List.mem_iff_getElem?] at h
  obtain ⟨i, hi⟩ := h
  simp only [modRadio, List.getElem?_modify] at hi
  cases e : l[i]? with
  | none => simp [e] at hi
  | some p =>
    simp only [e, Option.map_eq_map, Option.map_some, Option.some.injEq] at hi
    subst hi
    split
    · next hr => subst hr; exact .inr ⟨p, e, rfl⟩
    · exact .inl (List.mem_of_getElem? e)

/-! ## Waiting lists -/

theorem State.joinWaiting_moves (s : State) (radio i : Nat) : Moves [.rli] s (s.joinWaiting radio i) :=
  Moves.onRli (.refl s) _ fun h => ⟨by simpa using h.waiting, h.inFlight, h.room⟩

theorem State.leaveWaiting_moves (s : State) (i : Nat) : Moves [.rli] s (s.leaveWaiting i) :=
  Moves.onRli (.refl s) _ fun h => ⟨by simpa using h.waiting, h.inFlight, h.room⟩

@[simp] theorem State.joinWaiting_record (s : State) (radio i j : Nat) :
    (s.joinWaiting radio i).record j = s.record j := rfl

@[simp] theorem State.leaveWaiting_record (s : State) (i j : Nat) : (s.leaveWaiting i).record j = s.record j := rfl

/-! ## Issuing and discarding -/

/-- A directive issued changes its record, if that is SERVED, and a waiting list. -/
theorem State.issue_moves (s : State) (i : Nat) (put : ClientRecord → ClientRecord)
    (hput : ∀ r, r.Sound → r.isServed → (put r).Sound ∧ (put r).addr = r.addr) :
    Moves [.rli, .crg] s (s.issue i put) := by
  simp only [State.issue]
  split
  · exact .refl s
  · next r hr =>
    split
    · exact .refl s
    · next radio hradio =>
      have served : r.isServed := by simp [ClientRecord.isServed, hradio]
      have step : ∀ t : State, t.record i = some r → Moves [.crg] t (t.modRecord i put) := fun t ht =>
        t.modRecord_moves i put fun r' hr' h => by
          obtain rfl : r' = r := by simpa [ht] using hr'.symm
          exact hput _ h served
      split
      · exact (step s hr).mono rfl
      · exact Moves.then ((s.joinWaiting_moves radio i).mono rfl) (step _ hr) rfl

theorem ClientRecord.Sound.withDirectives {r : ClientRecord} (h : r.Sound) (hs : r.isServed)
    (c : Option ControlDirective) (e : Option EnforcementDirective) (p : Option Priority) :
    ({ r with pendingControl := c, pendingEnforcement := e, pendingPriority := p } : ClientRecord).Sound :=
  h.change rfl rfl h.evidence rfl rfl rfl .inl fun _ => .inr hs

theorem State.issueControl_moves (s : State) (i : Nat) (d : ControlDirective) :
    Moves [.rli, .crg] s (s.issueControl i d) :=
  s.issue_moves i _ fun r h hs => ⟨h.withDirectives hs (some d) r.pendingEnforcement r.pendingPriority, rfl⟩

theorem State.issuePriority_moves (s : State) (i : Nat) (p : Priority) :
    Moves [.rli, .crg] s (s.issuePriority i p) :=
  s.issue_moves i _ fun r h hs => ⟨h.withDirectives hs r.pendingControl r.pendingEnforcement (some p), rfl⟩

theorem ClientRecord.withoutPending_hasPending (r : ClientRecord) : r.withoutPending.hasPending = false := rfl

theorem ClientRecord.Sound.withoutPending {r : ClientRecord} (h : r.Sound) : r.withoutPending.Sound :=
  h.change rfl rfl h.evidence rfl rfl rfl .inl fun hp => by simp [ClientRecord.withoutPending_hasPending] at hp

theorem State.discardPending_moves (s : State) (i : Nat) : Moves [.rli, .crg] s (s.discardPending i) :=
  Moves.then ((s.leaveWaiting_moves i).mono rfl)
    (State.modRecord_moves _ i _ fun _ _ h => ⟨h.withoutPending, rfl⟩) rfl

theorem ClientRecord.Sound.withoutControl {r : ClientRecord} (h : r.Sound) :
    ({ r with pendingControl := none } : ClientRecord).Sound := by
  refine h.change rfl rfl h.evidence rfl rfl rfl .inl fun hp => .inl ?_
  simp only [ClientRecord.hasPending, Bool.or_eq_true] at hp ⊢
  rcases hp with (hp | hp) | hp
  · cases hp
  · exact .inl (.inr hp)
  · exact .inr hp

theorem ClientRecord.Sound.withoutEnforcement {r : ClientRecord} (h : r.Sound) :
    ({ r with pendingEnforcement := none } : ClientRecord).Sound := by
  refine h.change rfl rfl h.evidence rfl rfl rfl .inl fun hp => .inl ?_
  simp only [ClientRecord.hasPending, Bool.or_eq_true] at hp ⊢
  rcases hp with (hp | hp) | hp
  · exact .inl (.inl hp)
  · cases hp
  · exact .inr hp

theorem State.withdraw_moves (s : State) (i : Nat) (drop : ClientRecord → ClientRecord)
    (hd : ∀ r, r.Sound → (drop r).Sound ∧ (drop r).addr = r.addr) : Moves [.rli, .crg] s (s.withdraw i drop) := by
  have step : Moves [.rli, .crg] s (s.modRecord i drop) := (s.modRecord_moves i _ fun r _ h => hd r h).mono rfl
  simp only [State.withdraw]
  split
  · exact .refl s
  · split
    · exact step
    · exact step.then (State.leaveWaiting_moves _ i) rfl

theorem State.issueEnforcement_moves (s : State) (i : Nat) (d : EnforcementDirective) :
    Moves [.rli, .crg] s (s.issueEnforcement i d) := by
  simp only [State.issueEnforcement]
  split
  · exact .refl s
  · split
    · exact s.withdraw_moves i _ fun _ h => ⟨h.withoutEnforcement, rfl⟩
    · exact s.issue_moves i _ fun r h hs => ⟨h.withDirectives hs r.pendingControl (some d) r.pendingPriority, rfl⟩

theorem State.discardSteer_moves (s : State) (i : Nat) (target : NodeId) :
    Moves [.rli, .crg] s (s.discardSteer i target) := by
  simp only [State.discardSteer]
  split
  · exact .refl s
  · split
    · exact s.withdraw_moves i _ fun _ h => ⟨h.withoutControl, rfl⟩
    · exact .refl s

/-! ## Sending -/

/-- What a record sends next takes one directive off it. -/
theorem ClientRecord.nextDirective_sound {r r' : ClientRecord} {d : Directive} (h : r.nextDirective = some (d, r')) :
    (r.Sound → r'.Sound) ∧ r'.addr = r.addr := by
  simp only [ClientRecord.nextDirective] at h
  split at h <;> simp only [Option.some.injEq, Prod.mk.injEq, reduceCtorEq] at h <;> obtain ⟨-, rfl⟩ := h <;>
    refine ⟨fun hs => hs.change rfl rfl hs.evidence rfl rfl rfl .inl fun _ => .inr (hs.directives ?_), rfl⟩ <;>
    simp [ClientRecord.hasPending, *]

theorem State.sendDirective_moves (s : State) (radio : Nat) (d : Directive)
    (room : (forRadio s.rli.inFlight radio).length < 16) : Moves [.rli, .sent] s (s.sendDirective radio d) := by
  have join : Moves [.rli, .sent] s
      ((s.modRli fun l => { l with inFlight := modRadio l.inFlight radio (· ++ [d]) }).emit (.directive radio d)) := by
    refine Moves.emit (Moves.onRli (.refl s) _ fun h => ⟨h.waiting, by simpa using h.inFlight, fun q hq => ?_⟩) _
    rcases mem_modRadio hq with hq | ⟨p, hp, rfl⟩
    · exact h.room q hq
    · simp only [forRadio, hp, Option.getD_some] at room
      simp only [List.length_append, List.length_singleton]
      omega
  simp only [State.sendDirective]
  split
  · exact Moves.emit join _
  · exact join
  · exact join
  · exact join

theorem State.pumpRadio_moves (radio : Nat) (fuel : Nat) (s : State) :
    Moves [.rli, .crg, .sent] s (State.pumpRadio radio fuel s) := by
  induction fuel generalizing s with
  | zero => exact .refl s
  | succ fuel ih =>
    simp only [State.pumpRadio]
    split
    · exact .refl s
    · next room =>
      split
      · exact .refl s
      · next i rest _ =>
        split
        · exact Moves.then ((s.leaveWaiting_moves i).mono rfl) (ih _) rfl
        · next d r e =>
          obtain ⟨r0, hr0, hd⟩ := Option.bind_eq_some_iff.mp e
          obtain ⟨hsound, haddr⟩ := ClientRecord.nextDirective_sound hd
          refine Moves.then ?_ (ih _) rfl
          have step : Moves [.rli, .crg, .sent] s ((s.modRecord i fun _ => r).sendDirective radio d) := by
            refine Moves.then (Moves.mono (s.modRecord_moves i _ fun r1 hr1 h1 => ?_) rfl)
              (State.sendDirective_moves _ radio d (Nat.lt_of_not_le room)) rfl
            obtain rfl : r1 = r0 := by simpa [hr0] using hr1.symm
            exact ⟨hsound h1, haddr⟩
          split
          · exact step
          · exact step.then (State.leaveWaiting_moves _ i) rfl

theorem State.pump_moves (s : State) : Moves [.rli, .crg, .sent] s s.pump :=
  Moves.foldl (fun t r => State.pumpRadio_moves r _ t) _ s

/-- What every event ends with touches the radios, the records' pending directives, what is sent and the lines. -/
theorem State.finish_moves (s : State) : Moves [.rli, .crg, .sent, .lines] s s.finish :=
  Moves.then (s.pump_moves.mono rfl) (Move.lines _).moves rfl

/-! ## The RLI sends what it can -/

/-- How many rounds a radio can still take. -/
def State.roundsLeft (s : State) (radio : Nat) : Nat :=
  16 - (forRadio s.rli.inFlight radio).length + (forRadio s.rli.waiting radio).length

theorem State.leaveWaiting_waiting (s : State) (i radio : Nat) :
    forRadio (s.leaveWaiting i).rli.waiting radio = (forRadio s.rli.waiting radio).filter (· ≠ i) := by
  simp only [State.leaveWaiting, State.modRli_rli, forRadio, List.getElem?_map]
  cases s.rli.waiting[radio]? <;> rfl

@[simp] theorem State.leaveWaiting_inFlight (s : State) (i : Nat) :
    (s.leaveWaiting i).rli.inFlight = s.rli.inFlight := rfl

@[simp] theorem State.sendDirective_rli (s : State) (radio : Nat) (d : Directive) :
    (s.sendDirective radio d).rli = { s.rli with inFlight := modRadio s.rli.inFlight radio (· ++ [d]) } := by
  simp only [State.sendDirective]; split <;> rfl

@[simp] theorem State.modRecord_rli (s : State) (i : Nat) (f : ClientRecord → ClientRecord) :
    (s.modRecord i f).rli = s.rli := rfl

/-- A radio stays settled while the RLI sends for any radio. -/
theorem State.pumpRadio_keeps_settled (radio r fuel : Nat) (s : State)
    (h : 16 ≤ (forRadio s.rli.inFlight r).length ∨ forRadio s.rli.waiting r = []) :
    16 ≤ (forRadio (State.pumpRadio radio fuel s).rli.inFlight r).length ∨
      forRadio (State.pumpRadio radio fuel s).rli.waiting r = [] := by
  induction fuel generalizing s with
  | zero => exact h
  | succ fuel ih =>
    have leave : ∀ (t : State) (i : Nat), (16 ≤ (forRadio t.rli.inFlight r).length ∨ forRadio t.rli.waiting r = []) →
        16 ≤ (forRadio (t.leaveWaiting i).rli.inFlight r).length ∨ forRadio (t.leaveWaiting i).rli.waiting r = [] := by
      intro t i ht
      rw [State.leaveWaiting_waiting, State.leaveWaiting_inFlight]
      exact ht.imp id fun hw => by rw [hw]; rfl
    simp only [State.pumpRadio]
    split
    · exact h
    · split
      · exact h
      · next i rest _ =>
        split
        · exact ih _ (leave _ i h)
        · next d r' _ =>
          have step : ∀ t : State, t.rli = s.rli →
              16 ≤ (forRadio (t.sendDirective radio d).rli.inFlight r).length ∨
                forRadio (t.sendDirective radio d).rli.waiting r = [] := by
            intro t ht
            rw [State.sendDirective_rli, ht, forRadio_modRadio]
            refine h.imp (fun hq => ?_) id
            split
            · simp only [List.length_append]; omega
            · exact hq
          refine ih _ ?_
          split
          · exact step _ rfl
          · exact leave _ i (step _ rfl)

/-- With rounds enough the radio is settled: its in-flight queue is full or nothing waits. -/
theorem State.pumpRadio_settles (radio fuel : Nat) (s : State) (hf : s.roundsLeft radio ≤ fuel)
    (hr : radio < s.rli.inFlight.length) :
    16 ≤ (forRadio (State.pumpRadio radio fuel s).rli.inFlight radio).length ∨
      forRadio (State.pumpRadio radio fuel s).rli.waiting radio = [] := by
  induction fuel generalizing s with
  | zero =>
    simp only [State.roundsLeft] at hf
    exact .inr (List.length_eq_zero_iff.mp (by simp only [State.pumpRadio]; omega))
  | succ fuel ih =>
    have shorter : ∀ (t : State) (i : Nat), (forRadio (t.leaveWaiting i).rli.waiting radio).length ≤
        (forRadio t.rli.waiting radio).length := by
      intro t i; rw [State.leaveWaiting_waiting]; exact List.length_filter_le _ _
    simp only [State.pumpRadio]
    split
    · next hq => exact .inl hq
    · next hq =>
      split
      · next hw => exact .inr hw
      · next i rest hw =>
        split
        · refine ih _ ?_ hr
          have : (forRadio (s.leaveWaiting i).rli.waiting radio).length ≤ rest.length := by
            rw [State.leaveWaiting_waiting, hw]
            simpa using List.length_filter_le _ rest
          simp only [State.roundsLeft, State.leaveWaiting_inFlight, hw, List.length_cons] at hf ⊢
          omega
        · next d r' _ =>
          have sent : ∀ t : State, t.rli = s.rli →
              (t.sendDirective radio d).roundsLeft radio ≤ fuel ∧
                radio < (t.sendDirective radio d).rli.inFlight.length := by
            intro t ht
            simp only [State.roundsLeft, State.sendDirective_rli, ht, forRadio_modRadio, modRadio_length] at hf ⊢
            simp only [hr, and_self, if_true, List.length_append, List.length_singleton]
            refine ⟨?_, trivial⟩
            omega
          split
          · exact ih _ (sent (s.modRecord i fun _ => r') rfl).1 (sent (s.modRecord i fun _ => r') rfl).2
          · refine ih _ (le_trans ?_ (sent (s.modRecord i fun _ => r') rfl).1) (sent (s.modRecord i fun _ => r') rfl).2
            have := shorter ((s.modRecord i fun _ => r').sendDirective radio d) i
            simp only [State.roundsLeft, State.leaveWaiting_inFlight]
            omega

theorem Moves.rli_sound {C : List Touch} {s t : State} (h : Moves C s t) (hs : s.rli.Sound) : t.rli.Sound :=
  h.keeps (fun t => t.rli.Sound) (fun k _ u v m hu => by
    cases m <;> first | exact hu | (rename_i f hf; exact hf hu)) hs

/-- The output lines are driven last. -/
theorem State.finish_lines (s : State) : s.finish.LinesAgree := by
  simp only [State.finish, State.LinesAgree]
  generalize s.pump = t
  rfl

/-- What every event ends with leaves the radios settled. -/
theorem State.pump_radiosSettled (s : State) (h : s.rli.Sound) : s.pump.RadiosSettled := by
  have fuel : ∀ (t : State) (r : Nat), t.roundsLeft r ≤ t.pumpFuel r := fun t r => by
    simp only [State.roundsLeft, State.pumpFuel]; omega
  have h0 := (State.pumpRadio_moves 0 (s.pumpFuel 0) s).rli_sound h
  have s0 := State.pumpRadio_settles 0 _ s (fuel s 0) (by rw [h.inFlight]; decide)
  have unfold : s.pump = State.pumpRadio 2 (State.pumpFuel (State.pumpRadio 1 (State.pumpFuel (State.pumpRadio 0
      (s.pumpFuel 0) s) 1) (State.pumpRadio 0 (s.pumpFuel 0) s)) 2) (State.pumpRadio 1 (State.pumpFuel
      (State.pumpRadio 0 (s.pumpFuel 0) s) 1) (State.pumpRadio 0 (s.pumpFuel 0) s)) := rfl
  rw [unfold]
  clear unfold
  generalize State.pumpRadio 0 (s.pumpFuel 0) s = t at h0 s0 ⊢
  have h1 := (State.pumpRadio_moves 1 (t.pumpFuel 1) t).rli_sound h0
  have s1 := State.pumpRadio_settles 1 _ t (fuel t 1) (by rw [h0.inFlight]; decide)
  have s1' := State.pumpRadio_keeps_settled 1 0 (t.pumpFuel 1) t s0
  generalize State.pumpRadio 1 (t.pumpFuel 1) t = u at h1 s1 s1' ⊢
  have s2 := State.pumpRadio_settles 2 _ u (fuel u 2) (by rw [h1.inFlight]; decide)
  have s2' := State.pumpRadio_keeps_settled 2 0 (u.pumpFuel 2) u s1'
  have s2'' := State.pumpRadio_keeps_settled 2 1 (u.pumpFuel 2) u s1
  generalize State.pumpRadio 2 (u.pumpFuel 2) u = v at s2 s2' s2'' ⊢
  intro r hr
  interval_cases r
  · exact s2'
  · exact s2''
  · exact s2

/-- What every event leaves behind. -/
theorem State.finish_settled (s : State) (h : s.rli.Sound) : s.finish.Settled := by
  refine ⟨?_, s.finish_lines⟩
  have hp := s.pump_radiosSettled h
  simp only [State.finish]
  generalize s.pump = t at hp
  exact hp

/-! ## A settled radio link has nothing to send -/

theorem State.pumpRadio_settled (radio fuel : Nat) (s : State)
    (h : 16 ≤ (forRadio s.rli.inFlight radio).length ∨ forRadio s.rli.waiting radio = []) :
    State.pumpRadio radio fuel s = s := by
  cases fuel with
  | zero => rfl
  | succ fuel =>
    simp only [State.pumpRadio]
    rcases h with h | h
    · rw [if_pos h]
    · split
      · rfl
      · rw [h]

/-- Where the RLI has nothing to send and the lines are driven, an event's end changes nothing. -/
theorem State.finish_of_settled (s : State) (h : s.Settled) : s.finish = s := by
  have pump : s.pump = s := by
    simp only [State.pump, List.foldl_cons, List.foldl_nil]
    rw [State.pumpRadio_settled 0 _ s (h.radios 0 (by decide)), State.pumpRadio_settled 1 _ s (h.radios 1 (by decide)),
      State.pumpRadio_settled 2 _ s (h.radios 2 (by decide))]
  have lines := h.lines
  simp only [State.LinesAgree] at lines
  simp only [State.finish, pump, State.driveLines, ← lines]

/-- Where the RLI has nothing to send, an event's end only drives the lines. -/
theorem State.finish_of_radios (s : State) (h : s.RadiosSettled) : s.finish = s.driveLines := by
  have pump : s.pump = s := by
    simp only [State.pump, List.foldl_cons, List.foldl_nil]
    rw [State.pumpRadio_settled 0 _ s (h 0 (by decide)), State.pumpRadio_settled 1 _ s (h 1 (by decide)),
      State.pumpRadio_settled 2 _ s (h 2 (by decide))]
  simp only [State.finish, pump]

/-- A state that differs from a settled one in nothing the lines or the RLI depend on is settled. -/
theorem State.Settled.of_same {s t : State} (h : s.Settled) (rli : t.rli = s.rli) (lines : t.lines = s.lines)
    (events : t.evq.events = s.evq.events) (install : t.icu.install = s.icu.install) (frc : t.frc = s.frc) :
    t.Settled := by
  refine ⟨fun r hr => by rw [rli]; exact h.radios r hr, ?_⟩
  have := h.lines
  simp only [State.LinesAgree, linesOf] at this ⊢
  rw [lines, events, install, frc]; exact this

end Sys2Proof.Machine
end

