-- ==== Sys2Proof/Laws/Schedule.lean ====
section
/-! SUPPORT. The Game Traffic Monitor and the Schedule Enforcement Unit: what each of their operations touches. -/

set_option Elab.async false

namespace Sys2Proof.Machine

open Sys2Proof

/-! ## Game traffic -/

theorem State.judgeYield_moves (s : State) : Moves [.gtm, .yields] s s.judgeYield := by
  simp only [State.judgeYield]
  split
  · exact .refl s
  · refine Moves.step (Moves.onGtm (.refl s) _ fun h => ⟨h.invalid, h.unmatched⟩) (by decide) (Move.yields _ _ _)

theorem State.gameCountUp_moves (s : State) : Moves [.gtm, .yields] s s.gameCountUp := by
  simp only [State.gameCountUp]
  exact Moves.then (Moves.onGtm (.refl s) _ fun h => ⟨h.invalid, h.unmatched⟩) (State.judgeYield_moves _) rfl

theorem State.gameCountDown_moves (s : State) : Moves [.gtm, .yields] s s.gameCountDown := by
  simp only [State.gameCountDown]
  exact Moves.then (Moves.onGtm (.refl s) _ fun h => ⟨h.invalid, h.unmatched⟩) (State.judgeYield_moves _) rfl

theorem State.clearPeerGame_moves (s : State) : Moves [.gtm, .yields] s s.clearPeerGame := by
  simp only [State.clearPeerGame]
  exact Moves.then (Moves.onGtm (.refl s) _ fun h => ⟨h.invalid, h.unmatched⟩) (State.judgeYield_moves _) rfl

/-- A change of a record that keeps its serving state, deadlines, reports, evidence, context and directives. -/
theorem ClientRecord.Sound.light {r r' : ClientRecord} (h : r.Sound) (serving : r'.serving = r.serving)
    (reports : r'.reports = r.reports) (evidence : r'.evidence = r.evidence) (pend : r'.admitPending = r.admitPending)
    (remote : r'.remoteDeadline = r.remoteDeadline) (removal : r'.removalDeadline = r.removalDeadline)
    (release : r'.release = r.release) (pending : r'.hasPending = r.hasPending) : r'.Sound :=
  h.change serving reports (evidence ▸ h.evidence) pend remote removal (fun hr => .inl (release ▸ hr))
    fun hp => .inl (pending ▸ hp)

theorem State.lowerPriority_moves (s : State) (i : Nat) : Moves [.crg, .sent] s (s.lowerPriority i) := by
  have step : Moves [.crg, .sent] s (s.modRecord i fun r => { r with directed := .normal }) := by
    refine Moves.mono (s.modRecord_moves i _ fun _ _ h => ?_) rfl
    exact ⟨h.light rfl rfl rfl rfl rfl rfl rfl rfl, rfl⟩
  simp only [State.lowerPriority]
  split
  · exact .refl s
  · split
    · exact Moves.emit step _
    · exact step

theorem State.decidePriority_moves (s : State) (i : Nat) : Moves [.rli, .crg, .sent] s (s.decidePriority i) := by
  simp only [State.decidePriority]
  split
  · exact .refl s
  · split
    · exact .refl s
    · split
      · exact Moves.then ((s.lowerPriority_moves i).mono rfl) (State.issuePriority_moves _ _ _) rfl
      · refine Moves.then (Moves.mono (s.modRecord_moves i _ fun _ _ h => ?_) rfl) (State.issuePriority_moves _ _ _) rfl
        exact ⟨h.light rfl rfl rfl rfl rfl rfl rfl rfl, rfl⟩

theorem nextEvidence_le (like : Bool) (g : Nat) (hg : g ≤ 15) : nextEvidence like g ≤ 15 := by
  simp only [nextEvidence]
  split
  · exact satSucc_le
  · omega

theorem State.applyTraffic_moves (s : State) (i : Nat) (r : ClientRecord) (t : TrafficCounts) (hr : s.record i = some r) :
    Moves [.rli, .crg, .sent, .gtm, .yields] s (s.applyTraffic i r t) := by
  have step : ∀ flag : Bool, Moves [.rli, .crg, .sent, .gtm, .yields] s (s.modRecord i fun x =>
      { x with evidence := nextEvidence (gameLike s.cfg t) r.evidence, gameActive := flag }) := fun flag => by
    refine Moves.mono (s.modRecord_moves i _ fun r' hr' h => ?_) rfl
    obtain rfl : r' = r := by simpa [hr] using hr'.symm
    exact ⟨h.change rfl rfl (nextEvidence_le _ _ h.evidence) rfl rfl rfl .inl .inl, rfl⟩
  simp only [State.applyTraffic]
  split
  · exact step _
  · have decided := (step (nextGameFlag r.cls (nextEvidence (gameLike s.cfg t) r.evidence) r.gameActive t)).then
      (State.decidePriority_moves _ i) rfl
    split
    · exact decided.then (State.gameCountUp_moves _) rfl
    · exact decided.then (State.gameCountDown_moves _) rfl

theorem State.gameDeparture_moves (s : State) (i : Nat) (r : ClientRecord) :
    Moves [.crg, .sent, .gtm, .yields] s (s.gameDeparture i r) := by
  have low : Moves [.crg, .sent, .gtm, .yields] s (s.lowerPriority i) := (s.lowerPriority_moves i).mono rfl
  simp only [State.gameDeparture]
  split
  · exact low.then (State.gameCountDown_moves _) rfl
  · exact low

/-! ## Schedule enforcement -/

theorem State.computeWall_moves (s : State) : Moves [.mtb, .wall] s s.computeWall := by
  simp only [State.computeWall]
  split
  · exact .refl s
  · exact Moves.step (Moves.onMtb (.refl s) _ (fun h => ⟨h.divider, h.meshTime⟩) fun _ => le_refl _) (by decide)
      (Move.wall _ _)

theorem State.evaluateClient_moves (s : State) (i : Nat) : Moves [.rli, .crg, .sent] s (s.evaluateClient i) := by
  simp only [State.evaluateClient]
  split
  · exact .refl s
  · split
    · exact .refl s
    · split
      · exact .refl s
      · refine Moves.then (Moves.then (Moves.mono (s.modRecord_moves i _ fun _ _ h => ?_) rfl)
          (State.issueEnforcement_moves _ _ _) rfl) (State.decidePriority_moves _ _) rfl
        exact ⟨h.light rfl rfl rfl rfl rfl rfl rfl rfl, rfl⟩

theorem State.evaluateGroup_moves (s : State) (g : Nat) : Moves [.seu, .event] s (s.evaluateGroup g) := by
  simp only [State.evaluateGroup]
  split
  · exact .refl s
  · exact Moves.event (Moves.onSeu (.refl s) _ fun h => by simpa [Seu.Sound] using h) _ _ _

theorem State.fullEvaluation_moves (s : State) : Moves [.seu, .event, .rli, .crg, .sent] s s.fullEvaluation :=
  Moves.then ((Moves.foldl (fun t g => t.evaluateGroup_moves g) _ s).mono rfl)
    (Moves.foldl (fun t i => t.evaluateClient_moves i) _ _) rfl

/-- What the evaluation that a wall-state notice brings touches. -/
theorem State.evaluateNotice_moves (s : State) (w : Option Nat) (rest : List (Option Nat)) :
    Moves [.wall, .seu, .event, .rli, .crg, .sent] s
      ({ s with wallNotices := rest }.modSeu fun u => { u with held := w }).fullEvaluation :=
  Moves.then (Moves.onSeu (Moves.step (.refl s) (by decide) (Move.wall s rest)) _ fun h => h)
    (State.fullEvaluation_moves _) rfl

/-- What taking a wall-state notice touches. -/
theorem State.takeNotice_moves (s : State) (w : Option Nat) :
    Moves [.wall, .seu, .event, .rli, .crg, .sent, .lines] s (s.takeNotice w) := by
  simp only [State.takeNotice]
  exact ((s.evaluateNotice_moves w _).mono rfl).then (State.finish_moves _) rfl

/-- What taking the waiting wall-state notices touches. -/
theorem State.takeNotices_moves (s : State) :
    Moves [.wall, .seu, .event, .rli, .crg, .sent, .lines] s s.takeNotices := by
  exact Moves.foldl (fun t w => t.takeNotice_moves w) _ s

/-- With no wall-state notice waiting none is taken. -/
@[simp] theorem State.takeNotices_of_none {s : State} (h : s.wallNotices = []) : s.takeNotices = s := by
  simp only [State.takeNotices, h, List.foldl_nil]

theorem State.enforceArrival_moves (s : State) (i : Nat) : Moves [.rli, .crg, .sent] s (s.enforceArrival i) := by
  simp only [State.enforceArrival]
  refine Moves.then (Moves.then (Moves.then (Moves.mono (s.modRecord_moves i _ fun _ _ h => ?_) rfl)
    (State.lowerPriority_moves _ _) rfl) (State.evaluateClient_moves _ _) rfl) (State.decidePriority_moves _ _) rfl
  exact ⟨h.light rfl rfl rfl rfl rfl rfl rfl rfl, rfl⟩

end Sys2Proof.Machine
end

