-- ==== Sys2Proof/Laws/Handoff.lean ====
section
/-! SUPPORT. The Roam Scoring Engine, the Handoff Controller and the Install Coordination Unit: what each of their
operations touches. -/

set_option Elab.async false

namespace Sys2Proof.Machine

open Sys2Proof

/-! ## Claimant contexts -/

theorem State.findClaim_some {s : State} {a : ClientAddr} {k : Nat} (h : s.findClaim a = some k) :
    ∃ c, s.claimAt k = some c ∧ c.client = a := by
  obtain ⟨c, hc, ha⟩ := findSlot_some h
  exact ⟨c, hc, by simpa using ha⟩

theorem State.freeClaim_moves (s : State) (k : Nat) : Moves [.hoc] s (s.freeClaim k) :=
  Moves.onHoc (.refl s) _ fun h => ⟨by simpa using h.size, h.distinct.clear k, h.seq, h.malformed⟩

theorem State.openClaim_moves (s : State) (client : ClientAddr) (server : NodeId) (score : Int)
    (hc : s.findClaim client = none) : Moves [.hoc, .bcu] s (s.openClaim client server score) := by
  simp only [State.openClaim]
  split
  · exact .refl s
  · refine Moves.then (Moves.onHoc (.refl s) _ fun h => ⟨by simpa using h.size, ?_, ?_, h.malformed⟩)
      (State.sendFrame_moves _ _ _ _) rfl
    · refine h.distinct.put _ _ fun j x _ hx => ?_
      have := findSlot_none hc hx
      simpa using this
    · simp only; omega

theorem State.claimReady_findClaim {s : State} {r : ClientRecord} {p : NodeId} {x : Int × PeerReport × Entry}
    (h : s.claimReady r p = some x) : s.findClaim r.addr = none := by
  simp only [State.claimReady] at h
  split at h
  · split at h
    · next hc => exact hc.2.2.2.1
    · cases h
  all_goals cases h

theorem State.evaluateClaim_moves (s : State) (i : Nat) : Moves [.crg, .hoc, .bcu] s (s.evaluateClaim i) := by
  have confirm : ∀ n : Nat, Moves [.crg, .hoc, .bcu] s (s.modRecord i fun r => { r with confirm := n }) := fun n => by
    refine Moves.mono (s.modRecord_moves i _ fun _ _ h => ?_) rfl
    exact ⟨h.light rfl rfl rfl rfl rfl rfl rfl rfl, rfl⟩
  have confirm' : Moves [.crg, .hoc, .bcu] s (s.modRecord i fun r => { r with confirm := r.confirm + 1 }) := by
    refine Moves.mono (s.modRecord_moves i _ fun _ _ h => ?_) rfl
    exact ⟨h.light rfl rfl rfl rfl rfl rfl rfl rfl, rfl⟩
  simp only [State.evaluateClaim]
  split
  · exact .refl s
  · split
    · exact .refl s
    · exact .refl s
    · split
      · exact confirm 0
      · next hready =>
        split
        · exact confirm 0
        · split
          · exact confirm'
          · exact (confirm 0).then (State.openClaim_moves _ _ _ _
              (show State.findClaim s _ = none from State.claimReady_findClaim hready)) rfl

/-! ## Release contexts -/

theorem ClientRecord.Sound.withRelease {r : ClientRecord} (h : r.Sound) (hs : r.isServed) (c : Option ReleaseContext) :
    ({ r with release := c } : ClientRecord).Sound :=
  h.change rfl rfl h.evidence rfl rfl rfl (fun _ => .inr hs) .inl

theorem ClientRecord.Sound.withoutRelease {r : ClientRecord} (h : r.Sound) :
    ({ r with release := none } : ClientRecord).Sound :=
  h.change rfl rfl h.evidence rfl rfl rfl (fun hr => by cases hr) .inl

theorem State.openRelease_moves (s : State) (i : Nat) (r : ClientRecord) (claimant : NodeId) (seq : Nat)
    (hr : s.record i = some r) (hs : r.isServed) : Moves [.crg, .bcu, .rli] s (s.openRelease i r claimant seq) := by
  simp only [State.openRelease]
  refine Moves.then (Moves.then (Moves.mono (s.modRecord_moves i _ fun r' hr' h => ?_) rfl)
    (State.sendFrame_moves _ _ _ _) rfl) (State.issueControl_moves _ _ _) rfl
  obtain rfl : r' = r := by simpa [hr] using hr'.symm
  exact ⟨h.withRelease hs _, rfl⟩

theorem State.closeRelease_moves (s : State) (i : Nat) (c : ReleaseContext) :
    Moves [.crg, .rli] s (s.closeRelease i c) := by
  simp only [State.closeRelease]
  refine Moves.then (Moves.mono (s.modRecord_moves i _ fun _ _ h => ?_) rfl) (State.discardSteer_moves _ _ _) rfl
  exact ⟨h.withoutRelease, rfl⟩

theorem State.handoffFailed_moves (s : State) (a : ClientAddr) (cause : Nat) :
    Moves [.event] s (s.handoffFailed a cause) := State.queueEvent_moves _ _ _ _

theorem State.overtakeRelease_moves (s : State) (i : Nat) (sender : NodeId) :
    Moves [.crg, .event] s (s.overtakeRelease i sender) := by
  have step : Moves [.crg, .event] s (s.modRecord i fun r => { r with release := none }) := by
    refine Moves.mono (s.modRecord_moves i _ fun _ _ h => ?_) rfl
    exact ⟨h.withoutRelease, rfl⟩
  simp only [State.overtakeRelease]
  split
  · exact .refl s
  · split
    · exact .refl s
    · split
      · exact Moves.event step _ _ _
      · exact step.then (State.handoffFailed_moves _ _ _) rfl

theorem State.overtakeClaim_moves (s : State) (client : ClientAddr) (server : NodeId) :
    Moves [.hoc, .event] s (s.overtakeClaim client server) := by
  simp only [State.overtakeClaim]
  split
  · exact .refl s
  · split
    · exact .refl s
    · split
      · exact .refl s
      · exact Moves.then ((s.freeClaim_moves _).mono rfl) (State.handoffFailed_moves _ _ _) rfl

/-! ## Removal of a peer, drain, restart -/

theorem State.loseClaim_moves (peer : NodeId) (s : State) (k : Nat) :
    Moves [.hoc, .event] s (State.loseClaim peer s k) := by
  simp only [State.loseClaim]
  split
  · exact .refl s
  · split
    · exact Moves.then ((s.freeClaim_moves _).mono rfl) (State.handoffFailed_moves _ _ _) rfl
    · exact .refl s

theorem State.loseRelease_moves (peer : NodeId) (s : State) (i : Nat) :
    Moves [.crg, .rli, .event] s (State.loseRelease peer s i) := by
  simp only [State.loseRelease]
  split
  · exact .refl s
  · split
    · exact .refl s
    · split
      · exact Moves.then ((s.closeRelease_moves _ _).mono rfl) (State.handoffFailed_moves _ _ _) rfl
      · exact .refl s

theorem State.losePeerContexts_moves (s : State) (peer : NodeId) :
    Moves [.hoc, .crg, .rli, .event] s (s.losePeerContexts peer) :=
  Moves.then ((Moves.foldl (State.loseClaim_moves peer) _ s).mono rfl)
    (Moves.foldl (State.loseRelease_moves peer) _ _) rfl

theorem State.drainClaim_moves (s : State) (k : Nat) : Moves [.hoc, .bcu, .event] s (s.drainClaim k) := by
  simp only [State.drainClaim]
  split
  · exact .refl s
  · exact Moves.then (Moves.then ((s.freeClaim_moves _).mono rfl) (State.sendFrame_moves _ _ _ _) rfl)
      (State.handoffFailed_moves _ _ _) rfl

theorem State.drainClaims_moves (s : State) : Moves [.hoc, .bcu, .event] s s.drainClaims :=
  Moves.foldl (fun t k => t.drainClaim_moves k) _ s

theorem State.restartRelease_moves (s : State) (i : Nat) : Moves [.crg, .rli] s (s.restartRelease i) := by
  simp only [State.restartRelease]
  split
  · exact .refl s
  · exact s.closeRelease_moves _ _

theorem State.restartHoc_moves (s : State) : Moves [.hoc, .crg, .rli] s s.restartHoc := by
  refine Moves.then (Moves.onHoc (.refl s) _ fun h => ?_) (Moves.foldl (fun t i => t.restartRelease_moves i) _ _) rfl
  exact ⟨List.length_replicate, DistinctBy.replicate _ _, h.seq, Nat.zero_le _⟩

theorem State.sendServed_moves (s : State) (r : ClientRecord) : Moves [.bcu] s (s.sendServed r) :=
  State.sendFrame_moves _ _ _ _

/-! ## Install coordination -/

theorem State.icuEvent_moves (s : State) (k : EventKind) (d : Nat) : Moves [.event] s (s.icuEvent k d) :=
  State.queueEvent_moves _ _ _ _

theorem State.icuIdle_moves (s : State) : Moves [.icu] s s.icuIdle :=
  Moves.onIcu (.refl s) _ fun _ => fun h => by cases h

theorem State.icuIdleEvent_moves (s : State) (k : EventKind) (d : Nat) :
    Moves [.icu, .event] s (s.icuIdle.icuEvent k d) :=
  Moves.then (s.icuIdle_moves.mono rfl) (State.icuEvent_moves _ _ _) rfl

theorem State.enterStaged_moves (s : State) (cause : Nat) : Moves [.icu, .event] s (s.enterStaged cause) :=
  Moves.then (Moves.onIcu (.refl s) _ fun _ => fun h => by cases h) (State.icuEvent_moves _ _ _) rfl

theorem State.checkEmptied_moves (s : State) : Moves [.icu, .event] s s.checkEmptied := by
  simp only [State.checkEmptied]
  split
  · exact s.enterStaged_moves _
  · exact .refl s

theorem State.enterDraining_moves (s : State) : Moves [.icu, .event, .hoc, .bcu] s s.enterDraining := by
  simp only [State.enterDraining]
  refine Moves.then (Moves.then (Moves.then (Moves.onIcu (.refl s) _ fun _ => fun _ => rfl)
    (State.icuEvent_moves _ _ _) rfl) (State.drainClaims_moves _) rfl) (State.checkEmptied_moves _) rfl

theorem State.icuAtBuild_moves (s : State) : Moves [.icu, .event, .hoc, .bcu] s s.icuAtBuild := by
  simp only [State.icuAtBuild]
  split
  · split
    · exact Moves.then (Moves.onIcu (.refl s) _ fun _ => fun h => by cases h) (State.icuEvent_moves _ _ _) rfl
    · exact .refl s
  · next hi =>
    split
    · exact s.icuIdle_moves.mono rfl
    · split
      · exact Moves.onIcu (.refl s) _ fun h => h
      · exact s.enterDraining_moves
  · split
    · exact .refl s
    · exact (s.icuIdleEvent_moves _ _).mono rfl
  · exact .refl s
  · exact .refl s

theorem State.icuConflict_moves (s : State) (peer : NodeId) (theirs : InstallState) :
    Moves [.icu, .event] s (s.icuConflict peer theirs) := by
  simp only [State.icuConflict]
  split
  · exact Moves.event (Moves.onIcu (s.icuIdle_moves.mono rfl) _ fun _ => fun h => by cases h) _ _ _
  · exact .refl s

theorem State.icuImageLeft_moves (s : State) : Moves [.icu, .event] s s.icuImageLeft := by
  simp only [State.icuImageLeft]
  split
  · exact .refl s
  · exact s.icuIdle_moves.mono rfl
  · exact s.icuIdleEvent_moves _ _
  · exact s.icuIdleEvent_moves _ _
  · exact .refl s

theorem State.icuNewerHead_moves (s : State) : Moves [.icu, .event] s s.icuNewerHead := by
  simp only [State.icuNewerHead]
  split
  · exact s.icuIdleEvent_moves _ _
  · exact .refl s

theorem State.icuHeadAccepted_moves (s : State) : Moves [.icu] s s.icuHeadAccepted :=
  Moves.onIcu (.refl s) _ fun h => fun hi => h (by
    revert hi; simp only; split
    · intro hi; cases hi
    · exact id)

theorem State.icuMarkerFound_moves (s : State) (set : Bool) : Moves [.icu] s (s.icuMarkerFound set) :=
  Moves.onIcu (.refl s) _ fun h => fun hi => h (by
    revert hi; simp only; split
    · intro hi; cases hi
    · exact id)

theorem State.restartIcu_moves (s : State) : Moves [.icu, .event] s s.restartIcu := by
  simp only [State.restartIcu]
  split
  · exact s.icuIdle_moves.mono rfl
  · exact s.icuIdleEvent_moves _ _
  · exact Moves.onIcu (.refl s) _ fun h => h
  · exact Moves.onIcu (.refl s) _ fun h => h
  · exact Moves.onIcu (.refl s) _ fun h => h

end Sys2Proof.Machine
end

