-- ==== Sys2Proof/Laws/Image.lean ====
section
/-! SUPPORT. The Image Store and the Flash Port: what each of their operations touches. -/

set_option Elab.async false

namespace Sys2Proof.Machine

open Sys2Proof

/-! ## Flash requests -/

theorem Flp.NoConfigRead.request {f : Flp} (h : f.NoConfigRead) {k : FlashKind} (hk : k ≠ .configRead) :
    ({ f with waiting := f.waiting ++ [{ kind := k, discard := false }] } : Flp).NoConfigRead :=
  ⟨fun r hr => by
    rcases List.mem_append.mp hr with hr | hr
    · exact h.1 r hr
    · rw [List.mem_singleton.mp hr]; exact hk, h.2⟩

theorem State.requestFlash_moves (s : State) (k : FlashKind) (hk : k ≠ .configRead) :
    Moves [.flp] s (s.requestFlash k) :=
  Moves.onFlp (.refl s) _ fun h => h.request hk

theorem State.requestHeadWrite_moves (s : State) : Moves [.flp] s s.requestHeadWrite := by
  simp only [State.requestHeadWrite]
  split
  · exact .refl s
  · exact s.requestFlash_moves _ (by decide)

/-- Requests withdrawn, and the running operation's marks changed. -/
theorem Flp.NoConfigRead.thin {f : Flp} (h : f.NoConfigRead) (p : FlashRequest → Bool)
    (g : FlashOperation → FlashOperation) (hg : ∀ o, (g o).kind = o.kind) :
    ({ waiting := f.waiting.filter p, operation := f.operation.map g } : Flp).NoConfigRead := by
  refine ⟨fun r hr => h.1 r (List.mem_of_mem_filter hr), fun o ho => ?_⟩
  obtain ⟨o', ho', rfl⟩ := Option.map_eq_some_iff.mp ho
  rw [hg]
  exact h.2 o' ho'

theorem Flp.NoConfigRead.abandon {f : Flp} (h : f.NoConfigRead) (p : FlashKind → Bool) : (f.abandon p).NoConfigRead :=
  h.thin _ _ fun o => by split <;> rfl

theorem Flp.NoConfigRead.idle {f : Flp} (h : f.NoConfigRead) : ({ f with operation := none } : Flp).NoConfigRead :=
  ⟨h.1, fun _ ho => by cases ho⟩

/-! ## The image store's bounds -/

/-- A change that leaves the image state and the patrol deadline alone and keeps sizes and counts in bounds. -/
theorem Ims.Sound.change {m m' : Ims} (h : m.Sound) (image : m'.image = m.image)
    (patrol : m'.patrolDeadline = m.patrolDeadline) (buffers : m'.buffers.length = 2) (fetches : m'.fetches.length = 4)
    (segments : m'.segmentCounts.length = 32) (index : m'.indexTable.length = 8) (failures : m'.verifyFailures ≤ 3)
    (refused : m'.refusedHeads ≤ 65535) (unmatched : m'.unmatchedChunks ≤ 65535) (lost : m'.lostChunks ≤ 65535)
    (check : m'.checkFailures ≤ 65535) (ignored : m'.ignoredFetches ≤ 65535) : m'.Sound :=
  ⟨buffers, fetches, segments, index, failures, by rw [patrol, image]; exact h.patrol, refused, unmatched, lost, check,
    ignored⟩

/-- A change that touches none of what the bounds speak of. -/
theorem Ims.Sound.light {m m' : Ims} (h : m.Sound) (image : m'.image = m.image)
    (patrol : m'.patrolDeadline = m.patrolDeadline) (buffers : m'.buffers.length = m.buffers.length)
    (fetches : m'.fetches.length = m.fetches.length) (segments : m'.segmentCounts.length = m.segmentCounts.length)
    (index : m'.indexTable.length = m.indexTable.length) (failures : m'.verifyFailures = m.verifyFailures)
    (refused : m'.refusedHeads = m.refusedHeads) (unmatched : m'.unmatchedChunks = m.unmatchedChunks)
    (lost : m'.lostChunks = m.lostChunks) (check : m'.checkFailures = m.checkFailures)
    (ignored : m'.ignoredFetches = m.ignoredFetches) : m'.Sound :=
  h.change image patrol (buffers ▸ h.buffers) (fetches ▸ h.fetches) (segments ▸ h.segments) (index ▸ h.index)
    (failures ▸ h.failures) (refused ▸ h.refusedHeads) (unmatched ▸ h.unmatchedChunks) (lost ▸ h.lostChunks)
    (check ▸ h.checkFailures) (ignored ▸ h.ignoredFetches)

theorem Ims.Sound.setPresent {m : Ims} (h : m.Sound) (c : ChunkRef) (b : List Byte) : (m.setPresent c b).Sound := by
  simp only [Ims.setPresent]
  split
  · exact h
  · split
    · exact h.light rfl rfl rfl rfl (List.length_modify _ _ _) rfl rfl rfl rfl rfl rfl rfl
    · exact h.light rfl rfl rfl rfl rfl List.length_set rfl rfl rfl rfl rfl rfl

theorem Ims.Sound.clearPresent {m : Ims} (h : m.Sound) (c : ChunkRef) : (m.clearPresent c).Sound := by
  simp only [Ims.clearPresent]
  split
  · split
    · exact h.light rfl rfl rfl rfl (List.length_modify _ _ _) rfl rfl rfl rfl rfl rfl rfl
    · exact h.light rfl rfl rfl rfl rfl List.length_set rfl rfl rfl rfl rfl rfl
  · exact h

theorem Ims.Sound.fetchesTo {m : Ims} (h : m.Sound) {l : List (Option FetchSlot)} (hl : l.length = m.fetches.length) :
    ({ m with fetches := l } : Ims).Sound := h.light rfl rfl rfl hl rfl rfl rfl rfl rfl rfl rfl rfl

theorem Ims.Sound.buffersTo {m : Ims} (h : m.Sound) {l : List Buffer} (hl : l.length = m.buffers.length) :
    ({ m with buffers := l } : Ims).Sound := h.light rfl rfl hl rfl rfl rfl rfl rfl rfl rfl rfl rfl

/-! ## Image state -/

theorem State.setImage_moves (s : State) (new : ImageState) : Moves [.ims, .icu, .event] s (s.setImage new) := by
  have step : Moves [.ims, .icu, .event] s (s.modIms fun m =>
      { m with
        image := new
        patrolDeadline :=
          if new.patrolled then (if s.ims.image.patrolled then m.patrolDeadline else some (s.now + 2048)) else none }) := by
    refine Moves.onIms (.refl s) _ fun h => ⟨h.buffers, h.fetches, h.segments, h.index, h.failures, ?_, h.refusedHeads,
      h.unmatchedChunks, h.lostChunks, h.checkFailures, h.ignoredFetches⟩
    have := h.patrol
    by_cases hn : new.patrolled <;> by_cases ho : s.ims.image.patrolled <;> simp_all
  simp only [State.setImage]
  split
  · exact step.then (State.icuImageLeft_moves _) rfl
  · exact step

theorem State.imageComplete_moves (s : State) (d : Nat) : Moves [.event] s (s.imageComplete d) :=
  State.queueEvent_moves _ _ _ _

theorem State.chunkPresent_moves (s : State) (c : ChunkRef) (b : List Byte) :
    Moves [.ims, .icu, .event] s (s.chunkPresent c b) := by
  have step : Moves [.ims, .icu, .event] s (s.modIms (·.setPresent c b)) :=
    Moves.onIms (.refl s) _ fun h => h.setPresent c b
  simp only [State.chunkPresent]
  split
  · exact step
  · split
    · exact (step.then (State.setImage_moves _ _) rfl).then (State.imageComplete_moves _ _) rfl
    · split
      · exact step.then (State.setImage_moves _ _) rfl
      · exact step

theorem State.voidServes_moves (s : State) (c : ChunkRef) : Moves [.bcu, .flp] s (s.voidServes c) := by
  have voided : ∀ (l : List (NodeId × ChunkRef)) (b : Bcu), b.Sound →
      (l.foldl (fun b v => b.withdrawReservation v.1 v.2) b).Sound := by
    intro l
    induction l with
    | nil => exact fun _ h => h
    | cons v l ih => exact fun b h => ih _ (h.withdrawReservation _ _)
  simp only [State.voidServes]
  refine Moves.onFlp (Moves.onBcu (.refl s) _ fun h => voided _ _ h) _ fun h => ⟨fun r hr => ?_, fun o ho => ?_⟩
  · obtain ⟨r', hr', rfl⟩ := List.mem_map.mp hr
    split
    · exact h.1 r' hr'
    · exact h.1 r' hr'
  · obtain ⟨o', ho', rfl⟩ := Option.map_eq_some_iff.mp ho
    split
    · exact h.2 o' ho'
    · exact h.2 o' ho'

theorem State.clearBadChunk_moves (s : State) (c : ChunkRef) :
    Moves [.ims, .bcu, .flp, .fault, .event, .icu] s (s.clearBadChunk c) := by
  have cleared : ∀ d, Moves [.ims, .bcu, .flp, .fault, .event, .icu] s
      (((s.modIms (·.clearPresent c)).voidServes c).recordFault .patrolBadChunk d) := fun d =>
    Moves.then (Moves.then (Moves.onIms (.refl s) _ fun h => h.clearPresent c) (State.voidServes_moves _ c) rfl)
      (State.recordFault_moves _ _ _) rfl
  simp only [State.clearBadChunk]
  cases c <;> dsimp only <;> split
  · exact (cleared _).then (State.setImage_moves _ _) rfl
  · exact cleared _
  · exact (cleared _).then (State.setImage_moves _ _) rfl
  · exact cleared _

/-! ## Fetching -/

theorem State.fillFetch_moves (s : State) (i : Nat) : Moves [.ims, .bcu] s (s.fillFetch i) := by
  simp only [State.fillFetch]
  split
  · exact .refl s
  · split
    · exact .refl s
    · split
      · exact .refl s
      · exact Moves.then (Moves.onIms (.refl s) _ fun h => h.fetchesTo List.length_set) (State.sendFrame_moves _ _ _ _) rfl

theorem State.fillFetches_moves (s : State) : Moves [.ims, .bcu] s s.fillFetches := by
  simp only [State.fillFetches]
  split
  · exact Moves.foldl (fun t i => t.fillFetch_moves i) _ s
  · exact .refl s

theorem State.dropFetchesOf_moves (s : State) (peer : NodeId) : Moves [.ims] s (s.dropFetchesOf peer) :=
  Moves.onIms (.refl s) _ fun h => h.fetchesTo (List.length_map _)

/-! ## Buffers -/

theorem State.setBuffer_moves (s : State) (i : Nat) (b : Buffer) : Moves [.ims] s (s.setBuffer i b) :=
  Moves.onIms (.refl s) _ fun h => h.buffersTo List.length_set

theorem State.programChunk_moves (s : State) (i : Nat) (c : ChunkRef) (b : List Byte) :
    Moves [.ims, .flp] s (s.programChunk i c b) :=
  Moves.then ((s.setBuffer_moves _ _).mono rfl) (State.requestFlash_moves _ _ (by simp)) rfl

theorem State.dropBuffers_moves (s : State) : Moves [.ims, .flp] s s.dropBuffers := by
  simp only [State.dropBuffers]
  refine Moves.onFlp (Moves.onIms (.refl s) _ fun h => h.buffersTo (List.length_mapIdx)) _ fun h =>
    ⟨fun r hr => h.1 r (List.mem_of_mem_filter hr), h.2⟩

/-! ## Heads -/

theorem State.acceptHead_moves (s : State) (h : Head) (sender : Option NodeId) :
    Moves [.icu, .event, .ims, .flp, .bcu] s (s.acceptHead h sender) := by
  simp only [State.acceptHead]
  refine Moves.then ?_ (State.fillFetches_moves _) rfl
  refine Moves.event ?_ _ _ _
  refine Moves.then ?_ (State.setImage_moves _ _) rfl
  refine Moves.then ?_ (State.requestHeadWrite_moves _) rfl
  refine Moves.then ?_ (State.icuHeadAccepted_moves _) rfl
  refine Moves.onFlp ?_ _ fun h => h.abandon _
  refine Moves.onBcu ?_ _ fun h => h.withdrawAll
  refine Moves.then ?_ (State.dropBuffers_moves _) rfl
  refine Moves.onIms (s.icuNewerHead_moves.mono rfl) _ fun h => ?_
  exact h.change rfl rfl h.buffers List.length_replicate List.length_replicate List.length_replicate (Nat.zero_le _)
    h.refusedHeads h.unmatchedChunks h.lostChunks h.checkFailures h.ignoredFetches

theorem State.countRefusedHead_moves (s : State) (sender : Option NodeId) :
    Moves [.ims] s (s.countRefusedHead sender) := by
  simp only [State.countRefusedHead]
  split
  · exact Moves.onIms (.refl s) _ fun h => h.change rfl rfl h.buffers h.fetches h.segments h.index h.failures
      (count16_le _) h.unmatchedChunks h.lostChunks h.checkFailures h.ignoredFetches
  · exact .refl s

theorem State.takeHead_moves (s : State) (h : Head) (sender : Option NodeId) :
    Moves [.icu, .event, .ims, .flp, .bcu] s (s.takeHead h sender).1 := by
  have refuse : ∀ r, Moves [.icu, .event, .ims, .flp, .bcu] s (s.refuseHead sender r).1 := fun r =>
    (s.countRefusedHead_moves sender).mono rfl
  simp only [State.takeHead]
  split
  · exact refuse _
  · split
    · exact refuse _
    · split
      · split
        · dsimp only
          exact Moves.onIms (.refl s) _ fun h' => h'.light rfl rfl rfl rfl rfl rfl rfl rfl rfl rfl rfl rfl
        · exact refuse _
      · split
        · exact refuse _
        · split
          · exact refuse _
          · exact s.acceptHead_moves h sender

theorem State.takeHeldHead_moves (s : State) : Moves [.icu, .event, .ims, .flp, .bcu] s s.takeHeldHead := by
  simp only [State.takeHeldHead]
  split
  · exact .refl s
  · exact Moves.then (Moves.onIms (.refl s) _ fun h => h.light rfl rfl rfl rfl rfl rfl rfl rfl rfl rfl rfl rfl) (State.takeHead_moves _ _ _) rfl

/-! ## FAULT and the recovery scan -/

theorem State.enterFault_moves (s : State) : Moves [.icu, .event, .ims, .flp, .bcu] s s.enterFault := by
  have faulted : Moves [.icu, .event, .ims, .flp, .bcu] s
      ((((s.modIms fun m => { m with fetches := List.replicate 4 none, scan := .off }).dropBuffers.modBcu
        (·.withdrawAll)).modFlp (Flp.abandon FlashKind.isImageWork)).setImage .fault) := by
    refine Moves.then ?_ (State.setImage_moves _ _) rfl
    refine Moves.onFlp (Moves.onBcu ?_ _ fun h => h.withdrawAll) _ fun h => h.abandon _
    refine Moves.then (Moves.onIms (.refl s) _ fun h => ?_) (State.dropBuffers_moves _) rfl
    exact h.light rfl rfl rfl (by rw [h.fetches]; rfl) rfl rfl rfl rfl rfl rfl rfl rfl
  simp only [State.enterFault]
  split
  · exact faulted
  · exact faulted.then (State.takeHeldHead_moves _) rfl

theorem State.endScan_moves (s : State) (h : Head) : Moves [.icu, .event, .ims, .flp, .bcu] s (s.endScan h) := by
  have off : Moves [.icu, .event, .ims, .flp, .bcu] s (s.modIms fun m => { m with scan := .off }) :=
    Moves.onIms (.refl s) _ fun h => h.light rfl rfl rfl rfl rfl rfl rfl rfl rfl rfl rfl rfl
  simp only [State.endScan]
  refine Moves.then (Moves.then ?_ (State.takeHeldHead_moves _) rfl) (State.fillFetches_moves _) rfl
  split
  · exact off.then (State.setImage_moves _ _) rfl
  · split
    · exact (off.then (State.setImage_moves _ _) rfl).then (State.imageComplete_moves _ _) rfl
    · exact off.then (State.setImage_moves _ _) rfl

theorem State.scanStep_moves (s : State) (h : Head) (next : Option ChunkRef) :
    Moves [.icu, .event, .ims, .flp, .bcu] s (s.scanStep h next) := by
  simp only [State.scanStep]
  split
  · exact s.endScan_moves h
  · exact Moves.then (Moves.onIms (.refl s) _ fun h => h.light rfl rfl rfl rfl rfl rfl rfl rfl rfl rfl rfl rfl) (State.requestFlash_moves _ _ (by simp)) rfl

/-! ## The restart notice -/

theorem State.restartServes_moves (s : State) : Moves [.bcu, .flp] s s.restartServes :=
  Moves.onFlp (Moves.onBcu (.refl s) _ fun h => h.withdrawAll) _ fun h => h.voidServeReads

theorem State.restartIms_moves (s : State) : Moves [.bcu, .flp, .ims] s s.restartIms := by
  refine Moves.onIms (s.restartServes_moves.mono rfl) _ fun h => ?_
  exact h.change rfl rfl h.buffers List.length_replicate h.segments h.index h.failures (Nat.zero_le _) (Nat.zero_le _)
    (Nat.zero_le _) (Nat.zero_le _) (Nat.zero_le _)

end Sys2Proof.Machine
end

