-- ==== Sys2Proof/Laws/Policy.lean ====
section
/-! SUPPORT. The Household Policy Store: the order of stamps, and what each of its operations touches. -/

set_option Elab.async false

namespace Sys2Proof.Machine

open Sys2Proof

/-! ## Stamps -/

/-- Newer is not both ways. -/
theorem Stamp.newerThan_asymm {x y : Stamp} (h : x.newerThan y = true) : y.newerThan x = false := by
  simp only [Stamp.newerThan, decide_eq_true_eq, decide_eq_false_iff_not] at h ⊢
  omega

theorem Stamp.newerThan_irrefl (x : Stamp) : x.newerThan x = false := by
  simp only [Stamp.newerThan, decide_eq_false_iff_not]
  omega

theorem SlotsKeepPace.refl (l : List Slot) : SlotsKeepPace l l := by
  intro n x y hx hy
  rw [hx] at hy
  cases hy
  exact x.stamp.newerThan_irrefl

/-- A slot set to one whose stamp is not older. -/
theorem SlotsKeepPace.set (l : List Slot) (n : Nat) (new : Slot)
    (h : ((l[n]?).getD emptySlot).stamp.newerThan new.stamp = false) : SlotsKeepPace l (l.set n new) := by
  intro m x y hx hy
  rw [List.getElem?_set] at hy
  split at hy
  · next e =>
    subst e
    split at hy
    · cases hy; simpa [hx] using h
    · cases hy
  · rw [hx] at hy
    cases hy
    exact x.stamp.newerThan_irrefl

/-! ## Slot changes -/

theorem Pst.Sound.change {p p' : Pst} (h : p.Sound) (slots : p'.slots = p.slots) (digest : p'.digest = p.digest)
    (excess : p'.excessLists ≤ 65535) (malformed : p'.malformed ≤ 65535) (invalid : p'.invalidRecords ≤ 65535) :
    p'.Sound := ⟨slots ▸ h.size, by rw [digest, slots]; exact h.digest, excess, malformed, invalid⟩

/-- A change of the policy store that leaves its slots and digest alone. -/
theorem Moves.onPstSide {C : List Touch} {s t : State} (h : Moves C s t) (f : Pst → Pst)
    (slots : (f t.pst).slots = t.pst.slots) (digest : (f t.pst).digest = t.pst.digest)
    (counts : t.pst.Sound →
      (f t.pst).excessLists ≤ 65535 ∧ (f t.pst).malformed ≤ 65535 ∧ (f t.pst).invalidRecords ≤ 65535)
    (mem : Touch.pst ∈ C := by decide) : Moves C s (t.modPst f) :=
  h.onPst f (fun hs => hs.change slots digest (counts hs).1 (counts hs).2.1 (counts hs).2.2)
    (by rw [slots]; exact SlotsKeepPace.refl _) mem

theorem Pst.takeChange_slots (p : Pst) (now : Nat) : (p.takeChange now).slots = p.slots := by
  simp only [Pst.takeChange]; split <;> rfl

theorem Pst.takeChange_digest (p : Pst) (now : Nat) : (p.takeChange now).digest = p.digest := by
  simp only [Pst.takeChange]; split <;> rfl

theorem Pst.takeChange_counts {p : Pst} (h : p.Sound) (now : Nat) :
    (p.takeChange now).excessLists ≤ 65535 ∧ (p.takeChange now).malformed ≤ 65535 ∧
      (p.takeChange now).invalidRecords ≤ 65535 := by
  have := And.intro h.excessLists (And.intro h.malformed h.invalidRecords)
  simp only [Pst.takeChange]; split <;> exact this

theorem State.deviceNotice_moves (s : State) (a : ClientAddr) : Moves [.rli, .crg, .sent] s (s.deviceNotice a) := by
  simp only [State.deviceNotice]
  split
  · exact .refl s
  · refine Moves.then (Moves.mono (s.modRecord_moves _ _ fun _ _ h => ?_) rfl) (State.evaluateClient_moves _ _) rfl
    exact ⟨h.light rfl rfl rfl rfl rfl rfl rfl rfl, rfl⟩

theorem State.clockChanged_moves (s : State) (origin : NodeId) :
    Moves [.event, .mtb, .wall] s (s.clockChanged origin) :=
  Moves.then ((s.queueEvent_moves _ _ _).mono rfl) (State.computeWall_moves _) rfl

/-- What a slot change touches, when the slot's new stamp is not older than its old one (R102). -/
theorem State.changeSlot_moves (s : State) (n : Nat) (new : Slot) (detail : Nat)
    (h : (s.slot n).stamp.newerThan new.stamp = false) :
    Moves [.pst, .event, .seu, .rli, .crg, .sent, .lines, .mtb, .wall] s (s.changeSlot n new detail) := by
  have settled : Moves [.pst, .event, .seu, .rli, .crg, .sent, .lines, .mtb, .wall] s s.takeNotices :=
    s.takeNotices_moves.mono rfl
  have pst : s.takeNotices.pst = s.pst := s.takeNotices_moves.pst
  simp only [State.changeSlot]
  generalize s.takeNotices = t at settled pst
  have set : Moves [.pst, .event, .seu, .rli, .crg, .sent, .lines, .mtb, .wall] s
      (t.modPst fun p => { p with slots := p.slots.set n new, digest := digestOf (p.slots.set n new) }) := by
    refine Moves.onPst settled _ (fun hs => ⟨by simpa using hs.size, rfl, hs.excessLists, hs.malformed,
      hs.invalidRecords⟩) (SlotsKeepPace.set _ _ _ ?_)
    rw [pst]; exact h
  have noted : Moves [.pst, .event, .seu, .rli, .crg, .sent, .lines, .mtb, .wall] s
      (((t.modPst fun p => { p with slots := p.slots.set n new, digest := digestOf (p.slots.set n new) }).queueEvent
        .policyChanged (numberSubject n) detail).modPst (·.takeChange t.now)) :=
    Moves.onPstSide (Moves.event set _ _ _) _ (Pst.takeChange_slots _ _) (Pst.takeChange_digest _ _)
      fun hs => Pst.takeChange_counts hs _
  split
  · exact noted.then (State.fullEvaluation_moves _) rfl
  · split
    · exact noted.then (Moves.foldl (fun t a => t.deviceNotice_moves a) _ _) rfl
    · exact noted.then (State.clockChanged_moves _ _) rfl

theorem State.submitPolicy_moves (s : State) (b : List Byte) :
    Moves [.pst, .event, .seu, .rli, .crg, .sent, .lines, .mtb, .wall] s (s.submitPolicy b).1 := by
  simp only [State.submitPolicy]
  split
  · exact .refl s
  · split
    · exact .refl s
    · split
      · exact .refl s
      · refine s.changeSlot_moves _ _ _ ?_
        simp only [Stamp.newerThan, decide_eq_false_iff_not]
        omega

/-! ## Gossip -/

theorem State.compareDigest_moves (s : State) (i : Nat) : Moves [.nbt, .bcu] s (s.compareDigest i) := by
  simp only [State.compareDigest]
  split
  · exact .refl s
  · split
    · exact .refl s
    · refine Moves.then (Moves.mono (s.modEntry_moves i _ fun _ _ h => ?_) rfl) (State.sendFrame_moves _ _ _ _) rfl
      exact ⟨⟨h.joins, h.misses, h.badFrames, h.goodRun, h.sinceWindow, h.load, h.served, h.fetchFails⟩, rfl⟩

theorem State.sendRecords_moves (s : State) (peer : NodeId) (ns : List Nat) : Moves [.bcu] s (s.sendRecords peer ns) :=
  Moves.foldl (fun t _ => t.sendFrame_moves _ _ _) _ s

theorem State.takePolicyList_moves (peer : NodeId) (b : List Byte) (s : State) :
    Moves [.nbt, .pst, .bcu] s (State.takePolicyList peer b s) := by
  simp only [State.takePolicyList]
  split
  · exact .refl s
  · split
    · exact .refl s
    · split
      · exact Moves.onPstSide (.refl s) _ rfl rfl fun h => ⟨count16_le _, h.malformed, h.invalidRecords⟩
      · have sent : ∀ i ns, Moves [.nbt, .pst, .bcu] s
            ((s.modEntry i fun e => { e with answered := true }).sendRecords peer ns) := fun i ns => by
          refine Moves.then (Moves.mono (s.modEntry_moves i _ fun _ _ h => ?_) rfl) (State.sendRecords_moves _ _ _) rfl
          exact ⟨⟨h.joins, h.misses, h.badFrames, h.goodRun, h.sinceWindow, h.load, h.served, h.fetchFails⟩, rfl⟩
        split
        · exact sent _ _
        · exact (sent _ _).then (State.sendFrame_moves _ _ _ _) rfl

theorem State.takePolicyGet_moves (peer : NodeId) (b : List Byte) (s : State) :
    Moves [.pst, .bcu] s (State.takePolicyGet peer b s) := by
  simp only [State.takePolicyGet]
  split
  · exact .refl s
  · split
    · exact Moves.onPstSide (.refl s) _ rfl rfl fun h => ⟨h.excessLists, count16_le _, h.invalidRecords⟩
    · exact (s.sendRecords_moves _ _).mono rfl

theorem State.mergeRecord_moves (s : State) (r : RawRecord) :
    Moves [.pst, .event, .seu, .rli, .crg, .sent, .lines, .mtb, .wall] s (s.mergeRecord r) := by
  simp only [State.mergeRecord]
  split
  · exact Moves.onPstSide (.refl s) _ rfl rfl fun h => ⟨h.excessLists, h.malformed, count16_le _⟩
  · split
    · next h => exact s.changeSlot_moves _ _ _ (Stamp.newerThan_asymm h)
    · exact .refl s

theorem State.takePolicyRecord_moves (peer : NodeId) (b : List Byte) (s : State) :
    Moves [.pst, .event, .seu, .rli, .crg, .sent, .lines, .mtb, .wall] s (State.takePolicyRecord peer b s) := by
  simp only [State.takePolicyRecord]
  split
  · exact .refl s
  · exact Moves.foldl (fun t r => t.mergeRecord_moves r) _ s

/-! ## The load and the restart notice -/

theorem State.policyImageBad_moves (s : State) : Moves [.pst, .fault, .event] s s.policyImageBad :=
  Moves.then (Moves.onPstSide (.refl s) _ rfl rfl fun h => ⟨h.excessLists, h.malformed, h.invalidRecords⟩)
    (State.recordFault_moves _ _ _) rfl

theorem mapM_length {α β : Type} (f : α → Option β) {l : List α} {r : List β} (h : l.mapM f = some r) :
    r.length = l.length := by
  induction l generalizing r with
  | nil => simp only [List.mapM_nil, Option.pure_def, Option.some.injEq] at h; subst h; rfl
  | cons x xs ih =>
    simp only [List.mapM_cons, Option.bind_eq_bind, Option.bind_eq_some_iff, Option.pure_def, Option.some.injEq] at h
    obtain ⟨y, _, ys, hys, rfl⟩ := h
    simp [ih hys]

theorem parsePolicyImage_length {b : List Byte} {slots : List Slot} (h : parsePolicyImage b = some slots) :
    slots.length = 97 := by
  simp only [parsePolicyImage] at h
  split at h
  · simpa using mapM_length _ h
  · cases h

theorem State.loadPolicy_moves (s : State) (data : List Byte) :
    Moves [.pst, .load, .fault, .event, .mtb, .wall, .seu, .rli, .crg, .sent, .lines] s (s.loadPolicy data) := by
  simp only [State.loadPolicy]
  split
  · exact s.policyImageBad_moves.mono rfl
  · next slots hslots =>
    refine Moves.then (Moves.step (s.takeNotices_moves.mono rfl) (by decide) (Move.load _ _ fun h => ?_))
      (State.computeWall_moves _) rfl
    exact ⟨parsePolicyImage_length hslots, rfl, h.excessLists, h.malformed, h.invalidRecords⟩

theorem State.restartPst_moves (s : State) : Moves [.pst] s s.restartPst :=
  Moves.onPstSide (.refl s) _ rfl rfl fun _ => ⟨Nat.zero_le _, Nat.zero_le _, Nat.zero_le _⟩

end Sys2Proof.Machine
end

