-- ==== Sys2Proof/Laws/Clients.lean ====
section
/-! SUPPORT. The Client Register: what each of its operations makes of a record, and what it touches. -/

set_option Elab.async false

namespace Sys2Proof.Machine

open Sys2Proof

/-! ## Records as an operation makes them -/

theorem ClientRecord.isServed_iff (r : ClientRecord) : r.isServed = true ↔ ∃ q, r.serving = .served q := by
  simp only [ClientRecord.isServed, ClientRecord.servedOn]
  cases r.serving <;> simp

/-- A SERVED record's deadlines. -/
theorem ClientRecord.Sound.served {r : ClientRecord} (h : r.Sound) (hs : r.isServed) :
    r.admitPending = none ∧ r.remoteDeadline = none ∧ r.removalDeadline = none := by
  obtain ⟨q, hq⟩ := r.isServed_iff.mp hs
  have := h.deadlines
  simpa only [ClientRecord.DeadlinesFit, hq] using this

/-- A record that is not SERVED has no release context and no pending directive. -/
theorem ClientRecord.Sound.unserved {r : ClientRecord} (h : r.Sound) (hs : r.isServed = false) :
    r.release = none ∧ r.hasPending = false := by
  constructor
  · cases hr : r.release with
    | none => rfl
    | some c => simp [h.release (by simp [hr])] at hs
  · cases hp : r.hasPending with
    | false => rfl
    | true => simp [h.directives hp] at hs

theorem ClientRecord.Sound.renewed {r : ClientRecord} (h : r.Sound) (now : Nat) : (r.renewed now).Sound := by
  refine ⟨h.reports, h.reporters, h.evidence, ?_, h.release, h.directives⟩
  have := h.deadlines
  simp only [ClientRecord.DeadlinesFit, ClientRecord.renewed] at this ⊢
  cases e : r.serving <;> simp_all

theorem clearServedFlags_peers (p : Option NodeId) (l : List PeerReport) :
    (clearServedFlags p l).map PeerReport.peer = l.map PeerReport.peer := by
  simp only [clearServedFlags, List.map_map]
  refine List.map_congr_left fun x _ => ?_
  simp only [Function.comp_apply]
  split <;> rfl

/-- Reports replaced by ones of the same peers. -/
theorem ClientRecord.Sound.reportsTo {r : ClientRecord} (h : r.Sound) {l : List PeerReport} (hl : l.length ≤ 3)
    (hp : (l.map PeerReport.peer).Nodup) : ({ r with reports := l } : ClientRecord).Sound :=
  ⟨hl, hp, h.evidence, h.deadlines, h.release, h.directives⟩

theorem ClientRecord.Sound.clearFlags {r : ClientRecord} (h : r.Sound) (p : Option NodeId) :
    ({ r with reports := clearServedFlags p r.reports } : ClientRecord).Sound :=
  h.reportsTo (by simpa [clearServedFlags] using h.reports) (by rw [clearServedFlags_peers]; exact h.reporters)

theorem ClientRecord.Sound.toUnseen {r : ClientRecord} (h : r.Sound) (hs : r.isServed = false) : r.toUnseen.Sound :=
  ⟨h.reports, h.reporters, h.evidence, ⟨rfl, rfl⟩, fun hr => by
      have : r.toUnseen.release = none := (h.unserved hs).1
      simp [this] at hr, fun hp => by
      have : r.toUnseen.hasPending = false := (h.unserved hs).2
      simp [this] at hp⟩

theorem ClientRecord.Sound.toRemote {r : ClientRecord} (h : r.Sound) (hs : r.isServed = false) (p : NodeId) (now : Nat) :
    (r.toRemote p now).Sound :=
  ⟨h.reports, h.reporters, h.evidence, ⟨rfl, rfl⟩, fun hr => by
      have : (r.toRemote p now).release = none := (h.unserved hs).1
      simp [this] at hr, fun hp => by
      have : (r.toRemote p now).hasPending = false := (h.unserved hs).2
      simp [this] at hp⟩

theorem ClientRecord.Sound.toServed {r : ClientRecord} (h : r.Sound) (radio now : Nat) : (r.toServed radio now).Sound :=
  ⟨by simpa [ClientRecord.toServed, clearServedFlags] using h.reports,
    by simp only [ClientRecord.toServed, clearServedFlags_peers]; exact h.reporters, h.evidence, ⟨rfl, rfl, rfl⟩,
    fun _ => rfl, fun _ => rfl⟩

/-- The departure of a SERVED record whose pending directives are gone (R60). -/
theorem ClientRecord.Sound.departed {r : ClientRecord} (h : r.Sound) (hp : r.hasPending = false) (now : Nat) :
    (r.departed now).Sound := by
  have bare : ∀ (serving : Serving) (reports : List PeerReport) (confirm : Nat) (d e : Option Nat),
      reports.length ≤ 3 → (reports.map PeerReport.peer).Nodup →
      ClientRecord.DeadlinesFit { r with serving := serving, remoteDeadline := d, removalDeadline := e } →
      ({ r with effective := .open, lastActivity := now, release := none, serving := serving, reports := reports,
                confirm := confirm, remoteDeadline := d, removalDeadline := e } : ClientRecord).Sound :=
    fun serving reports confirm d e hl hn hd => ⟨hl, hn, h.evidence, hd, (fun hr => by cases hr), fun hq => by
      have : r.hasPending = true := hq
      rw [hp] at this; cases this⟩
  simp only [ClientRecord.departed]
  split
  · exact bare _ _ _ _ _ (by simpa [clearServedFlags] using h.reports)
      (by rw [clearServedFlags_peers]; exact h.reporters) ⟨rfl, rfl⟩
  · split
    · exact bare _ _ _ _ _ h.reports h.reporters ⟨rfl, rfl⟩
    · exact bare _ _ _ _ _ h.reports h.reporters ⟨rfl, rfl⟩

/-! ## Peer reports -/

theorem insertReport_perm (p : PeerReport) (l : List PeerReport) : (insertReport p l).Perm (p :: l) := by
  induction l with
  | nil => exact .refl _
  | cons x xs ih =>
    simp only [insertReport]
    split
    · exact .refl _
    · exact (ih.cons x).trans (.swap p x xs)

/-- A report written keeps at most three, of different peers (R63). -/
theorem writeReport_bounds (server : Option NodeId) (p : PeerReport) {l : List PeerReport} (hl : l.length ≤ 3)
    (hn : (l.map PeerReport.peer).Nodup) :
    (writeReport server p l).length ≤ 3 ∧ ((writeReport server p l).map PeerReport.peer).Nodup := by
  have put : ∀ k : List PeerReport, k.length ≤ 2 → k.Sublist l → (∀ x ∈ k, x.peer ≠ p.peer) →
      (insertReport p k).length ≤ 3 ∧ ((insertReport p k).map PeerReport.peer).Nodup := by
    intro k hk hsub hne
    have perm := insertReport_perm p k
    refine ⟨by rw [perm.length_eq, List.length_cons]; omega, ?_⟩
    rw [(perm.map PeerReport.peer).nodup_iff, List.map_cons, List.nodup_cons]
    refine ⟨fun hm => ?_, hn.sublist (hsub.map _)⟩
    obtain ⟨x, hx, e⟩ := List.mem_map.mp hm
    exact hne x hx e
  have others : ∀ x ∈ l.filter (fun x => decide (x.peer ≠ p.peer)), x.peer ≠ p.peer := fun x hx => by
    simpa using (List.mem_filter.mp hx).2
  simp only [writeReport]
  split
  · next hlt =>
    refine put _ ?_ List.filter_sublist others
    have := List.length_filter_le (fun x => decide (x.peer ≠ p.peer)) l
    omega
  · next hge =>
    have same : l.filter (fun x => decide (x.peer ≠ p.peer)) = l :=
      List.filter_sublist.eq_of_length (by
        have := List.length_filter_le (fun x => decide (x.peer ≠ p.peer)) l
        omega)
    split
    · exact ⟨hl, hn⟩
    · next weakest hw =>
      split
      · have mem : weakest ∈ l := (List.mem_filter.mp (List.mem_of_getLast? hw)).1
        refine put _ (by rw [List.length_erase_of_mem mem]; omega) List.erase_sublist fun x hx => ?_
        exact others x (same.symm ▸ List.mem_of_mem_erase hx)
      · exact ⟨hl, hn⟩

theorem ClientRecord.Sound.reported {r : ClientRecord} (h : r.Sound) (peer : NodeId) (e : SightingEntry) (served : Bool)
    (now : Nat) : (r.reported peer e served now).Sound := by
  have hw := writeReport_bounds r.server { peer := peer, level := e.level, served := served, game := e.game, time := now }
    h.reports h.reporters
  have hr := h.renewed now
  refine ⟨hw.1, hw.2, h.evidence, ?_, h.release, h.directives⟩
  have := hr.deadlines
  simp only [ClientRecord.DeadlinesFit, ClientRecord.reported, ClientRecord.renewed] at this ⊢
  cases hs : r.serving with
  | served q => simpa [hs] using this
  | unseen => simpa [hs] using this
  | remote q =>
    simp only [hs] at this ⊢
    refine ⟨?_, this.2⟩
    split
    · rfl
    · exact this.1

theorem ClientRecord.Sound.takenBy {r : ClientRecord} (h : r.Sound) (hs : r.isServed = false) (peer : NodeId)
    (e : SightingEntry) (now : Nat) : (r.takenBy peer e now).Sound := by
  have hr := h.toRemote hs peer now
  refine ClientRecord.Sound.reported (r := { r.toRemote peer now with
    epoch := e.epoch
    reports := if r.epoch < e.epoch then clearServedFlags none r.reports else r.reports }) ?_ _ _ _ _
  refine ⟨?_, ?_, hr.evidence, hr.deadlines, hr.release, hr.directives⟩ <;> dsimp only <;> split
  · simpa [clearServedFlags] using h.reports
  · exact h.reports
  · rw [clearServedFlags_peers]; exact h.reporters
  · exact h.reporters

/-! ## Obtaining a record -/

theorem State.newRecord_sound (s : State) (a : ClientAddr) : (s.newRecord a).Sound :=
  ⟨Nat.zero_le _, List.nodup_nil, Nat.zero_le _, ⟨rfl, rfl⟩, (fun h => by cases h), fun h => by cases h⟩

/-- A record number filled with a sound record of a client that holds none. -/
theorem State.fillRecord_moves (s : State) (i : Nat) (r : ClientRecord) (hr : r.Sound) (hf : s.findRecord r.addr = none) :
    Moves [.crg] s (s.fillRecord i r) := by
  refine Moves.onCrg (.refl s) _ fun h => ⟨by simpa using h.size, h.distinct.put i r fun j x _ hx => ?_,
    h.records.set i fun x hx => by cases hx; exact hr, h.refusedAssociations, h.unplacedSightings, h.invalidEntries⟩
  have := findSlot_none hf hx
  simpa using this

theorem State.firstBy_some {s : State} {ok : ClientRecord → Bool} {precedes : ClientRecord → ClientRecord → Bool}
    {i : Nat} (h : s.firstBy ok precedes = some i) : ∃ r, s.record i = some r ∧ ok r = true := by
  obtain ⟨⟨j, r⟩, hf, rfl⟩ := Option.map_eq_some_iff.mp h
  have key : ∀ (l : List Nat) (best : Option (Nat × ClientRecord)),
      (∀ x, best = some x → s.record x.1 = some x.2 ∧ ok x.2 = true) →
      ∀ x, l.foldl (fun best i =>
          match s.record i with
          | none => best
          | some r =>
            if ok r then
              (match best with
                | none => some (i, r)
                | some (j, b) => if precedes r b then some (i, r) else some (j, b))
            else best) best = some x → s.record x.1 = some x.2 ∧ ok x.2 = true := by
    intro l
    induction l with
    | nil => exact fun best hb x hx => hb x hx
    | cons k l ih =>
      refine fun best hb => ih _ fun x hx => ?_
      revert hx
      dsimp only
      split
      · exact hb x
      · next r' hr' =>
        split
        · next hok =>
          split
          · intro hx; cases hx; exact ⟨hr', hok⟩
          · next hbest =>
            split
            · intro hx; cases hx; exact ⟨hr', hok⟩
            · intro hx; exact hb x (by rw [← hx])
        · exact hb x
  exact ⟨r, key _ none (fun _ hx => by cases hx) (j, r) hf⟩

theorem State.record_lt {s : State} {i : Nat} {r : ClientRecord} (h : s.record i = some r) :
    i < s.crg.records.length := slotAt_lt h

theorem State.obtainForSighting_lt {s : State} {i : Nat} (h : s.obtainForSighting = some i) :
    i < s.crg.records.length := by
  simp only [State.obtainForSighting] at h
  split at h
  · next hf => cases h; exact (firstFree_some hf).1
  · obtain ⟨r, hr, _⟩ := State.firstBy_some h
    exact State.record_lt hr

theorem State.obtainForAdmission_lt {s : State} {i : Nat} (h : s.obtainForAdmission = some i) :
    i < s.crg.records.length := by
  simp only [State.obtainForAdmission] at h
  split at h
  · next hf => cases h; exact State.obtainForSighting_lt hf
  · obtain ⟨r, hr, _⟩ := State.firstBy_some h
    exact State.record_lt hr

theorem State.fillRecord_record {s : State} {i : Nat} (r : ClientRecord) (hi : i < s.crg.records.length) :
    (s.fillRecord i r).record i = some r := by
  have : slotAt (s.crg.records.set i (some r)) i = some r := by rw [slotAt_set]; simp [hi]
  exact this

theorem State.countUnplaced_moves (s : State) : Moves [.crg] s s.countUnplaced :=
  Moves.onCrg (.refl s) _ fun h => ⟨h.size, h.distinct, h.records, h.refusedAssociations, count16_le _,
    h.invalidEntries⟩

/-! ## Admission -/

theorem State.renewActivity_moves (s : State) (i : Nat) : Moves [.crg] s (s.renewActivity i) :=
  s.modRecord_moves i _ fun _ _ h => ⟨h.renewed _, rfl⟩

theorem ClientRecord.Sound.admitted {r : ClientRecord} (h : r.Sound) (hs : r.isServed = false) (now : Nat) :
    (r.admitted now).Sound := by
  have hr := h.renewed now
  refine ⟨h.reports, h.reporters, h.evidence, ?_, h.release, h.directives⟩
  have := hr.deadlines
  simp only [ClientRecord.DeadlinesFit, ClientRecord.admitted, ClientRecord.renewed] at this ⊢
  cases e : r.serving with
  | served q => simp [ClientRecord.isServed, ClientRecord.servedOn, e] at hs
  | remote q => simpa [e] using this
  | unseen => simpa [e] using this

theorem State.admitClient_moves (s : State) (client : ClientAddr) : Moves [.crg] s (s.admitClient client).1 := by
  simp only [State.admitClient]
  split
  · split
    · exact .refl s
    · next r hr =>
      split
      · exact s.renewActivity_moves _
      · next hs =>
        split
        · exact s.renewActivity_moves _
        · split
          · exact s.renewActivity_moves _
          · refine s.modRecord_moves _ _ fun r' hr' h => ⟨h.admitted ?_ _, rfl⟩
            obtain rfl : r' = r := by simpa [hr] using hr'.symm
            simpa using hs
  · next hf =>
    split
    · exact .refl s
    · split
      · exact .refl s
      · exact s.fillRecord_moves _ _ ((s.newRecord_sound client).admitted rfl _) hf

/-! ## Association -/

theorem State.closeClaimOnAssoc_moves (s : State) (client : ClientAddr) (radio : Nat) :
    Moves [.hoc, .event, .bcu] s (s.closeClaimOnAssoc client radio) := by
  have joined : ∀ t : State, Moves [.event] t (t.joined client radio) := fun t => t.queueEvent_moves _ _ _
  simp only [State.closeClaimOnAssoc]
  split
  · exact (joined s).mono rfl
  · split
    · exact (joined s).mono rfl
    · split
      · exact Moves.then ((s.freeClaim_moves _).mono rfl) (State.queueEvent_moves _ _ _ _) rfl
      · exact Moves.then (Moves.then ((s.sendFrame_moves _ _ _).mono rfl) (State.freeClaim_moves _ _) rfl) (joined _) rfl

theorem State.arrive_moves (s : State) (i : Nat) : Moves [.rli, .crg, .sent] s (s.arrive i) := by
  simp only [State.arrive]
  split
  · exact s.enforceArrival_moves i
  · exact .refl s

/-- Record `i` becomes SERVED. -/
theorem State.beginService_moves (s : State) (i radio : Nat) (r : ClientRecord) (hr : s.record i = some r) :
    Moves [.crg, .bcu, .hoc, .event, .gtm, .yields, .rli, .sent] s (s.beginService i radio r) := by
  have step : Moves [.crg, .bcu, .hoc, .event, .gtm, .yields, .rli, .sent] s
      (((s.modRecord i fun _ => r.toServed radio s.now).sendServed (r.toServed radio s.now)).closeClaimOnAssoc r.addr
        radio) := by
    refine Moves.then (Moves.then (Moves.mono (s.modRecord_moves i _ fun r' hr' h => ?_) rfl)
      (State.sendServed_moves _ _) rfl) (State.closeClaimOnAssoc_moves _ _ _) rfl
    obtain rfl : r' = r := by simpa [hr] using hr'.symm
    exact ⟨h.toServed _ _, rfl⟩
  simp only [State.beginService]
  refine Moves.then ?_ (State.arrive_moves _ _) rfl
  split
  · exact step.then (State.gameCountUp_moves _) rfl
  · exact step

theorem ClientRecord.Sound.moved {r : ClientRecord} (h : r.Sound) (hs : r.isServed) (radio now : Nat) :
    ({ r with serving := .served radio, confirm := 0, lastActivity := now } : ClientRecord).Sound :=
  ⟨h.reports, h.reporters, h.evidence, h.served hs, fun _ => rfl, fun _ => rfl⟩

theorem State.moveRadio_moves (s : State) (i radio : Nat) (r : ClientRecord) (hr : s.record i = some r)
    (hs : r.isServed) : Moves [.crg, .event, .rli, .sent] s (s.moveRadio i radio r) := by
  have step : Moves [.crg, .event, .rli, .sent] s
      (((s.discardPending i).modRecord i fun r =>
        { r with serving := .served radio, confirm := 0, lastActivity := (s.discardPending i).now }).joined r.addr
          radio) := by
    refine Moves.then (Moves.then ((s.discardPending_moves i).mono rfl)
      (State.modRecord_moves _ i _ fun r' hr' h => ?_) rfl) (State.queueEvent_moves _ _ _ _) rfl
    refine ⟨h.moved ?_ _ _, rfl⟩
    have : (s.discardPending i).record i = some r.withoutPending := by simp [State.discardPending, hr]
    rw [this] at hr'
    cases hr'
    exact hs
  simp only [State.moveRadio]
  refine Moves.then ?_ (State.arrive_moves _ _) rfl
  split
  · exact step
  · exact step.then (State.issueControl_moves _ _ _) rfl

theorem State.refuseAssoc_moves (s : State) (radio : Nat) (client : ClientAddr) :
    Moves [.crg, .sent] s (s.refuseAssoc radio client) := by
  have step : Moves [.crg, .sent] s
      (s.modCrg fun c => { c with refusedAssociations := count16 c.refusedAssociations }) :=
    Moves.onCrg (.refl s) _ fun h => ⟨h.size, h.distinct, h.records, count16_le _, h.unplacedSightings,
      h.invalidEntries⟩
  simp only [State.refuseAssoc]
  split
  · exact Moves.emit step _
  · exact step

theorem State.associate_moves (s : State) (radio : Nat) (client : ClientAddr) :
    Moves [.crg, .bcu, .hoc, .event, .gtm, .yields, .rli, .sent] s (s.associate radio client) := by
  simp only [State.associate]
  split
  · split
    · exact .refl s
    · next r hr =>
      split
      · next q hq =>
        split
        · exact (s.renewActivity_moves _).mono rfl
        · exact (s.moveRadio_moves _ _ _ hr (r.isServed_iff.mpr ⟨q, hq⟩)).mono rfl
      · exact s.beginService_moves _ _ _ hr
      · exact s.beginService_moves _ _ _ hr
  · next hf =>
    split
    · exact (s.refuseAssoc_moves _ _).mono rfl
    · next i hi =>
      exact Moves.then ((s.fillRecord_moves i _ (s.newRecord_sound client) hf).mono rfl)
        (State.beginService_moves _ _ _ _ (State.fillRecord_record _ (State.obtainForAdmission_lt hi))) rfl

/-! ## Departure and sightings -/

theorem State.disassociate_moves (s : State) (radio : Nat) (client : ClientAddr) (cause : RadioCause) :
    Moves [.crg, .rli, .event, .sent, .gtm, .yields, .icu] s (s.disassociate radio client cause) := by
  simp only [State.disassociate]
  split
  · exact .refl s
  · next i _ =>
    split
    · exact .refl s
    · next r hr =>
      split
      · exact .refl s
      · refine Moves.then (Moves.then (Moves.event ?_ _ _ _) (State.gameDeparture_moves _ _ _) rfl)
          (State.checkEmptied_moves _) rfl
        refine Moves.then ((s.discardPending_moves i).mono rfl) (State.modRecord_moves _ i _ fun r' hr' h => ?_) rfl
        have : (s.discardPending i).record i = some r.withoutPending := by simp [State.discardPending, hr]
        rw [this] at hr'
        cases hr'
        refine ⟨h.departed rfl _, ?_⟩
        simp only [ClientRecord.departed]
        split
        · rfl
        · split <;> rfl

theorem ClientRecord.Sound.sighted {r : ClientRecord} (h : r.Sound) (k now : Nat) (l : Int) :
    (r.sighted k now l).Sound :=
  (h.renewed now).light rfl rfl rfl rfl rfl rfl rfl rfl

theorem State.sightClient_moves (s : State) (client : ClientAddr) (level : Int) :
    Moves [.crg] s (s.sightClient client level) := by
  simp only [State.sightClient]
  split
  · exact s.modRecord_moves _ _ fun _ _ h => ⟨h.sighted _ _ _, rfl⟩
  · next hf =>
    split
    · exact s.countUnplaced_moves
    · exact s.fillRecord_moves _ _ ((s.newRecord_sound client).sighted _ _ _) hf

/-! ## Entries of SIGHTINGS frames and SERVED notices -/

theorem State.giveWay_moves (s : State) (i : Nat) (peer : NodeId) (e : SightingEntry) :
    Moves [.crg, .rli, .event] s (s.giveWay i peer e) := by
  simp only [State.giveWay]
  refine Moves.then (Moves.then (Moves.mono (s.modRecord_moves i _ fun r _ h => ?_) rfl)
    (State.issueControl_moves _ _ _) rfl) (State.overtakeRelease_moves _ _ _) rfl
  have h' : ({ r with epoch := e.epoch } : ClientRecord).Sound := h.light rfl rfl rfl rfl rfl rfl rfl rfl
  exact ⟨h'.reported _ _ _ _, rfl⟩

theorem State.applyToRecord_moves (s : State) (peer : NodeId) (notice : Bool) (e : SightingEntry) (i : Nat)
    (r : ClientRecord) (hr : s.record i = some r) :
    Moves [.crg, .rli, .event, .hoc] s (s.applyToRecord peer notice e i r) := by
  have report : ∀ f, Moves [.crg, .rli, .event, .hoc] s (s.modRecord i (·.reported peer e f s.now)) := fun f =>
    Moves.mono (s.modRecord_moves i _ fun _ _ h => ⟨h.reported _ _ _ _, rfl⟩) rfl
  have same : ∀ r', s.record i = some r' → r' = r := fun r' hr' => by simpa [hr] using hr'.symm
  have taken : r.isServed = false → Moves [.crg, .rli, .event, .hoc] s (s.modRecord i (·.takenBy peer e s.now)) :=
    fun hs => Moves.mono (s.modRecord_moves i _ fun r' hr' h => by
      obtain rfl := same r' hr'
      exact ⟨h.takenBy hs _ _ _, rfl⟩) rfl
  simp only [State.applyToRecord]
  split
  · split
    · exact (s.giveWay_moves _ _ _).mono rfl
    · exact report _
  · next q hq =>
    have hs : r.isServed = false := by simp [ClientRecord.isServed, ClientRecord.servedOn, hq]
    split
    · split
      · split
        · exact taken hs
        · exact (taken hs).then (State.overtakeClaim_moves _ _ _) rfl
      · split
        · exact report _
        · exact report _
    · split
      · refine Moves.mono (s.modRecord_moves i _ fun r' hr' h => ?_) rfl
        obtain rfl := same r' hr'
        exact ⟨(h.toUnseen hs).reported _ _ _ _, rfl⟩
      · exact report _
  · next hq =>
    have hs : r.isServed = false := by simp [ClientRecord.isServed, ClientRecord.servedOn, hq]
    split
    · exact (taken hs).then (State.overtakeClaim_moves _ _ _) rfl
    · exact report _

theorem State.applyEntry_moves (peer : NodeId) (notice : Bool) (s : State) (e : SightingEntry) :
    Moves [.crg, .rli, .event, .hoc] s (State.applyEntry peer notice s e) := by
  simp only [State.applyEntry]
  split
  · split
    · exact .refl s
    · next r hr => exact s.applyToRecord_moves _ _ _ _ r hr
  · next hf =>
    split
    · exact .refl s
    · split
      · exact s.countUnplaced_moves.mono rfl
      · exact (s.fillRecord_moves _ _ ((s.newRecord_sound e.client).takenBy rfl _ _ _) hf).mono rfl

theorem State.takeEntry_moves (peer : NodeId) (s : State) (e : SightingEntry) :
    Moves [.crg, .rli, .event, .hoc] s (State.takeEntry peer s e) := by
  simp only [State.takeEntry]
  split
  · exact State.applyEntry_moves _ _ _ _
  · exact Moves.onCrg (.refl s) _ fun h => ⟨h.size, h.distinct, h.records, h.refusedAssociations, h.unplacedSightings,
      count16_le _⟩

theorem State.takeSightings_moves (peer : NodeId) (b : List Byte) (s : State) :
    Moves [.crg, .rli, .event, .hoc] s (State.takeSightings peer b s) :=
  Moves.foldl (fun t e => State.takeEntry_moves peer t e) _ s

/-! ## Aging, removed peers, the node's own sightings, restart -/

theorem ClientRecord.Sound.remoteLapsed {r : ClientRecord} (h : r.Sound) (hs : r.isServed = false) :
    r.remoteLapsed.Sound := (h.toUnseen hs).reportsTo (by simpa [clearServedFlags] using h.reports)
      (by rw [clearServedFlags_peers]; exact h.reporters)

/-- A removal deadline is held by an UNSEEN record alone. -/
theorem State.ageRecord_moves (s : State) (i : Nat) (r : ClientRecord) (hr : s.record i = some r)
    (hd : r.removalDeadline.isSome) : Moves [.crg] s (s.ageRecord i r) := by
  simp only [State.ageRecord]
  split
  · exact Moves.onCrg (.refl s) _ fun h => h.remove i
  · refine s.modRecord_moves i _ fun r' hr' h => ⟨⟨h.reports, h.reporters, h.evidence, ?_, h.release, h.directives⟩, rfl⟩
    obtain rfl : r' = r := by simpa [hr] using hr'.symm
    have := h.deadlines
    simp only [ClientRecord.DeadlinesFit] at this ⊢
    cases e : r'.serving <;> simp_all

theorem ClientRecord.Sound.withoutPeer {r : ClientRecord} (h : r.Sound) (peer : NodeId) :
    (ClientRecord.withoutPeer peer r).Sound := by
  have h' : ({ r with reports := r.reports.filter fun p => decide (p.peer ≠ peer) } : ClientRecord).Sound :=
    h.reportsTo (le_trans (List.length_filter_le _ _) h.reports) (h.reporters.sublist (List.filter_sublist.map _))
  simp only [ClientRecord.withoutPeer]
  split
  · next hs => exact h'.toUnseen (by simp [ClientRecord.isServed, ClientRecord.servedOn, hs])
  · exact h'

theorem State.forgetPeer_moves (s : State) (peer : NodeId) : Moves [.crg] s (s.forgetPeer peer) :=
  Moves.onCrg (.refl s) _ fun h => h.mapRecords (fun _ hr => hr.withoutPeer peer) fun r => by
    simp only [ClientRecord.withoutPeer]; split <;> rfl

theorem State.buildSightings_moves (s : State) : Moves [.crg, .bcu] s s.buildSightings := by
  have step : Moves [.crg, .bcu] s (s.modCrg fun c =>
      { c with sightingsDeadline := some (s.now + 256), servedCursor := s.servedPart.getLast?.getD c.servedCursor }) :=
    Moves.onCrg (.refl s) _ fun h => ⟨h.size, h.distinct, h.records, h.refusedAssociations, h.unplacedSightings,
      h.invalidEntries⟩
  simp only [State.buildSightings]
  split
  · exact step
  · exact step.then (State.sendFrame_moves _ _ _ _) rfl

theorem ClientRecord.Sound.restarted {r : ClientRecord} (h : r.Sound) : r.restarted.Sound := by
  have bare : ({ r with reports := [], admitPending := none, confirm := 0 } : ClientRecord).Sound := by
    refine ⟨Nat.zero_le _, List.nodup_nil, h.evidence, ?_, h.release, h.directives⟩
    have := h.deadlines
    simp only [ClientRecord.DeadlinesFit] at this ⊢
    cases e : r.serving <;> simp_all
  simp only [ClientRecord.restarted]
  split
  · exact bare
  · next hs => exact bare.toUnseen (by simp [ClientRecord.isServed, ClientRecord.servedOn, hs])
  · exact bare

theorem State.restartCrg_moves (s : State) : Moves [.crg] s s.restartCrg :=
  Moves.onCrg (.refl s) _ fun h => by
    have := h.mapRecords (f := ClientRecord.restarted) (fun _ hr => hr.restarted) fun r => by
      simp only [ClientRecord.restarted]; split <;> rfl
    exact ⟨this.size, this.distinct, this.records, Nat.zero_le _, Nat.zero_le _, Nat.zero_le _⟩

theorem State.restartRse_moves (s : State) : Moves [.crg, .rse] s s.restartRse := by
  simp only [State.restartRse]
  have step : Moves [.crg, .rse] s
      (s.modCrg fun c => { c with records := c.records.map (Option.map fun r => { r with confirm := 0 }) }) :=
    Moves.onCrg (.refl s) _ fun h => h.mapRecords (f := fun r => { r with confirm := 0 })
      (fun _ hr => hr.light rfl rfl rfl rfl rfl rfl rfl rfl) fun _ => rfl
  exact Moves.onRse step _

end Sys2Proof.Machine
end

