-- ==== Sys2Proof/Laws/Neighbours.lean ====
section
/-! SUPPORT. The Mesh Timebase's tick and merge and the Neighbour Table: what each of their operations touches. -/

set_option Elab.async false

namespace Sys2Proof.Machine

open Sys2Proof

/-! ## Mesh time -/

theorem advanceTime_le (now n : Nat) : advanceTime now n ≤ meshTimeMax := Nat.min_le_right _ _

theorem le_advanceTime {now : Nat} (h : now ≤ meshTimeMax) (n : Nat) : now ≤ advanceTime now n := by
  simp only [advanceTime, le_min_iff]; omega

/-- The kinds of change that waiting wall-state notices bring when they are taken, and the clock's own. -/
def clockTouches : List Touch := [.mtb, .wall, .seu, .event, .rli, .crg, .sent, .lines]

theorem State.tick_moves (s : State) : Moves clockTouches s s.tick := by
  simp only [State.tick]
  refine Moves.then (Moves.onMtb (s.takeNotices_moves.mono rfl) _ (fun _ => ⟨Nat.zero_le _, advanceTime_le _ _⟩)
    fun h => ?_) (State.computeWall_moves _) rfl
  exact le_advanceTime h.meshTime 1

theorem State.slew_moves (s : State) (src : NodeId) (t : Nat) : Moves [.mtb, .event] s (s.slew src t) := by
  have step : Moves [.mtb, .event] s
      (s.modMtb fun m => { m with meshTime := advanceTime m.meshTime (min (t + 1 - s.now) 1024) }) :=
    Moves.onMtb (.refl s) _ (fun h => ⟨h.divider, advanceTime_le _ _⟩) fun h => le_advanceTime h.meshTime _
  simp only [State.slew]
  split
  · exact step
  · exact Moves.event step _ _ _

theorem State.adopt_moves (s : State) (src : NodeId) (t : Nat) : Moves [.shift, .mtb, .event] s (s.adopt src t) := by
  simp only [State.adopt]
  refine Moves.event (Moves.onMtb (Moves.step (.refl s) (by decide) (Move.shift s _)) _
    (fun h => ⟨h.divider, Nat.min_le_right _ _⟩) fun h => ?_) _ _ _
  have : s.mtb.meshTime ≤ meshTimeMax := h.meshTime
  exact le_min (le_trans (le_max_left _ _) (le_refl _)) this

theorem State.mergeTime_moves (s : State) (src : NodeId) (t : Nat) :
    Moves (.shift :: clockTouches) s (s.mergeTime src t) := by
  simp only [State.mergeTime]
  refine Moves.then ?_ (State.computeWall_moves _) rfl
  have settled : Moves (.shift :: clockTouches) s s.takeNotices := s.takeNotices_moves.mono rfl
  split
  · exact settled.then (State.slew_moves _ src t) rfl
  · exact settled.then (State.adopt_moves _ src t) rfl

/-! ## Link states -/

theorem parseAdvertised_bounds {b : List Byte} {a : Advertised} (h : parseAdvertised b = some a) :
    a.load ≤ 100 ∧ a.servedCount ≤ 64 := by
  simp only [parseAdvertised] at h
  split at h
  · cases h; exact ⟨Nat.min_le_right _ _, Nat.min_le_right _ _⟩
  · cases h
  · cases h

theorem newEntry_sound (id : NodeId) {adv : Advertised} (ha : adv.load ≤ 100 ∧ adv.servedCount ≤ 64) :
    (newEntry id adv).Sound :=
  ⟨show 1 ≤ 3 by decide, Nat.zero_le _, Nat.zero_le _, Nat.zero_le _, Nat.zero_le _, ha.1, ha.2, Nat.zero_le _⟩

theorem Entry.Sound.renewedBy {e : Entry} (h : e.Sound) (now : Nat) (cfg : Configuration) : (e.renewedBy now cfg).Sound := by
  refine ⟨h.joins, h.misses, ?_, h.goodRun, ?_, h.load, h.served, h.fetchFails⟩ <;> simp only [Entry.renewedBy] <;> split
  · omega
  · exact h.badFrames
  · omega
  · omega

/-- The state rule keeps an entry's node, and its bounds. -/
theorem Entry.Sound.stateRule {e : Entry} (h : e.Sound) (n : Nat) :
    (e.stateRule n).1.Sound ∧ (e.stateRule n).1.id = e.id := by
  have hm := h.misses
  have hg := h.goodRun
  have hj := h.joins
  simp only [Entry.stateRule]
  split
  · next hl =>
    split
    · exact ⟨h, rfl⟩
    · split
      · exact ⟨⟨by dsimp only; omega, hm, h.badFrames, hg, h.sinceWindow, h.load, h.served, h.fetchFails⟩, rfl⟩
      · exact ⟨⟨le_refl _, Nat.zero_le _, h.badFrames, hg, h.sinceWindow, h.load, h.served, h.fetchFails⟩, rfl⟩
  · exact ⟨⟨hj, Nat.zero_le _, h.badFrames, hg, h.sinceWindow, h.load, h.served, h.fetchFails⟩, rfl⟩
  · split
    · exact ⟨⟨hj, hm, h.badFrames, Nat.zero_le _, h.sinceWindow, h.load, h.served, h.fetchFails⟩, rfl⟩
    · split
      · exact ⟨⟨hj, hm, h.badFrames, by dsimp only; omega, h.sinceWindow, h.load, h.served, h.fetchFails⟩, rfl⟩
      · exact ⟨⟨hj, Nat.zero_le _, Nat.zero_le _, Nat.zero_le _, Nat.zero_le _, h.load, h.served, h.fetchFails⟩, rfl⟩

theorem State.movePeerGame_moves (s : State) (x y : Bool) : Moves [.gtm, .yields] s (s.movePeerGame x y) := by
  simp only [State.movePeerGame]
  split
  · exact .refl s
  · exact Moves.then (Moves.onGtm (.refl s) _ fun h => ⟨h.invalid, h.unmatched⟩) (State.judgeYield_moves _) rfl

/-! ## Misses and removal -/

theorem State.releaseFetches_moves (s : State) (peer : NodeId) : Moves [.ims, .bcu] s (s.releaseFetches peer) := by
  simp only [State.releaseFetches]
  split
  · exact Moves.then ((s.dropFetchesOf_moves _).mono rfl) (State.fillFetches_moves _) rfl
  · exact .refl s

theorem State.removePeer_moves (s : State) (i : Nat) (e : Entry) :
    Moves [.nbt, .event, .hoc, .crg, .rli, .ims, .bcu, .gtm, .yields] s (s.removePeer i e) := by
  simp only [State.removePeer]
  refine Moves.then (Moves.then (Moves.then (Moves.then (Moves.event ?_ _ _ _) (State.losePeerContexts_moves _ _) rfl)
    (State.forgetPeer_moves _ _) rfl) (State.releaseFetches_moves _ _) rfl) (State.movePeerGame_moves _ _ _) rfl
  exact Moves.onNbt (.refl s) _ fun h => h.remove i

theorem State.missBeacon_moves (s : State) (i : Nat) (e : Entry) (he : s.entry i = some e) :
    Moves [.nbt, .event, .hoc, .crg, .rli, .ims, .bcu, .gtm, .yields] s (s.missBeacon i e) := by
  have same : ∀ e', s.entry i = some e' → e' = e := fun e' he' => by simpa [he] using he'.symm
  simp only [State.missBeacon]
  split
  · exact Moves.onNbt (.refl s) _ fun h => h.remove i
  · next hl =>
    split
    · next hlt =>
      refine Moves.mono (s.modEntry_moves i _ fun e' he' h => ?_) rfl
      obtain rfl := same e' he'
      refine ⟨⟨h.joins, ?_, h.badFrames, h.goodRun, h.sinceWindow, h.load, h.served, h.fetchFails⟩, rfl⟩
      simp only [hl, mostMisses] at hlt ⊢
      omega
    · refine Moves.event (Moves.mono (s.modEntry_moves i _ fun e' he' h => ?_) rfl) _ _ _
      obtain rfl := same e' he'
      have := h.misses
      refine ⟨⟨h.joins, ?_, h.badFrames, Nat.zero_le _, h.sinceWindow, h.load, h.served, h.fetchFails⟩, rfl⟩
      simp only [hl, mostMisses] at this ⊢
      omega
  · next hl =>
    split
    · next hlt =>
      refine Moves.mono (s.modEntry_moves i _ fun e' he' h => ?_) rfl
      obtain rfl := same e' he'
      refine ⟨⟨h.joins, ?_, h.badFrames, Nat.zero_le _, h.sinceWindow, h.load, h.served, h.fetchFails⟩, rfl⟩
      simp only [hl, mostMisses] at hlt ⊢
      omega
    · exact s.removePeer_moves i e

/-! ## Own beacons and the restart notice -/

theorem State.firstBuild_moves (s : State) : Moves [.draw, .nbt] s s.firstBuild := by
  simp only [State.firstBuild, State.drawUpTo]
  exact Moves.onNbt (Moves.draw (.refl s)) _ fun h => h.timers _ _

theorem State.buildBeacon_moves (s : State) : Moves [.icu, .event, .hoc, .bcu, .draw, .nbt] s s.buildBeacon := by
  simp only [State.buildBeacon, State.drawUpTo]
  refine Moves.onNbt (Moves.draw (Moves.then (s.icuAtBuild_moves.mono rfl) (State.sendFrame_moves _ _ _ _) rfl)) _
    fun h => ?_
  have h' := h.mapEntries (f := fun e => { e with answered := false })
    (fun e he => ⟨he.joins, he.misses, he.badFrames, he.goodRun, he.sinceWindow, he.load, he.served, he.fetchFails⟩)
    fun _ => rfl
  exact ⟨h'.size, h'.distinct, h'.entries, h'.tableFull⟩

theorem State.restartNbt_moves (s : State) : Moves [.nbt, .draw, .gtm, .yields] s s.restartNbt := by
  simp only [State.restartNbt]
  refine Moves.then (Moves.then (Moves.onNbt (.refl s) _ fun _ => ?_) (State.firstBuild_moves _) rfl)
    (State.clearPeerGame_moves _) rfl
  exact ⟨List.length_replicate, DistinctBy.replicate _ _, EverySlot.replicate _ _, Nat.zero_le _⟩

end Sys2Proof.Machine
end

