-- ==== Sys2Proof/Laws/Commands.lean ====
section
/-! SUPPORT. What a command can do: but for the two resets, its outcome is always a next state, which is the state as it
was or the end of a sequence of moves, finished (`Effect`). -/

set_option Elab.async false

namespace Sys2Proof.Machine

open Sys2Proof

/-- A command leaves the state alone, or its effect is a sequence of moves of kinds in `C`, finished. -/
def Effect (C : List Touch) (s : State) (o : Host.Outcome State Fault Refusal) : Prop :=
  o = .next s ∨ ∃ x, Moves C s x ∧ o = done x

theorem Effect.none {C : List Touch} {s : State} : Effect C s (.next s) := .inl rfl

theorem Effect.done {C L : List Touch} {s x : State} (h : Moves L s x) (hc : covers C L = true) :
    Effect C s (done x) := .inr ⟨x, h.mono hc, rfl⟩

theorem Effect.mono {C L : List Touch} {s : State} {o : Host.Outcome State Fault Refusal} (h : Effect L s o)
    (hc : covers C L = true) : Effect C s o :=
  h.imp id fun ⟨x, hx, e⟩ => ⟨x, hx.mono hc, e⟩

/-! ## Time and the configuration read -/

theorem execTick_effect (s : State) : Effect clockTouches s (execTick s) := by
  simp only [execTick]
  split
  · exact .none
  · exact .done s.tick_moves rfl

theorem execWallStateNotice_effect (s : State) :
    Effect [.wall, .seu, .event, .rli, .crg, .sent] s (execWallStateNotice s) := by
  simp only [execWallStateNotice]
  split
  · exact .none
  · exact .done (s.evaluateNotice_moves _ _) rfl

theorem State.configBad_moves (s : State) (d : Nat) : Moves [.fault, .event, .halt] s (s.configBad d) :=
  Moves.step ((s.recordFault_moves _ _).mono rfl) (by decide) (Move.halt _)

theorem State.startRunning_moves (s : State) :
    Moves [.start, .bcu, .sent, .pst, .flp, .ims, .draw, .nbt, .crg, .rse] s s.startRunning := by
  simp only [State.startRunning]
  refine Moves.onRse ?_ _
  refine Moves.onCrg ?_ _ fun h => ⟨h.size, h.distinct, h.records, h.refusedAssociations, h.unplacedSightings,
    h.invalidEntries⟩
  refine Moves.then ?_ (State.firstBuild_moves _) rfl
  refine Moves.then ?_ (State.requestFlash_moves _ _ (by decide)) rfl
  refine Moves.onIms ?_ _ fun h => h.light rfl rfl rfl rfl rfl rfl rfl rfl rfl rfl rfl rfl
  refine Moves.then ?_ (State.requestFlash_moves _ _ (by decide)) rfl
  refine Moves.onPstSide ?_ _ rfl rfl fun h => ⟨h.excessLists, h.malformed, h.invalidRecords⟩
  refine Moves.emit ?_ _
  exact Moves.onBcu (Moves.step (.refl s) (by decide) (Move.start s)) _ fun h => h.side _ _ _ _ _

theorem State.takeConfig_moves (s : State) (data : List Byte) :
    Moves [.config, .fault, .event, .halt, .start, .bcu, .sent, .pst, .flp, .ims, .draw, .nbt, .crg, .rse] s
      (s.takeConfig data) := by
  have held : Moves [.config, .fault, .event, .halt, .start, .bcu, .sent, .pst, .flp, .ims, .draw, .nbt, .crg, .rse] s
      { s with cfg := parseConfig data } := Moves.step (.refl s) (by decide) (Move.config s _)
  simp only [State.takeConfig]
  split
  · exact held.then (State.configBad_moves _ _) rfl
  · exact held.then (State.startRunning_moves _) rfl

/-! ## The flash port -/

theorem nextRequest_mem {l : List FlashRequest} {r : FlashRequest} (h : nextRequest l = some r) : r ∈ l := by
  obtain ⟨k, _, hk⟩ := List.exists_of_findSome?_eq_some h
  exact List.mem_of_find?_eq_some hk

theorem State.operationBegun_moves (s : State) (k : FlashKind) : Moves [.pst, .ims] s (s.operationBegun k) := by
  simp only [State.operationBegun]
  split
  · exact Moves.onPstSide (.refl s) _ rfl rfl fun h => ⟨h.excessLists, h.malformed, h.invalidRecords⟩
  · exact Moves.onIms (.refl s) _ fun h => h.buffersTo (List.length_modify _ _ _)
  all_goals exact .refl s

theorem State.beginOperation_moves (s : State) (r : FlashRequest) (hr : r ∈ s.flp.waiting) :
    Moves [.flp, .pst, .ims, .sent] s (s.beginOperation r) := by
  have step : Moves [.flp, .pst, .ims, .sent] s ((s.modFlp fun f =>
      { waiting := f.waiting.erase r
        operation := some { kind := r.kind, discard := r.discard, deadline := s.now + 2048, marker := s.icu.marker }
        }).operationBegun r.kind) := by
    refine Moves.then (Moves.onFlp (.refl s) _ fun h => ⟨fun x hx => h.1 x (List.mem_of_mem_erase hx), fun o ho => ?_⟩)
      (State.operationBegun_moves _ _) rfl
    cases ho
    exact h.1 r hr
  simp only [State.beginOperation]
  split
  · exact step
  · exact Moves.emit step _

theorem execFlashOperationBegin_effect (s : State) :
    Effect [.flp, .pst, .ims, .sent] s (execFlashOperationBegin s) := by
  simp only [execFlashOperationBegin]
  split
  · next h => exact .done (s.beginOperation_moves _ (nextRequest_mem h)) rfl
  · exact .none
  · exact .none

theorem State.programDone_moves (s : State) (i : Nat) : Moves [.ims, .bcu, .flp] s (s.programDone i) := by
  simp only [State.programDone]
  split
  · exact .refl s
  · exact Moves.then ((s.setBuffer_moves _ _).mono rfl) (State.fillFetches_moves _) rfl
  · exact Moves.then ((s.setBuffer_moves _ _).mono rfl) (State.requestFlash_moves _ _ (by simp)) rfl

theorem State.verifyDone_moves (s : State) (i : Nat) (data : List Byte) :
    Moves [.ims, .icu, .event, .bcu, .flp, .fault] s (s.verifyDone i data) := by
  have freed : Moves [.ims, .icu, .event, .bcu, .flp, .fault] s (s.setBuffer i .free) :=
    (s.setBuffer_moves _ _).mono rfl
  have failures : ∀ n, n ≤ 3 → Moves [.ims, .icu, .event, .bcu, .flp, .fault] s
      ((s.setBuffer i .free).modIms fun m => { m with verifyFailures := n }) := fun n hn =>
    Moves.onIms freed _ fun h => h.change rfl rfl h.buffers h.fetches h.segments h.index hn h.refusedHeads
      h.unmatchedChunks h.lostChunks h.checkFailures h.ignoredFetches
  simp only [State.verifyDone]
  split
  · exact .refl s
  · split
    · exact freed.then (State.fillFetches_moves _) rfl
    · split
      · exact ((failures 0 (by decide)).then (State.chunkPresent_moves _ _ _) rfl).then (State.fillFetches_moves _) rfl
      · split
        · exact (failures _ (Nat.min_le_right _ _)).then (State.fillFetches_moves _) rfl
        · exact ((failures _ (Nat.min_le_right _ _)).then (State.enterFault_moves _) rfl).then
            (State.recordFault_moves _ _ _) rfl

theorem State.headReadDone_moves (s : State) (data : List Byte) :
    Moves [.ims, .icu, .event, .bcu, .flp] s (s.headReadDone data) := by
  simp only [State.headReadDone]
  split
  · refine Moves.then (Moves.then (Moves.onIms (.refl s) _ fun h => ?_) (State.icuMarkerFound_moves _ _) rfl)
      (State.scanStep_moves _ _ _) rfl
    exact h.light rfl rfl rfl rfl rfl rfl rfl rfl rfl rfl rfl rfl
  · refine Moves.then (Moves.then (Moves.onIms (.refl s) _ fun h => ?_) (State.setImage_moves _ _) rfl)
      (State.takeHeldHead_moves _) rfl
    exact h.light rfl rfl rfl rfl rfl rfl rfl rfl rfl rfl rfl rfl

theorem State.scanReadDone_moves (s : State) (c : ChunkRef) (data : List Byte) :
    Moves [.ims, .icu, .event, .bcu, .flp] s (s.scanReadDone c data) := by
  have step : Moves [.ims, .icu, .event, .bcu, .flp] s
      (if s.ims.bytesMatch c data then s.modIms (·.setPresent c data) else s) := by
    split
    · exact Moves.onIms (.refl s) _ fun h => h.setPresent c data
    · exact .refl s
  unfold State.scanReadDone
  revert step
  generalize (if s.ims.bytesMatch c data then s.modIms (·.setPresent c data) else s) = t
  intro step
  dsimp only
  split
  · exact step
  · exact step.then (State.scanStep_moves _ _ _) rfl

theorem State.patrolDone_moves (s : State) (c : ChunkRef) (data : List Byte) :
    Moves [.ims, .bcu, .flp, .fault, .event, .icu] s (s.patrolDone c data) := by
  simp only [State.patrolDone]
  split
  · exact .refl s
  · exact (s.clearBadChunk_moves c).then (State.fillFetches_moves _) rfl

theorem State.serveDone_moves (s : State) (peer : NodeId) (c : ChunkRef) (data : List Byte) :
    Moves [.ims, .bcu, .flp, .fault, .event, .icu] s (s.serveDone peer c data) := by
  simp only [State.serveDone]
  split
  · exact .refl s
  · split
    · exact (s.sendChunk_moves _ _ _).mono rfl
    · refine Moves.then (Moves.then (Moves.onBcu (.refl s) _ fun h => h.withdrawReservation _ _)
        (State.clearBadChunk_moves _ _) rfl) (State.fillFetches_moves _) rfl

/-- What the end of an operation can touch, by its kind. -/
def completionTouches : FlashKind → List Touch
  | .configRead => [.config, .fault, .event, .halt, .start, .bcu, .sent, .pst, .flp, .ims, .draw, .nbt, .crg, .rse]
  | .policyRead => [.pst, .load, .fault, .event, .mtb, .wall, .seu, .rli, .crg, .sent, .lines]
  | .policyWrite => [.pst]
  | .headWrite => []
  | .program _ => [.ims, .bcu, .flp]
  | .verify _ => [.ims, .icu, .event, .bcu, .flp, .fault]
  | .headRead => [.ims, .icu, .event, .bcu, .flp]
  | .scanRead _ => [.ims, .icu, .event, .bcu, .flp]
  | .patrolRead _ => [.ims, .bcu, .flp, .fault, .event, .icu]
  | .serveRead _ _ => [.ims, .bcu, .flp, .fault, .event, .icu]

theorem Moves.onEndWrite {C : List Touch} {s t : State} (h : Moves C s t) (now : Nat) (complete : Bool)
    (mem : Touch.pst ∈ C := by decide) : Moves C s (t.modPst (·.endWrite now complete)) :=
  h.onPstSide _ rfl rfl (fun h => ⟨h.excessLists, h.malformed, h.invalidRecords⟩) mem

theorem State.operationDone_moves (s : State) (o : FlashOperation) (data : List Byte) :
    Moves (completionTouches o.kind) s (s.operationDone o data) := by
  simp only [State.operationDone]
  split <;> rename_i hk <;> rw [hk]
  · exact s.takeConfig_moves data
  · exact s.loadPolicy_moves data
  · exact Moves.onEndWrite (.refl s) _ _ (show _ ∈ [Touch.pst] by decide)
  · exact .refl s
  · exact s.programDone_moves _
  · exact s.verifyDone_moves _ data
  all_goals split
  · exact .refl s
  · exact s.headReadDone_moves data
  · exact .refl s
  · exact s.scanReadDone_moves _ data
  · exact .refl s
  · exact s.patrolDone_moves _ data
  · exact .refl s
  · exact s.serveDone_moves _ _ data

/-- Every kind of change: what a command whose effect depends on the running operation can touch. -/
def allTouches : List Touch :=
  [.bcu, .nbt, .mtb, .crg, .rli, .rse, .hoc, .pst, .load, .seu, .gtm, .ims, .icu, .flp, .lpi, .event, .pop, .fault,
   .clear, .lines, .wall, .yields, .restart, .sent, .draw, .halt, .start, .config, .shift]

/-- What a completion can touch: the flash port, the draw counter, and what the running operation's end touches. -/
def endTouches (f : Flp) : List Touch :=
  .flp :: .draw :: (f.operation.toList.flatMap fun o => completionTouches o.kind)

theorem covers_self (L : List Touch) : covers L L = true := by simp [covers]

theorem covers_cons {C L : List Touch} (k : Touch) (h : covers C L = true) : covers (k :: C) L = true := by
  simp only [covers, List.all_eq_true, List.contains_eq_mem, decide_eq_true_eq, List.mem_cons] at h ⊢
  exact fun x hx => .inr (h x hx)

/-- A completion taken as the running operation's. -/
theorem State.complete_moves (s : State) (data : List Byte) (o : FlashOperation) (ho : s.flp.operation = some o) :
    ∃ x, Moves (.flp :: completionTouches o.kind) s x ∧ s.complete data = done x := by
  refine ⟨(s.modFlp fun f => { f with operation := none }).operationDone o data, ?_, by simp only [State.complete, ho]⟩
  exact Moves.then (Moves.onFlp (.refl s) _ (fun h => h.idle) (by simp)) (State.operationDone_moves _ o data)
    (covers_cons _ (covers_self _))

theorem endTouches_of {f : Flp} {o : FlashOperation} (h : f.operation = some o) :
    endTouches f = .flp :: .draw :: completionTouches o.kind := by simp [endTouches, h]

theorem covers_skip {C L : List Touch} (k j : Touch) (h : covers C L = true) : covers (k :: j :: C) (k :: L) = true := by
  simp only [covers, List.all_eq_true, List.contains_eq_mem, decide_eq_true_eq, List.mem_cons] at h ⊢
  rintro x (rfl | hx)
  · exact .inl rfl
  · exact .inr (.inr (h x hx))

theorem State.complete_effect (s : State) (data : List Byte) : Effect (endTouches s.flp) s (s.complete data) := by
  cases ho : s.flp.operation with
  | none => exact .inl (by simp only [State.complete, ho])
  | some o =>
    obtain ⟨x, hx, e⟩ := s.complete_moves data o ho
    exact .inr ⟨x, hx.mono (by rw [endTouches_of ho]; exact covers_skip _ _ (covers_self _)), e⟩

theorem State.completeBare_effect (s : State) : Effect (endTouches s.flp) s s.completeBare := by
  simp only [State.completeBare]
  split
  · next hr =>
    cases ho : s.flp.operation with
    | none => simp [Flp.isRunning, ho] at hr
    | some o =>
      obtain ⟨x, hx, e⟩ := State.complete_moves { s with draws := s.draws + 1 } (Config.strayRead s.draws) o ho
      refine .inr ⟨x, Moves.then (Moves.draw (.refl s) (by simp [endTouches])) hx ?_, e⟩
      rw [endTouches_of ho]
      exact covers_skip _ _ (covers_self _)
  · exact s.complete_effect []

/-- What the requester of an abandoned operation touches. -/
theorem State.operationFailed_moves (s : State) (o : FlashOperation) :
    Moves [.pst, .fault, .event, .icu] s (s.operationFailed o) := by
  simp only [State.operationFailed]
  split
  · exact s.policyImageBad_moves.mono rfl
  · exact Moves.onEndWrite (.refl s) _ _
  · split
    · exact Moves.onIcu (.refl s) _ fun h => h
    · exact .refl s
  all_goals exact .refl s

/-- What an abandoned operation touches; the part halts only for the configuration read. -/
theorem State.abandonOperation_moves (s : State) (o : FlashOperation) :
    Moves ((if o.kind = .configRead then [.halt] else []) ++ [.flp, .fault, .event, .sent, .pst, .icu, .ims, .bcu]) s
      (s.abandonOperation o) := by
  have base : ∀ C, covers C [.flp, .fault, .event, .sent, .pst, .icu, .ims, .bcu] = true → Moves C s
      (((s.modFlp fun f => { f with operation := none }).recordFault .flashNoResponse (flashRank o.kind)).emit
        .flashReset) := fun C hC =>
    Moves.mono (L := [.flp, .fault, .event, .sent])
      (Moves.emit (Moves.then (Moves.onFlp (.refl s) _ fun h => h.idle) (State.recordFault_moves _ _ _) rfl) _)
      (by
        simp only [covers, List.all_cons, List.all_nil, Bool.and_eq_true, and_true] at hC ⊢
        tauto)
  simp only [State.abandonOperation]
  split
  · exact (base _ rfl).then (State.configBad_moves _ _) rfl
  · exact ((base _ rfl).then (State.operationFailed_moves _ _) rfl).then (State.enterFault_moves _) rfl

end Sys2Proof.Machine
end

