-- ==== Sys2Proof/Laws/Expiries.lean ====
section
/-! SUPPORT. What each expiry touches (`Reaches`), and what the expiries of a step of mesh time touch together. -/

set_option Elab.async false

namespace Sys2Proof.Machine

open Sys2Proof

/-- What an expiry leaves is reached by moves of kinds in `C`. -/
def Reaches (C : List Touch) (s : State) (x : Option Expiry) : Prop := ∀ y, x = some y → Moves C s y.taken

theorem Reaches.none {C : List Touch} {s : State} : Reaches C s none := fun _ h => by cases h

theorem Reaches.some {C : List Touch} {s t : State} {d : Nat} (h : Moves C s t) :
    Reaches C s (some { deadline := d, taken := t }) := fun y hy => by cases hy; exact h

theorem reaches_expiryOf {C : List Touch} {s t : State} {d : Option Nat} (h : d.isSome → Moves C s t) :
    Reaches C s (expiryOf d t) := by
  cases d with
  | none => exact .none
  | some d => exact .some (h rfl)

theorem Reaches.mono {C L : List Touch} {s : State} {x : Option Expiry} (h : Reaches L s x) (hc : covers C L = true) :
    Reaches C s x := fun y hy => (h y hy).mono hc

/-- An expiry taken at its own command. -/
theorem State.expire_effect {C : List Touch} (s : State) {x : Option Expiry} (h : Reaches C s x) :
    Effect C s (s.expire x) := by
  simp only [State.expire]
  split
  · exact .none
  · split
    · exact .inr ⟨_, h _ rfl, rfl⟩
    · exact .none

/-- An expiry brought by a step. -/
theorem State.pass_moves {C : List Touch} (s : State) (old : Nat) {x : Option Expiry} (h : Reaches C s x) :
    Moves C s (s.pass old x) := by
  simp only [State.pass]
  split
  · exact .refl s
  · split
    · exact h _ rfl
    · exact .refl s

theorem State.passEach_moves {C : List Touch} (s : State) (old : Nat) (l : List Nat) {x : State → Nat → Option Expiry}
    (h : ∀ t i, Reaches C t (x t i)) : Moves C s (s.passEach old l x) :=
  Moves.foldl (fun t i => t.pass_moves old (h t i)) l s

theorem State.recordExpiry_reaches {C : List Touch} (s : State) (i : Nat) (d : ClientRecord → Option Nat)
    (t : ClientRecord → State) (h : ∀ r, s.record i = some r → (d r).isSome → Moves C s (t r)) :
    Reaches C s (s.recordExpiry i d t) := by
  simp only [State.recordExpiry]
  split
  · exact .none
  · next r hr => exact reaches_expiryOf (h r hr)

/-! ## Backhaul Channel Unit and Neighbour Table -/

theorem State.creditRefill_reaches (s : State) : Reaches [.bcu] s s.creditRefill := by
  simp only [State.creditRefill]
  split
  · exact .none
  · exact .some (Moves.onBcu (.refl s) _ fun h => h.side _ _ _ _ _)

theorem State.beaconDue_reaches (s : State) (i : Nat) :
    Reaches [.nbt, .event, .hoc, .crg, .rli, .ims, .bcu, .gtm, .yields] s (s.beaconDue i) := by
  simp only [State.beaconDue]
  split
  · exact .none
  · next e he => exact .some (s.missBeacon_moves i e he)

theorem State.beaconBuild_reaches (s : State) : Reaches [.icu, .event, .hoc, .bcu, .draw, .nbt] s s.beaconBuild :=
  reaches_expiryOf fun _ => s.buildBeacon_moves

theorem State.clashLapse_reaches (s : State) : Reaches [.nbt] s s.clashLapse :=
  reaches_expiryOf fun _ => Moves.onNbt (.refl s) _ fun h => h.timers none _

theorem State.guardLapse_reaches (s : State) (i : Nat) : Reaches [.nbt] s (s.guardLapse i) :=
  reaches_expiryOf fun _ => s.modEntry_moves i _ fun _ _ h =>
    ⟨⟨h.joins, h.misses, h.badFrames, h.goodRun, h.sinceWindow, h.load, h.served, h.fetchFails⟩, rfl⟩

/-! ## Client Register, Roam Scoring Engine, Handoff Controller -/

/-- A record's reservation lapsed. -/
theorem ClientRecord.Sound.withoutAdmission {r : ClientRecord} (h : r.Sound) :
    ({ r with admitPending := none } : ClientRecord).Sound := by
  refine ⟨h.reports, h.reporters, h.evidence, ?_, h.release, h.directives⟩
  have := h.deadlines
  simp only [ClientRecord.DeadlinesFit] at this ⊢
  cases e : r.serving <;> simp_all

theorem State.admitLapse_reaches (s : State) (i : Nat) : Reaches [.crg] s (s.admitLapse i) :=
  s.recordExpiry_reaches i _ _ fun _ _ _ => s.modRecord_moves i _ fun _ _ h => ⟨h.withoutAdmission, rfl⟩

theorem State.remoteLapse_reaches (s : State) (i : Nat) : Reaches [.crg] s (s.remoteLapse i) :=
  s.recordExpiry_reaches i _ _ fun r hr hd => s.modRecord_moves i _ fun r' hr' h => by
    obtain rfl : r' = r := by simpa [hr] using hr'.symm
    refine ⟨h.remoteLapsed ?_, rfl⟩
    cases hs : r'.isServed with
    | false => rfl
    | true => simp [(h.served hs).2.1] at hd

theorem State.removalLapse_reaches (s : State) (i : Nat) : Reaches [.crg] s (s.removalLapse i) :=
  s.recordExpiry_reaches i _ _ fun r hr hd => s.ageRecord_moves i r hr hd

theorem State.sightingsBuild_reaches (s : State) : Reaches [.crg, .bcu] s s.sightingsBuild :=
  reaches_expiryOf fun _ => s.buildSightings_moves

theorem State.evaluation_reaches (s : State) : Reaches [.crg, .hoc, .bcu, .rse] s s.evaluation :=
  reaches_expiryOf fun _ => Moves.onRse ((Moves.foldl (fun t i => t.evaluateClaim_moves i) _ s).mono rfl) _

theorem State.holdoffLapse_reaches (s : State) (i : Nat) : Reaches [.crg] s (s.holdoffLapse i) :=
  s.recordExpiry_reaches i _ _ fun _ _ _ => s.modRecord_moves i _ fun _ _ h =>
    ⟨h.light rfl rfl rfl rfl rfl rfl rfl rfl, rfl⟩

theorem State.claimExpired_moves (s : State) (k : Nat) (c : ClaimContext) :
    Moves [.hoc, .crg, .bcu, .event] s (s.claimExpired k c) := by
  have ends : ∀ t, Moves [.hoc, .crg, .bcu, .event] s t → Moves [.hoc, .crg, .bcu, .event] s
      (match c.state with
        | .claiming => t.handoffFailed c.client Detail.claimTimeout
        | .admitting =>
          (t.sendFrame .cancel c.server (cancelBytes c.client c.seq)).handoffFailed c.client Detail.admitTimeout) := by
    intro t ht
    split
    · exact ht.then (State.handoffFailed_moves _ _ _) rfl
    · exact (ht.then (State.sendFrame_moves _ _ _ _) rfl).then (State.handoffFailed_moves _ _ _) rfl
  have freed : Moves [.hoc, .crg, .bcu, .event] s (s.freeClaim k) := (s.freeClaim_moves k).mono rfl
  refine ends _ ?_
  split
  · exact freed
  · refine freed.then (State.modRecord_moves _ _ _ fun _ _ h => ?_) rfl
    exact ⟨h.light rfl rfl rfl rfl rfl rfl rfl rfl, rfl⟩

theorem State.claimExpiry_reaches (s : State) (k : Nat) : Reaches [.hoc, .crg, .bcu, .event] s (s.claimExpiry k) := by
  simp only [State.claimExpiry]
  split
  · exact .none
  · exact .some (s.claimExpired_moves k _)

theorem State.releaseExpiry_reaches (s : State) (i : Nat) : Reaches [.crg, .rli, .event] s (s.releaseExpiry i) := by
  simp only [State.releaseExpiry]
  split
  · exact .none
  · split
    · exact .none
    · exact .some (Moves.then ((s.closeRelease_moves i _).mono rfl) (State.handoffFailed_moves _ _ _) rfl)

/-! ## Policy Store, Image Store, Install Coordination Unit, Flash Port -/

theorem State.persistExpiry_reaches (s : State) : Reaches [.pst, .flp] s s.persistExpiry :=
  reaches_expiryOf fun _ => Moves.then (Moves.onPstSide (.refl s) (fun p => { p with persist := .waiting }) rfl rfl
    fun h => ⟨h.excessLists, h.malformed, h.invalidRecords⟩) (State.requestFlash_moves _ _ (by decide)) rfl

theorem State.fetchExpiry_reaches (s : State) (i : Nat) : Reaches [.ims, .nbt, .bcu] s (s.fetchExpiry i) := by
  simp only [State.fetchExpiry]
  split
  · exact .none
  · exact reaches_expiryOf fun _ => Moves.then (Moves.then (Moves.onIms (.refl s)
      (fun m => { m with fetches := m.fetches.set i none }) fun h => h.fetchesTo List.length_set)
      (State.countFetchFail_moves _ _) rfl) (State.fillFetches_moves _) rfl

theorem State.halving_reaches (s : State) : Reaches [.nbt, .ims, .bcu] s s.halving := by
  refine reaches_expiryOf fun _ => Moves.then (Moves.onIms (Moves.onNbt (.refl s) _ fun h => ?_) _ fun h => ?_)
    (State.fillFetches_moves _) rfl
  · exact h.mapEntries (f := fun e => { e with fetchFails := e.fetchFails / 2 }) (fun e he => ⟨he.joins, he.misses,
      he.badFrames, he.goodRun, he.sinceWindow, he.load, he.served, le_trans (Nat.div_le_self _ _) he.fetchFails⟩)
      fun _ => rfl
  · exact h.light rfl rfl rfl rfl rfl rfl rfl rfl rfl rfl rfl rfl

theorem State.patrol_moves (s : State) (hd : s.ims.patrolDeadline.isSome) : Moves [.ims, .flp] s s.patrol := by
  have step : Moves [.ims, .flp] s (s.modIms fun m => { m with patrolDeadline := some (s.now + 2048) }) :=
    Moves.onIms (.refl s) _ fun h => ⟨h.buffers, h.fetches, h.segments, h.index, h.failures,
      by rw [← h.patrol, hd]; rfl, h.refusedHeads, h.unmatchedChunks, h.lostChunks, h.checkFailures, h.ignoredFetches⟩
  simp only [State.patrol]
  split
  · exact step
  · split
    · exact step
    · refine Moves.then (Moves.onIms step _ fun h => ?_) (State.requestFlash_moves _ _ (by simp)) rfl
      exact h.light rfl rfl rfl rfl rfl rfl rfl rfl rfl rfl rfl rfl

theorem State.patrolExpiry_reaches (s : State) : Reaches [.ims, .flp] s s.patrolExpiry :=
  reaches_expiryOf s.patrol_moves

theorem State.retryLapse_reaches (s : State) : Reaches [.icu] s s.retryLapse :=
  reaches_expiryOf fun _ => Moves.onIcu (.refl s) (fun u => { u with retryHoldoff := none }) fun h => h

theorem State.drainExpiry_reaches (s : State) : Reaches [.rli, .crg, .icu, .event] s s.drainExpiry :=
  reaches_expiryOf fun _ => Moves.then ((Moves.foldl (fun t i => t.issueControl_moves i _) _ s).mono rfl)
    (State.enterStaged_moves _ _) rfl

theorem State.rewriteExpiry_reaches (s : State) : Reaches [.icu, .flp] s s.rewriteExpiry :=
  reaches_expiryOf fun _ => Moves.then (Moves.onIcu (.refl s) (fun u => { u with rewriteDeadline := none }) fun h => h)
    (State.requestHeadWrite_moves _) rfl

/-- What the operation deadline can touch: the part halts only where the configuration read runs. -/
def deadlineTouches (f : Flp) : List Touch :=
  (if f.operation.any (fun o => decide (o.kind = .configRead)) then [.halt] else []) ++
    [.flp, .fault, .event, .sent, .pst, .icu, .ims, .bcu]

theorem State.operationDeadline_reaches (s : State) : Reaches (deadlineTouches s.flp) s s.operationDeadline := by
  simp only [State.operationDeadline]
  split
  · exact .none
  · next o ho =>
    refine .some ?_
    have := s.abandonOperation_moves o
    simpa [deadlineTouches, ho] using this

/-! ## The expiries of a step -/

/-- The kinds of change that the expiries of a step make. -/
def stepTouches : List Touch :=
  [.bcu, .nbt, .event, .hoc, .crg, .rli, .ims, .gtm, .yields, .icu, .draw, .rse, .pst, .flp, .fault, .sent]

theorem State.passBcu_moves (s : State) (old : Nat) : Moves [.bcu] s (s.passBcu old) :=
  s.passEach_moves old _ fun t _ => t.creditRefill_reaches

theorem State.passEntry_moves (old : Nat) (s : State) (i : Nat) :
    Moves [.nbt, .event, .hoc, .crg, .rli, .ims, .bcu, .gtm, .yields] s (State.passEntry old s i) :=
  s.passEach_moves old _ fun t _ => t.beaconDue_reaches i

theorem State.passNbt_moves (s : State) (old own : Nat) : Moves stepTouches s (s.passNbt old own) := by
  simp only [State.passNbt]
  refine Moves.then (Moves.then (Moves.then (Moves.mono (Moves.foldl (fun t i => State.passEntry_moves old t i) _ s) rfl)
    (State.passEach_moves _ old _ fun t i => t.guardLapse_reaches i) rfl)
    (State.pass_moves _ old (State.beaconBuild_reaches _)) rfl) (State.pass_moves _ old (State.clashLapse_reaches _)) rfl

theorem State.passClients_moves (s : State) (old : Nat) : Moves stepTouches s (s.passClients old) := by
  simp only [State.passClients]
  refine Moves.then (Moves.then (Moves.then (Moves.then (Moves.then (Moves.then (Moves.then (Moves.mono
    (State.passEach_moves _ old _ fun t i => t.admitLapse_reaches i) rfl)
    (State.passEach_moves _ old _ fun t i => t.remoteLapse_reaches i) rfl)
    (State.passEach_moves _ old _ fun t i => t.removalLapse_reaches i) rfl)
    (State.pass_moves _ old (State.sightingsBuild_reaches _)) rfl)
    (State.pass_moves _ old (State.evaluation_reaches _)) rfl)
    (State.passEach_moves _ old _ fun t i => t.holdoffLapse_reaches i) rfl)
    (State.passEach_moves _ old _ fun t i => t.claimExpiry_reaches i) rfl)
    (State.passEach_moves _ old _ fun t i => t.releaseExpiry_reaches i) rfl

/-- An operation other than the configuration read that is abandoned at its deadline. -/
theorem State.passOperation_moves (s : State) (old : Nat) :
    Moves stepTouches s
      (if s.flp.isRunning (fun k => decide (k = .configRead)) then s else s.pass old s.operationDeadline) := by
  split
  · exact .refl s
  · next h =>
    refine s.pass_moves old (s.operationDeadline_reaches.mono ?_)
    have : (s.flp.operation.any fun o => decide (o.kind = .configRead)) = false := by simpa [Flp.isRunning] using h
    rw [deadlineTouches, this]
    rfl

theorem State.passStores_moves (s : State) (old : Nat) : Moves stepTouches s (s.passStores old) := by
  simp only [State.passStores]
  refine Moves.then ?_ (State.passOperation_moves _ old) rfl
  exact Moves.then (Moves.then (Moves.then (Moves.then (Moves.then (Moves.then (Moves.mono
    (State.pass_moves _ old (State.persistExpiry_reaches _)) rfl)
    (State.passEach_moves _ old _ fun t i => t.fetchExpiry_reaches i) rfl)
    (State.pass_moves _ old (State.halving_reaches _)) rfl)
    (State.pass_moves _ old (State.patrolExpiry_reaches _)) rfl)
    (State.pass_moves _ old (State.retryLapse_reaches _)) rfl)
    (State.pass_moves _ old (State.drainExpiry_reaches _)) rfl)
    (State.pass_moves _ old (State.rewriteExpiry_reaches _)) rfl

theorem State.expireStep_moves (s : State) (old own : Nat) : Moves stepTouches s (s.expireStep old own) := by
  simp only [State.expireStep]
  split
  · exact .refl s
  · exact Moves.then (Moves.then (Moves.then ((s.passBcu_moves old).mono rfl) (State.passNbt_moves _ old own) rfl)
      (State.passClients_moves _ old) rfl) (State.passStores_moves _ old) rfl

/-- A step that crosses nothing, since mesh time stood still, brings no expiry. -/
theorem State.expireStep_still {s : State} {old : Nat} (h : s.now ≤ old) (own : Nat) : s.expireStep old own = s := by
  rw [State.expireStep, if_pos h]

end Sys2Proof.Machine
end

