-- ==== Sys2Proof/Laws/Beacons.lean ====
section
/-! SUPPORT. Taking a peer's beacon: what each of its parts touches. -/

set_option Elab.async false

namespace Sys2Proof.Machine

open Sys2Proof

theorem State.compareImage_moves (s : State) (e : Entry) : Moves [.bcu] s (s.compareImage e) := by
  simp only [State.compareImage]
  split
  · split
    · exact s.sendFrame_moves _ _ _
    · exact .refl s
  · split
    · exact s.sendFrame_moves _ _ _
    · exact .refl s

theorem State.handOn_moves (s : State) (i : Nat) : Moves [.nbt, .bcu, .ims, .icu, .event] s (s.handOn i) := by
  simp only [State.handOn]
  split
  · exact .refl s
  · next e _ =>
    have first : Moves [.nbt, .bcu, .ims, .icu, .event] s
        (if e.link = .active then ((s.compareDigest i).compareImage e).fillFetches else s) := by
      split
      · exact Moves.then (Moves.then ((s.compareDigest_moves i).mono rfl) (State.compareImage_moves _ _) rfl)
          (State.fillFetches_moves _) rfl
      · exact .refl s
    split
    · exact first.then (State.icuConflict_moves _ _ _) rfl
    · exact first

/-- The kinds of change that taking a beacon makes. -/
def beaconKinds : List Touch := .shift :: clockTouches ++ stepTouches

theorem State.renewEntry_moves (s : State) (i : Nat) (before created : Bool) :
    Moves [.nbt, .event, .gtm, .yields, .bcu, .ims, .icu] s (s.renewEntry i before created) := by
  simp only [State.renewEntry]
  split
  · exact .refl s
  · next told he =>
    refine Moves.then (Moves.then ?_ (State.movePeerGame_moves _ _ _) rfl) (State.handOn_moves _ _) rfl
    have ruled : Moves [.nbt, .event, .gtm, .yields, .bcu, .ims, .icu] s (s.modEntry i fun _ =>
        (if created = true then (told.renewedBy s.now s.cfg, (none : Option Nat))
          else (told.renewedBy s.now s.cfg).stateRule (badFrameThreshold s.cfg)).1) := by
      refine Moves.mono (s.modEntry_moves i _ fun e he' h => ?_) rfl
      obtain rfl : e = told := Option.some.inj (he'.symm.trans he)
      have h' := h.renewedBy s.now s.cfg
      split
      · exact ⟨h', rfl⟩
      · exact h'.stateRule _
    split
    · exact ruled
    · exact Moves.event ruled _ _ _

theorem State.stepTime_moves (s : State) (i : Nat) (src : NodeId) (time : Nat) :
    Moves beaconKinds s (s.stepTime i src time) := by
  have merged : Moves beaconKinds s (s.mergeTime src time) := (s.mergeTime_moves src time).mono rfl
  simp only [State.stepTime]
  split
  · exact merged.then (State.expireStep_moves _ _ _) rfl
  · exact merged

theorem State.applyBeacon_moves (s : State) (i : Nat) (src : NodeId) (time : Nat) (before created : Bool) :
    Moves beaconKinds s (s.applyBeacon i src time before created) := by
  simp only [State.applyBeacon]
  exact (s.stepTime_moves i src time).then (State.renewEntry_moves _ _ _ _) rfl

theorem State.idClash_moves (s : State) : Moves [.event, .nbt] s s.idClash := by
  simp only [State.idClash]
  split
  · exact .refl s
  · exact Moves.onNbt ((s.queueEvent_moves _ _ _).mono rfl) _ fun h => h.timers _ _

theorem State.tellEntry_moves (s : State) (i : Nat) {adv : Advertised} (ha : adv.load ≤ 100 ∧ adv.servedCount ≤ 64) :
    Moves [.nbt] s (s.tellEntry i adv) :=
  s.modEntry_moves i _ fun _ _ h =>
    ⟨⟨h.joins, h.misses, h.badFrames, h.goodRun, h.sinceWindow, ha.1, ha.2, h.fetchFails⟩, rfl⟩

theorem State.enterNeighbour_moves (s : State) (i : Nat) (src : NodeId) {adv : Advertised}
    (ha : adv.load ≤ 100 ∧ adv.servedCount ≤ 64) (hf : s.findEntry src = none) :
    Moves [.nbt] s (s.enterNeighbour i src adv) := by
  refine Moves.onNbt (.refl s) _ fun h => ⟨by simpa using h.size, h.distinct.put i _ fun j x _ hx => ?_,
    h.entries.set i fun x hx => by cases hx; exact newEntry_sound src ha, h.tableFull⟩
  have := findSlot_none hf hx
  simpa [newEntry] using this

theorem State.takeBeacon_moves (src : NodeId) (b : List Byte) (s : State) :
    Moves beaconKinds s (State.takeBeacon src b s) := by
  simp only [State.takeBeacon]
  split
  · exact s.idClash_moves.mono rfl
  · split
    · exact (s.chargeBadFrameTo_moves _).mono rfl
    · next adv hadv =>
      have ha := parseAdvertised_bounds hadv
      split
      · exact Moves.then ((s.tellEntry_moves _ ha).mono rfl) (State.applyBeacon_moves _ _ _ _ _ _) rfl
      · next hf =>
        split
        · exact Moves.onNbt (.refl s) _ fun h => ⟨h.size, h.distinct, h.entries, count16_le _⟩
        · exact Moves.then ((s.enterNeighbour_moves _ src ha hf).mono rfl) (State.applyBeacon_moves _ _ _ _ _ _) rfl

end Sys2Proof.Machine
end

