-- ==== Sys2Proof/Laws/Frames.lean ====
section
/-! SUPPORT. The frames of Table 1.1: what each touches when its owning block takes it. -/

set_option Elab.async false

namespace Sys2Proof.Machine

open Sys2Proof

theorem State.countMalformed_moves (s : State) : Moves [.hoc] s s.countMalformed :=
  Moves.onHoc (.refl s) _ fun h => ⟨h.size, h.distinct, h.seq, count16_le _⟩

theorem State.renewClient_moves (s : State) (a : ClientAddr) : Moves [.crg] s (s.renewClient a) := by
  simp only [State.renewClient]
  split
  · exact .refl s
  · exact s.renewActivity_moves _

theorem State.answerClaim_moves (s : State) (i : Nat) (r : ClientRecord) (peer : NodeId) (seq : Nat) (a : ClaimAnswer)
    (hr : s.record i = some r) (ha : a = .grant → r.isServed) :
    Moves [.crg, .bcu, .rli] s (s.answerClaim i r peer seq a) := by
  cases a with
  | refuse cause => exact (s.sendFrame_moves _ _ _).mono rfl
  | regrant =>
    refine Moves.then (Moves.mono (s.modRecord_moves i _ fun r' _ h => ?_) rfl) (State.sendFrame_moves _ _ _ _) rfl
    exact ⟨h.change rfl rfl h.evidence rfl rfl rfl (fun hr => .inl (by simpa using hr)) .inl, rfl⟩
  | grant => exact s.openRelease_moves _ _ _ _ hr (ha rfl)

theorem State.claimAnswer_grant {s : State} {r : ClientRecord} {peer : NodeId} {q : Int}
    (h : s.claimAnswer r peer q = .grant) : r.isServed := by
  simp only [State.claimAnswer] at h
  split at h
  · cases h
  · next hs => simpa using (not_or.mp hs).1

theorem State.takeClaim_moves (peer : NodeId) (b : List Byte) (s : State) :
    Moves [.hoc, .crg, .bcu, .rli] s (State.takeClaim peer b s) := by
  simp only [State.takeClaim]
  split
  · exact s.countMalformed_moves.mono rfl
  · have renewed : Moves [.hoc, .crg, .bcu, .rli] s (s.renewClient (addrAt b 0)) := (s.renewClient_moves _).mono rfl
    split
    · exact renewed.then (State.sendFrame_moves _ _ _ _) rfl
    · split
      · exact renewed
      · next hr => exact renewed.then (State.answerClaim_moves _ _ _ _ _ _ hr State.claimAnswer_grant) rfl

theorem ClientRecord.Sound.loadGrant {r : ClientRecord} (h : r.Sound) (g : GrantBody) (cls : ClientClass) (d : Bool)
    (hg : g.evidence ≤ 15) : (r.loadGrant g cls d).Sound ∧ (r.loadGrant g cls d).addr = r.addr := by
  simp only [ClientRecord.loadGrant]
  split
  · exact ⟨h.change rfl rfl hg rfl rfl rfl .inl .inl, rfl⟩
  · exact ⟨h.change rfl rfl hg rfl rfl rfl .inl .inl, rfl⟩

theorem State.matchClaim_some {s : State} {a : ClientAddr} {peer : NodeId} {seq k : Nat} {c : ClaimContext}
    (h : s.matchClaim a peer seq = some (k, c)) :
    s.claimAt k = some c ∧ c.client = a ∧ c.server = peer ∧ c.seq = seq := by
  simp only [State.matchClaim] at h
  split at h
  · cases h
  · next k' hk =>
    split at h
    · cases h
    · next c' hc =>
      split at h
      · next hm =>
        cases h
        obtain ⟨c'', hc'', ha⟩ := State.findClaim_some hk
        rw [hc] at hc''
        cases hc''
        exact ⟨hc, ha, hm⟩
      · cases h

theorem State.takeGrant_moves (peer : NodeId) (b : List Byte) (s : State) :
    Moves [.hoc, .crg, .bcu] s (State.takeGrant peer b s) := by
  simp only [State.takeGrant]
  split
  · exact s.countMalformed_moves.mono rfl
  · split
    · exact s.countMalformed_moves.mono rfl
    · next hv =>
      have renewed : Moves [.hoc, .crg, .bcu] s (s.renewClient (parseGrant b).client) :=
        (s.renewClient_moves _).mono rfl
      split
      · exact renewed.then (State.sendFrame_moves _ _ _ _) rfl
      · next k c hm =>
        split
        · exact renewed
        · have moved : Moves [.hoc, .crg, .bcu] s ((s.renewClient (parseGrant b).client).modHoc fun h =>
              { h with contexts := h.contexts.set k (some { c with
                  state := .admitting, deadline := (s.renewClient (parseGrant b).client).now + 2048 }) }) := by
            refine Moves.onHoc renewed _ fun h => ⟨by simpa using h.size, h.distinct.put _ _ fun j x hj hx e => hj ?_,
              h.seq, h.malformed⟩
            exact h.distinct j k x c hx (State.matchClaim_some hm).1 e
          split
          · exact moved
          · refine moved.then (State.modRecord_moves _ _ _ fun r _ h => h.loadGrant _ _ _ ?_) rfl
            omega

theorem State.takeRefuse_moves (peer : NodeId) (b : List Byte) (s : State) :
    Moves [.hoc, .crg, .event] s (State.takeRefuse peer b s) := by
  simp only [State.takeRefuse]
  split
  · exact s.countMalformed_moves.mono rfl
  · have renewed : Moves [.hoc, .crg, .event] s (s.renewClient (addrAt b 0)) := (s.renewClient_moves _).mono rfl
    split
    · exact renewed
    · split
      · exact renewed
      · refine Moves.then ?_ (State.handoffFailed_moves _ _ _) rfl
        have freed := fun k => renewed.then (State.freeClaim_moves _ k) rfl
        split
        · exact freed _
        · refine (freed _).then (State.modRecord_moves _ _ _ fun r _ h => ?_) rfl
          have h' : ∀ d, ({ r with claimHoldoff := d } : ClientRecord).Sound := fun d =>
            h.light rfl rfl rfl rfl rfl rfl rfl rfl
          split
          · simp only [ClientRecord.notServed]
            split
            · exact ⟨h' _, rfl⟩
            · next hs =>
              refine ⟨((h' _).toUnseen (by simpa using hs)).reportsTo (by simpa [clearServedFlags] using h.reports) ?_, rfl⟩
              rw [clearServedFlags_peers]
              exact h.reporters
          · exact ⟨h' _, rfl⟩

theorem State.takeCancel_moves (peer : NodeId) (b : List Byte) (s : State) :
    Moves [.hoc, .crg, .rli, .event] s (State.takeCancel peer b s) := by
  simp only [State.takeCancel]
  split
  · exact s.countMalformed_moves.mono rfl
  · have renewed : Moves [.hoc, .crg, .rli, .event] s (s.renewClient (addrAt b 0)) := (s.renewClient_moves _).mono rfl
    split
    · exact renewed
    · split
      · exact renewed
      · split
        · exact (renewed.then (State.closeRelease_moves _ _ _) rfl).then (State.handoffFailed_moves _ _ _) rfl
        · exact renewed

theorem State.takeServed_moves (peer : NodeId) (b : List Byte) (s : State) :
    Moves [.hoc, .crg, .rli, .event] s (State.takeServed peer b s) := by
  simp only [State.takeServed]
  split
  · exact (State.applyEntry_moves _ _ _ _).mono rfl
  · exact s.countMalformed_moves.mono rfl

theorem State.takeHeadGet_moves (peer : NodeId) (b : List Byte) (s : State) :
    Moves [.bcu] s (State.takeHeadGet peer b s) := by
  simp only [State.takeHeadGet]
  split
  · exact .refl s
  · split
    · exact s.sendFrame_moves _ _ _
    · exact .refl s

theorem State.takeHeadFrame_moves (peer : NodeId) (b : List Byte) (s : State) :
    Moves [.icu, .event, .ims, .flp, .bcu] s (State.takeHeadFrame peer b s) := s.takeHead_moves _ _

theorem State.ignoreFetch_moves (s : State) : Moves [.ims] s s.ignoreFetch :=
  Moves.onIms (.refl s) _ fun h => h.change rfl rfl h.buffers h.fetches h.segments h.index h.failures h.refusedHeads
    h.unmatchedChunks h.lostChunks h.checkFailures (count16_le _)

theorem State.takeFetch_moves (peer : NodeId) (b : List Byte) (s : State) :
    Moves [.ims, .bcu, .flp] s (State.takeFetch peer b s) := by
  simp only [State.takeFetch]
  split
  · exact s.ignoreFetch_moves.mono rfl
  · split
    · exact s.ignoreFetch_moves.mono rfl
    · next e =>
      exact Moves.then (Moves.onBcu (.refl s) _ fun h => h.reserve e) (State.requestFlash_moves _ _ (by simp)) rfl

theorem State.placeChunk_moves (s : State) (peer : NodeId) (c : ChunkRef) (b : List Byte) :
    Moves [.ims, .flp, .nbt] s (s.placeChunk peer c b) := by
  simp only [State.placeChunk]
  split
  · exact .refl s
  · split
    · exact Moves.onIms (.refl s) _ fun h => h.change rfl rfl h.buffers h.fetches h.segments h.index h.failures
        h.refusedHeads h.unmatchedChunks (count16_le _) h.checkFailures h.ignoredFetches
    · split
      · exact (s.programChunk_moves _ _ _).mono rfl
      · exact Moves.onIms ((s.countFetchFail_moves _).mono rfl) _ fun h => h.change rfl rfl h.buffers h.fetches
          h.segments h.index h.failures h.refusedHeads h.unmatchedChunks h.lostChunks (count16_le _) h.ignoredFetches

theorem State.takeChunk_moves (peer : NodeId) (b : List Byte) (s : State) :
    Moves [.ims, .flp, .nbt, .bcu] s (State.takeChunk peer b s) := by
  simp only [State.takeChunk]
  split
  · exact Moves.onIms (.refl s) _ fun h => h.change rfl rfl h.buffers h.fetches h.segments h.index h.failures
      h.refusedHeads (count16_le _) h.lostChunks h.checkFailures h.ignoredFetches
  · exact Moves.then (Moves.then (Moves.onIms (.refl s) _ fun h => h.fetchesTo List.length_set)
      (State.placeChunk_moves _ _ _ _) rfl) (State.fillFetches_moves _) rfl

/-- What a frame can touch, by its kind. -/
def frameTouches : FrameKind → List Touch
  | .beacon => beaconKinds
  | .sightings => [.crg, .rli, .event, .hoc]
  | .claim => [.hoc, .crg, .bcu, .rli]
  | .grant => [.hoc, .crg, .bcu]
  | .refuse => [.hoc, .crg, .event]
  | .cancel => [.hoc, .crg, .rli, .event]
  | .served => [.hoc, .crg, .rli, .event]
  | .policyList => [.nbt, .pst, .bcu]
  | .policyGet => [.pst, .bcu]
  | .policyRecord => [.pst, .event, .seu, .rli, .crg, .sent, .lines, .mtb, .wall]
  | .headGet => [.bcu]
  | .head => [.icu, .event, .ims, .flp, .bcu]
  | .fetch => [.ims, .bcu, .flp]
  | .chunk => [.ims, .flp, .nbt, .bcu]

/-- A frame taken by its owning block touches no more than its kind's list. -/
theorem takerOf_moves (k : FrameKind) (peer : NodeId) (b : List Byte) (s : State) :
    Moves (frameTouches k) s (takerOf k peer b s) := by
  cases k
  · exact State.takeBeacon_moves _ _ _
  · exact State.takeSightings_moves _ _ _
  · exact State.takeClaim_moves _ _ _
  · exact State.takeGrant_moves _ _ _
  · exact State.takeRefuse_moves _ _ _
  · exact State.takeCancel_moves _ _ _
  · exact State.takeServed_moves _ _ _
  · exact State.takePolicyList_moves _ _ _
  · exact State.takePolicyGet_moves _ _ _
  · exact State.takePolicyRecord_moves peer b s
  · exact State.takeHeadGet_moves peer b s
  · exact State.takeHeadFrame_moves _ _ _
  · exact State.takeFetch_moves _ _ _
  · exact State.takeChunk_moves _ _ _

/-- A frame command: beside what its owning block does, a frame can only be counted. -/
theorem State.frame_effect (s : State) (k : FrameKind) (link : NodeId) (f : RxFrame) :
    Effect ([.bcu, .nbt, .event] ++ frameTouches k) s (s.frame k link f (takerOf k)) := by
  simp only [State.frame]
  split
  · refine .inr ⟨_, s.receive_moves k link f _ (fun peer b t => takerOf_moves k peer b t) ?_ ?_, rfl⟩
    · cases k <;> rfl
    · cases k <;> rfl
  · exact .none

end Sys2Proof.Machine
end

