-- ==== Sys2Proof/Laws/Effects.lean ====
section
/-! SUPPORT. The effect of every command, and of every command at once: `exec_effect`. -/

set_option Elab.async false

namespace Sys2Proof.Machine

open Sys2Proof

/-! ## Channel -/

theorem execMediumIdle_effect (s : State) : Effect [.bcu] s (execMediumIdle s) := by
  simp only [execMediumIdle]
  split
  · refine .done (L := [.bcu]) (Moves.onBcu (.refl s) _ fun h => ?_) rfl
    exact h.side .idle _ _ _ _
  · exact .none

theorem execMediumBusy_effect (s : State) : Effect [.bcu] s (execMediumBusy s) := by
  simp only [execMediumBusy]
  split
  · exact .done (L := [.bcu]) (Moves.onBcu (.refl s) _ fun h => h.becomeBusy) rfl
  · exact .none

theorem execIdleSlot_effect (s : State) : Effect [.draw, .bcu, .sent] s (execIdleSlot s) := by
  simp only [execIdleSlot]
  split
  · exact .done s.takeIdleSlot_moves rfl
  · exact .none

theorem execSentClean_effect (s : State) : Effect [.bcu] s (execSentClean s) := by
  simp only [execSentClean]
  split
  · exact .none
  · split
    · exact .done (L := [.bcu]) (Moves.onBcu (.refl s) _ fun h => h.finishItem _) rfl
    · exact .none

theorem execSentCollided_effect (s : State) : Effect [.bcu, .sent] s (execSentCollided s) := by
  simp only [execSentCollided]
  split
  · exact .none
  · split
    · exact .done (s.takeCollision_moves _) rfl
    · exact .none

theorem State.requestBurst_moves (s : State) (c : BurstClass) (n : Nat) : Moves [.bcu] s (s.requestBurst c n) := by
  simp only [State.requestBurst]
  split
  · exact Moves.onBcu (.refl s) _ fun h => h.fillRequest _ _
  · exact Moves.onBcu (.refl s) _ fun h => h.countDuplicate

theorem execBurstRequest_effect (c : BurstClass) (n : Nat) (s : State) :
    Effect [.bcu, .sent] s (execBurstRequest c n s) := by
  simp only [execBurstRequest]
  split
  · exact .done (s.requestBurst_moves c n) rfl
  · exact .done (s.emit_moves _) rfl
  · exact .done (s.emit_moves _) rfl
  · exact .none

theorem execYieldBeginBcu_effect (s : State) : Effect [.yields, .bcu] s (execYieldBeginBcu s) := by
  simp only [execYieldBeginBcu]
  split
  · next rest _ =>
    refine .done (L := [.yields, .bcu]) ?_ rfl
    exact Moves.onBcu (Moves.step (.refl s) (by decide) (Move.yields s rest s.yieldNoticesIms)) _ fun h => h.takeYield _
  · exact .none
  · exact .none

theorem execYieldEndBcu_effect (s : State) : Effect [.yields, .bcu] s (execYieldEndBcu s) := by
  simp only [execYieldEndBcu]
  split
  · next rest _ =>
    refine .done (L := [.yields, .bcu]) ?_ rfl
    exact Moves.onBcu (Moves.step (.refl s) (by decide) (Move.yields s rest s.yieldNoticesIms)) _ fun h => h.takeYield _
  · exact .none
  · exact .none

theorem Ims.Sound.takeYield {m : Ims} (h : m.Sound) (y : Bool) (now : Nat) : (m.takeYield y now).Sound :=
  h.light rfl rfl rfl (List.length_map _) rfl rfl rfl rfl rfl rfl rfl rfl

theorem execYieldBeginIms_effect (s : State) : Effect [.yields, .ims] s (execYieldBeginIms s) := by
  simp only [execYieldBeginIms]
  split
  · next rest _ =>
    refine .done (L := [.yields, .ims]) ?_ rfl
    exact Moves.onIms (Moves.step (.refl s) (by decide) (Move.yields s s.yieldNoticesBcu rest)) _ fun h =>
      h.takeYield _ _
  · exact .none
  · exact .none

theorem execYieldEndIms_effect (s : State) : Effect [.yields, .ims, .bcu] s (execYieldEndIms s) := by
  simp only [execYieldEndIms]
  split
  · next rest _ =>
    refine .done (L := [.yields, .ims, .bcu]) ?_ rfl
    exact Moves.then (Moves.onIms (Moves.step (.refl s) (by decide) (Move.yields s s.yieldNoticesBcu rest)) _ fun h =>
      h.takeYield _ _) (State.fillFetches_moves _) rfl
  · exact .none
  · exact .none

/-! ## Radio reports -/

theorem execAdmitQuery_effect (r : Nat) (a : ClientAddr) (s : State) : Effect [.crg, .sent] s (execAdmitQuery r a s) := by
  simp only [execAdmitQuery]
  split
  · split
    · refine .done (L := [.crg, .sent]) ?_ rfl
      exact Moves.emit ((s.admitClient_moves a).mono rfl) _
    · exact .none
  · exact .done (s.emit_moves _) rfl
  · split
    · exact .done (s.emit_moves _) rfl
    · exact .none
  · exact .none

theorem execAssoc_effect (r : Nat) (a : ClientAddr) (s : State) :
    Effect [.crg, .bcu, .hoc, .event, .gtm, .yields, .rli, .sent, .wall, .seu, .lines] s (execAssoc r a s) := by
  simp only [execAssoc]
  split
  · refine .done (L := [.crg, .bcu, .hoc, .event, .gtm, .yields, .rli, .sent, .wall, .seu, .lines]) ?_ rfl
    exact (s.takeNotices_moves.mono rfl).then (State.associate_moves _ r a) rfl
  · exact .none

theorem execDisassoc_effect (r : Nat) (a : ClientAddr) (c : RadioCause) (s : State) :
    Effect [.crg, .rli, .event, .sent, .gtm, .yields, .icu] s (execDisassoc r a c s) := by
  simp only [execDisassoc]
  split
  · exact .done (s.disassociate_moves r a c) rfl
  · exact .none

theorem execSight_effect (r : Nat) (a : ClientAddr) (l : Int) (s : State) : Effect [.crg] s (execSight r a l s) := by
  simp only [execSight]
  split
  · exact .done (s.sightClient_moves a l) rfl
  · exact .none

theorem State.takeTraffic_moves (s : State) (r : Nat) (a : ClientAddr) (t : TrafficCounts) :
    Moves [.rli, .crg, .sent, .gtm, .yields] s (s.takeTraffic r a t) := by
  have unmatched : Moves [.rli, .crg, .sent, .gtm, .yields] s
      (s.modGtm fun g => { g with unmatchedTraffic := count16 g.unmatchedTraffic }) :=
    Moves.onGtm (.refl s) _ fun h => ⟨h.invalid, count16_le _⟩
  simp only [State.takeTraffic]
  split
  · exact Moves.onGtm (.refl s) _ fun h => ⟨count16_le _, h.unmatched⟩
  · split
    · exact unmatched
    · split
      · exact unmatched
      · next hr =>
        split
        · exact s.applyTraffic_moves _ _ _ hr
        · exact unmatched

theorem execTraffic_effect (r : Nat) (a : ClientAddr) (t : TrafficCounts) (s : State) :
    Effect [.rli, .crg, .sent, .gtm, .yields] s (execTraffic r a t s) := by
  simp only [execTraffic]
  split
  · exact .done (s.takeTraffic_moves r a t) rfl
  · exact .none

theorem execAirtime_effect (r p : Nat) (s : State) : Effect [.bcu] s (execAirtime r p s) := by
  simp only [execAirtime]
  split
  · exact .done (L := [.bcu]) (Moves.onBcu (.refl s) _ fun h => h.keepAirtime _ _ _) rfl
  · exact .none

theorem execTaken_effect (r : Nat) (s : State) : Effect [.rli] s (execTaken r s) := by
  simp only [execTaken]
  split
  · refine .done (L := [.rli]) (Moves.onRli (.refl s) _ fun h => ⟨h.waiting, by simpa using h.inFlight, fun q hq => ?_⟩) rfl
    rcases mem_modRadio hq with hq | ⟨p, hp, rfl⟩
    · exact h.room q hq
    · have := h.room p (List.mem_of_getElem? hp)
      simp only [List.length_drop]
      omega
  · exact .none

/-! ## The local port -/

/-- A request touches the response buffer and what its owning block's answer touches. -/
theorem State.request_effect {L : List Touch} (s : State) (k : RequestKind) (b : List Byte) (answer : State → Served)
    (h : ∀ t, Moves L t (answer t).1) : Effect (.lpi :: L) s (s.request k b answer) := by
  have serve : Effect (.lpi :: L) s (s.serve k answer) :=
    .inr ⟨_, Moves.onLpi ((h s).mono (covers_cons _ (covers_self _))) _ (by simp), rfl⟩
  have refuse : ∀ code r, Effect (.lpi :: L) s (s.refuse code r) := fun code r =>
    .inr ⟨_, Moves.onLpi (.refl s) _ (by simp), rfl⟩
  simp only [State.request]
  split
  · exact .none
  · exact refuse _ _
  · split
    · exact serve
    · exact refuse _ _
  · split
    · exact refuse _ _
    · split
      · exact serve
      · exact refuse _ _

theorem State.readEvent_moves (s : State) : Moves [.pop] s s.readEvent.1 := by
  simp only [State.readEvent]
  split
  · exact .refl s
  · next e rest h =>
    have : s.modEvq (fun q => { q with events := rest }) = s.modEvq (fun q => { q with events := q.events.drop 1 }) := by
      simp only [State.modEvq, h, List.drop_one, List.tail_cons]
    dsimp only
    rw [this]
    exact (Move.pop s).moves

theorem State.dropFetchOf_moves (s : State) (c : ChunkRef) : Moves [.ims] s (s.dropFetchOf c) :=
  Moves.onIms (.refl s) _ fun h => h.fetchesTo (List.length_map _)

theorem State.submitChunk_moves (s : State) (b : List Byte) : Moves [.ims, .flp, .bcu] s (s.submitChunk b).1 := by
  simp only [State.submitChunk]
  split
  · exact .refl s
  · split
    · exact .refl s
    · split
      · split
        · exact .refl s
        · split
          · exact .refl s
          · split
            · exact .refl s
            · split
              · exact Moves.then (Moves.then ((s.programChunk_moves _ _ _).mono rfl) (State.dropFetchOf_moves _ _) rfl)
                  (State.fillFetches_moves _) rfl
              · exact s.fillFetches_moves.mono rfl
      · exact .refl s
      · exact .refl s

theorem State.imageInstalled_moves (s : State) : Moves [.icu, .flp] s s.imageInstalled.1 := by
  simp only [State.imageInstalled]
  split
  · exact Moves.then (Moves.onIcu (.refl s) _ fun _ => fun h => by cases h) (State.requestHeadWrite_moves _) rfl
  · exact .refl s

theorem State.takeRestart_moves (s : State) : Moves [.restart, .event] s s.takeRestart :=
  Moves.event (Moves.step (.refl s) (by decide) (Move.restart s _)) _ _ _

/-- What a restart notice touches, by the block that takes it. -/
def restartTouches : Block → List Touch
  | .bcu => [.bcu, .flp, .sent]
  | .nbt => [.nbt, .draw, .gtm, .yields]
  | .crg => [.crg]
  | .rse => [.crg, .rse]
  | .hoc => [.hoc, .crg, .rli]
  | .pst => [.pst]
  | .gtm => [.gtm]
  | .ims => [.bcu, .flp, .ims]
  | .icu => [.icu, .event]
  | .mtb => []
  | .seu => []
  | .rli => []
  | .lpi => []
  | .evq => []
  | .frc => []
  | .flp => []

theorem State.restartBlock_moves (s : State) (b : Block) : Moves (restartTouches b) s (s.restartBlock b) := by
  cases b
  case bcu => exact s.restartBcu_moves
  case nbt => exact s.restartNbt_moves
  case crg => exact s.restartCrg_moves
  case rse => exact s.restartRse_moves
  case hoc => exact s.restartHoc_moves
  case pst => exact s.restartPst_moves
  case gtm =>
    show Moves [.gtm] s (s.modGtm fun g => { g with invalidTraffic := 0, unmatchedTraffic := 0 })
    exact Moves.onGtm (.refl s) _ fun _ => ⟨Nat.zero_le _, Nat.zero_le _⟩
  case ims => exact s.restartIms_moves
  case icu => exact s.restartIcu_moves
  all_goals exact .refl s

theorem execRestartNotice_effect (b : Block) (s : State) :
    Effect (.restart :: restartTouches b) s (execRestartNotice b s) := by
  simp only [execRestartNotice]
  split
  · refine .inr ⟨_, Moves.then (Moves.step (.refl s) (by simp) (Move.restart s (s.restartNotices.erase b)))
      (State.restartBlock_moves _ b) (covers_cons _ (covers_self _)), rfl⟩
  · exact .none

theorem execResponseRead_effect (s : State) : Effect [.lpi, .sent] s (execResponseRead s) := by
  simp only [execResponseRead]
  split
  · exact .none
  · exact .none
  · exact .done (L := [.lpi, .sent]) (Moves.emit (Moves.onLpi (.refl s) _) _) rfl

/-- What a request can touch, by its kind. -/
def requestTouches : RequestKind → List Touch
  | .status => []
  | .eventRead => [.pop]
  | .policySubmit => [.pst, .event, .seu, .rli, .crg, .sent, .lines, .mtb, .wall]
  | .policyRead => []
  | .clientRead => []
  | .neighbourRead => []
  | .headSubmit => [.icu, .event, .ims, .flp, .bcu]
  | .chunkSubmit => [.ims, .flp, .bcu]
  | .imageInstalled => [.icu, .flp]
  | .faultRead => []
  | .faultClear => [.clear]
  | .restart => [.restart, .event]

theorem execRequest_effect (k : RequestKind) (b : List Byte) (s : State) :
    Effect (.lpi :: requestTouches k) s (execRequest k b s) := by
  cases k
  · exact s.request_effect _ b _ fun t => .refl t
  · exact s.request_effect _ b _ fun t => t.readEvent_moves
  · exact s.request_effect _ b _ fun t => t.submitPolicy_moves b
  · exact s.request_effect _ b _ fun t => .refl t
  · exact s.request_effect _ b _ fun t => .refl t
  · exact s.request_effect _ b _ fun t => .refl t
  · exact s.request_effect _ b _ fun t => t.takeHead_moves _ _
  · exact s.request_effect _ b _ fun t => t.submitChunk_moves b
  · exact s.request_effect _ b _ fun t => t.imageInstalled_moves
  · exact s.request_effect _ b _ fun t => .refl t
  · exact s.request_effect _ b _ fun t => (Move.clear t).moves
  · exact s.request_effect _ b _ fun t => t.takeRestart_moves

/-! ## Every command -/

/-- What each command can touch; for a completion or the operation deadline it depends on what the flash port runs, for
raw frame bytes and a raw request on what they hold. The two resets have no list: they replace every block. -/
def commandTouches (s : State) : Instr → List Touch
  | .fullReset => []
  | .tick => clockTouches
  | .wallStateNotice => [.wall, .seu, .event, .rli, .crg, .sent]
  | .configReadComplete _ => endTouches s.flp
  | .flashOperationBegin => [.flp, .pst, .ims, .sent]
  | .flashOperationDeadline => deadlineTouches s.flp
  | .policyImageReadComplete _ => endTouches s.flp
  | .policyWriteComplete => endTouches s.flp
  | .chunkProgramComplete => endTouches s.flp
  | .verifyReadComplete _ => endTouches s.flp
  | .serveReadComplete _ => endTouches s.flp
  | .patrolReadComplete _ => endTouches s.flp
  | .headBlockReadComplete _ => endTouches s.flp
  | .scanReadComplete _ => endTouches s.flp
  | .headBlockWriteComplete => endTouches s.flp
  | .beacon _ _ => [.bcu, .nbt, .event] ++ frameTouches .beacon
  | .sightings _ _ => [.bcu, .nbt, .event] ++ frameTouches .sightings
  | .claim _ _ => [.bcu, .nbt, .event] ++ frameTouches .claim
  | .grant _ _ => [.bcu, .nbt, .event] ++ frameTouches .grant
  | .refuse _ _ => [.bcu, .nbt, .event] ++ frameTouches .refuse
  | .cancel _ _ => [.bcu, .nbt, .event] ++ frameTouches .cancel
  | .served _ _ => [.bcu, .nbt, .event] ++ frameTouches .served
  | .policyList _ _ => [.bcu, .nbt, .event] ++ frameTouches .policyList
  | .policyGet _ _ => [.bcu, .nbt, .event] ++ frameTouches .policyGet
  | .policyRecord _ _ => [.bcu, .nbt, .event] ++ frameTouches .policyRecord
  | .headGet _ _ => [.bcu, .nbt, .event] ++ frameTouches .headGet
  | .head _ _ => [.bcu, .nbt, .event] ++ frameTouches .head
  | .fetch _ _ => [.bcu, .nbt, .event] ++ frameTouches .fetch
  | .chunk _ _ => [.bcu, .nbt, .event] ++ frameTouches .chunk
  | .mediumIdle => [.bcu]
  | .mediumBusy => [.bcu]
  | .idleSlot => [.draw, .bcu, .sent]
  | .sentClean => [.bcu]
  | .sentCollided => [.bcu, .sent]
  | .burstRequest _ _ => [.bcu, .sent]
  | .creditRefillExpiry => [.bcu]
  | .yieldBeginBcu => [.yields, .bcu]
  | .yieldEndBcu => [.yields, .bcu]
  | .yieldBeginIms => [.yields, .ims]
  | .yieldEndIms => [.yields, .ims, .bcu]
  | .admitQuery _ _ => [.crg, .sent]
  | .assoc _ _ => [.crg, .bcu, .hoc, .event, .gtm, .yields, .rli, .sent, .wall, .seu, .lines]
  | .disassoc _ _ _ => [.crg, .rli, .event, .sent, .gtm, .yields, .icu]
  | .sight _ _ _ => [.crg]
  | .traffic _ _ _ => [.rli, .crg, .sent, .gtm, .yields]
  | .airtime _ _ => [.bcu]
  | .taken _ => [.rli]
  | .status _ => .lpi :: requestTouches .status
  | .eventRead _ => .lpi :: requestTouches .eventRead
  | .policySubmit _ => .lpi :: requestTouches .policySubmit
  | .policyRead _ => .lpi :: requestTouches .policyRead
  | .clientRead _ => .lpi :: requestTouches .clientRead
  | .neighbourRead _ => .lpi :: requestTouches .neighbourRead
  | .headSubmit _ => .lpi :: requestTouches .headSubmit
  | .chunkSubmit _ => .lpi :: requestTouches .chunkSubmit
  | .imageInstalled _ => .lpi :: requestTouches .imageInstalled
  | .faultRead _ => .lpi :: requestTouches .faultRead
  | .faultClear _ => .lpi :: requestTouches .faultClear
  | .restart _ => .lpi :: requestTouches .restart
  | .restartNotice b => .restart :: restartTouches b
  | .responseRead => [.lpi, .sent]
  | .beaconDueExpiry _ => [.nbt, .event, .hoc, .crg, .rli, .ims, .bcu, .gtm, .yields]
  | .beaconBuildExpiry => [.icu, .event, .hoc, .bcu, .draw, .nbt]
  | .clashHoldoffExpiry => [.nbt]
  | .policyListGuardExpiry _ => [.nbt]
  | .admitPendingExpiry _ => [.crg]
  | .remoteDeadlineExpiry _ => [.crg]
  | .removalDeadlineExpiry _ => [.crg]
  | .sightingsBuildExpiry => [.crg, .bcu]
  | .evaluationExpiry => [.crg, .hoc, .bcu, .rse]
  | .claimHoldoffExpiry _ => [.crg]
  | .claimantContextExpiry _ => [.hoc, .crg, .bcu, .event]
  | .releaseDeadlineExpiry _ => [.crg, .rli, .event]
  | .persistDeadlineExpiry => [.pst, .flp]
  | .fetchDeadlineExpiry _ => [.ims, .nbt, .bcu]
  | .halvingDeadlineExpiry => [.nbt, .ims, .bcu]
  | .patrolDeadlineExpiry => [.ims, .flp]
  | .retryHoldoffExpiry => [.icu]
  | .drainDeadlineExpiry => [.rli, .crg, .icu, .event]
  | .rewriteDeadlineExpiry => [.icu, .flp]
  | .resetAsserted => []
  | .badFrameReceived _ bytes =>
    [.bcu, .nbt, .event] ++ ((parseFrame bytes).toList.flatMap fun p => frameTouches p.1)
  | .unknownRequest kind _ => .lpi :: ((requestOf kind).toList.flatMap requestTouches)

theorem execBadFrameReceived_effect (link : NodeId) (b : List Byte) (s : State) :
    Effect (commandTouches s (.badFrameReceived link b)) s (execBadFrameReceived link b s) := by
  simp only [execBadFrameReceived, commandTouches]
  split
  · next k f h => simpa [h] using s.frame_effect k link f
  · split
    · exact .inr ⟨_, (s.dropBadFrame_moves link).mono (by simp [covers]), rfl⟩
    · exact .none

theorem execUnknownRequest_effect (k : Byte) (b : List Byte) (s : State) :
    Effect (commandTouches s (.unknownRequest k b)) s (execUnknownRequest k b s) := by
  have refuse : ∀ C code r, Effect (.lpi :: C) s (s.refuse code r) := fun C code r =>
    .inr ⟨_, Moves.onLpi (.refl s) _ (by simp), rfl⟩
  simp only [execUnknownRequest, commandTouches]
  split
  · next k' h => simpa [h] using execRequest_effect k' b s
  · split
    · exact .none
    · exact refuse _ _ _
    · exact refuse _ _ _
    · exact refuse _ _ _

/-- Every command but the resets leaves the state alone, or its effect is a sequence of moves of its own kinds,
finished. -/
theorem exec_effect (c : Instr) (s : State) (hc : isReset c = false) : Effect (commandTouches s c) s (exec c s) := by
  cases c
  case fullReset => simp [isReset] at hc
  case resetAsserted => simp [isReset] at hc
  case tick => exact execTick_effect s
  case wallStateNotice => exact execWallStateNotice_effect s
  case configReadComplete d => exact s.complete_effect d
  case flashOperationBegin => exact execFlashOperationBegin_effect s
  case flashOperationDeadline => exact s.expire_effect s.operationDeadline_reaches
  case policyImageReadComplete d => exact s.complete_effect d
  case policyWriteComplete => exact s.completeBare_effect
  case chunkProgramComplete => exact s.completeBare_effect
  case verifyReadComplete d => exact s.complete_effect d
  case serveReadComplete d => exact s.complete_effect d
  case patrolReadComplete d => exact s.complete_effect d
  case headBlockReadComplete d => exact s.complete_effect d
  case scanReadComplete d => exact s.complete_effect d
  case headBlockWriteComplete => exact s.completeBare_effect
  case beacon l f => exact s.frame_effect .beacon l f
  case sightings l f => exact s.frame_effect .sightings l f
  case claim l f => exact s.frame_effect .claim l f
  case grant l f => exact s.frame_effect .grant l f
  case refuse l f => exact s.frame_effect .refuse l f
  case cancel l f => exact s.frame_effect .cancel l f
  case served l f => exact s.frame_effect .served l f
  case policyList l f => exact s.frame_effect .policyList l f
  case policyGet l f => exact s.frame_effect .policyGet l f
  case policyRecord l f => exact s.frame_effect .policyRecord l f
  case headGet l f => exact s.frame_effect .headGet l f
  case head l f => exact s.frame_effect .head l f
  case fetch l f => exact s.frame_effect .fetch l f
  case chunk l f => exact s.frame_effect .chunk l f
  case mediumIdle => exact execMediumIdle_effect s
  case mediumBusy => exact execMediumBusy_effect s
  case idleSlot => exact execIdleSlot_effect s
  case sentClean => exact execSentClean_effect s
  case sentCollided => exact execSentCollided_effect s
  case burstRequest c n => exact execBurstRequest_effect c n s
  case creditRefillExpiry => exact s.expire_effect s.creditRefill_reaches
  case yieldBeginBcu => exact execYieldBeginBcu_effect s
  case yieldEndBcu => exact execYieldEndBcu_effect s
  case yieldBeginIms => exact execYieldBeginIms_effect s
  case yieldEndIms => exact execYieldEndIms_effect s
  case admitQuery r a => exact execAdmitQuery_effect r a s
  case assoc r a => exact execAssoc_effect r a s
  case disassoc r a c => exact execDisassoc_effect r a c s
  case sight r a l => exact execSight_effect r a l s
  case traffic r a t => exact execTraffic_effect r a t s
  case airtime r p => exact execAirtime_effect r p s
  case taken r => exact execTaken_effect r s
  case status b => exact execRequest_effect .status b s
  case eventRead b => exact execRequest_effect .eventRead b s
  case policySubmit b => exact execRequest_effect .policySubmit b s
  case policyRead b => exact execRequest_effect .policyRead b s
  case clientRead b => exact execRequest_effect .clientRead b s
  case neighbourRead b => exact execRequest_effect .neighbourRead b s
  case headSubmit b => exact execRequest_effect .headSubmit b s
  case chunkSubmit b => exact execRequest_effect .chunkSubmit b s
  case imageInstalled b => exact execRequest_effect .imageInstalled b s
  case faultRead b => exact execRequest_effect .faultRead b s
  case faultClear b => exact execRequest_effect .faultClear b s
  case restart b => exact execRequest_effect .restart b s
  case restartNotice b => exact execRestartNotice_effect b s
  case responseRead => exact execResponseRead_effect s
  case beaconDueExpiry i => exact s.expire_effect (s.beaconDue_reaches i)
  case beaconBuildExpiry => exact s.expire_effect s.beaconBuild_reaches
  case clashHoldoffExpiry => exact s.expire_effect s.clashLapse_reaches
  case policyListGuardExpiry i => exact s.expire_effect (s.guardLapse_reaches i)
  case admitPendingExpiry i => exact s.expire_effect (s.admitLapse_reaches i)
  case remoteDeadlineExpiry i => exact s.expire_effect (s.remoteLapse_reaches i)
  case removalDeadlineExpiry i => exact s.expire_effect (s.removalLapse_reaches i)
  case sightingsBuildExpiry => exact s.expire_effect s.sightingsBuild_reaches
  case evaluationExpiry => exact s.expire_effect s.evaluation_reaches
  case claimHoldoffExpiry i => exact s.expire_effect (s.holdoffLapse_reaches i)
  case claimantContextExpiry k => exact s.expire_effect (s.claimExpiry_reaches k)
  case releaseDeadlineExpiry i => exact s.expire_effect (s.releaseExpiry_reaches i)
  case persistDeadlineExpiry => exact s.expire_effect s.persistExpiry_reaches
  case fetchDeadlineExpiry i => exact s.expire_effect (s.fetchExpiry_reaches i)
  case halvingDeadlineExpiry => exact s.expire_effect s.halving_reaches
  case patrolDeadlineExpiry => exact s.expire_effect s.patrolExpiry_reaches
  case retryHoldoffExpiry => exact s.expire_effect s.retryLapse_reaches
  case drainDeadlineExpiry => exact s.expire_effect s.drainExpiry_reaches
  case rewriteDeadlineExpiry => exact s.expire_effect s.rewriteExpiry_reaches
  case badFrameReceived l b => exact execBadFrameReceived_effect l b s
  case unknownRequest k b => exact execUnknownRequest_effect k b s

end Sys2Proof.Machine
end

