-- ==== Sys2Proof/Laws/Sound.lean ====
section
/-! SUPPORT. Every change of every kind keeps the state sound, so every sequence of changes does. -/

set_option Elab.async false

namespace Sys2Proof.Machine

open Sys2Proof

/-! ## Events and faults -/

theorem Evq.Sound.queue {q : Evq} (h : q.Sound) (e : EventRecord) :
    (if q.events.length < 32 then { q with events := q.events ++ [e] } else { q with drops := satSucc 255 q.drops }
      : Evq).Sound := by
  split
  · next hl => exact ⟨by simp only [List.length_append, List.length_singleton]; omega, h.drops⟩
  · exact ⟨h.events, satSucc_le⟩

theorem Evq.Sound.pop {q : Evq} (h : q.Sound) : ({ q with events := q.events.drop 1 } : Evq).Sound :=
  ⟨by have := h.events; simp only [List.length_drop]; omega, h.drops⟩

theorem Frc.Sound.take {f : Frc} (h : f.Sound) (now : Nat) (k : FaultKind) (d : Nat) : (f.take now k d).Sound := by
  simp only [Frc.take]
  split
  · next hf => exact ⟨fun hn => (by cases hn), fun r hr => by cases hr; rfl⟩
  · next held hf =>
    split
    · exact ⟨fun hn => (by cases hn), fun r hr => by cases hr; rfl⟩
    · exact ⟨fun hn => (by simp [hf] at hn), fun r hr => h.cls r hr⟩

/-! ## The forward move of every kept time -/

theorem shiftOpt_isSome (n : Nat) (d : Option Nat) : (shiftOpt n d).isSome = d.isSome := by cases d <;> rfl

theorem ClientRecord.Sound.shifted {r : ClientRecord} (h : r.Sound) (n : Nat) : (ClientRecord.shifted n r).Sound := by
  refine ⟨by simpa [ClientRecord.shifted] using h.reports, ?_, h.evidence, ?_, fun hr => h.release ?_, h.directives⟩
  · have : (ClientRecord.shifted n r).reports.map PeerReport.peer = r.reports.map PeerReport.peer := by
      simp [ClientRecord.shifted, PeerReport.shifted, Function.comp_def]
    rw [this]; exact h.reporters
  · have := h.deadlines
    simp only [ClientRecord.DeadlinesFit, ClientRecord.shifted] at this ⊢
    cases e : r.serving <;> simp_all [shiftOpt]
  · simpa [ClientRecord.shifted] using hr

theorem Entry.Sound.shifted {e : Entry} (h : e.Sound) (n : Nat) : (Entry.shifted n e).Sound :=
  ⟨h.joins, h.misses, h.badFrames, h.goodRun, h.sinceWindow, h.load, h.served, h.fetchFails⟩

theorem State.Sound.shiftTimes {s : State} (h : s.Sound) (n : Nat) : (s.shiftTimes n).Sound where
  bcu :=
    ⟨h.bcu.badFrames, h.bcu.nonMember, h.bcu.controlDrops, h.bcu.ownDrops, h.bcu.duplicateRequests, h.bcu.control,
      h.bcu.bulk, by simpa [State.shiftTimes] using h.bcu.radios, fun vs hvs => by
        simp only [State.shiftTimes, List.mem_map] at hvs
        obtain ⟨ws, hws, rfl⟩ := hvs
        simpa using h.bcu.airtime ws hws, fun c => by
        have := h.bcu.within c
        cases c <;> exact this⟩
  nbt :=
    ⟨by simpa [State.shiftTimes] using h.nbt.size, h.nbt.distinct.map fun _ => rfl,
      h.nbt.entries.map fun _ he => he.shifted n, h.nbt.tableFull⟩
  mtb := h.mtb
  crg :=
    ⟨by simpa [State.shiftTimes] using h.crg.size, h.crg.distinct.map fun _ => rfl,
      h.crg.records.map fun _ hr => hr.shifted n, h.crg.refusedAssociations, h.crg.unplacedSightings,
      h.crg.invalidEntries⟩
  rli := h.rli
  hoc := ⟨by simpa [State.shiftTimes] using h.hoc.size, h.hoc.distinct.map fun _ => rfl, h.hoc.seq, h.hoc.malformed⟩
  pst := ⟨h.pst.size, h.pst.digest, h.pst.excessLists, h.pst.malformed, h.pst.invalidRecords⟩
  seu := h.seu
  gtm := h.gtm
  ims := by
    refine ⟨h.ims.buffers, by simpa [State.shiftTimes] using h.ims.fetches, h.ims.segments, h.ims.index, h.ims.failures,
      ?_, h.ims.refusedHeads, h.ims.unmatchedChunks, h.ims.lostChunks, h.ims.checkFailures, h.ims.ignoredFetches⟩
    exact (shiftOpt_isSome _ _).trans h.ims.patrol
  icu := fun hi => (shiftOpt_isSome n s.icu.drainDeadline).trans (h.icu hi)
  evq := h.evq
  frc := h.frc

/-! ## Every change -/

/-- A change of one kind keeps the state sound. -/
theorem Move.sound {k : Touch} {s t : State} (m : Move k s t) (h : s.Sound) : t.Sound := by
  cases m with
  | bcu _ f hf => exact { h with bcu := hf h.bcu }
  | nbt _ f hf => exact { h with nbt := hf h.nbt }
  | mtb _ f hf => exact { h with mtb := hf h.mtb }
  | crg _ f hf => exact { h with crg := hf h.crg }
  | rli _ f hf => exact { h with rli := hf h.rli }
  | rse _ x => exact { h with }
  | hoc _ f hf => exact { h with hoc := hf h.hoc }
  | pst _ f hf => exact { h with pst := hf h.pst }
  | load _ f hf => exact { h with pst := hf h.pst }
  | seu _ f hf => exact { h with seu := hf h.seu }
  | gtm _ f hf => exact { h with gtm := hf h.gtm }
  | ims _ f hf => exact { h with ims := hf h.ims }
  | icu _ f hf => exact { h with icu := hf h.icu }
  | flp _ f _ => exact { h with }
  | lpi _ f => exact { h with }
  | event _ kind subject detail => exact { h with evq := h.evq.queue _ }
  | pop _ => exact { h with evq := h.evq.pop }
  | fault _ kind detail => exact { h with frc := h.frc.take _ _ _ }
  | clear _ => exact { h with frc := ⟨fun _ => rfl, fun _ hr => by cases hr⟩ }
  | lines _ => exact { h with }
  | wall _ x => exact { h with }
  | yields _ x y => exact { h with }
  | restart _ x => exact { h with }
  | sent _ o => exact { h with }
  | draw _ => exact { h with }
  | halt _ => exact { h with }
  | start _ => exact { h with }
  | config _ x => exact { h with }
  | shift _ n => exact h.shiftTimes n

/-- A sequence of changes keeps the state sound. -/
theorem Moves.sound {C : List Touch} {s t : State} (h : Moves C s t) (hs : s.Sound) : t.Sound :=
  h.keeps State.Sound (fun _ _ _ _ m hu => m.sound hu) hs

/-- Mesh time never goes back over a sequence of changes. -/
theorem Moves.meshTime_le {C : List Touch} {s t : State} (h : Moves C s t) (hs : s.Sound) : s.now ≤ t.now := by
  have := h.keeps (fun u => u.Sound ∧ s.now ≤ u.now) (fun k _ u v m hu => ⟨m.sound hu.1, ?_⟩) ⟨hs, le_refl _⟩
  · exact this.2
  · cases m with
    | mtb _ f hf le => exact le_trans hu.2 (le hu.1.mtb)
    | _ => exact hu.2

/-- The flash port never gains a configuration read. -/
theorem Moves.noConfigRead {C : List Touch} {s t : State} (h : Moves C s t) (hs : s.flp.NoConfigRead) :
    t.flp.NoConfigRead :=
  h.keeps (fun u => u.flp.NoConfigRead) (fun _ _ u v m hu => by
    cases m with
    | flp _ f hf => exact hf hu
    | shift _ n =>
      refine ⟨hu.1, fun o ho => ?_⟩
      obtain ⟨o', ho', rfl⟩ := Option.map_eq_some_iff.mp ho
      exact hu.2 o' ho'
    | _ => exact hu) hs

/-! ## The order of slots -/

theorem Stamp.not_newer_trans {x y z : Stamp} (h : x.newerThan y = false) (g : y.newerThan z = false) :
    x.newerThan z = false := by
  simp only [Stamp.newerThan, decide_eq_false_iff_not] at h g ⊢
  omega

theorem SlotsKeepPace.trans {a b c : List Slot} (h : SlotsKeepPace a b) (g : SlotsKeepPace b c)
    (hl : a.length = b.length) : SlotsKeepPace a c := by
  intro n x z hx hz
  have hn : n < b.length := hl ▸ (List.getElem?_eq_some_iff.mp hx).1
  have hb : b[n]? = some b[n] := List.getElem?_eq_getElem hn
  exact Stamp.not_newer_trans (h n x _ hx hb) (g n _ z hb hz)

/-- No slot's stamp goes back over a sequence of changes without a load from flash (R98). -/
theorem Moves.slotsKeepPace {C : List Touch} {s t : State} (h : Moves C s t) (hc : Touch.load ∉ C) (hs : s.Sound) :
    SlotsKeepPace s.pst.slots t.pst.slots := by
  have := h.keeps (fun u => u.Sound ∧ SlotsKeepPace s.pst.slots u.pst.slots) (fun k hk u v m hu => ⟨m.sound hu.1, ?_⟩)
    ⟨hs, SlotsKeepPace.refl _⟩
  · exact this.2
  · cases m with
    | pst _ f hf pace => exact hu.2.trans pace (by rw [hs.pst.size, hu.1.pst.size])
    | load _ f hf => exact absurd hk hc
    | _ => exact hu.2

end Sys2Proof.Machine
end

