-- ==== Sys2Proof/Tests/Slice0.lean ====
section
/-! SUPPORT. Tests of the model: the check values and worked examples that the spec prints, the well-formedness checks
with a term that each refuses, single commands on small states, and for each statement for the provers with premises a
state and operands that meet them (`met_…`), clause by clause at the ends of the ranges. -/

set_option Elab.async false

namespace Sys2Proof.Tests

open Sys2Proof Sys2Proof.Machine

/-! ## Checks that decide a premise -/

theorem everySlot_of {α : Type} {p : α → Bool} {q : α → Prop} {l : List (Option α)} (h : l.all (Option.all p) = true)
    (hp : ∀ x, p x = true → q x) : EverySlot q l := by
  intro i x hx
  rw [slotAt_eq_some] at hx
  exact hp x (List.all_eq_true.1 h _ (List.mem_of_getElem? hx))

theorem distinctBy_of {α β : Type} {key : α → β} {l : List (Option α)}
    (h : (l.filterMap fun o => o.map key).Nodup) : DistinctBy key l := by
  intro i j x y hi hj hk
  rw [slotAt_eq_some] at hi hj
  induction l generalizing i j with
  | nil => simp at hi
  | cons o l ih =>
    have mem : ∀ {k : Nat} {w : α}, l[k]? = some (some w) → key w ∈ l.filterMap fun o => o.map key :=
      fun {k w} hw => List.mem_filterMap.2 ⟨some w, List.mem_of_getElem? hw, rfl⟩
    have tail : (l.filterMap fun o => o.map key).Nodup := by
      cases o with
      | none => exact h
      | some z => exact (List.nodup_cons.1 h).2
    have fresh : ∀ z, o = some z → key z ∉ l.filterMap fun o => o.map key := by
      rintro z rfl; exact (List.nodup_cons.1 h).1
    cases i with
    | zero =>
      cases j with
      | zero => rfl
      | succ j =>
        simp only [List.getElem?_cons_zero, Option.some.injEq] at hi
        exact absurd (mem (by simpa using hj)) (by rw [← hk]; exact fresh x hi)
    | succ i =>
      cases j with
      | zero =>
        simp only [List.getElem?_cons_zero, Option.some.injEq] at hj
        exact absurd (mem (by simpa using hi)) (by rw [hk]; exact fresh y hj)
      | succ j => exact congrArg (· + 1) (ih tail i j (by simpa using hi) (by simpa using hj))

def soundEntry (e : Entry) : Bool :=
  decide (e.joinCount ≤ 3 ∧ e.missCount ≤ mostMisses e.link ∧ e.badFrames ≤ 255 ∧ e.goodRun ≤ 1 ∧ e.sinceWindow ≤ 15 ∧
    e.adv.load ≤ 100 ∧ e.adv.servedCount ≤ 64 ∧ e.fetchFails ≤ 7)

def deadlinesFit (r : ClientRecord) : Bool :=
  match r.serving with
  | .served _ => decide (r.admitPending = none ∧ r.remoteDeadline = none ∧ r.removalDeadline = none)
  | .remote _ => decide (r.remoteDeadline.isSome ∧ r.removalDeadline = none)
  | .unseen => decide (r.remoteDeadline = none ∧ r.removalDeadline.isSome)

def soundRecord (r : ClientRecord) : Bool :=
  decide (r.reports.length ≤ 3 ∧ (r.reports.map PeerReport.peer).Nodup ∧ r.evidence ≤ 15) && deadlinesFit r &&
    decide ((r.release.isSome → r.isServed) ∧ (r.hasPending → r.isServed))

theorem soundRecord_sound (r : ClientRecord) (h : soundRecord r = true) : r.Sound := by
  simp only [soundRecord, Bool.and_eq_true, decide_eq_true_eq] at h
  refine ⟨h.1.1.1, h.1.1.2.1, h.1.1.2.2, ?_, h.2.1, h.2.2⟩
  have := h.1.2
  simp only [deadlinesFit, ClientRecord.DeadlinesFit] at this ⊢
  split at this <;> simp_all

def soundState (s : State) : Bool :=
  decide (s.bcu.badFrames ≤ 65535 ∧ s.bcu.nonMember ≤ 65535 ∧ s.bcu.controlDrops ≤ 65535 ∧ s.bcu.ownDrops ≤ 65535 ∧
    s.bcu.duplicateRequests ≤ 65535 ∧ s.bcu.controlQueue.length ≤ 8 ∧ s.bcu.bulkQueue.length ≤ 2 ∧
    s.bcu.airtime.length = 3 ∧ (∀ vs ∈ s.bcu.airtime, vs.length ≤ 4)) &&
  [AccessClass.control, .game, .normal, .bulk].all (fun c =>
    let k := s.bcu.contention c
    let p := s.bcu.params c
    decide (k.deferral ≤ p.deferral ∧ k.window ≤ p.windowMax ∧ k.retry ≤ p.retryLimit) &&
      k.backoff.all fun n => decide (n ≤ k.window)) &&
  decide (s.nbt.entries.length = 8 ∧ (s.nbt.entries.filterMap fun o => o.map Entry.id).Nodup ∧
    s.nbt.tableFull ≤ 65535) && s.nbt.entries.all (Option.all soundEntry) &&
  decide (s.mtb.divider ≤ 31 ∧ s.mtb.meshTime ≤ meshTimeMax) &&
  decide (s.crg.records.length = 64 ∧ (s.crg.records.filterMap fun o => o.map ClientRecord.addr).Nodup ∧
    s.crg.refusedAssociations ≤ 65535 ∧ s.crg.unplacedSightings ≤ 65535 ∧ s.crg.invalidEntries ≤ 65535) &&
  s.crg.records.all (Option.all soundRecord) &&
  decide (s.rli.waiting.length = 3 ∧ s.rli.inFlight.length = 3 ∧ ∀ q ∈ s.rli.inFlight, q.length ≤ 16) &&
  decide (s.hoc.contexts.length = 4 ∧ (s.hoc.contexts.filterMap fun o => o.map ClaimContext.client).Nodup ∧
    s.hoc.seqCounter ≤ 255 ∧ s.hoc.malformed ≤ 65535) &&
  decide (s.pst.slots.length = 97 ∧ s.pst.digest = digestOf s.pst.slots ∧ s.pst.excessLists ≤ 65535 ∧
    s.pst.malformed ≤ 65535 ∧ s.pst.invalidRecords ≤ 65535) &&
  decide (s.seu.groups.length = 8 ∧ s.gtm.invalidTraffic ≤ 65535 ∧ s.gtm.unmatchedTraffic ≤ 65535) &&
  decide (s.ims.buffers.length = 2 ∧ s.ims.fetches.length = 4 ∧ s.ims.segmentCounts.length = 32 ∧
    s.ims.indexTable.length = 8 ∧ s.ims.verifyFailures ≤ 3 ∧ s.ims.patrolDeadline.isSome = s.ims.image.patrolled ∧
    s.ims.refusedHeads ≤ 65535 ∧ s.ims.unmatchedChunks ≤ 65535 ∧ s.ims.lostChunks ≤ 65535 ∧
    s.ims.checkFailures ≤ 65535 ∧ s.ims.ignoredFetches ≤ 65535) &&
  decide (s.icu.install = .draining → s.icu.drainDeadline.isSome) &&
  decide (s.evq.events.length ≤ 32 ∧ s.evq.drops ≤ 255 ∧ (s.frc.first = none → s.frc.later = 0#5)) &&
  s.frc.first.all fun r => decide (r.cls = faultClassOf r.kind)

theorem sound_of {s : State} (h : soundState s = true) : s.Sound := by
  simp only [soundState, Bool.and_eq_true, decide_eq_true_eq, List.all_cons, List.all_nil, and_true] at h
  obtain ⟨⟨⟨⟨⟨⟨⟨⟨⟨⟨⟨⟨⟨⟨b, bc, bg, bn, bb⟩, n⟩, ne⟩, m⟩, c⟩, cr⟩, l⟩, h'⟩, p⟩, u⟩, i⟩, ic⟩, ev⟩, fc⟩ := h
  have within : ∀ c, (s.bcu.contention c).Within (s.bcu.params c) := by
    intro c
    have key : ∀ k : Contention, ∀ p : ClassParams,
        (k.deferral ≤ p.deferral ∧ k.window ≤ p.windowMax ∧ k.retry ≤ p.retryLimit) ∧
          k.backoff.all (fun n => decide (n ≤ k.window)) = true → k.Within p := by
      rintro k p ⟨⟨a1, a2, a3⟩, a4⟩
      refine ⟨a1, a2, a3, fun n hn => ?_⟩
      rw [hn] at a4; simpa using a4
    cases c
    · exact key _ _ bc
    · exact key _ _ bg
    · exact key _ _ bn
    · exact key _ _ bb
  exact
    { bcu := ⟨b.1, b.2.1, b.2.2.1, b.2.2.2.1, b.2.2.2.2.1, b.2.2.2.2.2.1, b.2.2.2.2.2.2.1, b.2.2.2.2.2.2.2.1,
        b.2.2.2.2.2.2.2.2, within⟩
      nbt := ⟨n.1, distinctBy_of n.2.1, everySlot_of ne fun e he => by
        simp only [soundEntry, decide_eq_true_eq] at he
        exact ⟨he.1, he.2.1, he.2.2.1, he.2.2.2.1, he.2.2.2.2.1, he.2.2.2.2.2.1, he.2.2.2.2.2.2.1,
          he.2.2.2.2.2.2.2⟩, n.2.2⟩
      mtb := ⟨m.1, m.2⟩
      crg := ⟨c.1, distinctBy_of c.2.1, everySlot_of cr soundRecord_sound, c.2.2.1, c.2.2.2.1, c.2.2.2.2⟩
      rli := ⟨l.1, l.2.1, l.2.2⟩
      hoc := ⟨h'.1, distinctBy_of h'.2.1, h'.2.2.1, h'.2.2.2⟩
      pst := ⟨p.1, p.2.1, p.2.2.1, p.2.2.2.1, p.2.2.2.2⟩
      seu := u.1
      gtm := ⟨u.2.1, u.2.2⟩
      ims := ⟨i.1, i.2.1, i.2.2.1, i.2.2.2.1, i.2.2.2.2.1, i.2.2.2.2.2.1, i.2.2.2.2.2.2.1, i.2.2.2.2.2.2.2.1,
        i.2.2.2.2.2.2.2.2.1, i.2.2.2.2.2.2.2.2.2.1, i.2.2.2.2.2.2.2.2.2.2⟩
      icu := ic
      evq := ⟨ev.1, ev.2.1⟩
      frc := ⟨ev.2.2, fun r hr => by rw [hr] at fc; simpa using fc⟩ }

theorem settled_of {s : State}
    (h : (∀ r, r < 3 → 16 ≤ (forRadio s.rli.inFlight r).length ∨ forRadio s.rli.waiting r = []) ∧
      s.lines = linesOf s) : s.Settled := ⟨h.1, h.2⟩

theorem dispatches_of {s : State} {kind : FrameKind} {f : RxFrame}
    (h : s.run = .running ∧ frameFormOk kind f = true ∧ (f.dst = allNodes ∨ f.dst = s.ownId) ∧
      (kind = .beacon ∨ s.isMember f.src = true)) : s.Dispatches kind f := ⟨h.1, h.2.1, h.2.2.1, h.2.2.2⟩

theorem takes_of {s : State} {kind : RequestKind} {b : List Byte}
    (h : (s.run = .running ∨ (s.run = .configHalt ∧ answeredInHalt kind = true)) ∧ b.length = requestLength kind) :
    s.Takes kind b := ⟨h.1, h.2⟩

/-- A state that meets the premises `Settled` and `Sound`. -/
structure Good (s : State) : Prop where
  settled : s.Settled
  sound : s.Sound

def good (s : State) : Bool :=
  [0, 1, 2].all (fun r => decide (16 ≤ (forRadio s.rli.inFlight r).length ∨ forRadio s.rli.waiting r = [])) &&
    decide (s.lines = linesOf s) && soundState s

theorem good_of {s : State} (h : good s = true) : Good s := by
  simp only [good, Bool.and_eq_true, decide_eq_true_eq, List.all_eq_true] at h
  exact ⟨settled_of ⟨fun r hr => h.1.1 r (by simp; omega), h.1.2⟩, sound_of h.2⟩

/-- A good state to which a frame is dispatched. -/
structure Meets (s : State) (kind : FrameKind) (f : RxFrame) : Prop extends Good s where
  dispatches : s.Dispatches kind f

def meets (s : State) (kind : FrameKind) (f : RxFrame) : Bool :=
  good s && decide (s.run = .running ∧ frameFormOk kind f = true ∧ (f.dst = allNodes ∨ f.dst = s.ownId) ∧
    (kind = .beacon ∨ s.isMember f.src = true))

theorem meets_of {s : State} {kind : FrameKind} {f : RxFrame} (h : meets s kind f = true) : Meets s kind f := by
  simp only [meets, Bool.and_eq_true, decide_eq_true_eq] at h
  exact { toGood := good_of h.1, dispatches := dispatches_of h.2 }

/-- A good state that takes a request. -/
structure Asked (s : State) (kind : RequestKind) (b : List Byte) : Prop extends Good s where
  takes : s.Takes kind b

def asked (s : State) (kind : RequestKind) (b : List Byte) : Bool :=
  good s && decide ((s.run = .running ∨ (s.run = .configHalt ∧ answeredInHalt kind = true)) ∧
    b.length = requestLength kind)

theorem asked_of {s : State} {kind : RequestKind} {b : List Byte} (h : asked s kind b = true) : Asked s kind b := by
  simp only [asked, Bool.and_eq_true, decide_eq_true_eq] at h
  exact { toGood := good_of h.1, takes := takes_of h.2 }

/-! ## Small states -/

def cfg : Configuration :=
  { nodeId := 0x31#16, radioCount := 2, kCode := 2, marginCode := 1, nConf := 2, beaconCode := 1, errorCode := 1,
    creditCode := 0, gameCode := 1, drainCode := 0, flashCode := 0 }

/-- A running node at mesh time 100000 with nothing in its tables. -/
def node : State :=
  { State.reset with
    run := .running
    cfg := cfg
    mtb := { divider := 31, meshTime := 100000, synced := true, lastNotified := none }
    flp := { waiting := [], operation := none } }

/-- The same state in CONFIG-HALT. -/
def halted (s : State) : State := { s with run := .configHalt }

def withRecord (s : State) (i : Nat) (r : ClientRecord) : State :=
  { s with crg := { s.crg with records := s.crg.records.set i (some r) } }

def withEntry (s : State) (i : Nat) (e : Entry) : State :=
  { s with nbt := { s.nbt with entries := s.nbt.entries.set i (some e) } }

def withClaim (s : State) (k : Nat) (c : ClaimContext) : State :=
  { s with hoc := { s.hoc with contexts := s.hoc.contexts.set k (some c) } }

def withSlot (s : State) (n : Nat) (x : Slot) : State :=
  let slots := s.pst.slots.set n x
  { s with pst := { s.pst with slots := slots, digest := digestOf slots } }

def withInstall (s : State) (i : InstallState) : State :=
  { s with
    icu := { s.icu with install := i, drainDeadline := if i = .draining then some 100000 else none }
    lines := { s.lines with imageReady := decide (i = .staged) } }

def running (s : State) (k : FlashKind) : State :=
  { s with
    flp := { s.flp with operation := some { kind := k, discard := false, deadline := 100000, marker := true } } }

def seen : ClientRecord :=
  { addr := 0xABC#48, serving := .unseen, admitPending := none, localLevel := some (-1000), sightTime := some 99488,
    reports := [], epoch := 5, confirm := 0, claimHoldoff := none, release := none, group := 1, cls := .auto,
    evidence := 7, gameActive := false, effective := .open, lastActivity := 34464, remoteDeadline := none,
    removalDeadline := some 100000, carriedPause := none, directed := .normal, enforced := .open, pendingControl := none,
    pendingEnforcement := none, pendingPriority := none }

def served : ClientRecord := { seen with serving := .served 1, removalDeadline := none }

def report : PeerReport := { peer := 0x42#16, level := -1280, served := true, game := false, time := 98976 }

def remote : ClientRecord :=
  { seen with serving := .remote 0x42#16, reports := [report], remoteDeadline := some 100000, removalDeadline := none }

def releasing : ClientRecord :=
  { served with
    release := some { claimant := 0x42#16, seq := 9, deadline := 100000 }, pendingControl := none }

def advertised : Advertised :=
  { load := 60, gameActive := false, drainIntent := false, clockValid := false, install := .idle, image := .complete,
    imageId := 7, imageVersion := 3, segments := 0xFFFFFFFF#32, digest := 1, servedCount := 64 }

def peer : Entry :=
  { id := 0x42#16, link := .active, joinCount := 3, missCount := 1, badFrames := 7, goodRun := 0, dueDeadline := 100000,
    sinceWindow := 15, adv := advertised, fetchFails := 3, listGuard := some 100000, answered := false }

def claim : ClaimContext :=
  { client := 0xABC#48, server := 0x42#16, seq := 9, state := .claiming, deadline := 100000, score := -1000 }

/-- The node with an ACTIVE peer, in slot 7. -/
def pair : State := withEntry node 7 peer

/-- A frame of the peer's. -/
def from42 (kind : FrameKind) (dst : NodeId) (body : List Byte) : RxFrame :=
  { src := 0x42#16, dst := dst, body := body, check := frameCheck kind 0x42#16 dst body }

def toNode (kind : FrameKind) (body : List Byte) : RxFrame := from42 kind 0x31#16 body

def toAll (kind : FrameKind) (body : List Byte) : RxFrame := from42 kind 0xFFFF#16 body

def bytes (l : List Nat) : List Byte := l.map (BitVec.ofNat 8)

/-! ## Premises met: the queue, the clock, reset and the start -/

theorem met_StepTakesFront : ({ node with pending := [.tick, .idleSlot] } : State).pending = .tick :: [.idleSlot] := rfl

def clock (m0 : Nat) (seconds : Nat) : State :=
  withSlot node 96 { content := .clock { seconds := seconds, meshTime := m0 }, stamp := { counter := 1, origin := 0x42#16 } }

/-- The divider at 30 and at 31; RESET held; mesh time at its last value but one and at its last; a clock record reached
at this very tick, one not yet reached, and one whose seconds no longer fit. -/
theorem met_ClockMovesMeshAndWallTime :
    (node.pending = [] ∧ node.run ≠ .resetHeld ∧ node.mtb.divider = 31) ∧
    (let s : State := { node with mtb := { node.mtb with divider := 30 } }
     s.pending = [] ∧ s.run ≠ .resetHeld ∧ s.mtb.divider < 31) ∧
    ({ node with run := .resetHeld } : State).run = .resetHeld ∧
    (let s : State := { node with mtb := { node.mtb with meshTime := 2 ^ 40 - 2 } }
     Good s ∧ 2 ^ 40 - 1 = (if s.now < 2 ^ 40 - 1 then s.now + 1 else s.now) ∧ s.now ≤ 2 ^ 40 - 1) ∧
    (let s : State := { node with mtb := { node.mtb with meshTime := 2 ^ 40 - 1 } }
     Good s ∧ 2 ^ 40 - 1 = (if s.now < 2 ^ 40 - 1 then s.now + 1 else s.now) ∧ s.now ≤ 2 ^ 40 - 1) ∧
    ((clock 100000 59).wallMinute = some 0 ∧ (clock 100000 60).wallMinute = some 1) ∧
    (clock 100001 60).wallMinute = none ∧
    ((clock 98976 (2 ^ 32 - 2)).wallMinute = some 71582788 ∧ (clock 98976 (2 ^ 32 - 1)).wallMinute = none) := by
  repeat' apply And.intro
  all_goals first | exact good_of (by decide +kernel) | decide +kernel

/-- A configuration block of given id and codes, with its check value. -/
def block (id : Nat) (codes : List Nat) : List Byte :=
  let b := be 2 id ++ bytes codes
  b ++ be 2 (crc16 b) ++ List.replicate 4082 0xFF#8

/-- Every code at the top of its range, and at the bottom; a wrong check value; the two ids that name no node; each code
one above its range. -/
theorem met_ConfigurationReadEnds :
    (Good (running node .configRead) ∧ (running node .configRead).flp.operation.isSome) ∧
    (∀ id ∈ [1, 0xFFFE], ∀ codes ∈ [[3, 3, 3, 3, 2, 2, 3, 3, 2, 2], [1, 0, 0, 1, 0, 0, 0, 0, 0, 0]],
      (let data := block id codes
       crc16 (data.take 12) = fieldAt data 12 2 ∧ nodeAt data 0 ≠ 0x0000#16 ∧ nodeAt data 0 ≠ 0xFFFF#16 ∧
       1 ≤ byteAt data 2 ∧ byteAt data 2 ≤ 3 ∧ byteAt data 3 ≤ 3 ∧ byteAt data 4 ≤ 3 ∧ 1 ≤ byteAt data 5 ∧
       byteAt data 5 ≤ 3 ∧ byteAt data 6 ≤ 2 ∧ byteAt data 7 ≤ 2 ∧ byteAt data 8 ≤ 3 ∧ byteAt data 9 ≤ 3 ∧
       byteAt data 10 ≤ 2 ∧ byteAt data 11 ≤ 2 ∧ codesInRange (parseConfig data) = true)) ∧
    (let data := (block 1 [1, 0, 0, 1, 0, 0, 0, 0, 0, 0]).set 13 0#8
     crc16 (data.take 12) ≠ fieldAt data 12 2) ∧
    (∀ id ∈ [0, 0xFFFF],
      (let data := block id [1, 0, 0, 1, 0, 0, 0, 0, 0, 0]
       crc16 (data.take 12) = fieldAt data 12 2 ∧ ¬(nodeAt data 0 ≠ 0x0000#16 ∧ nodeAt data 0 ≠ 0xFFFF#16))) ∧
    (∀ codes ∈ [[0, 0, 0, 1, 0, 0, 0, 0, 0, 0], [4, 0, 0, 1, 0, 0, 0, 0, 0, 0], [1, 4, 0, 1, 0, 0, 0, 0, 0, 0],
        [1, 0, 0, 0, 0, 0, 0, 0, 0, 0], [1, 0, 0, 1, 3, 0, 0, 0, 0, 0], [1, 0, 0, 1, 0, 0, 0, 0, 0, 3]],
      (let data := block 1 codes
       crc16 (data.take 12) = fieldAt data 12 2 ∧ codesInRange (parseConfig data) = false)) := by
  repeat' apply And.intro
  all_goals first | exact good_of (by decide +kernel) | decide +kernel

/-- Radio links 1 and 2 beside the radio count 2. -/
theorem met_AnswersOutsideRunning :
    (let s : State := { node with run := .configHalt }
     Good s ∧ s.run = .configHalt ∧ 1 < s.cfg.radioCount ∧ s.cfg.radioCount ≤ 2 ∧ answeredInHalt .restart = false ∧ ([] : List Byte).length = requestLength .restart) ∧
    Good { node with run := .starting } ∧
    (node.run = .running ∧ node.cfg.radioCount ≤ 2 ∧ (halted node).run = .configHalt ∧ causeKnown (.other 0) = false) := by
  repeat' apply And.intro
  all_goals first | exact good_of (by decide +kernel) | decide +kernel

/-! ## Premises met: backhaul channel access -/

/-- A node whose GAME class alone has work, with a deferral count, backoff count and credit. -/
def gaming (deferral : Nat) (backoff : Option Nat) (credit : Nat) : State :=
  { node with
    bcu := { node.bcu with
      medium := .idle, gameSlot := some 4, credit := credit
      gameState := { window := 3, retry := 2, deferral := deferral, backoff := backoff } } }

theorem met_ChannelIndications :
    (Good node ∧ node.run = .running ∧ node.bcu.gameSlot = none ∧ node.bcu.normalSlot = none) ∧
    (let s : State := { node with bcu := { node.bcu with
        gameSlot := some 1, normalSlot := some 2, refillDeadline := some 100000 } }
     Good s ∧ s.bcu.gameSlot = some 1 ∧ s.bcu.normalSlot = some 2 ∧ 100000 ≤ s.now) ∧
    Good { node with yieldNoticesBcu := [true, false] } ∧ Good { node with yieldNoticesBcu := [false] } := by
  repeat' apply And.intro
  all_goals first | exact good_of (by decide +kernel) | decide +kernel

theorem only_game (d : Nat) (b : Option Nat) (c : Nat) : ∀ k, k ≠ .game → (gaming d b c).bcu.hasWork k = false := by
  intro k hk; cases k <;> first | rfl | exact absurd rfl hk

theorem met_IdleSlotCounts :
    (Good (gaming 2 none 64) ∧ (gaming 2 none 64).bcu.hasWork .game = true ∧
      ∀ k, k ≠ .game → (gaming 2 none 64).bcu.hasWork k = false) ∧
    (Good (gaming 1 (some 3) 64) ∧ Good (gaming 1 none 64) ∧ Good (gaming 0 (some 2) 64)) ∧
    (Good (gaming 0 (some 1) 0) ∧ (gaming 0 (some 1) 0).bcu.credit = 0 ∧ (gaming 0 (some 1) 0).bcu.demoted = false ∧
      ∀ k, k ≠ .game → (gaming 0 (some 1) 0).bcu.hasWork k = false) ∧
    (Good node ∧ node.bcu.medium = .busy ∧ ∀ k, node.bcu.hasWork k = false) := by
  repeat' apply And.intro
  all_goals first
    | exact good_of (by decide +kernel) | exact only_game _ _ _ | decide +kernel | (intro k; cases k <;> rfl)

/-- CONTROL with a frame, NORMAL and BULK at zero on the same slot: CONTROL transmits. GAME alone with its last credit. -/
def contended : State :=
  { node with
    bcu := { node.bcu with
      medium := .idle, controlQueue := [buildFrame .headGet 0x31#16 0x42#16 []], normalSlot := some 5
      bulkQueue := [.filled (buildFrame .chunk 0x31#16 0x42#16 [])]
      controlState := { window := 3, retry := 6, deferral := 0, backoff := some 1 }
      normalState := { window := 31, retry := 1, deferral := 0, backoff := some 1 }
      bulkState := { window := 31, retry := 0, deferral := 0, backoff := some 1 } } }

/-- GAME without credit and NORMAL at zero on one slot, CONTROL and BULK with the given counts. -/
def crowdedSlot (control bulk : Contention) : State :=
  { contended with
    bcu := { contended.bcu with
      gameSlot := some 4, credit := 0, controlState := control, bulkState := bulk
      gameState := { window := 3, retry := 2, deferral := 0, backoff := some 1 } } }

def counting (deferral : Nat) (backoff : Option Nat) : Contention :=
  { window := 31, retry := 0, deferral := deferral, backoff := backoff }

/-- CONTROL counts its deferral, draws, or counts its backoff; BULK is at the end of its deferral with a count held and
with none. -/
theorem met_IdleSlotWithSeveralClasses :
    ∀ c ∈ [counting 2 none, counting 1 none, counting 0 (some 2), counting 0 (some 1)],
      ∀ b ∈ [counting 9 none, counting 1 (some 0), counting 1 (some 3), counting 1 none],
        good (crowdedSlot c b) = true ∧ (crowdedSlot c b).run = .running ∧ (crowdedSlot c b).bcu.medium = .idle ∧
          (crowdedSlot c b).bcu.inFlight = none ∧ (crowdedSlot c b).bcu.yielding = false := by
  decide +kernel

theorem met_IdleSlotTransmits :
    (let ready : AccessClass → Bool := fun c => decide (c ≠ .game)
     Good contended ∧ contended.run = .running ∧ contended.bcu.medium = .idle ∧ contended.bcu.inFlight = none ∧
     (∀ d, ready d = true → contended.bcu.hasWork d = true ∧ (contended.bcu.contention d).deferral = 0 ∧
       (contended.bcu.contention d).backoff = some 1) ∧
     (∀ d, ready d = false → contended.bcu.hasWork d = false) ∧ contended.bcu.yielding = false ∧
     ready .game = false ∧ classRanks.find? ready = some .control) ∧
    (let s := gaming 0 (some 1) 1
     let ready : AccessClass → Bool := fun c => decide (c = .game)
     Good s ∧ (∀ d, ready d = true → s.bcu.hasWork d = true ∧ (s.bcu.contention d).deferral = 0 ∧
       (s.bcu.contention d).backoff = some 1) ∧ (∀ d, ready d = false → s.bcu.hasWork d = false) ∧
     0 < s.bcu.credit ∧ classRanks.find? ready = some .game) := by
  repeat' apply And.intro
  all_goals first
    | exact good_of (by decide +kernel) | decide +kernel | (intro d; cases d <;> decide +kernel)

/-- Each class in flight at its retry limit, where a collision drops the item; GAME below it, where it does not. -/
def flying (c : AccessClass) (retry : Nat) : State :=
  { node with
    bcu := ({ node.bcu with
      medium := .busy, inFlight := some c, controlQueue := [buildFrame .headGet 0x31#16 0x42#16 []], gameSlot := some 4
      normalSlot := some 5, bulkQueue := [.filled (buildFrame .chunk 0x31#16 0x42#16 [])] } : Bcu).modContention c
        fun k => { k with retry := retry } }

theorem met_OutcomeEndsAttempt :
    Good node ∧ node.bcu.inFlight = none ∧
    (Good (flying .control 6) ∧ 6 < (flying .control 6).bcu.controlState.retry + 1) ∧
    (Good (flying .game 2) ∧ 2 < (flying .game 2).bcu.gameState.retry + 1 ∧ (flying .game 2).bcu.demoted = false) ∧
    (Good (flying .normal 6) ∧ 6 < (flying .normal 6).bcu.normalState.retry + 1) ∧
    (Good (flying .bulk 4) ∧ 4 < (flying .bulk 4).bcu.bulkState.retry + 1) ∧
    (Good (flying .game 1) ∧
      ((flying .game 1).bcu.contention .game).retry + 1 ≤ ((flying .game 1).bcu.params .game).retryLimit) := by
  repeat' apply And.intro
  all_goals first | exact good_of (by decide +kernel) | decide +kernel

def aired (n : Nat) : State :=
  { node with bcu := { node.bcu with airtime := [[], List.replicate n { percent := 100, arrival := 97952 }, []] } }

theorem met_AirtimeFormsOwnLoad :
    (Good (aired 3) ∧ 1 < (aired 3).cfg.radioCount ∧ ((aired 3).bcu.airtime[1]?).map List.length = some 3) ∧
    (Good (aired 4) ∧ ((aired 4).bcu.airtime[1]?).map List.length = some 4 ∧ (aired 4).ownLoad = 100) ∧
    (Good (withInstall node .staged) ∧ (withInstall node .staged).icu.install = .staged) ∧
    (node.icu.install ≠ .draining ∧ node.icu.install ≠ .staged) := by
  repeat' apply And.intro
  all_goals first | exact good_of (by decide +kernel) | decide +kernel

def queued (l : List FrameKind) : State :=
  { node with bcu := { node.bcu with controlQueue := l.map fun k => buildFrame k 0x31#16 0xFFFF#16 [] } }

theorem met_ControlQueueTakesFrames :
    node.run = .running ∧ (queued (List.replicate 7 .claim)).bcu.controlQueue.length < 8 ∧
    8 ≤ (queued (List.replicate 8 .claim)).bcu.controlQueue.length ∧
    (∀ g ∈ (queued (List.replicate 8 .claim)).bcu.controlQueue, g.kind ≠ .beacon) ∧
    (let s := queued [.claim, .beacon, .grant, .beacon]
     s.bcu.inFlight ≠ some .control ∧ s.bcu.controlQueue.drop 1 ≠ [] ∧
     (s.bcu.controlQueue.map TxFrame.kind) = [.claim] ++ .beacon :: [.grant, .beacon]) := by
  decide +kernel

/-! ## Premises met: received frames and neighbours -/

theorem met_FramesReachTheirBlock :
    Meets pair .headGet (toNode .headGet []) ∧ Meets pair .beacon (toAll .beacon (beaconBytes 0 advertised)) ∧
    (Good pair ∧ (let f := from42 .headGet 0x77#16 []
      frameFormOk .headGet f = true ∧ f.dst ≠ allNodes ∧ f.dst ≠ pair.ownId)) ∧
    (Good node ∧ frameFormOk .headGet (toNode .headGet []) = true) ∧
    (parseFrame [] = none ∧ frameFormOk .headGet (toNode .headGet [0#8]) = false ∧ pair.findEntry 0x43#16 = none ∧
      pair.findEntry 0x42#16 = some 7) ∧
    (peer.link = .active ∧ 4 * 2 ^ cfg.errorCode ≤ min (peer.badFrames + 1) 255) ∧
    min (6 + 1) 255 < 4 * 2 ^ cfg.errorCode := by
  repeat' apply And.intro
  all_goals first | exact good_of (by decide +kernel) | exact meets_of (by decide +kernel) | decide +kernel

/-- What a beacon finds of its entry: the frame dispatched and its values read, the entry in slot 7. -/
def meetsBeacon (s : State) (e : Entry) (time : Nat) (adv : Advertised) : Bool :=
  meets s .beacon (toAll .beacon (beaconBytes time adv)) &&
    decide (s.mtb.synced = true ∧ parseAdvertised (beaconBytes time adv) = some adv ∧
      fieldAt (beaconBytes time adv) 0 5 = time ∧ s.findEntry 0x42#16 = some 7 ∧ s.entry 7 = some e)

/-- Another entry, in slot 6. -/
def other (e : Entry) : Entry := { e with id := 0x43#16 }

/-- HEARD at its second and at its third beacon, and with bad frames at the threshold; ACTIVE, its own deadline at the
present, at the first and at the last tick of the step; FAILING at a first and a second good beacon, and with bad frames
at the threshold. Then steps to another entry's deadline itself and across one interval more, with its misses at 1, 2, 5
and 6. -/
theorem met_BeaconMovesLinkState :
    (∀ e ∈ [{ peer with link := .heard, missCount := 0, joinCount := 1, sinceWindow := 1 },
        { peer with link := .heard, missCount := 0, joinCount := 2, sinceWindow := 2 },
        { peer with link := .heard, missCount := 0, joinCount := 2, badFrames := 8, sinceWindow := 14 }, peer,
        { peer with dueDeadline := 100001 }, { peer with dueDeadline := 101024 },
        { peer with link := .failing, missCount := 5 }, { peer with link := .failing, goodRun := 1 },
        { peer with link := .failing, badFrames := 8, goodRun := 1, sinceWindow := 14 }],
      ∀ time ∈ [100000, 102000], meetsBeacon (withEntry node 7 e) e time advertised = true ∧ e.sinceWindow ≤ 15) ∧
    (∀ p ∈ [({ peer with link := .heard, missCount := 0, dueDeadline := 101024 }, 1),
        ({ peer with missCount := 0, dueDeadline := 101024 }, 1),
        ({ peer with missCount := 0, dueDeadline := 100512 }, 2),
        ({ peer with link := .failing, missCount := 3, dueDeadline := 100512 }, 5),
        ({ peer with link := .failing, missCount := 5, dueDeadline := 100001 + 1023 }, 6)],
      (let now := min (node.now + min (102000 + 1 - node.now) 1024) (2 ^ 40 - 1)
       let s := withEntry pair 6 (other p.1)
       meetsBeacon s peer 102000 advertised = true ∧ s.entry 6 = some (other p.1) ∧ node.now < p.1.dueDeadline ∧
         p.1.dueDeadline ≤ now ∧ p.1.missCount + (now - p.1.dueDeadline) / (256 * 2 ^ cfg.beaconCode) + 1 = p.2 ∧
         ∀ k ∈ [0, 1, 2, 3, 4, 5], s.entry k = none)) := by
  decide +kernel

def fullTable : State :=
  { node with nbt := { node.nbt with
      entries := (List.range 8).map fun i => some { peer with id := BitVec.ofNat 16 (i + 1) } } }

theorem met_BeaconWithoutEntry :
    (Meets node .beacon (toAll .beacon (beaconBytes 0 advertised)) ∧ node.findEntry 0x42#16 = none ∧
      firstFree node.nbt.entries = some 0) ∧
    (Meets fullTable .beacon (toAll .beacon (beaconBytes 0 advertised)) ∧ firstFree fullTable.nbt.entries = none ∧
      fullTable.findEntry 0x42#16 = none) ∧
    (let f : RxFrame := { toAll .beacon (beaconBytes 0 advertised) with
        src := 0x31#16, check := frameCheck .beacon 0x31#16 0xFFFF#16 (beaconBytes 0 advertised) }
     Meets node .beacon f ∧ f.src = node.ownId ∧
       Meets { node with nbt := { node.nbt with clashHoldoff := some 0 } } .beacon f) ∧
    (let f := toAll .beacon ((beaconBytes 0 advertised).set 7 5#8)
     Meets node .beacon f ∧ parseAdvertised f.body = none) := by
  repeat' apply And.intro
  all_goals first | exact meets_of (by decide +kernel) | decide +kernel

/-- A malformed beacon of an ACTIVE peer one below the threshold and two below, and of a HEARD one at it. -/
theorem met_MalformedBeaconIsCharged :
    let f := toAll .beacon ((beaconBytes 0 advertised).set 7 5#8)
    parseAdvertised f.body = none ∧
    ∀ e ∈ [peer, { peer with badFrames := 6 }, { peer with link := .heard, missCount := 0, badFrames := 8 }],
      meets (withEntry node 7 e) .beacon f = true ∧ (withEntry node 7 e).findEntry f.src = some 7 ∧
        (withEntry node 7 e).entry 7 = some e := by
  decide +kernel

theorem met_BeaconMovesMeshTime :
    (node.mtb.synced = true ∧ node.now ≤ 2 ^ 40 - 1) ∧
    (let s : State := { node with mtb := { node.mtb with synced := false, meshTime := 2 ^ 40 - 1 } }
     s.mtb.synced = false ∧ s.now ≤ 2 ^ 40 - 1) ∧
    (let f := toAll .beacon (beaconBytes 0 advertised)
     Meets pair .beacon f ∧ (pair.findEntry f.src).isSome ∧
       Meets { node with mtb := { node.mtb with synced := false } } .beacon f ∧
       (firstFree node.nbt.entries).isSome ∧ parseAdvertised f.body = some advertised ∧ f.src ≠ node.ownId) ∧
    (let s : State := { node with bcu := { node.bcu with refillDeadline := some 100001 } }
     Good s ∧ s.run = .running ∧ s.mtb.synced = true ∧ Crossed s.now (s.mergeTime 0x42#16 100128).now (some 100001)) := by
  repeat' apply And.intro
  all_goals first
    | exact meets_of (by decide +kernel) | exact good_of (by decide +kernel) | decide +kernel
    | exact ⟨_, rfl, by decide +kernel, by decide +kernel⟩

/-- A step of 1024 ticks at a node with nothing in its tables crosses no deadline. -/
theorem met_StepTakesItsExpiries :
    let m := node.mergeTime 0x42#16 200000
    m.now = 101024 ∧ m.CrossesNothing node.now m.now 0 := by
  have free : ∀ {d : Option Nat}, d = none → ¬Crossed node.now (node.mergeTime 0x42#16 200000).now d := by
    rintro d rfl ⟨x, hx, -⟩; cases hx
  have none_of : ∀ {α : Type} {l : List (Option α)}, l.all (Option.all fun _ => false) = true →
      EverySlot (fun _ => False) l := fun h => everySlot_of h fun _ hx => by cases hx
  have entries : EverySlot (fun _ => False) (node.mergeTime 0x42#16 200000).nbt.entries := none_of (by decide +kernel)
  have records : EverySlot (fun _ => False) (node.mergeTime 0x42#16 200000).crg.records := none_of (by decide +kernel)
  exact ⟨by decide +kernel,
    { refill := free (by decide +kernel), due := fun i e _ h => (entries i e h).elim
      guards := fun i e h => (entries i e h).elim, build := free (by decide +kernel), clash := free (by decide +kernel)
      reservations := fun i r h => (records i r h).elim, remote := fun i r h => (records i r h).elim
      removal := fun i r h => (records i r h).elim, sightings := free (by decide +kernel)
      evaluation := free (by decide +kernel), holdoffs := fun i r h => (records i r h).elim
      claims := fun k c h => (none_of (l := (node.mergeTime 0x42#16 200000).hoc.contexts) (by decide +kernel) k c h).elim
      releases := fun i r _ h => (records i r h).elim, persist := free (by decide +kernel)
      fetches := fun k f h => (none_of (l := (node.mergeTime 0x42#16 200000).ims.fetches) (by decide +kernel) k f h).elim
      halving := free (by decide +kernel), patrol := free (by decide +kernel), retry := free (by decide +kernel)
      drain := free (by decide +kernel), rewrite := free (by decide +kernel)
      operation := fun o h => by
        rw [show (node.mergeTime 0x42#16 200000).flp.operation = none by decide +kernel] at h; cases h }⟩

theorem met_BeaconDueCountsMisses :
    ∀ e ∈ [{ peer with link := .heard, missCount := 0 }, { peer with missCount := 0 }, peer,
        { peer with link := .failing, missCount := 4 }, { peer with link := .failing, missCount := 5 }],
      good (withEntry node 7 e) = true ∧ (withEntry node 7 e).entry 7 = some e ∧ e.dueDeadline ≤ (withEntry node 7 e).now
    := by
  decide +kernel

/-- A build due at an idle node, and at one that drains. -/
theorem met_BeaconBuild :
    let s : State := { node with nbt := { node.nbt with buildDeadline := some 100000 } }
    (Good s ∧ s.run = .running ∧ 100000 ≤ s.now ∧ s.icu.install = .idle ∧ s.intentConditions = false) ∧
    Good (withInstall s .draining) := by
  repeat' apply And.intro
  all_goals first | exact good_of (by decide +kernel) | decide +kernel

/-- Each hold-off, guard and reservation at the present; a deadline one tick ahead. -/
theorem met_ExpiriesAtTheirTime :
    (let s : State :=
       { withRecord pair 63 { seen with admitPending := some 100000, claimHoldoff := some 100000 } with
         icu := { node.icu with retryHoldoff := some 100000 } }
     Good s ∧ 100000 ≤ s.now ∧ s.entry 7 = some peer ∧ peer.listGuard = some 100000 ∧ (s.record 63).isSome) ∧
    Good { node with nbt := { node.nbt with clashHoldoff := some 100000 } } ∧
    (let ahead : Option Nat → Prop := fun d => ∀ v, d = some v → node.now < v
     (∀ d, ahead d ↔ ∀ v, d = some v → node.now < v) ∧ ahead (some 100001)) := by
  refine ⟨?_, good_of (by decide +kernel), fun d => Iff.rfl, fun v hv => ?_⟩
  · exact ⟨good_of (by decide +kernel), by decide +kernel⟩
  · cases hv; decide +kernel

/-! ## Premises met: client register and radio links -/

/-- Every record taken by a SERVED client but the one with number `i`. -/
def crowded (i : Nat) (r : ClientRecord) : State :=
  let all : State := { node with crg := { node.crg with
    records := (List.range 64).map fun k => some { served with addr := BitVec.ofNat 48 (k + 1) } } }
  withRecord all i r

theorem met_AdmitQueryAnswers :
    (1 < cfg.radioCount ∧ 0xABC#48 ≠ 0#48) ∧
    (∀ r ∈ [served, seen, remote, { seen with admitPending := some 100000 }], ∀ i ∈ [InstallState.idle, .draining, .staged],
      (let s := withInstall (withRecord node 63 r) i
       good s = true ∧ s.findRecord 0xABC#48 = some 63 ∧ s.record 63 = some r)) ∧
    (Good node ∧ node.findRecord 0xABC#48 = none ∧ node.obtainForAdmission = some 0) ∧
    (Good (crowded 63 seen) ∧ (crowded 63 seen).obtainForAdmission = some 63 ∧
      (crowded 63 seen).findRecord 0xDEF#48 = none) ∧
    (Good (crowded 63 served) ∧ (crowded 63 served).obtainForAdmission = none) := by
  repeat' apply And.intro
  all_goals first | exact good_of (by decide +kernel) | decide +kernel

theorem met_RecordsAreObtainedInOrder :
    (node.crg.records.length = 64 ∧ node.obtainForSighting = some 0) ∧
    ((crowded 63 seen).crg.records.length = 64 ∧ (crowded 63 seen).obtainForSighting = some 63) ∧
    ((crowded 0 remote).obtainForSighting = none ∧ (crowded 0 remote).obtainForAdmission = some 0) ∧
    (crowded 63 served).obtainForAdmission = none := by
  decide +kernel

theorem met_AssocBeginsService :
    (∀ r ∈ [seen, remote, { seen with epoch := 2 ^ 32 - 1, admitPending := some 100000 }],
      good (withRecord node 63 r) = true ∧ (withRecord node 63 r).findRecord 0xABC#48 = some 63 ∧
        (withRecord node 63 r).record 63 = some r ∧ r.addr = 0xABC#48) ∧
    (∀ q, seen.serving ≠ .served q) ∧ (∀ q, remote.serving ≠ .served q) ∧
    (Good node ∧ node.findRecord 0xABC#48 = none ∧ node.obtainForAdmission = some 0 ∧ 1 < cfg.radioCount) ∧
    (∀ c ∈ [claim, { claim with state := .admitting }],
      good (withClaim (withRecord node 63 remote) 3 c) = true ∧
        (withClaim (withRecord node 63 remote) 3 c).findClaim 0xABC#48 = some 3) ∧
    (Good (withRecord node 63 served) ∧ served.serving = .served 1 ∧ (1 : Nat) ≠ 0) ∧
    (Good (crowded 63 served) ∧ (crowded 63 served).findRecord 0xDEF#48 = none ∧
      (crowded 63 served).obtainForAdmission = none) ∧
    (∀ s ∈ [node, withRecord node 63 seen, withRecord node 63 served, crowded 63 served,
        withClaim (withRecord node 63 remote) 3 claim], good (halted s) = true) := by
  repeat' apply And.intro
  all_goals first
    | exact good_of (by decide +kernel) | decide +kernel | exact fun q h => Serving.noConfusion h

theorem met_DisassocEndsService :
    (1 < cfg.radioCount ∧ causeKnown .timeout = true ∧ node.icu.install ≠ .draining) ∧
    (∀ r ∈ [served, { served with reports := [report] }, releasing, remote],
      good (withRecord node 63 r) = true ∧ (withRecord node 63 r).findRecord 0xABC#48 = some 63 ∧
        (withRecord node 63 r).record 63 = some r) ∧
    (releasing.release.isSome ∧ [report].find? PeerReport.served = some report ∧
      served.reports.find? PeerReport.served = none ∧ remote.serving ≠ .served 1) ∧
    (∀ r ∈ [served, { served with reports := [report] }, releasing, remote],
      good (halted (withRecord node 63 r)) = true) ∧
    (good node = true ∧ good (halted node) = true ∧ node.findRecord 0xABC#48 = none) := by
  decide +kernel

theorem met_SightSmoothsLevel :
    (∀ r ∈ [seen, { seen with localLevel := none }, { seen with localLevel := some (-1600) }],
      good (withRecord node 63 r) = true ∧ (withRecord node 63 r).findRecord 0xABC#48 = some 63) ∧
    (Good node ∧ node.obtainForSighting = some 0) ∧
    (Good (crowded 63 served) ∧ (crowded 63 served).obtainForSighting = none) ∧
    ((3 : Nat) ≤ 3 ∧ (-1600 : Int) ≤ -160 ∧ (-160 : Int) ≤ -160) := by
  repeat' apply And.intro
  all_goals first | exact good_of (by decide +kernel) | decide +kernel

/-- Radio 1 with 16 directives in flight and a record waiting. -/
def backlog : State :=
  let s := withRecord node 63 { served with pendingControl := some .disconnect, pendingEnforcement := some .pause }
  { s with rli := {
      waiting := [[], [63], []]
      inFlight := [[], List.replicate 16 (.priority 1#48 .normal), []] } }

/-- A client that is new, UNSEEN, REMOTE, and SERVED on the other radio with a release context, with unsent directives, and
at game priority; its group open and blocked; the radio's queue with and without room. -/
theorem met_ArrivalIssuesDirectives :
    let minute (s : State) (g : GroupState) : State :=
      { s with seu := { held := some 0, groups := s.seu.groups.set 1 g } }
    ∀ g ∈ [GroupState.open, .blocked],
      (∀ r ∈ [seen, { remote with gameActive := true, carriedPause := some 1 }, releasing,
          { served with gameActive := true, directed := .game }],
        ∀ q ∈ [node.rli, { node.rli with inFlight := [List.replicate 16 (.priority 1#48 .normal), [], []] }],
          (let s := { minute (withRecord node 63 r) g with rli := q }
           good s = true ∧ s.findRecord 0xABC#48 = some 63 ∧ s.record 63 = some r ∧ r.serving ≠ .served 0 ∧
             r.addr = 0xABC#48)) ∧
      (good (minute node g) = true ∧ (minute node g).obtainForAdmission = some 0 ∧
        (node.newRecord 0xABC#48).serving ≠ .served 0 ∧ good (minute backlog g) = true ∧ served.serving ≠ .served 0) := by
  decide +kernel

theorem met_DirectivesAreSentInOrder :
    (Good node ∧ 1 < cfg.radioCount ∧ forRadio node.rli.waiting 1 = []) ∧
    (Good backlog ∧ forRadio backlog.rli.waiting 1 = 63 :: [] ∧ 63 ∉ ([] : List Nat) ∧
      16 = (forRadio backlog.rli.inFlight 1).length ∧ ((backlog.record 63).bind ClientRecord.nextDirective).isSome) := by
  repeat' apply And.intro
  all_goals first | exact good_of (by decide +kernel) | decide +kernel

theorem met_EventEndSettles : backlog.rli.Sound := (good_of (s := backlog) (by decide +kernel)).sound.rli

def sighting (served : Bool) (epoch : Nat) : SightingEntry :=
  { client := 0xABC#48, level := -160, served := served, game := true, epoch := epoch }

def sightings (e : SightingEntry) : RxFrame := toAll .sightings (sightingsBytes [e])

/-- Each serving state, a set and a clear served flag, and an epoch below, at and above the record's; an entry without a
record; one whose level is just outside the range. -/
theorem met_SightingsEntryApplied :
    (∀ r ∈ [served, remote, { remote with serving := .remote 0x43#16 }, seen], ∀ flag ∈ [true, false], ∀ epoch ∈ [4, 5, 6],
      (let s := withRecord pair 63 r
       let f := sightings (sighting flag epoch)
       meets s .sightings f = true ∧ parseSightings f.body = [sighting flag epoch] ∧
         (sighting flag epoch).valid = true ∧ s.findRecord 0xABC#48 = some 63)) ∧
    (Meets pair .sightings (sightings (sighting true 5)) ∧ pair.findRecord 0xABC#48 = none ∧
      pair.obtainForSighting = some 0) ∧
    Meets pair .sightings (sightings { sighting true 5 with level := -159 }) ∧
    (let s := withEntry (crowded 63 served) 7 peer
     let f := sightings { sighting true 5 with client := 0xDEF#48 }
     Meets s .sightings f ∧ s.findRecord 0xDEF#48 = none ∧ s.obtainForSighting = none) := by
  repeat' apply And.intro
  all_goals first | exact good_of (by decide +kernel) | exact meets_of (by decide +kernel) | decide +kernel

/-- A frame of two entries for one client, the second taken on the state that the first one left: a DISCONNECT is pending
there for a full radio, or not yet sent. -/
theorem met_SightingsInFrameOrder :
    let f := toAll .sightings (sightingsBytes [sighting true 6, sighting true 6])
    parseSightings f.body = [sighting true 6, sighting true 6] ∧ frameFormOk .sightings f = true ∧
    ∀ s ∈ [withRecord pair 63 served, withRecord pair 63 remote, withEntry backlog 7 peer, pair],
      meets s .sightings f = true ∧ soundState (s.takeEntry 0x42#16 (sighting true 6)) = true ∧
        (s.takeEntry 0x42#16 (sighting true 6)).findRecord 0xABC#48 = (if s = pair then some 0 else some 63) := by
  decide +kernel

theorem met_RecordsAgeAndAreSighted :
    (∀ r ∈ [remote, seen, { seen with admitPending := some 100001 }],
      good (withRecord node 63 r) = true ∧ (withRecord node 63 r).record 63 = some r) ∧
    (remote.remoteDeadline = some 100000 ∧ seen.removalDeadline = some 100000 ∧ 100000 ≤ node.now) ∧
    (let s := withRecord { node with crg := { node.crg with sightingsDeadline := some 100000 } } 63 served
     Good s ∧ s.run = .running ∧ s.servedCount ≤ 24 ∧ s.crg.records.length = 64 ∧ s.crg.servedCursor ≤ 63) ∧
    (let s := crowded 63 served
     (s.record 24).isSome ∧ 23 ∈ s.servedPart ∧ 24 ∉ s.servedPart) ∧
    (withRecord (withRecord node 63 seen) 0 { seen with addr := 1#48 }).sightedPart = [0, 63] := by
  repeat' apply And.intro
  all_goals first | exact good_of (by decide +kernel) | decide +kernel

/-! ## Premises met: roam scoring and handoff -/

/-- A node due to evaluate a REMOTE client whose own level leads its server's by `lead`, at a confirm count. -/
def evaluating (level : Int) (confirm : Nat) : State :=
  { withRecord (withEntry node 7 peer) 63
      { remote with localLevel := some level, confirm := confirm, reports := [{ report with level := -1200 }] } with
    rse := { evaluationDeadline := some 100000 } }

/-- A second REMOTE record behind the first, whose evaluation finds the contexts as the first left them. -/
theorem met_EvaluationTakesEveryRecord :
    let s := withRecord (evaluating (-1120) 1) 5 { remote with addr := 0xDEF#48, localLevel := some (-900), confirm := 1,
                                                                 reports := [{ report with level := -1200 }] }
    let u := s.evaluateClaim 5
    good s = true ∧ s.rse.evaluationDeadline = some 100000 ∧ s.now = 100000 ∧ (u.claimAt 0).isSome = true ∧
      u.run = .running ∧ (u.record 63).map ClientRecord.serving = some (.remote 0x42#16) ∧
      firstFree u.hoc.contexts = some 1 ∧ ((u.record 63).bind fun r => u.claimReady r 0x42#16).isSome = true ∧
      (s.record 4 = none) := by
  decide +kernel

theorem met_EvaluationClaims :
    (Good (evaluating (-1121) 0) ∧ Good (evaluating (-1120) 0) ∧ Good (evaluating (-1120) 1)) ∧
    ((evaluating (-1120) 1).run = .running ∧ ((evaluating (-1120) 1).record 63).map ClientRecord.serving =
      some (.remote 0x42#16) ∧ firstFree (evaluating (-1120) 1).hoc.contexts = some 0) ∧
    (∀ j x q, j ≠ 63 → (evaluating (-1120) 1).record j = some x → x.serving ≠ .remote q) ∧
    (((evaluating (-1120) 1).record 63).bind fun r => (evaluating (-1120) 1).claimReady r 0x42#16).isSome ∧
    (let s := withRecord (evaluating (-1120) 1) 63 { remote with sightTime := some 99487 }
     Good s ∧ ((s.record 63).bind fun r => s.claimReady r 0x42#16) = none) := by
  have only : ∀ j, j < 64 → j ≠ 63 → (evaluating (-1120) 1).record j = none := by decide +kernel
  repeat' apply And.intro
  all_goals first
    | exact good_of (by decide +kernel) | decide +kernel
    | (intro j x q hj hx; rw [only j (slotAt_lt hx) hj] at hx; cases hx)

def claimFrame (score : Int) : RxFrame := toNode .claim (claimBytes 0xABC#48 9 score)

theorem met_ClaimRefused :
    Meets pair .claim (toNode .claim (claimBytes 0#48 9 (-160))) ∧
    (Meets pair .claim (claimFrame (-160)) ∧ pair.findRecord 0xABC#48 = none) ∧
    (∀ r ∈ [seen, served, { served with reports := [report] },
        { releasing with release := some { claimant := 0x43#16, seq := 9, deadline := 100000 } }],
      meets (withRecord pair 63 r) .claim (claimFrame (-1760)) = true ∧
        (withRecord pair 63 r).findRecord 0xABC#48 = some 63) ∧
    (withRecord pair 63 served).grantTest served (signed16 (fieldAt (claimFrame (-961)).body 7 2)) = false ∧
    (withRecord pair 63 served).grantTest served (signed16 (fieldAt (claimFrame (-960)).body 7 2)) = true ∧
    (∀ q, seen.serving ≠ .served q) := by
  repeat' apply And.intro
  all_goals first
    | exact meets_of (by decide +kernel) | decide +kernel | exact fun q h => Serving.noConfusion h

theorem met_ClaimGranted :
    (Meets (withRecord pair 63 releasing) .claim (claimFrame (-1760)) ∧
      (releasing.release.map ReleaseContext.claimant) = some (claimFrame (-1760)).src ∧ served.serving = .served 1) ∧
    Meets (withRecord pair 63 served) .claim (claimFrame (-960)) ∧
    (Meets (withInstall (withRecord pair 63 served) .draining) .claim (claimFrame (-1760)) ∧
      served.release = none ∧ served.reports = []) := by
  repeat' apply And.intro
  all_goals first | exact meets_of (by decide +kernel) | decide +kernel

def grantBody : GrantBody :=
  { client := 0xABC#48, seq := 9, epoch := 6, group := 7, clsCode := 2, evidence := 15, gameActive := true,
    pauseUntil := 0 }

def grantFrame (g : GrantBody) : RxFrame := toNode .grant g.bytes

theorem met_GrantIsTaken :
    (∀ g ∈ [{ grantBody with group := 8 }, { grantBody with clsCode := 3 }, { grantBody with evidence := 16 },
        { grantBody with client := 0#48 }], meets pair .grant (grantFrame g) = true ∧ parseGrant (grantFrame g).body = g) ∧
    (∀ c ∈ [claim, { claim with state := .admitting }, { claim with seq := 10 }],
      (let s := withClaim (withRecord pair 63 remote) 3 c
       meets s .grant (grantFrame grantBody) = true ∧ s.findRecord grantBody.client = some 63 ∧
         s.findClaim grantBody.client = some 3 ∧ s.claimAt 3 = some c)) ∧
    parseGrant (grantFrame grantBody).body = grantBody ∧ classOf grantBody.clsCode = some .noGame ∧
    (let s := withSlot (withClaim (withRecord pair 63 remote) 3 claim) 95
       { content := .device { addr := 0xABC#48, group := 7, cls := .auto, pauseUntil := 0 }
         stamp := { counter := 1, origin := 0x42#16 } }
     Meets s .grant (grantFrame grantBody) ∧ (s.effectiveDevice 0xABC#48).isSome) := by
  repeat' apply And.intro
  all_goals first | exact meets_of (by decide +kernel) | decide +kernel

/-- GRANT, REFUSE and CANCEL for a client without a record. -/
theorem met_HandoffFramesWithoutRecord :
    (meets pair .grant (grantFrame grantBody) = true ∧ pair.findRecord grantBody.client = none ∧
      pair.findClaim grantBody.client = none) ∧
    meets pair .refuse (toNode .refuse (refuseBytes 0xABC#48 9 1)) = true ∧
    meets pair .cancel (toNode .cancel (cancelBytes 0xABC#48 9)) = true ∧ pair.findRecord 0xABC#48 = none := by
  decide +kernel

theorem met_RefuseAndCancelEndHandoffs :
    (∀ cause ∈ [1, 2, 3], ∀ c ∈ [claim, { claim with state := .admitting }, { claim with server := 0x43#16 }],
      (let s := withClaim (withRecord pair 63 remote) 3 c
       meets s .refuse (toNode .refuse (refuseBytes 0xABC#48 9 cause)) = true ∧ s.findRecord 0xABC#48 = some 63 ∧
         s.findClaim 0xABC#48 = some 3)) ∧
    (∀ seq ∈ [9, 10], ∀ steer ∈ [none, some (ControlDirective.steer 0x42#16)],
      (let r := { releasing with pendingControl := steer }
       let s : State := { withRecord pair 63 r with
         rli := if steer.isSome then backlog.rli else node.rli }
       meets s .cancel (toNode .cancel (cancelBytes 0xABC#48 seq)) = true ∧ s.record 63 = some r)) := by
  decide +kernel

def servedFrame (src : NodeId) (epoch : Nat) : RxFrame :=
  let b := servedBytes 0xABC#48 epoch (-1600) false
  { src := src, dst := 0xFFFF#16, body := b, check := frameCheck .served src 0xFFFF#16 b }

def rival (src : NodeId) (r : ClientRecord) : State := withRecord (withEntry node 7 { peer with id := src }) 63 r

def noticed (src : NodeId) (epoch : Nat) (r : ClientRecord) : Bool :=
  let s := rival src r
  let f := servedFrame src epoch
  meets s .served f && (parseServed f.body).valid && decide (s.findRecord (addrAt f.body 0) = some 63) &&
    decide (r.serving = .served 1 ∧ r.reports = [])

/-- A notice of an epoch above, at and below the record's, from a node with a larger and one with a smaller id, for a
record with no report, and with one that is served; a REMOTE record and an UNSEEN one; a claimant context of the client
with another server; a malformed body; a client without a record, with a free number and without one. -/
theorem met_ServedNoticeApplied :
    (∀ epoch ∈ [4, 5, 6], noticed 0x42#16 epoch served = true ∧ noticed 0x30#16 epoch served = true) ∧
    noticed 0x42#16 6 releasing = true ∧
    (∀ r ∈ [{ served with reports := [report] }, remote, { remote with serving := .remote 0x43#16 }, seen],
      ∀ epoch ∈ [4, 5, 6],
        meets (withClaim (rival 0x42#16 r) 3 { claim with server := 0x43#16 }) .served (servedFrame 0x42#16 epoch) = true ∧
          (rival 0x42#16 r).findRecord (parseServed (servedFrame 0x42#16 epoch).body).client = some 63) ∧
    (let f := toAll .served (servedBytes 0#48 5 (-1600) false)
     meets pair .served f = true ∧ (parseServed f.body).client = 0#48) ∧
    (let f := toAll .served (servedBytes 0xDEF#48 5 (-160) false)
     let full := withEntry (crowded 63 served) 7 peer
     meets pair .served f = true ∧ meets full .served f = true ∧ (parseServed f.body).level = -160 ∧
       pair.obtainForSighting = some 0 ∧ full.findRecord 0xDEF#48 = none ∧ full.obtainForSighting = none) := by
  decide +kernel

theorem met_HandoffDeadlinesExpire :
    (∀ c ∈ [claim, { claim with state := .admitting }],
      (let s := withClaim (withRecord pair 63 remote) 3 c
       good s = true ∧ s.run = .running ∧ s.claimAt 3 = some c ∧ c.deadline ≤ s.now ∧
         s.findRecord c.client = some 63)) ∧
    (let s := withRecord pair 63 releasing
     Good s ∧ s.record 63 = some releasing ∧ releasing.serving = .served 1 ∧ 100000 ≤ s.now) := by
  repeat' apply And.intro
  all_goals first | exact good_of (by decide +kernel) | decide +kernel

/-- The state a command leaves. -/
def after (c : Instr) (s : State) : State :=
  match exec c s with
  | .next t => t
  | .fault _ => s
  | .refused _ => s

def completes (c : Instr) (s : State) : Bool :=
  match exec c s with
  | .next _ => true
  | .fault _ => false
  | .refused _ => false

theorem next_of {c : Instr} {s : State} (h : completes c s = true) : exec c s = .next (after c s) := by
  simp only [completes, after] at h ⊢
  split at h <;> simp_all

/-- A client whose record's epoch a SERVED notice raises. -/
theorem met_EpochNeverFalls :
    let s := withRecord pair 63 served
    let c : Instr := .served 0x42#16 (servedFrame 0x42#16 6)
    Good s ∧ isReset c = false ∧ exec c s = .next (after c s) ∧ countSlots s.crg.records (fun _ => true) ≤ 40 ∧
      s.record 63 = some served ∧ ((after c s).record 63).map (fun r => (r.addr, r.epoch)) = some (0xABC#48, 6) ∧
      served.epoch ≤ 2 ^ 32 - 1 := by
  repeat' apply And.intro
  all_goals first | exact good_of (by decide +kernel) | exact next_of (by decide +kernel) | decide +kernel

/-! ## Premises met: household policy store -/

def record18 (slot condition counter origin : Nat) (content : List Nat) : List Byte :=
  bytes [slot, condition] ++ be 2 counter ++ be 2 origin ++ (bytes content ++ List.replicate (12 - content.length) 0#8)

/-- 21:30 to 06:30 (Table 8.1), blocking every group on Monday to Friday. -/
def nightWindow : List Nat := [1, 255, 0x1F, 1290 / 256, 1290 % 256, 390 / 256, 390 % 256, 0]

def submit : List Byte := record18 0 1 0 0 nightWindow

theorem met_PolicySubmitStampsSlot :
    (Asked node .policySubmit submit ∧ node.pst.loading = false ∧
      (submittedContent node.now (parseRecordAt submit 0)).isSome ∧ (parseRecordAt submit 0).content.length = 12) ∧
    Asked { node with pst := { node.pst with loading := true } } .policySubmit submit ∧
    (let b := record18 97 1 0 0 nightWindow
     Asked node .policySubmit b ∧ submittedContent node.now (parseRecordAt b 0) = none) ∧
    (let s := withSlot node 0 { content := .empty, stamp := { counter := 65535, origin := 1#16 } }
     Asked s .policySubmit submit ∧ (s.slot 0).stamp.counter = 65535) ∧
    (let s := withSlot node 0 { content := .empty, stamp := { counter := 65534, origin := 1#16 } }
     Asked s .policySubmit submit ∧ (s.slot 0).stamp.counter ≠ 65535) := by
  repeat' apply And.intro
  all_goals first | exact asked_of (by decide +kernel) | decide +kernel

/-- Each check of Table 7.2 at the ends of its range: the action, the groups, the days, the two times, the cap; the group,
class and pause of a device; M0 at the present and one tick ahead. -/
theorem met_SubmissionChecks :
    (let taken (slot : Nat) (content : List Nat) : Bool :=
       (submittedContent 100000 (parseRecordAt (record18 slot 1 0 0 content) 0)).isSome
     [taken 31 [2, 1, 1, 0, 0, 0, 1, 15], taken 31 [2, 128, 0x40, 1439 / 256, 1439 % 256, 0, 0, 1],
      taken 0 [3, 0, 1, 0, 0, 0, 1, 0], taken 0 [1, 1, 0x80 + 1, 0, 0, 0, 1, 0],
      taken 32 [0, 0, 0, 0, 0, 1, 7, 2, 71582788 / 2 ^ 24, 71582788 / 2 ^ 16, 71582788 / 2 ^ 8, 71582788],
      taken 96 [0, 0, 0, 1, 0, 0, 1, 0x86, 0xA0]] = List.replicate 6 true ∧
     [taken 31 [2, 1, 1, 0, 0, 0, 1, 16], taken 31 [2, 1, 1, 0, 0, 0, 1, 0], taken 0 [1, 0, 1, 0, 0, 0, 1, 0],
      taken 0 [3, 1, 1, 0, 0, 0, 1, 0], taken 0 [1, 1, 0x80, 0, 0, 0, 1, 0], taken 0 [1, 1, 1, 0, 0, 0, 0, 0],
      taken 0 [1, 1, 1, 1440 / 256, 1440 % 256, 0, 0, 0], taken 0 [4, 1, 1, 0, 0, 0, 1, 0], taken 0 [0, 1, 1, 0, 0, 0, 1, 0],
      taken 95 [0, 0, 0, 0, 0, 0, 7, 2], taken 95 [0, 0, 0, 0, 0, 1, 8, 2], taken 95 [0, 0, 0, 0, 0, 1, 7, 3],
      taken 95 [0, 0, 0, 0, 0, 1, 7, 2, 71582789 / 2 ^ 24, 71582789 / 2 ^ 16, 71582789 / 2 ^ 8, 71582789],
      taken 96 [0, 0, 0, 1, 0, 0, 1, 0x86, 0xA1]] = List.replicate 14 false) := by
  decide +kernel

def stampList (n counter origin : Nat) : List Byte :=
  (List.replicate (4 * n) 0#8) ++ be 2 counter ++ be 2 origin ++ List.replicate (384 - 4 * n) 0#8

/-- Stamps equal everywhere, ahead in a slot here, behind in one there, already answered, loading; a GET that names a slot
at 96, one at 97, and none. -/
theorem met_PolicyGossipIsAnswered :
    (let f := toNode .policyList (stampList 96 0 0)
     Meets pair .policyList f ∧ pair.findEntry f.src = some 7 ∧ pair.entry 7 = some peer ∧ pair.pst.loading = false ∧
       Meets { pair with pst := { pair.pst with loading := true } } .policyList f ∧
       Meets (withEntry node 7 { peer with answered := true }) .policyList f) ∧
    (let f := toNode .policyList (stampList 96 1 1)
     Meets pair .policyList f ∧ (parseStamp f.body (4 * 96)).newerThan (pair.slot 96).stamp = true) ∧
    (let f := toNode .policyGet (bytes [1, 96])
     Meets pair .policyGet f ∧ ∀ n ∈ (f.body.drop 1).map BitVec.toNat, n ≤ 96) ∧
    (let f := toNode .policyGet (bytes [1, 97])
     Meets pair .policyGet f ∧ ∃ n ∈ (f.body.drop 1).map BitVec.toNat, 96 < n) ∧
    Meets pair .policyGet (toNode .policyGet (bytes [0])) ∧
    (let s := withEntry node 7 { peer with listGuard := none }
     let adv : Advertised := { advertised with image := .empty }
     s.run = .running ∧ s.pst.loading = false ∧ peer.adv.digest ≠ s.pst.digest ∧ peer.listGuard.isSome ∧
       meetsBeacon s { peer with listGuard := none } 99999 adv = true ∧ (99999 : Nat) < s.now ∧ s.ims.mayFetch = false ∧
       peer.link = .active) := by
  repeat' apply And.intro
  all_goals first | exact meets_of (by decide +kernel) | decide +kernel

def gossip (counter origin : Nat) : RxFrame := toNode .policyRecord (bytes [1] ++ record18 31 1 counter origin nightWindow)

/-- A slot held with stamp (2, 0x42), and records stamped one origin below, the same, one origin above and one counter
above; a record with counter 0, and one with no valid origin. -/
theorem met_PolicyRecordMergesNewer :
    (let s := withSlot pair 31 { content := .tombstone, stamp := { counter := 2, origin := 0x42#16 } }
     ∀ p ∈ [(2, 0x41), (2, 0x42), (2, 0x43), (3, 1), (1, 0xFFFE), (0, 0x42), (3, 0xFFFF), (3, 0)],
       meets s .policyRecord (gossip p.1 p.2) = true ∧ byteAt (gossip p.1 p.2).body 0 = 1 ∧ s.pst.loading = false ∧
         (receivedSlot (parseRecordAt (gossip p.1 p.2).body 1)).isSome = decide (p.1 ≠ 0 ∧ p.2 ≠ 0 ∧ p.2 ≠ 0xFFFF)) ∧
    Meets { pair with pst := { pair.pst with loading := true } } .policyRecord (gossip 3 1) ∧
    (let b := bytes [2] ++ record18 31 1 1 7 nightWindow ++ record18 31 1 2 7 nightWindow
     let r := parseRecordAt b 1
     Meets pair .policyRecord (toNode .policyRecord b) ∧ parseRecordAt b (1 + 18) = { r with stamp := { r.stamp with counter := 2 } } ∧
       soundState (pair.mergeRecord r) = true ∧ ((pair.mergeRecord r).slot 31).stamp.counter = 1) := by
  repeat' apply And.intro
  all_goals first | exact meets_of (by decide +kernel) | decide +kernel

theorem met_PolicyIsPersisted :
    (let s : State := { node with pst := { node.pst with persist := .scheduled 100000 } }
     Good s ∧ 100000 ≤ s.now) ∧
    (∀ again ∈ [true, false],
      good (running { node with pst := { node.pst with persist := .writing, rewrite := again } } .policyWrite) = true) ∧
    (Good (running node .policyRead) ∧
      (parsePolicyImage (policyImageBytes node.pst.slots)).isSome ∧ parsePolicyImage (List.replicate 4096 0#8) = none) := by
  repeat' apply And.intro
  all_goals first | exact good_of (by decide +kernel) | decide +kernel

def reading : State := running pair .headRead

def gossiped : Instr := .policyRecord 0x42#16 (gossip 1 0x42)

/-- A POLICY-RECORD with a newer stamp, taken while a flash operation runs. -/
theorem met_StampsNeverAge :
    Good reading ∧ isReset gossiped = false ∧ (reading.flp.operation.map FlashOperation.kind) = some .headRead ∧
      exec gossiped reading = .next (after gossiped reading) ∧
      ((after gossiped reading).slot 31).stamp = { counter := 1, origin := 0x42#16 } :=
  ⟨good_of (by decide +kernel), by decide +kernel, by decide +kernel, next_of (by decide +kernel), by decide +kernel⟩

/-! ## Premises met: schedule enforcement and game traffic -/

theorem met_WindowsGiveGroupStates :
    ((0 : Nat) < 7 ∧ (6 : Nat) < 7 ∧ (0 : Nat) < 1440 ∧ (1439 : Nat) < 1440) ∧
    (parseWindow (bytes nightWindow)).any (fun w => w.stopMinute < w.startMinute) = true := by
  decide +kernel

/-- A record waits for no radio above 2. -/
theorem no_fourth_radio (l : List (List Nat)) (h : l.length = 3) (p : Nat) (hp : 3 ≤ p) : forRadio l p = [] := by
  simp [forRadio, List.getElem?_eq_none (h ▸ hp)]

/-- A SERVED client, a client not SERVED, and a window slot that blocks their group at the noticed minute. Then a client
with an unsent PAUSE behind a full in-flight queue, whose effective state does not change; and one whose effective state
returns to what its radio applies, which withdraws the PAUSE. -/
theorem met_WallNoticeEvaluates :
    let s := withSlot (withRecord (withRecord { node with wallNotices := [some 1290, none] } 0 served) 63
        { remote with addr := 0xDEF#48 }) 0
      { content := .window { action := .block, groups := 0xFF#8, days := 0x1F#7, startMinute := 1290, stopMinute := 390,
                             cap := 0 }
        stamp := { counter := 1, origin := 0x31#16 } }
    Good s ∧ s.wallNotices = some 1290 :: [none] ∧ s.evq.events.length + 8 ≤ 32 ∧ s.seu.groups[1]? = some .open ∧
      groupStateAt s.pst.slots (some 1290) 1 = .blocked ∧ groupStateAt s.pst.slots (some 1289) 1 = .open ∧
      ({ served with pendingEnforcement := some .pause } : ClientRecord).enforced = EnforcementDirective.resume.applied ∧
      (s.record 0 = some served ∧ ∀ p ∈ [0, 2], 0 ∉ forRadio s.rli.waiting p) ∧ served.pendingEnforcement = none ∧
      enforcementFor .open .paused = some .pause ∧
      (let u : State := { backlog with wallNotices := [none] }
       Good u ∧ enforcementFor .paused .open = some .resume ∧
         (u.record 63).map (fun r => (r.effective, r.pendingEnforcement, r.enforced)) =
           some (.open, some .pause, .open)) ∧
      (let u : State := { withRecord backlog 63 { served with effective := .paused, pendingEnforcement := some .pause } with
         wallNotices := [none] }
       Good u ∧ u.wallNotices = [none] ∧ EnforcementDirective.resume.applied = served.enforced ∧
         ∀ p ∈ [0, 2], 63 ∉ forRadio u.rli.waiting p) := by
  repeat' apply And.intro
  all_goals first | exact good_of (by decide +kernel) | decide +kernel

def second (up down small n : Nat) : TrafficCounts :=
  { packetsUp := up, packetsDown := down, smallUp := small, smallDown := small, bytes := n }

theorem met_GameLikeSecond :
    ∀ code ∈ [0, 1, 2, 3],
      gameLike { cfg with gameCode := code } (second 99 99 (10 * (code + 1)) (125000 * (code + 1))) = true ∧
      gameLike { cfg with gameCode := code } (second 99 99 (10 * (code + 1) - 1) (125000 * (code + 1))) = false ∧
      gameLike { cfg with gameCode := code } (second 99 99 (10 * (code + 1)) (125000 * (code + 1) + 1)) = false := by
  decide

/-- Small packets one above and equal to all packets; a client not SERVED on the radio; evidence that a game-like second
takes to 8, and one that another takes to 2 from a set flag. -/
theorem met_TrafficMovesEvidence :
    (Good node ∧ node.run = .running ∧ 1 < cfg.radioCount ∧ (19 : Nat) < 20 ∧ ¬((20 : Nat) < 20 ∨ (20 : Nat) < 20)) ∧
    (Good (withRecord node 63 remote) ∧ remote.serving ≠ .served 1) ∧
    (Good (withRecord node 63 served) ∧ served.evidence = 7 ∧ gameLike cfg (second 20 20 20 250000) = true) ∧
    (let r := { served with evidence := 4, gameActive := true, directed := .game }
     Good (withRecord { node with gtm := { node.gtm with servedGame := 1, yieldHolds := true } } 63 r) ∧
       gameLike cfg (second 20 20 19 0) = false) ∧
    (yieldCondition node.gtm = node.gtm.yieldHolds ∧ (let g := { node.gtm with peerGame := 1 }
      yieldCondition g ≠ g.yieldHolds)) := by
  repeat' apply And.intro
  all_goals first | exact good_of (by decide +kernel) | decide +kernel

def player : ClientRecord := { served with gameActive := true, directed := .game }

def blocking : State :=
  withSlot (withRecord { node with wallNotices := [some 1290] } 63 player) 0
    { content := .window { action := .block, groups := 0xFF#8, days := 0x1F#7, startMinute := 1290, stopMinute := 390,
                           cap := 0 }
      stamp := { counter := 1, origin := 0x31#16 } }

/-- A game-active client of priority GAME whose group is blocked loses the priority. -/
theorem met_GamePriorityOnlyWhenOpen :
    Good blocking ∧
    (∀ i r, blocking.record i = some r → r.directed = .game → r.isServed = true ∧ r.effective = .open) ∧
    exec .wallStateNotice blocking = .next (after .wallStateNotice blocking) ∧
    ((after .wallStateNotice blocking).record 63).map (fun x => (x.directed, x.effective)) = some (.normal, .paused) := by
  refine ⟨good_of (by decide +kernel), fun i r hr _ => ?_, next_of (by decide +kernel), by decide +kernel⟩
  have h : ∀ i, i < 64 → (blocking.record i).all (fun r => r.isServed && decide (r.effective = .open)) = true := by
    decide +kernel
  have := h i (slotAt_lt hr)
  rw [hr] at this
  simpa using this

/-! ## Premises met: image store and flash port -/

/-- A head of `n` data chunks and one index chunk, with its check value. -/
def headOf (version n : Nat) : Head :=
  let h : Head := { imageId := 7, version := version, chunkCount := n, lastLength := 1, indexCount := 1,
                    indexChecks := crc32 (bytes [1, 2]) :: List.replicate 7 0, check := 0 }
  { h with check := crc32 (headCoveredBytes h) }

/-- A node with a current head, in an image state, with index chunk 0 present and its entries known. -/
def imaged (i : ImageState) : State :=
  { pair with
    ims := { pair.ims with
      image := i, head := some (headOf 3 2), presentIndex := [0], presentData := [0]
      indexTable := some (List.replicate 1024 (crc32 (bytes [1, 2]))) :: List.replicate 7 none
      patrolDeadline := if i.patrolled then some 100000 else none } }

def withBuffer (s : State) (b : Buffer) : State := { s with ims := { s.ims with buffers := [.free, b] } }

def filled (c : ChunkRef) (stage : BufferStage) : Buffer := .held stage c (bytes [1, 2]) (crc32 (bytes [1, 2])) false

/-- A request of each rank behind one of a lower rank; an operation of each kind at its deadline. -/
theorem met_FlashOperationsBeginAndFail :
    (∀ k ∈ [FlashKind.configRead, .policyRead, .policyWrite, .headWrite, .program 1, .verify 1, .headRead,
        .scanRead (.data 0), .patrolRead (.index 0)],
      (let r : FlashRequest := { kind := k, discard := false }
       let low : FlashRequest := { kind := .serveRead 0x42#16 (.data 0), discard := false }
       let s := withBuffer { imaged .complete with flp := { waiting := [low, r, low], operation := none } }
         (filled (.data 1) .filled)
       good s = true ∧ s.flp.waiting = [low] ++ r :: [low] ∧ (∀ x ∈ [low], flashRank r.kind < flashRank x.kind) ∧
         (∀ x ∈ [low], flashRank r.kind ≤ flashRank x.kind))) ∧
    (∀ k ∈ [FlashKind.configRead, .policyRead, .policyWrite, .headWrite, .program 1, .serveRead 0x42#16 (.data 0)],
      (let s := running { imaged .complete with icu := { node.icu with marker := true } } k
       good s = true ∧ s.flp.operation.map FlashOperation.deadline = some s.now ∧ s.ims.scan = .off)) := by
  decide +kernel

theorem met_ProgramAndVerify :
    (Good node ∧ node.flp.operation = none) ∧ Good (running node .headWrite) ∧
    (let s := withBuffer (running (imaged .fetching) (.program 1)) (filled (.data 1) .programming)
     Good s ∧ s.ims.buffers[1]? = some (.held .programming (.data 1) (bytes [1, 2]) (crc32 (bytes [1, 2])) false)) ∧
    (∀ n ∈ [1, 2],
      (let s := withBuffer (running (imaged .fetching) (.verify 1)) (filled (.data 1) .verifying)
       let s : State := { s with ims := { s.ims with verifyFailures := n } }
       good s = true ∧ s.ims.scan = .off ∧ crc32 [] ≠ crc32 (bytes [1, 2]))) ∧
    (let s := withBuffer (running (imaged .fetching) (.verify 1)) (filled (.index 7) .verifying)
     Good s ∧ s.ims.isPresent (.index 7) = false ∧ s.ims.isPresent (.data 1) = false) := by
  repeat' apply And.intro
  all_goals first | exact good_of (by decide +kernel) | decide +kernel

def scanning (c : ChunkRef) : State :=
  let s := running (imaged .empty) (.scanRead c)
  { s with ims := { s.ims with scan := .reading c } }

/-- A head of the full capacity and one chunk above it, and an invalid one; a scan read with a chunk to follow, and the
last one. -/
theorem met_RecoveryScanReads :
    (let s : State := { running node .headRead with ims := { node.ims with scan := .readingHead } }
     Good s ∧ s.ims.image = .empty ∧ s.ims.patrolDeadline = none ∧ s.ims.heldHead = none ∧ s.icu.install ≠ .staged) ∧
    (let h : Head := { headOf 3 4080 with indexCount := 4 }
     let h := { h with check := crc32 (headCoveredBytes h) }
     let g : Head := { h with chunkCount := 4081 }
     let g := { g with check := crc32 (headCoveredBytes g) }
     (parseHead (headBlockBytes h true)).valid = true ∧ (parseHead (headBlockBytes h true)).chunkCount ≤ flashCapacity cfg ∧
       (parseHead (headBlockBytes g true)).valid = true ∧ flashCapacity cfg < (parseHead (headBlockBytes g true)).chunkCount ∧
       (parseHead []).valid = false) ∧
    (Good (scanning (.index 0)) ∧
      (scanning (.index 0)).ims.scanNext (headOf 3 2) (.index 0) = some (.data 0)) ∧
    (Good (scanning (.data 1)) ∧ (scanning (.data 1)).ims.scanNext (headOf 3 2) (.data 1) = none) := by
  repeat' apply And.intro
  all_goals first | exact good_of (by decide +kernel) | decide +kernel

theorem met_ServeAndPatrolReads :
    (∀ k ∈ [FlashKind.serveRead 0x42#16 (.data 0), .patrolRead (.data 0), .patrolRead (.data 1)],
      good (running (imaged .complete) k) = true) ∧
    (let m := (imaged .complete).ims
     m.expectedCheck (.data 0) = some (crc32 (bytes [1, 2])) ∧ m.expectedCheck (.data 0) ≠ some (crc32 []) ∧
       m.isPresent (.data 0) = true ∧ m.checkable (.data 0) = true ∧ m.isPresent (.data 1) = false) ∧
    (let o : FlashOperation := { kind := .patrolRead (.data 0), discard := true, deadline := 100001, marker := false }
     Good { imaged .complete with flp := { waiting := [], operation := some o } }) := by
  repeat' apply And.intro
  all_goals first | exact good_of (by decide +kernel) | decide +kernel

/-- A head with the current version, one of a higher id, a higher version, one chunk above the capacity, an invalid one. -/
theorem met_HeadsAreExchanged :
    (Meets (imaged .complete) .headGet (toNode .headGet []) ∧ Meets pair .headGet (toNode .headGet []) ∧
      pair.ims.image = .empty ∧ (imaged .complete).ims.scan = .off) ∧
    (∀ h ∈ [headOf 3 2, headOf 4 2], meets (imaged .complete) .head (toNode .head (headBytes h)) = true ∧
      parseHead (headBytes h) = h ∧ h.valid = true ∧ h.chunkCount ≤ flashCapacity cfg) ∧
    (let s := withInstall (imaged .complete) .staged
     Meets s .head (toNode .head (headBytes (headOf 4 2))) ∧ s.icu.install = .staged) ∧
    (let f := toNode .head (List.replicate 47 0#8)
     Meets pair .head f ∧ (parseHead f.body).valid = false) ∧
    (let s : State := { pair with ims := { pair.ims with image := .fault } }
     Meets s .headGet (toNode .headGet []) ∧ s.ims.head = none) ∧
    (∀ held ∈ [none, some { head := headOf 3 2, sender := none }], ∀ h ∈ [headOf 2 2, headOf 3 2, headOf 4 2],
      (let s : State := { pair with ims := { pair.ims with scan := .readingHead, heldHead := held } }
       meets s .head (toNode .head (headBytes h)) = true ∧ s.ims.scan ≠ .off)) := by
  repeat' apply And.intro
  all_goals first | exact meets_of (by decide +kernel) | decide +kernel

def fetchOf (version kind n : Nat) : RxFrame := toNode .fetch (be 4 7 ++ be 2 version ++ be 1 kind ++ be 2 n)

def fetching : State :=
  let s := imaged .fetching
  { s with ims := { s.ims with
      fetches := [none, none, none, some { chunk := .data 1, peer := 0x42#16, deadline := .running 100000 }] } }

/-- The data bytes of a chunk whose check value is not that of its entry. -/
def chunkFrame : RxFrame := toNode .chunk (be 4 7 ++ be 2 3 ++ be 1 0 ++ be 2 1 ++ List.replicate 4096 0#8)

theorem met_ChunksAreServedAndTaken :
    (∀ f ∈ [fetchOf 3 0 0, fetchOf 3 1 0, fetchOf 3 0 1, fetchOf 2 0 0, fetchOf 3 2 0],
      meets (imaged .complete) .fetch f = true) ∧
    (parseChunkRef (fetchOf 3 0 0).body = some (.data 0) ∧ parseChunkRef (fetchOf 3 1 0).body = some (.index 0) ∧
      parseChunkRef (fetchOf 3 2 0).body = none ∧ (imaged .complete).bcu.bulkQueue.length < 2) ∧
    (let s : State := { imaged .complete with bcu := { node.bcu with
        bulkQueue := [.reserved 0x42#16 (.data 0), .reserved 0x42#16 (.data 0)] } }
     Meets s .fetch (fetchOf 3 0 0) ∧ 2 ≤ s.bcu.bulkQueue.length) ∧
    (Meets fetching .chunk chunkFrame ∧ fetching.matchFetch 0x42#16 chunkFrame.body = some (3, .data 1) ∧
      fetching.ims.checkable (.data 1) = true ∧ fetching.ims.freeBuffer = some 0 ∧
      fetching.ims.expectedCheck (.data 1) ≠ some (crc32 (chunkFrame.body.drop 9)) ∧ fetching.ims.mayFetch = true ∧
      (imaged .fetching).matchFetch 0x42#16 chunkFrame.body = none) ∧
    (let s : State := { fetching with ims := { fetching.ims with
        indexTable := some (List.replicate 1024 (crc32 (List.replicate 4096 0#8))) :: List.replicate 7 none } }
     Meets s .chunk chunkFrame ∧ s.ims.expectedCheck (.data 1) = some (crc32 (chunkFrame.body.drop 9))) ∧
    (let s : State := { fetching with ims := { fetching.ims with
        buffers := [filled (.data 0) .verifying, filled (.index 0) .verifying] } }
     Meets s .chunk chunkFrame ∧ s.ims.freeBuffer = none) ∧
    (let s : State := { fetching with ims := { fetching.ims with presentIndex := [] } }
     Meets s .chunk chunkFrame ∧ s.ims.checkable (.data 1) = false) ∧
    (let s : State := { fetching with ims := { fetching.ims with yielding := true } }
     Meets s .chunk chunkFrame ∧ s.ims.mayFetch = false) := by
  repeat' apply And.intro
  all_goals first | exact meets_of (by decide +kernel) | decide +kernel

/-- A fetch at its deadline, every expiry due, in FETCHING, INDEXING and COMPLETE; a held fetch; a chunk to be fetched from
the peer, and none once the peer's fail count is 4. -/
theorem met_FetchDeadlinesAndPatrol :
    (∀ i ∈ [ImageState.fetching, .indexing, .complete],
      (let s : State := { fetching with ims := { fetching.ims with
          image := i, halvingDeadline := some 100000, patrolDeadline := if i.patrolled then some 100000 else none } }
       good s = true ∧ s.run = .running ∧ 100000 ≤ s.now ∧ s.findEntry 0x42#16 = some 7 ∧ s.flp.patrolBusy = false ∧
         good { s with yieldNoticesIms := [true] } = true ∧ good { s with yieldNoticesIms := [false] } = true)) ∧
    (fetching.ims.patrolNext = some (.index 0) ∧ (running fetching (.patrolRead (.data 0))).flp.patrolBusy = true) ∧
    (let s : State := { fetching with ims := { fetching.ims with
        yielding := true
        fetches := [some { chunk := .data 1, peer := 0x42#16, deadline := .held 0 }, none, none, none] } }
     good s = true ∧ s.ims.mayFetch = false) ∧
    ((imaged .fetching).ims.mayFetch = true ∧ (imaged .fetching).nextFetch (headOf 3 2) = some (.data 1, peer) ∧
      (withEntry (imaged .fetching) 7 { peer with fetchFails := 4 }).nextFetch (headOf 3 2) = none) := by
  decide +kernel

/-! ## Premises met: install coordination, the local port, the whole machine -/

/-- All six conditions of intent: an INSTALL window at the present minute, a COMPLETE image, no game, no conflict. -/
def willing (i : InstallState) (count : Nat) : State :=
  let s := withInstall (imaged .complete) i
  let s := withSlot s 96 { content := .clock { seconds := 60, meshTime := 100000 },
                           stamp := { counter := 1, origin := 1#16 } }
  let s := withSlot s 31
    { content := .window { action := .install, groups := 0#8, days := 1#7, startMinute := 1, stopMinute := 2, cap := 0 }
      stamp := { counter := 1, origin := 1#16 } }
  { s with icu := { s.icu with intentCount := count } }

theorem met_InstallLifeCycle :
    ((willing .idle 0).intentConditions = true ∧ (willing .idle 0).installConflict = false ∧
      (willing .intent 1).intentConditions = true ∧ (willing .intent 2).hoc.contexts.length = 4 ∧
      (willing .draining 2).installWindow = true ∧ node.installWindow = false ∧ node.intentConditions = false) ∧
    (let s := withRecord (willing .draining 2) 63 served
     Good s ∧ s.icu.drainDeadline = some 100000 ∧ 100000 ≤ s.now ∧ s.servedCount = 1 ∧ s.run = .running) ∧
    (Asked (willing .staged 2) .imageInstalled [] ∧ Asked (willing .draining 2) .imageInstalled []) ∧
    (let s : State := { imaged .complete with icu := { node.icu with rewriteDeadline := some 100000 } }
     Good s ∧ s.flp.waiting = []) ∧
    (∀ i ∈ [InstallState.draining, .staged, .intent, .done],
      meetsBeacon (willing .intent 2) peer 99999 { advertised with install := i } = true ∧
        (let told := (willing .intent 2).modEntry 7 fun e => { e with adv := { advertised with install := i } }
         ∀ time ∈ [99999, 200000], (told.stepTime 7 0x42#16 time).icu.install = .intent)) := by
  repeat' apply And.intro
  all_goals first | exact good_of (by decide +kernel) | exact asked_of (by decide +kernel) | decide +kernel

/-- A drain aborted by a newer head. -/
theorem met_StagedOnlyWhileComplete :
    let s := willing .draining 2
    let c : Instr := .head 0x42#16 (toNode .head (headBytes (headOf 4 2)))
    isReset c = false ∧ s.flp = { waiting := [], operation := none } ∧ s.ims.image = .complete ∧
      s.icu.drainDeadline.isSome ∧ exec c s = .next (after c s) ∧ (after c s).ims.image = .indexing ∧
      (after c s).icu.install = .idle := by
  repeat' apply And.intro
  all_goals first | exact next_of (by decide +kernel) | decide +kernel

def event : EventRecord := { kind := .restarted, time := 0, subject := 0#48, detail := 0 }

def told (n : Nat) : State := { node with evq := { events := List.replicate n event, drops := 254 } }.driveLines

theorem met_PortRequestsAreAnswered :
    (Asked (halted pair) .status [] ∧ Asked (halted pair) .faultRead [] ∧
      Asked (halted (withRecord pair 63 served)) .clientRead (bytes [0, 63, 0, 0, 0, 0, 0, 0]) ∧
      Asked (halted (told 1)) .eventRead [] ∧ Asked (halted (told 0)) .eventRead []) ∧
    (Asked pair .status [] ∧ Asked pair .faultRead [] ∧ Asked pair .policyRead (bytes [96]) ∧
      Asked pair .policyRead (bytes [97]) ∧ Asked { pair with pst := { pair.pst with loading := true } } .policyRead
        (bytes [0])) ∧
    (let s := withRecord pair 63 served
     Asked s .clientRead (bytes [0, 63, 0, 0, 0, 0, 0, 0]) ∧ Asked s .clientRead (bytes [0, 64, 0, 0, 0, 0, 0, 0]) ∧
       Asked s .clientRead (bytes [0, 62, 0, 0, 0, 0, 0, 0]) ∧ Asked s .clientRead (bytes [1, 0, 0, 0, 0, 0, 0, 0]) ∧
       Asked s .clientRead (bytes [1, 0, 0, 0, 0, 0, 0, 1]) ∧ Asked s .clientRead (bytes [1, 0, 0, 0, 0, 0, 0x0A, 0xBC]) ∧
       s.findRecord (addrAt (bytes [1, 0, 0, 0, 0, 0, 0x0A, 0xBC]) 2) = some 63 ∧
       Asked s .clientRead (bytes [2, 0, 0, 0, 0, 0, 0, 0])) ∧
    (Asked pair .neighbourRead (bytes [7]) ∧ Asked pair .neighbourRead (bytes [6]) ∧
      Asked pair .neighbourRead (bytes [8]) ∧ pair.entry 6 = none) ∧
    (∀ h ∈ [headOf 3 2, headOf 4 2], asked (imaged .complete) .headSubmit (headBytes h) = true ∧
      parseHead (headBytes h) = h ∧ h.valid = true) ∧
    (let b := chunkFrame.body
     Asked (imaged .fetching) .chunkSubmit b ∧ Asked (imaged .complete) .chunkSubmit b ∧
       (imaged .fetching).ims.submittable (.data 1) = true ∧ (imaged .fetching).ims.submittable (.data 0) = false ∧
       (imaged .fetching).ims.freeBuffer = some 0 ∧ parseChunkRef b = some (.data 1)) := by
  repeat' apply And.intro
  all_goals first | exact asked_of (by decide +kernel) | decide +kernel

def faulted (k : FaultKind) : State :=
  { node with frc := { first := some { kind := k, cls := faultClassOf k, time := 1, detail := 0 }, later := 0#5 } }.driveLines

theorem met_EventsFaultsAndResponses :
    (Asked (told 0) .eventRead [] ∧ Asked (told 1) .eventRead [] ∧ (told 31).evq.events.length < 32 ∧
      32 ≤ (told 32).evq.events.length ∧ Good (told 32)) ∧
    (Good (faulted .patrolBadChunk) ∧ Asked (faulted .storeVerify) .faultClear [] ∧
      faultClassRank (faultClassOf .patrolBadChunk) < faultClassRank (faultClassOf .flashNoResponse) ∧
      faultClassRank (faultClassOf .flashNoResponse) ≤ faultClassRank (faultClassOf .storeVerify)) ∧
    (let s : State := { node with lpi := { node.lpi with response := some { kind := 1#8, result := .ok, body := [] } } }
     Good s ∧ s.run = .running) ∧
    ((12 : Nat) < (13#8).toNat ∧ (requestOf 12#8).isSome ∧ [0#8].length ≠ requestLength .status) := by
  repeat' apply And.intro
  all_goals first | exact good_of (by decide +kernel) | exact asked_of (by decide +kernel) | decide +kernel

theorem met_RestartNotices :
    Asked node .restart [] ∧ Block.bcu ∉ node.restartNotices ∧
    (∀ i ∈ [InstallState.idle, .intent, .draining, .staged, .done],
      good { withInstall (imaged .complete) i with restartNotices := allBlocks } = true) ∧
    Block.bcu ∈ allBlocks ∧ Block.flp ∈ allBlocks := by
  repeat' apply And.intro
  all_goals first | exact asked_of (by decide +kernel) | decide +kernel

theorem met_StepKeepsSettled :
    let c : Instr := .sight 1 0xABC#48 (-70)
    Good node ∧ exec c node = .next (after c node) ∧ ((after c node).recordOf 0xABC#48).bind ClientRecord.localLevel =
      some (-1120) := by
  repeat' apply And.intro
  all_goals first | exact good_of (by decide +kernel) | exact next_of (by decide +kernel) | decide +kernel

theorem met_HaltAndTimeAreOneWay :
    (Good node ∧ isReset .tick = false ∧ exec .tick node = .next (after .tick node) ∧ (after .tick node).now = 100001) ∧
    (let s : State := { node with run := .configHalt }
     let c : Instr := .assoc 1 0xABC#48
     s.flp = { waiting := [], operation := none } ∧ exec c s = .next (after c s) ∧ (after c s).run = .configHalt) := by
  repeat' apply And.intro
  all_goals first | exact good_of (by decide +kernel) | exact next_of (by decide +kernel) | decide +kernel

/-! ## Premises met: more clauses of the statements above -/

/-- No wall-state notice waits in the states of the statements that ask for it. -/
theorem met_NoNoticeWaits :
    ∀ s ∈ [node, pair, halted node, clock 100000 60, withRecord node 63 seen, crowded 63 served, backlog, fullTable,
        running node .policyRead, withEntry pair 6 (other peer)], s.wallNotices = [] := by
  decide +kernel

/-- A BEACON in flight at the head, with another waiting behind it and without; a full queue whose head is a BEACON in
flight. -/
theorem met_BeaconBehindOneInFlight :
    (let busy (l : List FrameKind) : State :=
       { queued l with bcu := { (queued l).bcu with inFlight := some .control } }
     let rest (l : List FrameKind) : List FrameKind := ((busy l).bcu.controlQueue.drop 1).map TxFrame.kind
     (busy [.beacon]).run = .running ∧ (busy [.beacon]).bcu.controlQueue.length < 8 ∧ rest [.beacon] = [] ∧
       rest [.beacon, .claim, .beacon, .beacon] = [.claim] ++ .beacon :: [.beacon] ∧
       8 ≤ (busy (.beacon :: List.replicate 7 .claim)).bcu.controlQueue.length ∧
       .beacon ∉ rest (.beacon :: List.replicate 7 .claim) ∧ FrameKind.beacon ≠ .chunk) := by
  decide +kernel

/-- A CLAIM on the channel whose last byte is wrong; an empty POLICY-GET, a SIGHTINGS frame of 24 entries. -/
theorem met_FormCheck :
    (let b := (buildFrame .claim 0x42#16 0x31#16 (claimBytes 0xABC#48 9 (-160))).bytes
     parseFrame b = some (.claim, toNode .claim (claimBytes 0xABC#48 9 (-160))) ∧
     (parseFrame (b.set 19 0#8)).any (fun p => decide (p.1 = .claim) && !frameFormOk p.1 p.2) = true ∧
     (b.set 19 0#8 ≠ b) ∧ good pair = true) ∧
    (frameFormOk .policyGet (toNode .policyGet [0#8]) = true ∧
      frameFormOk .sightings (toAll .sightings (sightingsBytes (List.replicate 24 (sighting true 5)))) = true ∧
      frameFormOk .headGet (toNode .headGet [0#8]) = false) := by
  decide +kernel

/-- Of two UNSEEN records of one last activity the first, of two REMOTE ones the one without a local level; none where a
release context or a reservation keeps each. -/
theorem met_RecordsAreObtainedByRank :
    (let two (r x : ClientRecord) : State := withRecord (crowded 9 r) 40 { x with addr := 0xDEF#48 }
     (two seen seen).crg.records.length = 64 ∧ (two seen seen).obtainForSighting = some 9 ∧
       (two seen { seen with lastActivity := 34463 }).obtainForSighting = some 40 ∧
       (two remote { remote with localLevel := none }).obtainForAdmission = some 40 ∧
       (two remote { remote with localLevel := some (-1001) }).obtainForAdmission = some 40 ∧
       (two remote remote).obtainForAdmission = some 9 ∧ (two remote seen).obtainForAdmission = some 40 ∧
       (two { seen with admitPending := some 1 } releasing).obtainForAdmission = none) := by
  decide +kernel

/-- An unsent PRIORITY (GAME) at the head of a full radio's waiting list. -/
theorem met_TakenSendsGame :
    let s := withRecord backlog 63 { served with pendingPriority := some .game, directed := .game }
    Good s ∧ s.record 63 = some { served with pendingPriority := some .game, directed := .game } ∧
      forRadio s.rli.waiting 1 = 63 :: [] ∧ 16 = (forRadio s.rli.inFlight 1).length := by
  repeat' apply And.intro
  all_goals first | exact good_of (by decide +kernel) | decide +kernel

/-- A client SERVED here without a release context, with one of the peer and with one of another peer, and one whose radio is
full. -/
theorem met_SupersededRecordGivesWay :
    (∀ s ∈ [withRecord pair 63 served, withRecord pair 63 releasing,
        withRecord pair 63 { releasing with release := some { claimant := 0x43#16, seq := 9, deadline := 100000 } },
        withEntry backlog 7 peer],
      meets s .sightings (sightings (sighting true 6)) = true ∧ s.findRecord 0xABC#48 = some 63 ∧
        (s.record 63).map (fun r => (r.serving, r.epoch)) = some (.served 1, 5)) ∧
    (sighting true 6).valid = true ∧ parseSightings (sightings (sighting true 6)).body = [sighting true 6] := by
  decide +kernel

/-- Three reports of other peers, two of them at one level; a fourth that is stronger than the weakest, one that is as
strong, one that is served; the weakest spared as the server's. -/
theorem met_ReportReplacement :
    (let at' (p : NodeId) (l : Int) (f : Bool) : PeerReport := { report with peer := p, level := l, served := f }
     let held := [at' 1#16 (-500) true, at' 2#16 (-600) false, at' 3#16 (-600) false]
     held.Pairwise (fun x y => y.level < x.level ∨ (x.level = y.level ∧ x.peer.toNat < y.peer.toNat)) ∧
     (held.map PeerReport.peer).Nodup ∧ held.length = 3 ∧
     (writeReport (some 1#16) (at' 4#16 (-599) false) held).map PeerReport.peer = [1#16, 4#16, 2#16] ∧
     writeReport (some 1#16) (at' 4#16 (-600) false) held = held ∧
     (writeReport (some 1#16) (at' 4#16 (-700) true) held).map PeerReport.peer = [1#16, 2#16, 4#16] ∧
     (writeReport (some 3#16) (at' 4#16 (-599) false) held).map PeerReport.peer = [1#16, 4#16, 3#16]) := by
  decide +kernel

/-- REFUSE of client address 0, of cause 0 and of cause 4; CANCEL of client address 0. -/
theorem met_MalformedRefuseAndCancel :
    (∀ p ∈ [(0#48, 1), (0xABC#48, 0), (0xABC#48, 4)],
      meets pair .refuse (toNode .refuse (refuseBytes p.1 9 p.2)) = true ∧
        (addrAt (refuseBytes p.1 9 p.2) 0 = 0#48 ∨ byteAt (refuseBytes p.1 9 p.2) 7 = 0 ∨
          3 < byteAt (refuseBytes p.1 9 p.2) 7)) ∧
    meets pair .cancel (toNode .cancel (cancelBytes 0#48 9)) = true := by
  decide +kernel

/-- The last SERVED client of a draining node, and one of two. -/
theorem met_DisassocAtADrainingNode :
    (let last := withRecord (willing .draining 2) 63 served
     let two := withRecord last 5 { served with addr := 0xDEF#48 }
     good last = true ∧ last.servedCount = 1 ∧ last.icu.install = .draining ∧ good two = true ∧ two.servedCount = 2 ∧
       two.findRecord 0xABC#48 = some 63) := by
  decide +kernel

def blockAll (minute : Nat) : Slot :=
  { content := .window { action := .block, groups := 0xFF#8, days := 0x7F#7, startMinute := minute, stopMinute := 390, cap := 0 }
    stamp := { counter := 1, origin := 0x31#16 } }

def deviceSlot (a : ClientAddr) : Slot :=
  { content := .device { addr := a, group := 7, cls := .game, pauseUntil := 99 }, stamp := { counter := 1, origin := 0x31#16 } }

/-- A window slot at the ends of its bank whose new content blocks every group; a device slot at the ends of its bank that
names another client than it named, one SERVED and one not; the clock slot with a clock record that changes the wall state. -/
theorem met_SlotChangeIsNotified :
    (let s := withRecord (withRecord { node with seu := { node.seu with held := some 1290 } } 63 served) 5
       { remote with addr := 0xDEF#48 }
     let d (n : Nat) : State := withSlot s n (deviceSlot 0xABC#48)
     soundState s = true ∧ s.wallNotices = [] ∧ s.evq.events.length + 9 ≤ 32 ∧ s.seu.groups[1]? = some .open ∧
       (∀ n ∈ [0, 31], groupStateAt (s.changeSlot n (blockAll 1290) 1).pst.slots (some 1290) 1 = .blocked) ∧
       (∀ n ∈ [32, 95], soundState (d n) = true ∧ ((d n).slot n).content = (deviceSlot 0xABC#48).content ∧
         (((d n).changeSlot n (deviceSlot 0xDEF#48) 2).record 63).map (fun r => (r.group, r.cls)) = some (0, .auto) ∧
         (((d n).changeSlot n (deviceSlot 0xDEF#48) 2).record 5).map (fun r => (r.group, r.cls)) = some (7, .game)) ∧
       s.mtb.lastNotified = none ∧ (s.changeSlot 96 ((clock 100000 60).slot 96) 1).wallMinute = some 1) := by
  decide +kernel

/-- Two notices that wait, in a running part and in CONFIG-HALT, with a good policy image to be loaded. -/
theorem met_NoticesAreTakenFirst :
    (let s : State := { withRecord node 63 served with wallNotices := [some 1290, none] }
     s.wallNotices = some 1290 :: [none] ∧ s.run ≠ .resetHeld ∧ s.run = .running ∧ (halted s).run = .configHalt ∧
       1 < s.cfg.radioCount ∧ (parsePolicyImage (policyImageBytes node.pst.slots)).isSome = true) := by
  decide +kernel

/-- A client named in two device slots, one named in none with a pause carried, and one without. -/
theorem met_EffectiveDeviceAndPause :
    (let s := withSlot (withSlot node 95 (deviceSlot 0xABC#48)) 40
       { deviceSlot 0xABC#48 with content := .device { addr := 0xABC#48, group := 1, cls := .auto, pauseUntil := 5 } }
     (s.effectiveDevice 0xABC#48).map DeviceRecord.group = some 1 ∧ s.pauseUntil served = 5 ∧
       node.effectiveDevice 0xABC#48 = none ∧ node.pauseUntil { served with carriedPause := some 9 } = 9 ∧
       node.pauseUntil served = 0) := by
  decide +kernel

/-- A target that differs from the directed priority both ways, for a record with an unsent directive and without, and for one
that is not SERVED; a target that does not differ. -/
theorem met_PriorityDecisions :
    (let differs (r : ClientRecord) : Bool :=
       decide (r.directed ≠ if r.isServed = true ∧ r.gameActive = true ∧ r.effective = .open then .game else .normal)
     [{ player with directed := .normal }, { player with effective := .paused },
      { player with directed := .normal, pendingControl := some .disconnect }, { remote with directed := .game }].map
        differs = List.replicate 4 true ∧ differs player = false ∧ differs remote = false) := by
  decide +kernel

/-- A scan under way with a head held. -/
def holding (h : Head) (sender : Option NodeId) : State :=
  let u := scanning (.index 0)
  { u with ims := { u.ims with heldHead := some { head := h, sender := sender } } }

def badHead : Head := { headOf 4 2 with check := 0 }

/-- A recovery scan that ends at a deadline, with a held head that is taken, not newer, not valid, and held from the host; the
policy read at its deadline. -/
theorem met_FaultEndsTheScan :
    (soundState (holding (headOf 4 2) none) = true ∧ soundState (holding (headOf 2 2) (some 0x42#16)) = true ∧
      soundState (holding badHead (some 0x42#16)) = true) ∧
    ((holding badHead none).ims.scan ≠ .off ∧ (holding badHead none).ims.image ≠ .complete ∧
      (holding badHead none).flp.operation.map FlashOperation.deadline = some 100000) ∧
    ((headOf 4 2).valid = true ∧ badHead.valid = false) ∧
    soundState (running { node with pst := { node.pst with loading := true } } .policyRead) = true := by
  repeat' apply And.intro
  all_goals decide +kernel

/-- The last chunk of a COMPLETE image, the last index chunk of an INDEXING one with a data chunk missing and with none, and a
chunk while another is missing; an image without a head. -/
theorem met_VerifiedChunkMovesTheImage :
    (let verifying (i : ImageState) (c : ChunkRef) (index data : List Nat) : State :=
       let u := withBuffer (running (imaged i) (.verify 1)) (filled c .verifying)
       { u with ims := { u.ims with presentIndex := index, presentData := data } }
     (∀ s ∈ [verifying .fetching (.data 1) [0] [0], verifying .indexing (.index 0) [] [0], verifying .indexing (.index 0) [] [0, 1],
         verifying .indexing (.data 1) [] [0], verifying .fetching (.data 1) [0] []],
       good s = true ∧ s.ims.buffers[1]?.isSome = true ∧ s.flp.operation.isSome = true ∧ s.ims.head = some (headOf 3 2)) ∧
     (let u := verifying .empty (.data 1) [] []
      good { u with ims := { u.ims with head := none } } = true)) := by
  decide +kernel

/-- Scan reads that match and that do not; the end of a scan with everything present, a data chunk missing and an index chunk
missing; the scan's order at the last index chunk, before it and behind it. -/
theorem met_ScanEnds :
    (let ends (data : List Nat) : State :=
       let u := scanning (.data 1)
       { u with ims := { u.ims with presentData := data } }
     (∀ s ∈ [ends [0], ends []], good s = true ∧ s.ims.heldHead = none ∧ s.ims.image = .empty ∧
       s.ims.bytesMatch (.data 1) (bytes [1, 2]) = true ∧ s.ims.bytesMatch (.data 1) [] = false)) ∧
    (let u := scanning (.index 0)
     let s : State := { u with ims := { u.ims with presentIndex := [], presentData := [], indexTable := List.replicate 8 none } }
     good s = true ∧ s.ims.bytesMatch (.index 0) [] = false ∧ s.ims.scanNext (headOf 3 2) (.index 0) = none) ∧
    (let h : Head := { headOf 3 1025 with indexCount := 2 }
     (0 : Nat) + 1 < h.indexCount ∧ h.indexCount ≤ 1 + 1 ∧ (imaged .empty).ims.isPresent (.data 0) = true ∧
       (imaged .empty).ims.isPresent (.data 1) = false ∧ (imaged .empty).ims.isPresent (.index 0) = true ∧
       (imaged .empty).ims.isPresent (.index 1) = false) := by
  decide +kernel

/-- A serve read that finds a bad index chunk, with reservations and waiting reads for it and for data chunks that need it. -/
theorem met_MismatchWithdrawsReservations :
    (let r (d : Bool) (c : ChunkRef) : FlashRequest := { kind := .serveRead 0x42#16 c, discard := d }
     let u := running (imaged .complete) (.serveRead 0x42#16 (.index 0))
     let s : State := { u with
       flp := { u.flp with waiting := [r false (.data 0), r true (.data 0)] }
       bcu := { u.bcu with bulkQueue := [.reserved 0x42#16 (.index 0), .reserved 0x42#16 (.data 0)] } }
     good s = true ∧ s.ims.head = some (headOf 3 2) ∧ s.ims.expectedCheck (.index 0) ≠ some (crc32 []) ∧
       s.ims.expectedCheck (.index 0) = some (crc32 (bytes [1, 2])) ∧
       s.bcu.bulkQueue = [] ++ .reserved 0x42#16 (.index 0) :: [.reserved 0x42#16 (.data 0)] ∧
       s.bcu.bulkQueue = [.reserved 0x42#16 (.index 0)] ++ .reserved 0x42#16 (.data 0) :: [] ∧
       BulkPlace.reserved 0x42#16 (.data 1) ∉ s.bcu.bulkQueue) := by
  decide +kernel

/-- A newer head for a node that drains, intends and has installed; the fields of a head at the ends of their ranges. -/
theorem met_NewerHeadEndsADrain :
    (∀ i ∈ [InstallState.draining, .intent, .done, .idle],
      (let s := withInstall (imaged .complete) i
       meets s .head (toNode .head (headBytes (headOf 4 2))) = true ∧ s.ims.scan = .off ∧ s.icu.install ≠ .staged)) ∧
    (∀ n ∈ [1, 1024, 1025, 8192],
      (let h : Head := { headOf 3 n with indexCount := (n + 1023) / 1024, lastLength := 4096 }
       let b := headBytes { h with check := crc32 (headCoveredBytes h) }
       47 ≤ b.length ∧ (parseHead b).valid = true)) := by
  decide +kernel

/-- A patrol cursor in the image, and none; a node without a head. -/
theorem met_PatrolOrder :
    (imaged .complete).ims.head = some (headOf 3 2) ∧ (imaged .complete).ims.patrolCursor = none ∧ node.ims.head = none ∧
    (let u := imaged .complete
     let s : State := { u with ims := { u.ims with patrolCursor := some (.data 1) } }
     s.ims.patrolNext = some (.index 0) ∧ (1 : Nat) < (headOf 3 2).chunkCount) := by
  decide +kernel

/-- The third beacon of an intent with claimant contexts, serving nobody and one client. -/
theorem met_DrainBegins :
    (let s := withClaim (withClaim (willing .intent 2) 3 claim) 0 { claim with client := 0xDEF#48 }
     good s = true ∧ s.icu.install = .intent ∧ s.intentConditions = true ∧ 2 ≤ s.icu.intentCount ∧
       s.hoc.contexts.length = 4 ∧ s.servedCount = 0 ∧ (withRecord s 63 served).servedCount = 1 ∧
       good (withRecord s 63 served) = true) := by
  decide +kernel

/-- HEAD-SUBMIT during the scan with a head held that is older, and one that is not; the bodies of a node with a record. -/
theorem met_HeadSubmitDuringTheScan :
    (∀ h ∈ [headOf 3 2, headOf 4 2],
      (let s := holding (headOf 3 2) none
       asked s .headSubmit (headBytes h) = true ∧ parseHead (headBytes h) = h ∧ h.valid = true ∧
         h.chunkCount ≤ flashCapacity s.cfg ∧ s.ims.scan ≠ .off)) ∧
    (headOf 3 2).newerThan (headOf 3 2) = false ∧ (headOf 4 2).newerThan (headOf 3 2) = true ∧
    node.seu.groups.length = 8 ∧ remote.reports.length ≤ 3 := by
  decide +kernel

/-- Both request slots occupied, with neither and each of them in flight; serve reads that run and wait. -/
theorem met_RestartOfChannelAndServes :
    ∀ c ∈ [none, some AccessClass.game, some .normal],
      (let u := running (imaged .complete) (.serveRead 0x42#16 (.data 0))
       let s : State := { u with
         restartNotices := allBlocks
         flp := { u.flp with waiting := [{ kind := .serveRead 0x42#16 (.index 0), discard := false }] }
         bcu := { u.bcu with
           gameSlot := some 4, normalSlot := some 5, inFlight := c, bulkQueue := [.reserved 0x42#16 (.data 0)] } }
       good s = true ∧ Block.bcu ∈ s.restartNotices ∧ Block.ims ∈ s.restartNotices) := by
  decide +kernel

/-! ## Check values and formats (R167, section 12.6) -/

/-- The check values that CRC-32 and CRC-16 of these parameters give for the nine digits, known for both. -/
theorem test_crc_check_values :
    (let digits := bytes [0x31, 0x32, 0x33, 0x34, 0x35, 0x36, 0x37, 0x38, 0x39]
     crc32 digits = 0xCBF43926 ∧ crc16 digits = 0x29B1) := by
  decide +kernel

theorem test_empty_digest : digestOf (List.replicate 97 emptySlot) = emptyDigest := by decide +kernel

/-- The longest bodies of Table 12.13 to 12.17 that are of fixed length. -/
theorem test_read_bodies_of_a_head_and_a_record :
    (headBytes (headOf 3 2)).length = 47 ∧ (policyRecordBytes 96 emptySlot).length = 18 ∧
      (beaconBytes 0 advertised).length = 22 ∧ grantBody.bytes.length = 19 := by
  decide +kernel

/-- The table gives no row any bits, so no word spells a command. -/
theorem test_no_word_spells_a_command :
    decodeTableWord 16 0 = none ∧ (node.withFetchWord 16 0xFFFF).pending = node.pending := by
  decide +kernel

/-! ## Well-formedness: for each check a term it refuses -/

def badFrame : RxFrame := { src := 1#16, dst := 1#16, body := [], check := 2 ^ 32 }

theorem test_wellformed_refuses :
    WellFormed (.configReadComplete []) = false ∧ WellFormed (.claim 1#16 badFrame) = false ∧
    WellFormed (.sight 3 1#48 0) = false ∧ WellFormed (.disassoc 0 1#48 (.other 4)) = false ∧
    WellFormed (.disassoc 3 1#48 .left) = false ∧ WellFormed (.traffic 0 1#48 (second 65536 0 0 0)) = false ∧
    WellFormed (.traffic 0 1#48 (second 0 65536 0 0)) = false ∧ WellFormed (.traffic 0 1#48 (second 0 0 65536 0)) = false ∧
    WellFormed (.traffic 0 1#48 (second 0 0 0 (2 ^ 32))) = false ∧ WellFormed (.beaconDueExpiry 8) = false ∧
    WellFormed (.claimHoldoffExpiry 64) = false ∧ WellFormed (.claimantContextExpiry 4) = false ∧
    WellFormed (.fetchDeadlineExpiry 4) = false := by
  decide +kernel

theorem test_wellformed_refuses_long_bodies :
    WellFormed (.status (List.replicate 65536 0#8)) = false ∧
    WellFormed (.badFrameReceived 1#16 (List.replicate 65547 0#8)) = false ∧
    WellFormed (.beacon 1#16 { badFrame with body := List.replicate 65536 0#8, check := 0 }) = false := by
  decide +kernel

theorem test_wellformed_takes :
    WellFormed (.sight 2 1#48 0) = true ∧ WellFormed (.disassoc 2 1#48 (.other 5)) = true ∧
    WellFormed (.claim 1#16 { badFrame with check := 2 ^ 32 - 1 }) = true ∧ WellFormed (.status []) = true ∧
    WellFormed (.beaconDueExpiry 7) = true := by
  decide +kernel

/-! ## The spec's worked examples -/

/-- The state after commands in turn. -/
def afterAll (cs : List Instr) (s : State) : State := cs.foldl (fun s c => after c s) s

def defaults : Configuration := { cfg with creditCode := 2 }

/-- A node of the worked sequences: default codes, a mesh time, a peer 0x0042 in slot 0. -/
def worked (time : Nat) : State :=
  withEntry { node with cfg := defaults, mtb := { node.mtb with meshTime := time } } 0
    { peer with dueDeadline := time + 576, badFrames := 0, sinceWindow := 0, listGuard := some (time + 9) }

/-- Section 3.7: node 0x0031 before the beacon that carries T_peer. The deadline that the last beacon of 0x0042 set lies
in the step, and the section lists no miss of 0x0042 among what the step brings. -/
def minuteBoundary : State :=
  let s := withSlot (withEntry (worked 2060900) 0 { peer with badFrames := 0, dueDeadline := 2061476 }) 96
    { content := .clock { seconds := 345540, meshTime := 2000000 }, stamp := { counter := 1, origin := 0x31#16 } }
  let s := withClaim (withEntry s 1 { peer with id := 0x53#16, missCount := 0, dueDeadline := 2061000 }) 0
    { claim with deadline := 2061650 }
  { s with
    mtb := { s.mtb with lastNotified := some 5759 }
    nbt := { s.nbt with buildDeadline := some 2061300 }
    bcu := { s.bcu with credit := 40, refillDeadline := some 2060928 } }

def mergeAt (time : Nat) : State := after (.beacon 0x42#16 (toAll .beacon (beaconBytes time advertised))) minuteBoundary

theorem test_beacon_section_3_7 :
    (mergeAt 2061700).now = 2061701 ∧ (mergeAt 2061700).wallNotices = [some 5760] ∧
    ((mergeAt 2061700).entry 0).map (fun e => (e.link, e.missCount, e.dueDeadline)) = some (.active, 0, 2062277) ∧
    (mergeAt 2062700).now = 2061924 ∧ ((mergeAt 2062700).evq.events.head?.map EventRecord.detail) = some 128 := by
  decide +kernel

/-- Table 3.2: what the step expires, taken within the beacon. -/
theorem test_expiries_table_3_2 :
    (let t := mergeAt 2061700
     (t.entry 1).map (fun e => (e.link, e.missCount, e.dueDeadline)) = some (.failing, 2, 2062024) ∧
       t.bcu.credit = 248 ∧ t.bcu.refillDeadline = some 2061760 ∧ t.claimAt 0 = none ∧
       t.bcu.controlQueue.map TxFrame.kind = [.beacon, .headGet] ∧
       t.evq.events.map (fun e => (e.kind, e.subject, e.detail)) =
         [(.timeStep, 0x42#48, 100), (.peerFailing, 0x53#48, 1), (.handoffFailed, 0xABC#48, 4)]) := by
  decide +kernel

/-- Table 5.4, the limit cases of section 5.7, and the band of Table 5.2 at its ends and just outside. -/
theorem test_smoothing :
    smoothLevel 2 none (-70) = -1120 ∧ smoothLevel 2 (some (-1120)) (-66) = -1104 ∧
    smoothLevel 2 (some (-1104)) (-64) = -1084 ∧ smoothLevel 2 (some (-1232)) (-78) = -1236 ∧
    smoothLevel 2 none (-105) = -1600 ∧ smoothLevel 0 (some (-1120)) (-66) = -1056 ∧
    smoothLevel 1 (some (-1119)) (-70) = -1119 ∧ smoothLevel 2 (some (-1121)) (-70) = -1121 ∧
    smoothLevel 2 (some (-1118)) (-70) = -1118 ∧ smoothLevel 3 (some (-1123)) (-70) = -1123 ∧
    smoothLevel 3 (some (-1116)) (-70) = -1116 ∧ smoothLevel 2 (some (-1117)) (-70) ≠ -1117 ∧
    smoothLevel 3 (some (-1124)) (-70) ≠ -1124 := by
  decide

/-- Section 5.7 at A: the evaluations of 800,256 and 800,384 for a client whose own radios have heard it. -/
def walking : State :=
  let c := { remote with
    localLevel := some (-1084), sightTime := some 800250, epoch := 14
    reports := [{ peer := 0x42#16, level := -1232, served := true, game := true, time := 800200 }] }
  let s := withRecord (withEntry (worked 800384) 0
    { peer with dueDeadline := 900000, adv := { advertised with load := 85 } }) 9 { c with confirm := 1 }
  { s with
    bcu := { s.bcu with airtime := [[{ percent := 70, arrival := 800000 }], [], []] }
    hoc := { s.hoc with seqCounter := 47 }
    rse := { evaluationDeadline := some 800384 } }

theorem test_evaluation_section_5_7 :
    (let t := after .evaluationExpiry walking
     t.claimAt 0 = some { client := 0xABC#48, server := 0x42#16, seq := 48, state := .claiming, deadline := 800640,
                          score := -1124 } ∧
       t.bcu.controlQueue.map (fun f => (f.kind, f.body)) = [(.claim, claimBytes 0xABC#48 48 (-1124))] ∧
       t.rse.evaluationDeadline = some 800512) ∧
    (let busy := { walking with bcu := { walking.bcu with airtime := [[{ percent := 95, arrival := 800000 }], [], []] } }
     let t := after .evaluationExpiry busy
     t.claimAt 0 = none ∧ (t.record 9).map ClientRecord.confirm = some 0) := by
  decide +kernel

/-- Sections 5.7 and 6.8 at B, node 0x0042 seen from its own side: the sample of −78, then the CLAIM. -/
def claimed : State :=
  let c := { served with serving := .served 0, localLevel := some (-1232), gameActive := true, epoch := 14, group := 2 }
  let s := withRecord (worked 800390) 5 c
  after (.claim 0x42#16 (toNode .claim (claimBytes 0xABC#48 48 (-1124))))
    (after (.sight 0 0xABC#48 (-78)) { s with bcu := { s.bcu with airtime := [[{ percent := 85, arrival := 800000 }], [], []] } })

theorem test_claim_section_5_7 :
    (claimed.record 5).bind ClientRecord.localLevel = some (-1236) ∧
    ((claimed.record 5).bind ClientRecord.release).map ReleaseContext.seq = some 48 ∧
    claimed.bcu.controlQueue.map TxFrame.kind = [.grant] ∧
    claimed.sent = [.directive 0 (.control 0xABC#48 (.steer 0x42#16))] := by
  decide +kernel

/-- Section 6.8 at B: CANCEL, then DISASSOC with cause STEERED; and the variant in which the departure comes first. -/
theorem test_cancel_and_departure_section_6_8 :
    (let cancel : Instr := .cancel 0x42#16 (toNode .cancel (cancelBytes 0xABC#48 48))
     let leave : Instr := .disassoc 0 0xABC#48 .steered
     let t := afterAll [cancel, leave] claimed
     let u := afterAll [leave, cancel] claimed
     (t.record 5).map (fun r => (r.serving, r.release)) = some (.unseen, none) ∧
       t.evq.events.map (fun e => (e.kind, e.detail)) = [(.handoffFailed, 7), (.clientLeft, 2)] ∧
       (u.record 5).map (fun r => (r.serving, r.remoteDeadline)) = some (.remote 0x42#16, some 808582) ∧
       u.evq.events.map (fun e => (e.kind, e.detail)) = [(.clientTaken, 2)]) := by
  decide +kernel

/-- Section 6.8 at A: the late GRANT meets no context and is answered CANCEL; the ASSOC takes epoch 15. -/
theorem test_late_grant_section_6_8 :
    (let s := withRecord (worked 800700) 9 { remote with epoch := 14, localLevel := some (-1084) }
     let g := { grantBody with seq := 48, epoch := 14, group := 2, clsCode := 0, evidence := 11 }
     let t := afterAll [.grant 0x42#16 (grantFrame g), .admitQuery 1 0xABC#48, .assoc 1 0xABC#48] s
     t.bcu.controlQueue.map TxFrame.kind = [.cancel, .served] ∧ t.sent = [.admitAnswer 1 0xABC#48 true] ∧
       (t.record 9).map (fun r => (r.serving, r.epoch, r.evidence, r.admitPending)) =
         some (.served 1, 15, 7, none)) := by
  decide +kernel

/-- Section 7.6: B's stamps against A's list, and A's merge of B's two records. -/
def slotOf (content : SlotContent) (counter : Nat) (origin : NodeId) : Slot :=
  { content := content, stamp := { counter := counter, origin := origin } }

def blockWindow : WindowRecord :=
  { action := .block, groups := 2#8, days := 0x1F#7, startMinute := 1290, stopMinute := 390, cap := 0 }

def storeA : State := withSlot (withSlot (worked 900335) 5
  (slotOf (.window { blockWindow with action := .limit, startMinute := 1320, cap := 4 }) 7 0x31#16)) 40
  (slotOf (.device { addr := 0xABC#48, group := 1, cls := .auto, pauseUntil := 0 }) 2 0x31#16)

def storeB : State := withSlot (withSlot (worked 900310) 5 (slotOf (.window blockWindow) 7 0x42#16)) 40
  (slotOf .tombstone 3 0x42#16)

def mergeFrame : RxFrame :=
  toNode .policyRecord (be 1 2 ++ policyRecordBytes 5 (storeB.slot 5) ++ policyRecordBytes 40 (storeB.slot 40))

theorem test_gossip_section_7_6 :
    (let t := after (.policyList 0x42#16 (toNode .policyList (stampListBytes storeA.pst.slots))) storeB
     t.bcu.controlQueue.map (fun f => (f.kind, f.body)) = [(.policyRecord, mergeFrame.body)]) ∧
    (let t := after (.policyRecord 0x42#16 mergeFrame) storeA
     t.slot 5 = storeB.slot 5 ∧ t.slot 40 = storeB.slot 40 ∧ t.pst.digest = storeB.pst.digest ∧
       t.pst.persist = .scheduled 901359 ∧ t.evq.events.map (fun e => (e.subject, e.detail)) = [(5#48, 2), (40#48, 2)]) := by
  decide +kernel

/-- Table 8.1, from Thursday 21:29 to Monday 03:00. -/
theorem test_window_table_8_1 :
    [3 * 1440 + 1289, 3 * 1440 + 1290, 4 * 1440, 4 * 1440 + 389, 4 * 1440 + 390, 5 * 1440 + 180, 5 * 1440 + 1290, 180].map
      blockWindow.covers = [false, true, true, true, false, true, false, false] := by
  decide

/-- Table 9.4: seven seconds of evidence. -/
theorem test_traffic_table_9_4 :
    (let c := { served with serving := .served 0, evidence := 4 }
     let n (a b d e f : Nat) : Instr :=
       .traffic 0 0xABC#48 { packetsUp := a, packetsDown := b, smallUp := d, smallDown := e, bytes := f }
     let t := afterAll [n 62 64 58 60 41200, n 60 61 57 59 39800, n 70 310 55 48 410000, n 61 63 59 61 40100,
       n 59 62 56 60 38900, n 31 35 20 29 12400, n 63 60 60 57 42000] (withRecord (worked 1206144) 14 c)
     (t.record 14).map (fun r => (r.evidence, r.gameActive, r.directed)) = some (8, true, .game) ∧
       t.gtm.servedGame = 1 ∧ t.yieldNoticesBcu = [true] ∧ t.yieldNoticesIms = [true] ∧
       t.sent = [.directive 0 (.priority 0xABC#48 .game), .mirror 0xABC#48 .game]) := by
  decide +kernel

/-- Section 1.9, steps 9 to 12, where no count is drawn: CONTROL at 5 of 7 and GAME at 2 of 3 behind their deferrals. -/
theorem test_contention_table_1_6 :
    (let s : State := { node with
       bcu := { node.bcu with
         medium := .idle, gameSlot := some 7, credit := 2
         controlQueue := [buildFrame .sightings 0x31#16 0xFFFF#16 []]
         controlState := { window := 7, retry := 1, deferral := 0, backoff := some 5 }
         gameState := { window := 3, retry := 0, deferral := 1, backoff := some 2 } } }
     let t := afterAll [.idleSlot, .idleSlot, .idleSlot] s
     t.bcu.controlState = { window := 7, retry := 1, deferral := 2, backoff := some 2 } ∧
       t.bcu.gameState = { window := 3, retry := 0, deferral := 3, backoff := none } ∧ t.bcu.credit = 1 ∧
       t.sent = [.burstGo 7] ∧ (after .sentClean t).bcu.gameSlot = none) := by
  decide +kernel

/-- R18: GAME without credit is demoted while NORMAL transmits on the same slot, and draws once; CONTROL keeps its count. -/
theorem test_demotion_beside_a_transmission :
    (let t := after .idleSlot (crowdedSlot (counting 0 (some 5)) (counting 9 none))
     t.bcu.inFlight = some .normal ∧ t.bcu.demoted = true ∧ t.bcu.gameState.window = 15 ∧ t.bcu.gameState.deferral = 5 ∧
       t.draws = contended.draws + 1 ∧ t.bcu.controlState = { counting 0 (some 4) with deferral := 2 } ∧
       t.bcu.bulkState.deferral = 9) := by
  decide +kernel

/-- Section 10.12 at 2,000,000 and 2,000,145: chunk 1 is asked of the peer with the lower load; with both buffers held a
chunk is lost and asked for again. -/
theorem test_fetch_section_10_12 :
    (let s := withEntry { imaged .fetching with yieldNoticesIms := [false] } 0
       { peer with id := 0x53#16, fetchFails := 3, adv := { advertised with load := 20 } }
     let s : State := { s with ims := { s.ims with yielding := true } }
     let t := after .yieldEndIms s
     t.ims.fetches = [some { chunk := .data 1, peer := 0x53#16, deadline := .running 104096 }, none, none, none] ∧
       t.bcu.controlQueue.map TxFrame.dst = [0x53#16]) ∧
    (let s : State := { fetching with ims := { fetching.ims with
       buffers := [filled (.data 0) .verifying, filled (.index 0) .verifying] } }
     let t := after (.chunk 0x42#16 chunkFrame) s
     t.ims.lostChunks = 1 ∧ (slotAt t.ims.fetches 0).map FetchSlot.chunk = some (.data 1) ∧
       slotAt t.ims.fetches 3 = none) := by
  decide +kernel

/-! ## Commands whose worked values are read from a rule alone -/

/-- From a full reset: the configuration read, the policy load and the recovery scan of erased flash (R161). -/
theorem test_start_from_reset :
    (let t := afterAll [.flashOperationBegin, .configReadComplete (block 0x31 [2, 2, 1, 2, 1, 1, 2, 1, 0, 0]),
       .flashOperationBegin, .policyImageReadComplete (List.replicate 4096 0xFF#8), .flashOperationBegin,
       .headBlockReadComplete (List.replicate 4096 0xFF#8)] State.reset
     t.run = .running ∧ t.ims.image = .empty ∧ t.ims.scan = .off ∧ t.pst.persist = .scheduled 1024 ∧
       t.frc.first.map FaultRecord.kind = some .policyImageBad ∧ t.bcu.credit = 256 ∧
       t.sent = [.flashRead 0, .mediumQuery, .flashRead 1, .flashRead 2]) := by
  decide +kernel

/-- The drain deadline disconnects a client that stays and stages the image (R154). -/
theorem test_drain_deadline :
    (let t := after .drainDeadlineExpiry (withRecord (willing .draining 3) 63 served)
     t.icu.install = .staged ∧ t.lines.imageReady = true ∧ t.sent = [.directive 1 (.control 0xABC#48 .disconnect)] ∧
       t.ownLoad = 100) := by
  decide +kernel

/-- RESTART and the ICU's notice: DRAIN-ABORT (RESTART) after RESTARTED (R158, R162). -/
theorem test_restart_aborts_a_drain :
    (let t := afterAll [.restart [], .restartNotice .icu, .restartNotice .icu] (willing .draining 3)
     t.icu.install = .idle ∧ t.evq.events.map (fun e => (e.kind, e.detail)) = [(.restarted, 0), (.drainAbort, 5)] ∧
       t.restartNotices.length = 15) := by
  decide +kernel

end Sys2Proof.Tests
end

section
/-! SUPPORT. The two deadlines of a handoff: what an expired claimant context (R86) and an expired release context (R89)
leave, and that neither gives the RLI anything to send. -/

namespace Sys2Proof.Machine

open Sys2Proof

/-! ## Expiries that give the RLI nothing to send -/

/-- Radios stay settled while no directive is sent and no record joins an empty waiting list. -/
theorem State.RadiosSettled.of_waiting {s t : State} (h : s.RadiosSettled) (inFlight : t.rli.inFlight = s.rli.inFlight)
    (waiting : ∀ q, forRadio s.rli.waiting q = [] → forRadio t.rli.waiting q = []) : t.RadiosSettled :=
  fun q hq => (h q hq).imp (fun full => inFlight ▸ full) (waiting q)

theorem State.expire_due {s : State} {x : Expiry} (due : x.deadline ≤ s.now) (h : x.taken.RadiosSettled) :
    s.expire (some x) = .next x.taken.driveLines := by
  simp only [State.expire, if_pos due, done, x.taken.finish_of_radios h]

/-! ## Claimant contexts -/

/-- Claimant context `k` freed and its client's record, number `i`, held off for 1024 ticks (R86). -/
def State.claimFreed (s : State) (k i : Nat) : State :=
  (s.freeClaim k).modRecord i fun r => { r with claimHoldoff := some (s.now + 1024) }

theorem State.claimExpired_of_claiming {s : State} {k i : Nat} {c : ClaimContext} (hi : s.findRecord c.client = some i)
    (hc : c.state = .claiming) :
    s.claimExpired k c = (s.claimFreed k i).queueEvent .handoffFailed c.client Detail.claimTimeout := by
  have found : (s.freeClaim k).findRecord c.client = some i := hi
  simp only [State.claimExpired, found, hc]
  rfl

theorem State.claimExpired_of_admitting {s : State} {k i : Nat} {c : ClaimContext}
    (hi : s.findRecord c.client = some i) (hc : c.state = .admitting) :
    s.claimExpired k c = ((s.claimFreed k i).sendFrame .cancel c.server
      (cancelBytes c.client c.seq)).queueEvent .handoffFailed c.client Detail.admitTimeout := by
  have found : (s.freeClaim k).findRecord c.client = some i := hi
  simp only [State.claimExpired, found, hc]
  rfl

theorem State.sendFrame_of_running {s : State} (hrun : s.run = .running) (kind : FrameKind) (dst : NodeId)
    (body : List Byte) :
    s.sendFrame kind dst body = s.modBcu (·.placeControl (buildFrame kind s.ownId dst body)) := if_pos hrun

theorem exec_claimantContextExpiry_due {s : State} {k : Nat} {c : ClaimContext} (hs : s.Settled)
    (hk : s.claimAt k = some c) (due : c.deadline ≤ s.now) :
    exec (.claimantContextExpiry k) s = .next (s.claimExpired k c).driveLines := by
  have radios : (s.claimExpired k c).RadiosSettled := by
    have rli : (s.claimExpired k c).rli = s.rli := (s.claimExpired_moves k c).rli
    exact hs.radios.of_waiting (by rw [rli]) fun q hq => by rw [rli, hq]
  calc exec (.claimantContextExpiry k) s = s.expire (s.claimExpiry k) := rfl
    _ = s.expire (some { deadline := c.deadline, taken := s.claimExpired k c }) := by simp only [State.claimExpiry, hk]
    _ = .next (s.claimExpired k c).driveLines := State.expire_due due radios

/-! ## Release contexts -/

/-- A record with its release context cleared, and that context's own STEER discarded if it is still pending (R89). -/
def ClientRecord.released (r : ClientRecord) (c : ReleaseContext) : ClientRecord :=
  { r with
    release := none
    pendingControl := if r.pendingControl = some (.steer c.claimant) then none else r.pendingControl }

theorem State.modRecord_congr {s : State} {i : Nat} {r : ClientRecord} {f g : ClientRecord → ClientRecord}
    (hr : s.record i = some r) (h : f r = g r) : s.modRecord i f = s.modRecord i g := by
  have slots : updateSlot s.crg.records i f = updateSlot s.crg.records i g := by
    refine List.ext_getElem? fun j => ?_
    simp only [updateSlot, List.getElem?_modify]
    split
    · next hij => subst hij; simp [slotAt_eq_some.mp hr, h]
    · rfl
  simp only [State.modRecord, State.modCrg, slots]

theorem State.modRecord_modRecord (s : State) (i : Nat) (f g : ClientRecord → ClientRecord) :
    (s.modRecord i f).modRecord i g = s.modRecord i (g ∘ f) := by
  have slots : updateSlot (updateSlot s.crg.records i f) i g = updateSlot s.crg.records i (g ∘ f) := by
    simp only [updateSlot, List.modify_modify_eq, ← Option.map_comp_map]
  simp only [State.modRecord, State.modCrg, slots]

/-- Withdrawing a directive changes its record and, at most, takes it out of the waiting lists. -/
theorem State.withdraw_eq {s : State} {i : Nat} {r : ClientRecord} (hr : s.record i = some r)
    (drop : ClientRecord → ClientRecord) :
    s.withdraw i drop = s.modRecord i drop ∨ s.withdraw i drop = (s.modRecord i drop).leaveWaiting i := by
  simp only [State.withdraw, hr]
  split
  · exact .inl rfl
  · exact .inr rfl

/-- Closing a release context changes its record and, at most, takes it out of the waiting lists. -/
theorem State.closeRelease_eq {s : State} {i : Nat} {r : ClientRecord} (hr : s.record i = some r)
    (c : ReleaseContext) :
    s.closeRelease i c = s.modRecord i (·.released c) ∨
      s.closeRelease i c = (s.modRecord i (·.released c)).leaveWaiting i := by
  have cleared : (s.modRecord i fun r => { r with release := none }).record i = some { r with release := none } := by
    rw [State.modRecord_record, if_pos rfl, hr]; rfl
  simp only [State.closeRelease, State.discardSteer, cleared]
  split
  · next steer =>
    have both : (s.modRecord i fun r => { r with release := none }).modRecord i
        (fun r => { r with pendingControl := none }) = s.modRecord i (·.released c) := by
      rw [State.modRecord_modRecord]
      exact State.modRecord_congr hr (by simp only [Function.comp, ClientRecord.released, if_pos steer])
    rw [← both]
    exact State.withdraw_eq cleared _
  · next other =>
    exact .inl (State.modRecord_congr hr (by simp only [ClientRecord.released, if_neg other]))

/-- The same with the waiting lists left to say: none that was empty gains a record. -/
theorem State.closeRelease_frame {s : State} {i : Nat} {r : ClientRecord} (hr : s.record i = some r)
    (c : ReleaseContext) :
    ∃ waiting, s.closeRelease i c =
        { s.modRecord i (·.released c) with rli := { s.rli with waiting := waiting } } ∧
      ∀ q, forRadio s.rli.waiting q = [] → forRadio waiting q = [] := by
  rcases State.closeRelease_eq hr c with h | h
  · exact ⟨s.rli.waiting, h, fun _ hq => hq⟩
  · refine ⟨_, h, fun q hq => ?_⟩
    have left := State.leaveWaiting_waiting (s.modRecord i (·.released c)) i q
    rwa [State.modRecord_rli, hq, List.filter_nil] at left

theorem exec_releaseDeadlineExpiry_due {s : State} {i : Nat} {r : ClientRecord} {c : ReleaseContext} (hs : s.Settled)
    (hr : s.record i = some r) (hc : r.release = some c) (due : c.deadline ≤ s.now) :
    exec (.releaseDeadlineExpiry i) s =
      .next ((s.closeRelease i c).queueEvent .handoffFailed r.addr Detail.steerIgnored).driveLines := by
  have radios : ((s.closeRelease i c).handoffFailed r.addr Detail.steerIgnored).RadiosSettled := by
    obtain ⟨waiting, frame, empty⟩ := State.closeRelease_frame hr c
    rw [frame]
    exact hs.radios.of_waiting rfl empty
  calc exec (.releaseDeadlineExpiry i) s = s.expire (s.releaseExpiry i) := rfl
    _ = s.expire (some
          { deadline := c.deadline, taken := (s.closeRelease i c).handoffFailed r.addr Detail.steerIgnored }) := by
      simp only [State.releaseExpiry, hr, hc]
    _ = .next ((s.closeRelease i c).handoffFailed r.addr Detail.steerIgnored).driveLines := State.expire_due due radios

end Sys2Proof.Machine

namespace Sys2Proof.Proofs

open Sys2Proof Sys2Proof.Machine

/-- Settles O34: each deadline's command takes what its context leaves, which gives the RLI nothing to send. -/
theorem handoffDeadlinesExpire : Obligations.HandoffDeadlinesExpire := by
  refine ⟨fun s k i c hs hrun hk due hi => ⟨fun claiming => ?_, fun admitting => ?_⟩,
    fun s i q r c hs hr _ hc due => ?_⟩
  · rw [exec_claimantContextExpiry_due hs hk due, State.claimExpired_of_claiming hi claiming]
    rfl
  · have running : (s.claimFreed k i).run = .running := hrun
    rw [exec_claimantContextExpiry_due hs hk due, State.claimExpired_of_admitting hi admitting,
      State.sendFrame_of_running running]
    rfl
  · refine ⟨_, exec_releaseDeadlineExpiry_due hs hr hc due, ?_⟩
    obtain ⟨waiting, frame, -⟩ := State.closeRelease_frame hr c
    rw [frame]
    have records (j : Nat) : (s.modRecord i (·.released c)).record j =
        if i = j then (s.record j).map (·.released c) else s.record j := s.modRecord_record i j _
    refine ⟨?_, rfl, fun j hj => ?_, rfl⟩
    · exact (records i).trans (by rw [if_pos rfl, hr]; rfl)
    · exact (records j).trans (if_neg (Ne.symm hj))

end Sys2Proof.Proofs
end

section
/-! SUPPORT. Which minutes a window covers (R113), and the state that the windows held give a group (R114). -/

namespace Sys2Proof.Machine

open Sys2Proof

/-! ## Window coverage (R113) -/

/-- The day before a day of the week; before Monday stands Sunday. -/
def dayBefore (day : Nat) : Nat := if day = 0 then 6 else day - 1

theorem add_six_mod_seven {day : Nat} (hday : day < 7) : (day + 6) % 7 = dayBefore day := by
  unfold dayBefore
  split <;> omega

theorem WindowRecord.covers_within_day {w : WindowRecord} (h : w.startMinute < w.stopMinute) (day : Nat) {t : Nat}
    (ht : t < 1440) :
    w.covers (1440 * day + t) = true ↔
      w.days.getLsbD day = true ∧ w.startMinute ≤ t ∧ t < w.stopMinute := by
  have hdiv : (1440 * day + t) / 1440 = day := by omega
  have hminute : (1440 * day + t) % 1440 = t := by omega
  simp [WindowRecord.covers, hdiv, hminute, h]

theorem WindowRecord.covers_over_midnight {w : WindowRecord} (h : w.stopMinute < w.startMinute) {day t : Nat}
    (hday : day < 7) (ht : t < 1440) :
    w.covers (1440 * day + t) = true ↔
      (w.days.getLsbD day = true ∧ w.startMinute ≤ t) ∨
        (w.days.getLsbD (dayBefore day) = true ∧ t < w.stopMinute) := by
  have hdiv : (1440 * day + t) / 1440 = day := by omega
  have hminute : (1440 * day + t) % 1440 = t := by omega
  simp [WindowRecord.covers, hdiv, hminute, not_lt_of_gt h, add_six_mod_seven hday]

/-! ## The windows that bear on a group (R114) -/

theorem mem_windowsOf {slots : List Slot} {w : WindowRecord} :
    w ∈ windowsOf slots ↔ ∃ x ∈ slots, x.content = .window w := by
  rw [windowsOf, List.mem_filterMap]
  refine exists_congr fun x => and_congr_right fun _ => ?_
  cases x.content <;> simp

/-- The windows held that cover wall minute `m` and have group `g` in their mask. -/
def windowsFor (slots : List Slot) (m g : Nat) : List WindowRecord :=
  (windowsOf slots).filter fun w => w.covers (m % 10080) && w.groups.getLsbD g

theorem mem_windowsFor {slots : List Slot} {m g : Nat} {w : WindowRecord} :
    w ∈ windowsFor slots m g ↔
      (∃ x ∈ slots, x.content = .window w) ∧ w.covers (m % 10080) = true ∧ w.groups.getLsbD g = true := by
  simp [windowsFor, mem_windowsOf]

/-- The LIMIT windows among them. -/
def limitsFor (slots : List Slot) (m g : Nat) : List WindowRecord :=
  (windowsFor slots m g).filter fun w => w.action = .limit

theorem mem_limitsFor {slots : List Slot} {m g : Nat} {w : WindowRecord} :
    w ∈ limitsFor slots m g ↔ w ∈ windowsFor slots m g ∧ w.action = .limit := by
  simp [limitsFor]

theorem smallestCap_eq_none {ws : List WindowRecord} : smallestCap ws = none ↔ ws = [] := by
  simp [smallestCap]

theorem smallestCap_eq_some {ws : List WindowRecord} {c : Nat} :
    smallestCap ws = some c ↔ (∃ w ∈ ws, w.cap = c) ∧ ∀ w ∈ ws, c ≤ w.cap := by
  simp [smallestCap, List.min?_eq_some_iff]

/-! ## The state of a group (R114) -/

/-- A BLOCK window decides the state; where none applies, the LIMIT windows' smallest cap does, if they have one. -/
theorem groupStateAt_some (slots : List Slot) (m g : Nat) :
    groupStateAt slots (some m) g =
      if ∃ w ∈ windowsFor slots m g, w.action = .block then .blocked
      else ((smallestCap (limitsFor slots m g)).map GroupState.capped).getD .open := by
  simp only [groupStateAt, limitsFor, windowsFor, List.any_eq_true, decide_eq_true_eq]
  congr 1
  split <;> simp only [*, Option.map_some, Option.map_none, Option.getD_some, Option.getD_none]

theorem groupStateAt_eq_blocked {slots : List Slot} {m g : Nat} :
    groupStateAt slots (some m) g = .blocked ↔ ∃ w ∈ windowsFor slots m g, w.action = .block := by
  rw [groupStateAt_some]
  split
  · next blocks => exact iff_of_true rfl blocks
  · next free => cases smallestCap (limitsFor slots m g) <;> exact iff_of_false nofun free

theorem groupStateAt_eq_capped {slots : List Slot} {m g c : Nat} :
    groupStateAt slots (some m) g = .capped c ↔
      (¬ ∃ w ∈ windowsFor slots m g, w.action = .block) ∧ smallestCap (limitsFor slots m g) = some c := by
  rw [groupStateAt_some]
  split
  · next blocks => exact iff_of_false nofun fun h => h.1 blocks
  · next free => cases smallestCap (limitsFor slots m g) <;> simp [free]

/-- No BLOCK and no LIMIT window applies exactly where every window that applies is an INSTALL window. -/
theorem only_install_iff {slots : List Slot} {m g : Nat} :
    ((¬ ∃ w ∈ windowsFor slots m g, w.action = .block) ∧ limitsFor slots m g = []) ↔
      ∀ w ∈ windowsFor slots m g, w.action = .install := by
  simp only [List.eq_nil_iff_forall_not_mem, mem_limitsFor, not_exists, not_and, ← forall_and]
  refine forall_congr' fun w => forall_congr' fun _ => ?_
  cases w.action <;> simp

theorem groupStateAt_eq_open {slots : List Slot} {m g : Nat} :
    groupStateAt slots (some m) g = .open ↔ ∀ w ∈ windowsFor slots m g, w.action = .install := by
  rw [← only_install_iff, ← smallestCap_eq_none, groupStateAt_some]
  split
  · next blocks => exact iff_of_false nofun fun h => h.1 blocks
  · next free => cases smallestCap (limitsFor slots m g) <;> simp [free]

end Sys2Proof.Machine

namespace Sys2Proof.Proofs

open Sys2Proof Sys2Proof.Machine

/-- Settles O41: coverage by the case of the window's ends, group states by whether a BLOCK window applies and, where
none does, by the smallest cap of the LIMIT windows. -/
theorem windowsGiveGroupStates : Obligations.WindowsGiveGroupStates := by
  refine ⟨fun w day t hday ht => ⟨fun h => ?_, fun h => ?_⟩, fun slots m g => ⟨rfl, ?_, fun c => ?_, ?_⟩⟩
  · exact WindowRecord.covers_within_day h day ht
  · exact WindowRecord.covers_over_midnight h hday ht
  · simp only [groupStateAt_eq_blocked, mem_windowsFor]
  · simp only [groupStateAt_eq_capped, smallestCap_eq_some, mem_limitsFor, mem_windowsFor, not_exists, not_and,
      and_assoc, and_imp, ne_eq]
  · simp only [groupStateAt_eq_open, mem_windowsFor]

end Sys2Proof.Proofs
end

section
/-! SUPPORT. The game-like test of a second (R124), with the thresholds of Table 9.2 put in for a game threshold code. -/

namespace Sys2Proof.Machine

open Sys2Proof

theorem gameLike_iff {cfg : Configuration} {t : TrafficCounts} :
    gameLike cfg t = true ↔
      gamePacketMin cfg ≤ t.smallUp ∧ gamePacketMin cfg ≤ t.smallDown ∧ t.bytes ≤ gameByteMax cfg :=
  decide_eq_true_iff

/-- Both columns of Table 9.2 are multiples of their first row, one more for each code. -/
theorem gameLike_iff_of_gameCode {cfg : Configuration} {t : TrafficCounts} {code : Nat} (hcode : cfg.gameCode = code) :
    gameLike cfg t = true ↔
      10 * (code + 1) ≤ t.smallUp ∧ 10 * (code + 1) ≤ t.smallDown ∧ t.bytes ≤ 125000 * (code + 1) := by
  rw [gameLike_iff, gamePacketMin, gameByteMax, hcode]

end Sys2Proof.Machine

namespace Sys2Proof.Proofs

open Sys2Proof Sys2Proof.Machine

/-- Settles O43: each row of Table 9.2 is the test with that row's code put in. -/
theorem gameLikeSecond : Obligations.GameLikeSecond := fun _ _ =>
  ⟨gameLike_iff_of_gameCode, gameLike_iff_of_gameCode, gameLike_iff_of_gameCode, gameLike_iff_of_gameCode⟩

end Sys2Proof.Proofs
end
